-- ==== Sys2Proof/Word.lean ====
section
/-! DEFINITION. The number types of the VZ-416 hub and its fixed-size tables: ports, slots, channels,
trigger lines, the sizes of the buffer memory, and a table of `n` entries that is read and written by index. -/

namespace Sys2Proof

/-- One byte, as it crosses a host link or stands in buffer memory (chapter 11). -/
abbrev Byte := BitVec 8

/-- A port and its link, 0 to 3 (R150). -/
abbrev Port := Fin 4

/-- A slot of the region table, 0 to 63 (R4). -/
abbrev Slot := Fin 64

/-- A transfer channel, C0 to C15 (R56). -/
abbrev Chan := Fin 16

/-- A trigger line, TRG0 to TRG7 (R79). -/
abbrev Line := Fin 8

/-- A priority class, 0 (highest) to 3 (R66). -/
abbrev PriorityClass := Fin 4

/-- The buffer memory holds bytes 0 to 262,143 (R1). -/
def memoryBytes : Nat := 262144

/-- A granule is 64 bytes (chapter 1.2). -/
def granuleBytes : Nat := 64

/-- The memory holds granules 0 to 4,095 (chapter 1.2). -/
def granuleCount : Nat := 4096

/-- The entry of a table at an index. -/
def look {α : Type} {n : Nat} (t : Vector α n) (i : Fin n) : α := t.get i

/-- A table with one entry replaced. -/
def put {α : Type} {n : Nat} (t : Vector α n) (i : Fin n) (x : α) : Vector α n := t.set i x

/-- The table whose entry at each index is given by a function of the index. -/
def tabulate {α : Type} {n : Nat} (f : Fin n → α) : Vector α n := Vector.ofFn f

@[simp] theorem look_put {α : Type} {n : Nat} (t : Vector α n) (i j : Fin n) (x : α) :
    look (put t i x) j = if i = j then x else look t j := by
  simp only [look, put, Vector.get_eq_getElem, Vector.getElem_set, Fin.ext_iff]

@[simp] theorem look_tabulate {α : Type} {n : Nat} (f : Fin n → α) (i : Fin n) :
    look (tabulate f) i = f i := by
  simp [look, tabulate, Vector.get_eq_getElem]

theorem look_put_same {α : Type} {n : Nat} (t : Vector α n) (i : Fin n) (x : α) :
    look (put t i x) i = x := by simp

theorem look_put_ne {α : Type} {n : Nat} (t : Vector α n) {i j : Fin n} (x : α) (h : i ≠ j) :
    look (put t i x) j = look t j := by simp [h]

@[simp] theorem look_replicate {α : Type} {n : Nat} (x : α) (i : Fin n) :
    look (Vector.replicate n x) i = x := by
  simp [look, Vector.get_eq_getElem]

/-- Two tables with the same entries are the same table. -/
theorem table_ext {α : Type} {n : Nat} {t u : Vector α n} (h : ∀ i, look t i = look u i) : t = u := by
  ext i hi
  simpa [look, Vector.get_eq_getElem] using h ⟨i, hi⟩

@[simp] theorem put_look {α : Type} {n : Nat} (t : Vector α n) (i : Fin n) : put t i (look t i) = t :=
  table_ext fun j => by by_cases h : i = j <;> simp [h]

end Sys2Proof
end

