-- ==== Sys2Proof/Syntax.lean ====
section
/-! DEFINITION. The steps of the hub: one constructor of `Instr` for each row of spec/opcode_table.json, and the operand
types they carry. A row that takes a host's command names the port whose command queue is served: the command's own
arguments travel in the queued record, as COMMAND_WRITE brought them (R156, R158). -/

namespace Sys2Proof

/-- A sampled line level. -/
inductive Level where
  | low
  | high
deriving DecidableEq, Repr

/-- One part of a link frame (R151). A frame is `select`, `code`, any number of `bytes`, `deselect`; between two parts other
steps may come, as R144, R156 and R166 describe. `whole` is a frame with nothing in between, and `opening` is a frame whose
select line is still held low afterwards. -/
inductive FramePart where
  /-- SELk falls: the status summary is captured. -/
  | select
  /-- The code byte is complete: the link answer is decided. -/
  | code
  /-- Whole bytes clocked in after the code byte. -/
  | bytes (bs : List Byte)
  /-- SELk rises. -/
  | deselect
  /-- The parts select, code and bytes. -/
  | opening (bs : List Byte)
  /-- The parts select, code, bytes and deselect. -/
  | whole (bs : List Byte)
deriving DecidableEq, Repr

/-- One part of an engine unit (R99): its read access, its write access with the end report, or both with no other access
in between. -/
inductive UnitPart where
  | read
  | write
  | both
deriving DecidableEq, Repr

/-- The levels found at the release of RESET: the QSEL strap (R26), TRG0 to TRG7 (R81), HALTk (R129) and CLRk (R137). -/
structure ReleaseLevels where
  qsel : Level
  trg : Vector Level 8
  halt : Vector Level 4
  clr : Vector Level 4
deriving DecidableEq, Repr

/-- The rows of the table of operations and events, each a step of the hub. Where a rule leaves an order open inside one
step, the operand `order` supplies it. -/
inductive Instr where
  -- takings of a queued command of port `p`
  | openSession (p : Port)
  | closeSession (p : Port) (order : List Slot)
  | setNotify (p : Port)
  | allocate (p : Port)
  | free (p : Port)
  | pin (p : Port)
  | unpin (p : Port)
  | label (p : Port)
  | find (p : Port)
  | queryRegion (p : Port)
  | querySpace (p : Port)
  | grant (p : Port)
  | renounce (p : Port)
  | offer (p : Port)
  | withdraw (p : Port)
  | accept (p : Port)
  | decline (p : Port)
  | lease (p : Port)
  | release (p : Port)
  | program (p : Port)
  | arm (p : Port)
  | disarm (p : Port)
  | suspend (p : Port)
  | resume (p : Port)
  | trigger (p : Port)
  | queryChannel (p : Port)
  | listChannels (p : Port)
  | badOpcode (p : Port)
  -- link transactions of port `p`
  | statusRead (p : Port) (part : FramePart)
  | commandWrite (p : Port) (part : FramePart)
  | resultRead (p : Port) (part : FramePart)
  | eventRead (p : Port) (part : FramePart)
  | windowRead (p : Port) (part : FramePart)
  | windowWrite (p : Port) (part : FramePart)
  | unknownCodeFrame (p : Port) (code : Byte) (part : FramePart)
  -- the window check and the access it admits
  | windowCheck (p : Port)
  | windowAccess (p : Port)
  -- takings of the oldest waiting notice
  | referenceRelease
  | leaseEnd
  | scrubDone
  | offerExpiry
  | clearNotice (order : List Slot)
  -- timers, lines and the claims they send
  | msTick
  | offerTimerExpiry (slot : Slot)
  | clrFall (p : Port)
  | clrRise (p : Port)
  | haltFall (p : Port)
  | haltRise (p : Port)
  | haltClaim (p : Port) (order : List Chan)
  | triggerLevelChange (line : Line)
  | edgeClaim (line : Line) (order : List Chan)
  -- orders of the table controller at the channel controller
  | discardOrder (c : Chan)
  | teardownOrder (c : Chan)
  -- the transfer engine
  | unitStart
  | unitTransfer (part : UnitPart)
  | unitEndReport
  -- the scrub unit and the memory
  | scrubRunStart
  | scrubRunEnd
  | memoryFault (addr : BitVec 18) (value : Byte)
  -- device reset
  | resetAssert
  | resetRelease (levels : ReleaseLevels)
  | startupClearEnd
deriving DecidableEq, Repr

end Sys2Proof
end

