-- ==== Sys2Proof/Decode.lean ====
section
/-! DEFINITION. The decoder over the rows of spec/opcode_table.json that give bits. No row of this table gives any: the
steps of the hub are not words. The byte formats of chapter 11 are in Machine/Operands.lean. -/

namespace Sys2Proof

/-- The step a word spells by the table's bits. The table gives no row any bits, so a word of any length spells none. -/
def decodeTableWord (_nbits _w : Nat) : Option Instr := none

end Sys2Proof
end

