-- ==== Sys2Proof/Config.lean ====
section
/-! DEFINITION. What one VZ-416 hub fixes and what the manual leaves free: the revision code, the quota limits, the
queue capacities, and the values that the manual calls not defined. -/

namespace Sys2Proof.Config

/-- The hub revision code in the result of OPEN (R136). -/
def revision : Byte := 1

/-- Granules one port may own under SPLIT (R26). -/
def splitGranules : Nat := 1024

/-- Regions one port may own under SPLIT (R26). -/
def splitRegions : Nat := 16

/-- Channels one port may lease under SPLIT (R26). -/
def splitChannels : Nat := 4

/-- Records a command queue holds (R150). -/
def commandRoom : Nat := 4

/-- Records a result queue holds (R150). -/
def resultRoom : Nat := 8

/-- Free value: what a byte of buffer memory holds, by the count of RESET assertions and its address, from the assertion
of RESET until the start-up clear has written it ("not defined", R1). -/
opaque undefinedByte : Nat → Nat → Byte

/-- Free value: whether such a byte's stored parity mismatches its stored value (R1). -/
opaque undefinedParity : Nat → Nat → Bool

end Sys2Proof.Config
end

