-- ==== Sys2Proof/Machine/State.lean ====
section
/-! DEFINITION. Everything the manual gives the hub to remember, as plain data, block by block (00_scope.md, "Overview of the
blocks"), and the state while RESET is asserted, which is the value of each field after device reset. -/

namespace Sys2Proof.Machine

/-! ### Regions and rights (chapters 1 to 3) -/

/-- The 16-bit name of a region (R5, section 11.3): generation, then slot; a slot byte over 63 names no slot. -/
structure Handle where
  gen : Byte
  slot : Byte
deriving DecidableEq, Repr

/-- The states of a region record (R4). -/
inductive RegionState where
  | unused
  | live
  | retiring
  | scrubbing
deriving DecidableEq, Repr

/-- The rights of one port on one region (R28). -/
inductive Rights where
  | none
  | read
  | write
  | readWrite
deriving DecidableEq, Repr

/-- The offer field when it is present (R42): the target and the remaining milliseconds. -/
structure Offer where
  target : Port
  remaining : Nat
deriving DecidableEq, Repr

/-- A region record (R4). The owner's own place in `grants` is always NONE: the owner has no entry (R29). -/
structure Region where
  gen : Byte
  state : RegionState
  owner : Port
  base : Nat
  length : Nat
  label : Nat
  pinned : Bool
  grants : Vector Rights 4
  refs : Nat
  offer : Option Offer
deriving DecidableEq, Repr

/-- A grant set of NONE entries (R29). -/
def noGrants : Vector Rights 4 := Vector.replicate 4 .none

/-- An UNUSED record holds only its generation (R4). -/
def Region.empty (gen : Byte) : Region :=
  { gen, state := .unused, owner := 0, base := 0, length := 0, label := 0, pinned := false,
    grants := noGrants, refs := 0, offer := none }

/-- A port's standing with the hub (R134). -/
inductive Session where
  | closed
  | opened
  | closing
deriving DecidableEq, Repr

/-- The three quota counts of a port (R27). -/
structure Quota where
  granules : Nat
  regions : Nat
  channels : Nat
deriving DecidableEq, Repr

/-- The quota mode sampled from QSEL (R26). -/
inductive QuotaMode where
  | openMode
  | split
deriving DecidableEq, Repr

/-! ### Channels and programs (chapters 4 to 7) -/

/-- How an offset moves after each unit (R66). -/
inductive OffsetStep where
  | advance
  | retreat
  | hold
deriving DecidableEq, Repr

/-- One side of a program: a region, a start offset in bytes and a step (R66). -/
structure Side where
  handle : Handle
  start : Nat
  step : OffsetStep
deriving DecidableEq, Repr

/-- The size of one read and one write (R66). -/
inductive UnitSize where
  | one
  | two
  | four
  | eight
deriving DecidableEq, Repr

/-- The sense of a LINE activation (R66). -/
inductive Sense where
  | rise
  | fall
  | high
  | low
deriving DecidableEq, Repr

/-- What activates a channel (R66). -/
inductive Activation where
  | soft
  | line (line : Line) (sense : Sense)
deriving DecidableEq, Repr

/-- What an activation that finds the latch set does (R66). -/
inductive Policy where
  | merge
  | stop
deriving DecidableEq, Repr

/-- The side whose offset returns to its start at the end of every block (R66). -/
inductive BlockSide where
  | source
  | dest
deriving DecidableEq, Repr

/-- The pacing of a SWEEP (R66). -/
inductive Pacing where
  | burst
  | interleaved
deriving DecidableEq, Repr

/-- A program's mode with the fields that mode uses; a field a mode does not use is absent (R66, R67). -/
inductive Mode where
  | single (activation : Activation) (policy : Policy)
  | cyclic (activation : Activation) (policy : Policy)
  | block (activation : Activation) (policy : Policy) (length : Nat) (side : BlockSide)
  | sweep (pacing : Pacing)
deriving DecidableEq, Repr

/-- The notify set of a program (R66). -/
structure NotifySet where
  done : Bool
  wrap : Bool
  stop : Bool
deriving DecidableEq, Repr

/-- A program record (R66). -/
structure Program where
  mode : Mode
  unit : UnitSize
  cls : PriorityClass
  source : Side
  dest : Side
  count : Nat
  notify : NotifySet
  chain : Option Chan
deriving DecidableEq, Repr

/-- The states of a channel (R57). -/
inductive ChannelState where
  | free
  | leased
  | programmed
  | armed
  | running
  | suspended
deriving DecidableEq, Repr

inductive SuspendCause where
  | command
  | halt
deriving DecidableEq, Repr

inductive AbortCause where
  | disarm
  | overrun
deriving DecidableEq, Repr

inductive DiscardCause where
  | retired
  | revoked
deriving DecidableEq, Repr

/-- A stop request that can be recorded, with its cause (R56, R117). DATA_ERROR is never recorded. -/
inductive Request where
  | suspend (cause : SuspendCause)
  | abort (cause : AbortCause)
  | discard (cause : DiscardCause)
  | teardown
deriving DecidableEq, Repr

/-- The last outcome of a channel (R58). -/
inductive LastOutcome where
  | none
  | complete
  | aborted
  | overrun
  | dataError
  | retired
  | revoked
deriving DecidableEq, Repr

/-- The run state of a channel (R59). -/
structure RunState where
  sourceOffset : Nat
  destOffset : Nat
  remaining : Nat
  blockRemaining : Nat
  latch : Bool
  overrunSeen : Bool
  wrapCount : BitVec 16
  inService : Bool
  unitInFlight : Bool
deriving DecidableEq, Repr

/-- Every run-state field 0 or clear (R59). -/
def RunState.clear : RunState :=
  { sourceOffset := 0, destOffset := 0, remaining := 0, blockRemaining := 0, latch := false,
    overrunSeen := false, wrapCount := 0, inService := false, unitInFlight := false }

/-- A channel record (R56). -/
structure Channel where
  state : ChannelState
  lessee : Option Port
  program : Option Program
  run : RunState
  recorded : Option Request
  suspension : Option SuspendCause
  outcome : LastOutcome
deriving DecidableEq, Repr

/-- A FREE channel (R60). -/
def Channel.empty : Channel :=
  { state := .free, lessee := none, program := none, run := RunState.clear, recorded := none,
    suspension := none, outcome := .none }

/-! ### Records on the links (chapters 9 to 11) -/

/-- A queued command record (R156): the argument length is the length of `args`. -/
structure CommandRecord where
  opcode : Byte
  tag : Byte
  args : List Byte
deriving DecidableEq, Repr

/-- The result codes of section 11.7. -/
inductive ResultCode where
  | ok
  | badOpcode
  | badArg
  | notOpen
  | alreadyOpen
  | noRegion
  | notOwner
  | noSpace
  | noSlot
  | quota
  | pinned
  | offerPending
  | notOffered
  | badHost
  | retiring
  | noRight
  | notFound
  | noChannel
  | notLessee
  | wrongState
  | busy
  | span
  | align
  | noProgram
  | halted
deriving DecidableEq, Repr

/-- A result record (R163). -/
structure ResultRecord where
  opcode : Byte
  tag : Byte
  code : ResultCode
  payload : List Byte
deriving DecidableEq, Repr

/-- Why a chain failed (R110). -/
inductive ChainReason where
  | notLessee
  | wrongState
  | halted
deriving DecidableEq, Repr

/-- Why a window access is denied (R36). -/
inductive DenialCause where
  | notOpen
  | unmapped
  | retiring
  | noRight
deriving DecidableEq, Repr

/-- Why a grantee's rights changed (R31, R14). -/
inductive RightsReason where
  | grant
  | revoke
  | freed
deriving DecidableEq, Repr

/-- How an offer was resolved (R55). -/
inductive OfferOutcome where
  | accepted
  | declined
  | expired
  | targetClosed
deriving DecidableEq, Repr

/-- Why an offer was cancelled (R55). -/
inductive CancelReason where
  | withdrawn
  | expired
  | ownerClosed
deriving DecidableEq, Repr

/-- The direction of a window access (R35). -/
inductive Direction where
  | read
  | write
deriving DecidableEq, Repr

/-- The twelve event kinds with the fields each carries (R168, section 11.6). -/
inductive Event where
  | channelDone (channel : Chan) (overrunSeen : Bool)
  | channelWrap (channel : Chan) (wrapCount : BitVec 16) (overrunSeen : Bool)
  | channelStopped (channel : Chan) (cause : LastOutcome) (dataError : Bool)
  | channelSuspended (channel : Chan) (cause : SuspendCause)
  | chainFailed (channel target : Chan) (reason : ChainReason)
  | offerReceived (handle : Handle) (owner : Port) (length label timeout : Nat)
  | offerResolved (handle : Handle) (target : Port) (outcome : OfferOutcome)
  | offerCancelled (handle : Handle) (owner : Port) (reason : CancelReason)
  | rightsChanged (handle : Handle) (rights : Rights) (reason : RightsReason)
  | regionRetired (handle : Handle)
  | accessDenied (addr : BitVec 24) (length : Nat) (direction : Direction) (cause : DenialCause)
  | overrun (dropped : Nat)
deriving DecidableEq, Repr

/-- The link answers of R153. -/
inductive LinkAnswer where
  | accepted
  | full
  | empty
  | notReady
  | closing
  | held
  | malformed
deriving DecidableEq, Repr

/-- A window transaction whose check or admitted access is still to come (R153, R165). `framed` says that the frame that asked
for it is still in progress. -/
structure WindowRequest where
  direction : Direction
  addr : BitVec 24
  length : Nat
  admitted : Bool
  framed : Bool
deriving DecidableEq, Repr

/-- A frame in progress (R150, R151): the summary captured at the fall of SELk, whether SELk fell in the NOT_READY period
(R154), the transaction code and link answer once decided, the bytes received after the code byte, the bytes still to be
sent, whether the rest of the frame is taken in or ignored, and whether a session close of the port was taken since the code
byte (R156). -/
structure Frame where
  summary : Byte
  notReady : Bool
  code : Option Byte
  answer : Option LinkAnswer
  received : List Byte
  toSend : List Byte
  live : Bool
  closed : Bool
deriving DecidableEq, Repr

/-- The notify settings of a port (R150). -/
structure NotifySettings where
  onResult : Bool
  onEvent : Bool
  reportDenials : Bool
deriving DecidableEq, Repr

/-- All three settings on: the defaults set by device reset and by OPEN (R136, R150). -/
def NotifySettings.default : NotifySettings :=
  { onResult := true, onEvent := true, reportDenials := true }

/-- A host link unit (R150). `out` is the model's own: the bytes clocked out on SDOk in the frame in progress, or in the last
one. -/
structure Link where
  commands : List CommandRecord
  results : List ResultRecord
  events : List Event
  buffer : List Byte
  malformed : Bool
  settings : NotifySettings
  notReady : Bool
  frame : Option Frame
  window : Option WindowRequest
  out : List Byte
deriving DecidableEq, Repr

/-- A link unit while RESET is asserted (R150). -/
def Link.empty : Link :=
  { commands := [], results := [], events := [], buffer := [], malformed := false,
    settings := NotifySettings.default, notReady := true, frame := none, window := none, out := [] }

/-! ### Messages between the blocks -/

/-- The notices to the table controller (R161). -/
inductive Notice where
  | referenceRelease (handle : Handle)
  | leaseEnd (channel : Chan) (lessee : Port)
  | scrubDone (slot : Slot)
  | offerExpiry (slot : Slot)
  | clear (port : Port)
deriving DecidableEq, Repr

/-- What an order of the table controller asks of a channel (R61). -/
inductive OrderKind where
  | discard (cause : DiscardCause) (handle : Handle)
  | teardown
deriving DecidableEq, Repr

/-- An order of the table controller on its way to a channel (R61). -/
structure Order where
  channel : Chan
  kind : OrderKind
deriving DecidableEq, Repr

/-- The direction an edge claim carries (R79). -/
inductive Edge where
  | rise
  | fall
deriving DecidableEq, Repr

/-- An edge claim of the trigger unit (R79). -/
structure EdgeClaim where
  line : Line
  edge : Edge
deriving DecidableEq, Repr

/-- An entry of the scrub queue (R17). -/
structure ScrubRun where
  slot : Slot
  base : Nat
  length : Nat
deriving DecidableEq, Repr

/-- How far the unit in flight has come (R99): started, its read access made, or its end report sent. -/
inductive UnitPhase where
  | started
  | readDone
  | reported
deriving DecidableEq, Repr

/-- The engine's unit in flight (R92). -/
structure UnitInFlight where
  channel : Chan
  source : Nat
  dest : Nat
  size : UnitSize
  buffer : List Byte
  dataError : Bool
  phase : UnitPhase
deriving DecidableEq, Repr

/-! ### The blocks -/

/-- The pins the hub samples: RESET, HALTk (R129), CLRk (R137), and the trigger unit's levels of TRG0 to TRG7 (R79). -/
structure Pins where
  reset : Level
  halt : Vector Level 4
  clr : Vector Level 4
  trg : Vector Level 8
deriving DecidableEq, Repr

/-- The table controller. `granules` is the granule map, bit g set when granule g is HELD (R3). `expiryDue` names the slots
whose offer timer has run out and whose expiry notice has not yet been raised (R45). -/
structure TableController where
  regions : Vector Region 64
  granules : BitVec 4096
  sessions : Vector Session 4
  quotas : Vector Quota 4
  quotaMode : QuotaMode
  pointer : Port
  notices : List Notice
  expiryDue : List Slot
deriving DecidableEq, Repr

/-- The channel controller, with the claims and orders that wait there (R61). `orders` is a list of batches in the order they
were sent; the orders of one batch were sent in one taking, in an order the manual leaves open. -/
structure ChannelController where
  channels : Vector Channel 16
  orders : List (List Order)
  haltClaims : List Port
  edgeClaims : List EdgeClaim
deriving DecidableEq, Repr

/-- The transfer engine (R92). -/
structure Engine where
  pointers : Vector Chan 4
  unit : Option UnitInFlight
deriving DecidableEq, Repr

/-- The scrub unit (R17, R19). `running` is the number of granules cleared of the run in progress, and `startup` says that the
start-up clear runs. -/
structure ScrubUnit where
  queue : List ScrubRun
  running : Option Nat
  startup : Bool
deriving DecidableEq, Repr

/-- The buffer memory (R1, R2). Addresses below `definedTo` hold defined contents: the value listed in `bytes`, 0 when none is
listed, and good parity unless listed in `bad`. From `definedTo` on the contents are not defined (R1); `resets` counts the
assertions of RESET and draws the free values of that time. -/
structure Memory where
  definedTo : Nat
  resets : Nat
  bytes : List Host.Cell
  bad : List Nat
deriving DecidableEq, Repr

/-- The hub, and the queue of the steps that wait, first in, first out. -/
structure State where
  pins : Pins
  table : TableController
  chan : ChannelController
  engine : Engine
  scrub : ScrubUnit
  links : Vector Link 4
  mem : Memory
  pending : List Instr
deriving DecidableEq, Repr

/-- Why the machine stops. -/
inductive Fault where
  /-- Raised by WINDOW_ACCESS and UNIT_TRANSFER when an access reaches a byte address above 262,143, which R1 says does not
  exist. The checks of R36 and R71 keep every access of a run below it, so no run reaches this fault. Safe: the machine stops
  where the hub has no behaviour. -/
  | noSuchByte
deriving DecidableEq, Repr

/-- Why the machine has no meaning for a step. -/
inductive Refusal where
  /-- Raised by `exec` for a row that has no meaning yet. Safe: the machine stops. No arm of this model raises it. -/
  | notModelled (mnemonic : String)
deriving DecidableEq, Repr

/-! ### Device reset -/

/-- The table controller while RESET is asserted (R7, R27, R134, R160, R161): every slot UNUSED with generation 0, every granule
HELD, every port CLOSED, every count 0, the port pointer at port 3, no notice. -/
def TableController.reset (mode : QuotaMode) : TableController :=
  { regions := Vector.replicate 64 (Region.empty 0)
    granules := BitVec.allOnes 4096
    sessions := Vector.replicate 4 .closed
    quotas := Vector.replicate 4 { granules := 0, regions := 0, channels := 0 }
    quotaMode := mode
    pointer := 3
    notices := []
    expiryDue := [] }

/-- The channel controller while RESET is asserted (R60): every channel FREE, no claim or order waiting. -/
def ChannelController.reset : ChannelController :=
  { channels := Vector.replicate 16 Channel.empty, orders := [], haltClaims := [], edgeClaims := [] }

/-- The engine while RESET is asserted (R92): every class pointer C15, no unit in flight. -/
def Engine.reset : Engine :=
  { pointers := Vector.replicate 4 15, unit := none }

/-- The scrub unit while RESET is asserted (R20). -/
def ScrubUnit.reset : ScrubUnit :=
  { queue := [], running := none, startup := false }

/-- The memory after the `resets`-th assertion of RESET: its contents are not defined (R1). -/
def Memory.undefined (resets : Nat) : Memory :=
  { definedTo := 0, resets, bytes := [], bad := [] }

/-- The hub while RESET is asserted. DESIGN CHOICE (log entry 1): the levels sampled before the first release of RESET and the
quota mode before QSEL is first sampled are not stated; HALTk, CLRk high, TRGn low, OPEN. -/
def State.reset : State :=
  { pins :=
      { reset := .low
        halt := Vector.replicate 4 .high
        clr := Vector.replicate 4 .high
        trg := Vector.replicate 8 .low }
    table := TableController.reset .openMode
    chan := ChannelController.reset
    engine := Engine.reset
    scrub := ScrubUnit.reset
    links := Vector.replicate 4 Link.empty
    mem := Memory.undefined 0
    pending := [] }

end Sys2Proof.Machine
end

