-- ==== Sys2Proof/Machine/Ops.lean ====
section
/-! DEFINITION. The named operations over the hub's state that the meanings share: the outcome of a step, the buffer memory and
its parity, records of regions, channels and links, rights, the event queues, the taking of a command, freeing and scrubbing
of a region, the session close, and the stop requests of a channel. -/

namespace Sys2Proof.Machine

/-- What one step answers. -/
abbrev Res := Host.Outcome State Fault Refusal

/-- Every index of a table, lowest first. -/
def indices (n : Nat) : List (Fin n) := List.finRange n

/-- The members of `affected` in an order the manual leaves open: first those that `order` names, as it names them, then the
others as they stand. Every order of `affected` is that of some `order`. -/
def arrange {α : Type} [DecidableEq α] (order affected : List α) : List α :=
  (order.dedup.filter fun x => affected.contains x) ++ affected.filter fun x => !order.contains x

/-! ### The buffer memory (R1, R2) -/

/-- The value listed at an address in cells with strictly rising addresses, 0 where none is. -/
def cellValue : List Host.Cell → Nat → Byte
  | [], _ => 0
  | (b, v) :: rest, a => if a = b then v else cellValue rest a

/-- Cells with the value at one address replaced; the value 0 is not listed. -/
def cellPut : List Host.Cell → Nat → Byte → List Host.Cell
  | [], a, v => if v = 0 then [] else [(a, v)]
  | (b, w) :: rest, a, v =>
    if a < b then (if v = 0 then (b, w) :: rest else (a, v) :: (b, w) :: rest)
    else if a = b then (if v = 0 then rest else (a, v) :: rest)
    else (b, w) :: cellPut rest a v

/-- A strictly rising list of addresses with one address joined. -/
def addrInsert : List Nat → Nat → List Nat
  | [], a => [a]
  | b :: rest, a => if a < b then a :: b :: rest else if a = b then b :: rest else b :: addrInsert rest a

/-- What an address that lists no value reads as: 0 once the start-up clear has written it (R19), and a free value before (R1). -/
def Memory.background (m : Memory) (a : Nat) : Byte :=
  if a < m.definedTo then 0 else Config.undefinedByte m.resets a

/-- The stored value of a byte. -/
def Memory.read (m : Memory) (a : Nat) : Byte :=
  if a < m.definedTo then cellValue m.bytes a else m.background a

/-- Whether a byte's stored parity mismatches its stored value: a parity error (R2). -/
def Memory.parityError (m : Memory) (a : Nat) : Bool :=
  if a < m.definedTo then m.bad.contains a else Config.undefinedParity m.resets a

/-- A write to a byte stores its value with good parity (R2). What is not defined stays so (R1). -/
def Memory.write (m : Memory) (a : Nat) (v : Byte) : Memory :=
  if a < m.definedTo then { m with bytes := cellPut m.bytes a v, bad := m.bad.filter (· != a) } else m

/-- A fault of the memory leaves the byte with a value and a stored parity that does not match it (R2). -/
def Memory.corrupt (m : Memory) (a : Nat) (v : Byte) : Memory :=
  if a < m.definedTo then { m with bytes := cellPut m.bytes a v, bad := addrInsert m.bad a } else m

/-- One access that reads `n` bytes (R1). -/
def Memory.readSpan (m : Memory) (a : Nat) : Nat → List Byte
  | 0 => []
  | n + 1 => m.read a :: m.readSpan (a + 1) n

/-- Whether any byte of a span has a parity error (R2). -/
def Memory.spanError (m : Memory) (a : Nat) : Nat → Bool
  | 0 => false
  | n + 1 => m.parityError a || m.spanError (a + 1) n

/-- One access that writes bytes from an address on (R1). -/
def Memory.writeSpan (m : Memory) (a : Nat) : List Byte → Memory
  | [] => m
  | v :: rest => (m.write a v).writeSpan (a + 1) rest

/-- Zeros with good parity over the bytes from `a` to before `b` (R17). -/
def Memory.clear (m : Memory) (a b : Nat) : Memory :=
  { m with
    bytes := m.bytes.filter fun cell => !(a ≤ cell.1 && cell.1 < b)
    bad := m.bad.filter fun x => !(a ≤ x && x < b) }

/-- The start-up clear has written the bytes below `b`: they are defined, and 0 where they were not defined before (R19). -/
def Memory.define (m : Memory) (b : Nat) : Memory := { m with definedTo := b }

/-- Cells in canonical form below a bound: addresses strictly rising, and no cell that holds the 0 an unlisted address reads
as. -/
def cellsWf : Nat → List Host.Cell → Nat → Bool
  | _, [], _ => true
  | low, (a, v) :: rest, bound => low ≤ a && a < bound && v != 0 && cellsWf (a + 1) rest bound

/-- Addresses strictly rising, below a bound. -/
def addrsWf : Nat → List Nat → Nat → Bool
  | _, [], _ => true
  | low, a :: rest, bound => low ≤ a && a < bound && addrsWf (a + 1) rest bound

/-- The memory is in its one canonical form. -/
def Memory.wf (m : Memory) : Bool :=
  m.definedTo ≤ memoryBytes && cellsWf 0 m.bytes m.definedTo && addrsWf 0 m.bad m.definedTo

/-! ### Records of the tables -/

/-- The region record in a slot. -/
def State.region (s : State) (i : Slot) : Region := look s.table.regions i

/-- A channel's record. -/
def State.channel (s : State) (c : Chan) : Channel := look s.chan.channels c

/-- A port's link unit. -/
def State.link (s : State) (p : Port) : Link := look s.links p

/-- A port's session state. -/
def State.session (s : State) (p : Port) : Session := look s.table.sessions p

/-- A port's quota counts. -/
def State.quota (s : State) (p : Port) : Quota := look s.table.quotas p

/-! Every change of the state is made by one of the setters below: one per piece of state, or per entry of a table. -/

def State.setHalt (s : State) (p : Port) (l : Level) : State :=
  { s with pins := { s.pins with halt := put s.pins.halt p l } }

def State.setClr (s : State) (p : Port) (l : Level) : State :=
  { s with pins := { s.pins with clr := put s.pins.clr p l } }

def State.setTrg (s : State) (n : Line) (l : Level) : State :=
  { s with pins := { s.pins with trg := put s.pins.trg n l } }

def State.setPins (s : State) (x : Pins) : State := { s with pins := x }

def State.setRegion (s : State) (i : Slot) (r : Region) : State :=
  { s with table := { s.table with regions := put s.table.regions i r } }

/-- Every region record replaced by a function of it. -/
def State.mapRegions (s : State) (f : Region → Region) : State :=
  { s with table := { s.table with regions := tabulate fun i => f (s.region i) } }

def State.setGranules (s : State) (x : BitVec 4096) : State := { s with table := { s.table with granules := x } }

def State.setSession (s : State) (p : Port) (x : Session) : State :=
  { s with table := { s.table with sessions := put s.table.sessions p x } }

def State.setQuota (s : State) (p : Port) (q : Quota) : State :=
  { s with table := { s.table with quotas := put s.table.quotas p q } }

def State.setQuotaMode (s : State) (x : QuotaMode) : State := { s with table := { s.table with quotaMode := x } }

def State.setPointer (s : State) (p : Port) : State := { s with table := { s.table with pointer := p } }

def State.setNotices (s : State) (x : List Notice) : State := { s with table := { s.table with notices := x } }

def State.setExpiryDue (s : State) (x : List Slot) : State := { s with table := { s.table with expiryDue := x } }

def State.setChannel (s : State) (c : Chan) (x : Channel) : State :=
  { s with chan := { s.chan with channels := put s.chan.channels c x } }

def State.setOrders (s : State) (x : List (List Order)) : State := { s with chan := { s.chan with orders := x } }

def State.setHaltClaims (s : State) (x : List Port) : State := { s with chan := { s.chan with haltClaims := x } }

def State.setEdgeClaims (s : State) (x : List EdgeClaim) : State := { s with chan := { s.chan with edgeClaims := x } }

def State.setEngine (s : State) (x : Engine) : State := { s with engine := x }

def State.setScrub (s : State) (x : ScrubUnit) : State := { s with scrub := x }

def State.setLink (s : State) (p : Port) (l : Link) : State := { s with links := put s.links p l }

/-- Every link unit replaced by a function of it. -/
def State.mapLinks (s : State) (f : Link → Link) : State := { s with links := tabulate fun p => f (s.link p) }

def State.setMem (s : State) (m : Memory) : State := { s with mem := m }

/-- Notices join the tail of the notice queue (R161). -/
def State.notify (s : State) (ns : List Notice) : State := s.setNotices (s.table.notices ++ ns)

/-- A batch of orders, all sent in one taking, joins the tail of the orders on their way (R61). -/
def State.sendOrders (s : State) (batch : List Order) : State :=
  if batch.isEmpty then s else s.setOrders (s.chan.orders ++ [batch])

/-! ### Handles and rights (R5, R28) -/

/-- The handle of the region in a slot (R5). -/
def State.handle (s : State) (i : Slot) : Handle :=
  { gen := (s.region i).gen, slot := BitVec.ofNat 8 i.val }

/-- The slot a handle's slot byte names, if it is not over 63 (R5, R177). -/
def Handle.slot? (h : Handle) : Option Slot :=
  if lt : h.slot.toNat < 64 then some ⟨h.slot.toNat, lt⟩ else none

/-- The slot of a current handle: its generation matches its slot's and the region is LIVE or RETIRING (R5). -/
def State.current (s : State) (h : Handle) : Option Slot :=
  match h.slot? with
  | none => none
  | some i =>
    let r := s.region i
    if r.gen = h.gen ∧ (r.state = .live ∨ r.state = .retiring) then some i else none

def Rights.hasRead : Rights → Bool
  | .read | .readWrite => true
  | .none | .write => false

def Rights.hasWrite : Rights → Bool
  | .write | .readWrite => true
  | .none | .read => false

/-- The rights of port `p` on the region in a slot (R28, the rows read from the top). -/
def State.rights (s : State) (p : Port) (i : Slot) : Rights :=
  let r := s.region i
  if s.session p ≠ .opened then .none
  else if r.state ≠ .live then .none
  else if r.owner = p then .readWrite
  else look r.grants p

/-- Whether port `p` owns the region in a slot: the owner of a LIVE or RETIRING region (R145). -/
def State.owns (s : State) (p : Port) (i : Slot) : Bool :=
  ((s.region i).state == .live || (s.region i).state == .retiring) && (s.region i).owner == p

/-! ### The granule map (R3) -/

/-- The granules from `base` to before `base + length`, as a map. -/
def granuleMask (base length : Nat) : BitVec 4096 :=
  (BitVec.allOnes 4096 >>> (4096 - length)) <<< base

/-- Whether granule `g` is HELD. -/
def TableController.held (t : TableController) (g : Nat) : Bool := t.granules.getLsbD g

/-- Every granule of the run becomes HELD (R10). -/
def holdRun (map : BitVec 4096) (base length : Nat) : BitVec 4096 := map ||| granuleMask base length

/-- Every granule of the run becomes FREE (R18). -/
def freeRun (map : BitVec 4096) (base length : Nat) : BitVec 4096 := map &&& ~~~granuleMask base length

/-- Whether every granule of the run is FREE (R8). -/
def runFree (map : BitVec 4096) (base length : Nat) : Bool := (map &&& granuleMask base length) == 0

/-- The lowest granule from `g` on where a run of `length` FREE granules begins, looking at `fuel` places (R9). -/
def firstFit (map : BitVec 4096) (length : Nat) : Nat → Nat → Option Nat
  | 0, _ => none
  | fuel + 1, g => if runFree map g length then some g else firstFit map length fuel (g + 1)

/-- The number of FREE granules among the `n` from `g` on, and the longest run of consecutive FREE ones, when a run of `run`
FREE granules ends just before `g` and the longest so far is `best` (R25). -/
def countFree (map : BitVec 4096) : Nat → Nat → Nat → Nat → Nat → Nat × Nat
  | 0, _, count, run, best => (count, max best run)
  | n + 1, g, count, run, best =>
    if map.getLsbD g then countFree map n (g + 1) count 0 (max best run)
    else countFree map n (g + 1) (count + 1) (run + 1) best

/-! ### Event queues (R168 to R171) -/

def Event.isMarker : Event → Bool
  | .overrun _ => true
  | _ => false

/-- One more record counted into the marker at the tail; the count stays at 65,535 once there (R171). -/
def countDropped : List Event → List Event
  | [] => []
  | [.overrun n] => [.overrun (min (n + 1) 65535)]
  | e :: rest => e :: countDropped rest

/-- Whether the tail record is an OVERRUN marker. -/
def markerAtTail (q : List Event) : Bool := (q.getLast?.map Event.isMarker).getD false

/-- A record offered to the queue of an OPEN port (R170). -/
def placeEvent (q : List Event) (e : Event) : List Event :=
  if q.length ≤ 14 then q ++ [e]
  else if markerAtTail q then countDropped q
  else if q.length = 15 then q ++ [.overrun 1]
  else q

/-- A record offered to a port's event queue: dropped unless the port is OPEN at the offer (R168). -/
def State.offerEvent (s : State) (p : Port) (e : Event) : State :=
  if s.session p = .opened then
    s.setLink p { s.link p with events := placeEvent (s.link p).events e }
  else s

/-- Records offered one after the other (R169). -/
def State.offerEvents (s : State) : List (Port × Event) → State
  | [] => s
  | (p, e) :: rest => (s.offerEvent p e).offerEvents rest

/-! ### Taking a command (R158 to R160, R163) -/

/-- Whether an admitted window access has not ended: until then the table controller starts no taking (R37, R162). -/
def State.accessPending (s : State) : Bool :=
  (indices 4).any fun p => ((s.link p).window.map WindowRequest.admitted).getD false

/-- A port is eligible when its command queue holds a record and its result queue has room (R159). -/
def State.eligible (s : State) (p : Port) : Bool :=
  !(s.link p).commands.isEmpty && decide ((s.link p).results.length < Config.resultRoom)

/-- The ports in the order they are looked at: after the port pointer, wrapping from 3 to 0 (R160). -/
def portsAfter (pointer : Port) : List Port := [pointer + 1, pointer + 2, pointer + 3, pointer]

/-- The port whose command the table controller takes next: none while a notice waits (R160) or an admitted access has not
ended (R162). -/
def State.commandTurn (s : State) : Option Port :=
  if s.accessPending || !s.table.notices.isEmpty then none
  else (portsAfter s.table.pointer).find? s.eligible

/-- What a command answers: a result code and, with OK, its payload (R178). -/
structure Reply where
  code : ResultCode
  payload : List Byte
deriving DecidableEq, Repr

/-- One result record at the tail of the port's result queue, with the opcode and tag as received (R163, R178). -/
def State.answer (s : State) (p : Port) (r : CommandRecord) (reply : Reply) : State :=
  s.setLink p { s.link p with
    results := (s.link p).results ++ [{ opcode := r.opcode, tag := r.tag, code := reply.code, payload := reply.payload }] }

/-- A refused command: its code, with no payload and no change (R178). -/
def State.refuse (s : State) (code : ResultCode) : State × Option Reply := (s, some { code, payload := [] })

/-- An accepted command: OK with its payload (R178). -/
def State.accepted (s : State) (payload : List Byte) : State × Option Reply := (s, some { code := .ok, payload })

/-- The head record leaves the port's command queue and the port pointer moves to the port (R158, R160). -/
def State.popCommand (s : State) (p : Port) : State :=
  (s.setPointer p).setLink p { s.link p with commands := (s.link p).commands.tail }

/-- The taking of the head record of port `p`, when it is that port's turn and `mine` says that the record belongs to the row
(R159, R160). Otherwise there is nothing for this row to take, and the state stays as it is (log entry 2). -/
def State.taking (s : State) (p : Port) (mine : CommandRecord → Bool)
    (body : CommandRecord → State → State × Option Reply) : Res :=
  match (s.link p).commands with
  | [] => .next s
  | r :: _ =>
    if s.commandTurn = some p ∧ mine r then
      match body r (s.popCommand p) with
      | (s', none) => .next s'
      | (s', some reply) => .next (s'.answer p r reply)
    else .next s

/-- The taking of a command with an opcode: the argument length (R159), then the session check of R135, then the command's own
checks. -/
def State.command (s : State) (p : Port) (opcode : Byte) (argLength : Nat)
    (body : List Byte → State → State × Option Reply) : Res :=
  s.taking p (fun r => r.opcode == opcode && decide (s.session p ≠ .closing)) fun r t =>
    if r.args.length ≠ argLength then t.refuse .badArg
    else if t.session p ≠ .opened then t.refuse .notOpen
    else body r.args t

/-! ### Scrubbing, freeing and the end of a session (R14 to R16, R139 to R145) -/

/-- A region enters SCRUBBING: its run joins the scrub queue and its owner's counts fall (R16). -/
def State.enterScrubbing (s : State) (i : Slot) : State :=
  let r := s.region i
  let q := s.quota r.owner
  let s := s.setRegion i { r with state := .scrubbing, refs := 0 }
  let s := s.setQuota r.owner { q with granules := q.granules - r.length, regions := q.regions - 1 }
  s.setScrub { s.scrub with queue := s.scrub.queue ++ [{ slot := i, base := r.base, length := r.length }] }

/-- Whether a program names a region on its source or its destination side (R11). -/
def Program.names (g : Program) (h : Handle) : Bool := g.source.handle == h || g.dest.handle == h

/-- The channels whose record meets a condition, lowest first. -/
def State.channelsWhere (s : State) (f : Channel → Bool) : List Chan :=
  (indices 16).filter fun c => f (s.channel c)

/-- One DISCARD order to each channel whose record meets a condition (R15, R32, R49). -/
def State.sendDiscards (s : State) (cause : DiscardCause) (h : Handle) (f : Channel → Bool) : State :=
  s.sendOrders ((s.channelsWhere f).map fun c => { channel := c, kind := .discard cause h })

/-- The RIGHTS_CHANGED events of a freed region: one to each port whose entry was other than NONE (R14, R15). -/
def State.freedEvents (s : State) (i : Slot) : List (Port × Event) :=
  ((indices 4).filter fun p => look (s.region i).grants p != .none).map fun p =>
    (p, .rightsChanged (s.handle i) .none .freed)

/-- A LIVE region is freed, its checks passed (R14 with reference count 0, R15 otherwise). -/
def State.freeRegion (s : State) (i : Slot) : State :=
  let h := s.handle i
  let events := s.freedEvents i
  let r := s.region i
  if r.refs = 0 then
    ((s.setRegion i { r with grants := noGrants }).enterScrubbing i).offerEvents events
  else
    ((s.setRegion i { r with state := .retiring, grants := noGrants }).offerEvents events).sendDiscards .retired h
      fun x => (x.program.map fun g => g.names h).getD false

/-- A CLOSING port becomes CLOSED when it leases no channel and owns no RETIRING region (R145). -/
def State.settleClosing (s : State) (p : Port) : State :=
  if s.session p = .closing ∧ (s.quota p).channels = 0 ∧
      (indices 64).all (fun i => !((s.region i).state == .retiring && (s.region i).owner == p)) then
    s.setSession p .closed
  else s

/-- The first step of a close: the port's queues are emptied (R139), and a frame whose code byte has come is marked (R156).
DEDUCED (log entry 21): a frame whose SELk fell before the close and whose code byte comes after it is not marked, although R144
discards a frame "begun while the port was OPEN". -/
def Link.emptied (l : Link) : Link :=
  { l with
    commands := [], results := [], events := []
    frame := l.frame.map fun f => { f with closed := f.code.isSome } }

/-- The second step of a close: the events of the offers removed, R52's and then R53's. -/
def State.closeOfferEvents (s : State) (p : Port) (order : List Slot) : List (Port × Event) :=
  let targeted := (indices 64).filter fun i => ((s.region i).offer.map fun o => o.target == p).getD false
  let owned := (indices 64).filter fun i => s.owns p i && (s.region i).offer.isSome
  (arrange order targeted).map (fun i =>
    ((s.region i).owner, .offerResolved (s.handle i) p .targetClosed)) ++
  (arrange order owned).map fun i =>
    ((((s.region i).offer.map Offer.target).getD 0), .offerCancelled (s.handle i) p .ownerClosed)

/-- The region records after the second and third steps of a close: the port's offers removed (R52, R53) and its grant entries
set to NONE (R140). -/
def closedRegion (p : Port) (r : Region) : Region :=
  let mine := (r.state == .live || r.state == .retiring) && r.owner == p
  { r with
    offer := if mine || (r.offer.map fun o => o.target == p).getD false then none else r.offer
    grants := put r.grants p .none }

/-- The slots a close frees: LIVE, owned by the port and not pinned, in ascending order (R142). -/
def State.closeFrees (s : State) (p : Port) : List Slot :=
  (indices 64).filter fun i =>
    (s.region i).state == .live && (s.region i).owner == p && !(s.region i).pinned

/-- The session close of an OPEN port, whole within one taking (R139). -/
def State.closeSession (s : State) (p : Port) (order : List Slot) : State :=
  let s := (s.setSession p .closing).setLink p (s.link p).emptied
  let events := s.closeOfferEvents p order
  let s := s.offerEvents events
  let s := s.mapRegions (closedRegion p)
  let s := s.sendOrders ((s.channelsWhere fun x => x.lessee == some p).map fun c => { channel := c, kind := .teardown })
  let s := (s.closeFrees p).foldl State.freeRegion s
  s.settleClosing p

/-! ### Stop requests (R117 to R124) -/

/-- What a claim does to one channel: its new record, the events for its lessee and the notices it raises. -/
structure Effect where
  channel : Channel
  events : List Event
  notices : List Notice
deriving DecidableEq, Repr

/-- A claim that changes nothing. -/
def Effect.keep (x : Channel) : Effect := { channel := x, events := [], notices := [] }

/-- The effect of a claim takes place at its channel: the notices join the notice queue and the events are offered to the
channel's lessee (R61). -/
def State.commit (s : State) (c : Chan) (e : Effect) : State :=
  let lessee := (s.channel c).lessee
  let s := (s.setChannel c e.channel).notify e.notices
  match lessee with
  | none => s
  | some p => s.offerEvents (e.events.map fun ev => (p, ev))

/-- The strength of a request (R117). -/
def Request.strength : Request → Nat
  | .suspend _ => 1
  | .abort _ => 2
  | .discard _ => 4
  | .teardown => 5

/-- A request that reaches a channel with a unit in flight is recorded, beside one already recorded by strength (R119, R120). -/
def Channel.record (x : Channel) (q : Request) : Channel :=
  match x.recorded with
  | none => { x with recorded := some q }
  | some old => if old.strength < q.strength then { x with recorded := some q } else x

/-- Whether a channel's notify set holds STOP (R66). -/
def Channel.notifiesStop (x : Channel) : Bool := (x.program.map fun g => g.notify.stop).getD false

/-- One reference-release notice per side of a dropped program (R11, R64, R123, R124), the source side's raised first. DESIGN
CHOICE (log entry 19): the manual gives one notice per side and does not say which side's comes first. -/
def Channel.releases (x : Channel) : List Notice :=
  match x.program with
  | none => []
  | some g => [.referenceRelease g.source.handle, .referenceRelease g.dest.handle]

/-- Applying SUSPEND (R121, R131). -/
def applySuspend (c : Chan) (x : Channel) (cause : SuspendCause) : Effect :=
  { channel := { x with
      state := .suspended, suspension := some cause, recorded := none, run := { x.run with latch := false } }
    events := if x.notifiesStop then [.channelSuspended c cause] else []
    notices := [] }

/-- A channel whose run ends into PROGRAMMED with its run state frozen (R105, R114, R122). -/
def Channel.stopped (x : Channel) (outcome : LastOutcome) : Channel :=
  { x with
    state := .programmed, outcome, suspension := none, recorded := none
    run := { x.run with inService := false } }

def AbortCause.outcome : AbortCause → LastOutcome
  | .disarm => .aborted
  | .overrun => .overrun

/-- Applying ABORT (R122, R131). -/
def applyAbort (c : Chan) (x : Channel) (cause : AbortCause) : Effect :=
  { channel := x.stopped cause.outcome
    events := if cause = .overrun ∨ x.notifiesStop then [.channelStopped c cause.outcome false] else []
    notices := [] }

def DiscardCause.outcome : DiscardCause → LastOutcome
  | .retired => .retired
  | .revoked => .revoked

/-- Applying DISCARD (R123); `dataError` says whether the end report that applies it carried a data-error mark. -/
def applyDiscard (c : Chan) (x : Channel) (cause : DiscardCause) (dataError : Bool) : Effect :=
  { channel := { x with
      state := .leased, program := none, run := RunState.clear, recorded := none, suspension := none
      outcome := cause.outcome }
    events := [.channelStopped c cause.outcome dataError]
    notices := x.releases }

/-- Applying TEARDOWN (R124): the release notices come before the lease-end notice. -/
def applyTeardown (c : Chan) (x : Channel) : Effect :=
  { channel := Channel.empty
    events := []
    notices := x.releases ++ (match x.lessee with | none => [] | some p => [.leaseEnd c p]) }

/-- Applying a request (R121 to R124). -/
def applyRequest (c : Chan) (x : Channel) (dataError : Bool) : Request → Effect
  | .suspend cause => applySuspend c x cause
  | .abort cause => applyAbort c x cause
  | .discard cause => applyDiscard c x cause dataError
  | .teardown => applyTeardown c x

/-- Whether a request applies from the channel's state (R118). -/
def Request.appliesTo (q : Request) (x : Channel) : Bool :=
  match q, x.state with
  | .suspend _, .armed | .suspend _, .running => true
  | .suspend _, .free | .suspend _, .leased | .suspend _, .programmed | .suspend _, .suspended => false
  | .abort _, .armed | .abort _, .running | .abort _, .suspended => true
  | .abort _, .free | .abort _, .leased | .abort _, .programmed => false
  | .discard _, _ => x.program.isSome
  | .teardown, st => st != .free

/-- A SUSPEND, ABORT, DISCARD or TEARDOWN reaches a channel: dropped where it does not apply, recorded behind a unit in flight,
applied at once otherwise (R118, R119). -/
def makeRequest (c : Chan) (x : Channel) (q : Request) : Effect :=
  if !q.appliesTo x then Effect.keep x
  else if x.run.unitInFlight then Effect.keep (x.record q)
  else applyRequest c x false q

/-- What the channel controller does at the taking of an order (R32, R118, R124). -/
def Order.effect (o : Order) (x : Channel) : Effect :=
  match o.kind with
  | .discard cause h =>
    if (x.program.map fun g => g.names h).getD false then makeRequest o.channel x (.discard cause)
    else Effect.keep x
  | .teardown => makeRequest o.channel x .teardown

/-- The taking of one order at the channel controller. -/
def State.takeOrder (s : State) (o : Order) : State := s.commit o.channel (o.effect (s.channel o.channel))

/-- The claim of a channel command reaches the channel controller behind every order sent before it (R61). DESIGN CHOICE (log entry
22): so it does behind the orders of a session close of another port, where R149 says that the other ports' channel claims reach
the channel controller "without order against the close's orders". DEDUCED (log entry 4): all of them are taken inside the
command's taking. DESIGN CHOICE (log entry 5): in the order of the batches, and within a batch as they stand. -/
def State.drainOrders (s : State) : State :=
  let orders := s.chan.orders.flatten
  orders.foldl State.takeOrder (s.setOrders [])

/-! ### Activations (R83 to R85) -/

/-- What an activation did, as TRIGGER reports it (R89). -/
inductive Activated where
  | latched
  | merged
  | stopping
deriving DecidableEq, Repr

/-- The overrun policy of a program; a SWEEP has none (R66). -/
def Mode.policy : Mode → Option Policy
  | .single _ p | .cyclic _ p | .block _ p _ _ => some p
  | .sweep _ => none

/-- The activation of a program; a SWEEP has none (R66). -/
def Mode.activation : Mode → Option Activation
  | .single a _ | .cyclic a _ | .block a _ _ _ => some a
  | .sweep _ => none

def Mode.isSweep : Mode → Bool
  | .sweep _ => true
  | _ => false

def Mode.isCyclic : Mode → Bool
  | .cyclic _ _ => true
  | _ => false

/-- An activation that reaches an ARMED or RUNNING channel acts on its latch (R83): it sets a clear one; on a set one it is an
overrun, merged under MERGE (R84) and an ABORT request under STOP (R85). -/
def activate (c : Chan) (x : Channel) : Effect × Activated :=
  if !x.run.latch then
    (Effect.keep { x with run := { x.run with latch := true } }, .latched)
  else
    match x.program.bind fun g => g.mode.policy with
    | some .stop => (makeRequest c x (.abort .overrun), .stopping)
    | _ => (Effect.keep { x with run := { x.run with overrunSeen := true } }, .merged)

/-- Block units B for a BLOCK program, 0 for the other modes (R72, R77). -/
def Program.blockUnits (g : Program) : Nat :=
  match g.mode with
  | .block _ _ b _ => b
  | _ => 0

/-- The initial values of a program's run (R72); arming differs from PROGRAM only in the latch (R77). -/
def Program.initialRun (g : Program) (latch : Bool) : RunState :=
  { sourceOffset := g.source.start, destOffset := g.dest.start, remaining := g.count
    blockRemaining := g.blockUnits, latch, overrunSeen := false, wrapCount := 0, inService := false
    unitInFlight := false }

/-- Arming a channel, by ARM or by a chain (R77). -/
def Channel.armed (x : Channel) (g : Program) : Channel :=
  { x with state := .armed, run := g.initialRun g.mode.isSweep, outcome := .none }

/-- Whether port `p`'s HALT input is sampled low (R129). -/
def State.halted (s : State) (p : Port) : Bool := look s.pins.halt p == .low

end Sys2Proof.Machine
end

