-- ==== Sys2Proof/Machine/Operands.lean ====
section
/-! DEFINITION. The byte layouts of chapter 11: the arguments of a command decoded (R177), and the fields of results, events,
programs and channels encoded. A field wider than a byte goes most significant byte first; an absent field is 0xFF in each of
its bytes. -/

namespace Sys2Proof.Machine

/-! ### Numbers -/

/-- The byte at a place of a record. -/
def byteAt (bs : List Byte) (k : Nat) : Byte := bs.getD k 0

/-- The 2-byte number at a place. -/
def wordAt (bs : List Byte) (k : Nat) : Nat := (byteAt bs k).toNat * 256 + (byteAt bs (k + 1)).toNat

/-- The 3-byte number at a place. -/
def tripleAt (bs : List Byte) (k : Nat) : Nat := (byteAt bs k).toNat * 65536 + wordAt bs (k + 1)

/-- The handle at a place: the generation, then the slot (section 11.3). -/
def handleAt (bs : List Byte) (k : Nat) : Handle := { gen := byteAt bs k, slot := byteAt bs (k + 1) }

def byteOf (n : Nat) : Byte := BitVec.ofNat 8 n

def bytes2 (n : Nat) : List Byte := [byteOf (n / 256), byteOf n]

def bytes3 (n : Nat) : List Byte := [byteOf (n / 65536), byteOf (n / 256), byteOf n]

def handleBytes (h : Handle) : List Byte := [h.gen, h.slot]

def yesNo (b : Bool) : Byte := if b then 1 else 0

/-- A byte of flags, bit 0 first; unnamed bits are sent as 0 (R177). -/
def flagByte (bits : List Bool) : Byte :=
  bits.foldr (fun b rest => rest * 2 + yesNo b) 0

/-- An absent field of `n` bytes (R177). -/
def absentBytes (n : Nat) : List Byte := List.replicate n 0xFF

def portByte (p : Port) : Byte := byteOf p.val

def chanByte (c : Chan) : Byte := byteOf c.val

/-- A port number, 0 to 3 (section 11.3). -/
def portOf (b : Byte) : Option Port := if h : b.toNat < 4 then some ⟨b.toNat, h⟩ else none

/-- A channel number, 0 to 15 (R62). -/
def chanOf (b : Byte) : Option Chan := if h : b.toNat < 16 then some ⟨b.toNat, h⟩ else none

/-- An ON/OFF setting (section 11.3). -/
def settingOf (b : Byte) : Option Bool := if b = 0 then some false else if b = 1 then some true else none

/-! ### Codes (sections 11.3 and 11.7) -/

def Rights.code : Rights → Byte
  | .none => 0
  | .read => 1
  | .write => 2
  | .readWrite => 3

def rightsOf (b : Byte) : Option Rights :=
  if b = 0 then some .none else if b = 1 then some .read else if b = 2 then some .write
  else if b = 3 then some .readWrite else none

def RegionState.code : RegionState → Byte
  | .unused => 0
  | .live => 1
  | .retiring => 2
  | .scrubbing => 3

def ChannelState.code : ChannelState → Byte
  | .free => 0
  | .leased => 1
  | .programmed => 2
  | .armed => 3
  | .running => 4
  | .suspended => 5

def QuotaMode.code : QuotaMode → Byte
  | .openMode => 0
  | .split => 1

def Session.code : Session → Byte
  | .closed => 1
  | .opened => 2
  | .closing => 3

def ResultCode.code : ResultCode → Byte
  | .ok => 0
  | .badOpcode => 1
  | .badArg => 2
  | .notOpen => 3
  | .alreadyOpen => 4
  | .noRegion => 5
  | .notOwner => 6
  | .noSpace => 7
  | .noSlot => 8
  | .quota => 9
  | .pinned => 10
  | .offerPending => 11
  | .notOffered => 12
  | .badHost => 13
  | .retiring => 14
  | .noRight => 15
  | .notFound => 16
  | .noChannel => 17
  | .notLessee => 18
  | .wrongState => 19
  | .busy => 20
  | .span => 21
  | .align => 22
  | .noProgram => 23
  | .halted => 24

def LastOutcome.code : LastOutcome → Byte
  | .none => 0
  | .complete => 1
  | .aborted => 2
  | .overrun => 3
  | .dataError => 4
  | .retired => 5
  | .revoked => 6

def ChainReason.code : ChainReason → Byte
  | .notLessee => 0
  | .wrongState => 1
  | .halted => 2

def DenialCause.code : DenialCause → Byte
  | .notOpen => 0
  | .unmapped => 1
  | .retiring => 2
  | .noRight => 3

def RightsReason.code : RightsReason → Byte
  | .grant => 0
  | .revoke => 1
  | .freed => 2

def OfferOutcome.code : OfferOutcome → Byte
  | .accepted => 0
  | .declined => 1
  | .expired => 2
  | .targetClosed => 3

def CancelReason.code : CancelReason → Byte
  | .withdrawn => 0
  | .expired => 1
  | .ownerClosed => 2

def Direction.code : Direction → Byte
  | .read => 0
  | .write => 1

def SuspendCause.code : SuspendCause → Byte
  | .command => 0
  | .halt => 1

def LinkAnswer.code : LinkAnswer → Byte
  | .accepted => 0x01
  | .full => 0x02
  | .empty => 0x03
  | .notReady => 0x04
  | .closing => 0x05
  | .held => 0x06
  | .malformed => 0x07

/-- The recorded request and its cause, bytes 44 and 45 of the channel record (section 11.5). -/
def requestBytes : Option Request → List Byte
  | none => [0, 0xFF]
  | some (.suspend cause) => [1, cause.code]
  | some (.abort .disarm) => [2, 0]
  | some (.abort .overrun) => [2, 1]
  | some (.discard .retired) => [3, 0]
  | some (.discard .revoked) => [3, 1]
  | some .teardown => [4, 0]

/-! ### Results and events (section 11.2, 11.6) -/

/-- A result record as RESULT_READ sends it. -/
def ResultRecord.encode (r : ResultRecord) : List Byte :=
  [r.opcode, r.tag, r.code.code, byteOf r.payload.length] ++ r.payload

/-- The kind byte of an event record (section 11.6). -/
def Event.kind : Event → Byte
  | .channelDone .. => 0x01
  | .channelWrap .. => 0x02
  | .channelStopped .. => 0x03
  | .channelSuspended .. => 0x04
  | .chainFailed .. => 0x05
  | .offerReceived .. => 0x06
  | .offerResolved .. => 0x07
  | .offerCancelled .. => 0x08
  | .rightsChanged .. => 0x09
  | .regionRetired .. => 0x0A
  | .accessDenied .. => 0x0B
  | .overrun .. => 0x0C

/-- The fields of an event record (section 11.6). -/
def Event.fields : Event → List Byte
  | .channelDone c seen => [chanByte c, flagByte [seen]]
  | .channelWrap c wraps seen => chanByte c :: bytes2 wraps.toNat ++ [flagByte [seen]]
  | .channelStopped c cause err => [chanByte c, cause.code, flagByte [err]]
  | .channelSuspended c cause => [chanByte c, cause.code]
  | .chainFailed c target reason => [chanByte c, chanByte target, reason.code]
  | .offerReceived h owner length label timeout =>
    handleBytes h ++ portByte owner :: (bytes2 length ++ bytes2 label ++ bytes2 timeout)
  | .offerResolved h target outcome => handleBytes h ++ [portByte target, outcome.code]
  | .offerCancelled h owner reason => handleBytes h ++ [portByte owner, reason.code]
  | .rightsChanged h rights reason => handleBytes h ++ [rights.code, reason.code]
  | .regionRetired h => handleBytes h
  | .accessDenied addr length dir cause =>
    bytes3 addr.toNat ++ bytes2 length ++ [dir.code, cause.code]
  | .overrun dropped => bytes2 dropped

/-- An event record as EVENT_READ sends it: the kind, the field length and the fields. -/
def Event.encode (e : Event) : List Byte := [e.kind, byteOf e.fields.length] ++ e.fields

/-! ### The program record (section 11.5) -/

def UnitSize.bytes : UnitSize → Nat
  | .one => 1
  | .two => 2
  | .four => 4
  | .eight => 8

def unitOf (b : Byte) : Option UnitSize :=
  if b = 1 then some .one else if b = 2 then some .two else if b = 4 then some .four
  else if b = 8 then some .eight else none

def OffsetStep.code : OffsetStep → Byte
  | .advance => 0
  | .retreat => 1
  | .hold => 2

def stepOf (b : Byte) : Option OffsetStep :=
  if b = 0 then some .advance else if b = 1 then some .retreat else if b = 2 then some .hold else none

def Sense.code : Sense → Byte
  | .rise => 0
  | .fall => 1
  | .high => 2
  | .low => 3

def senseOf (b : Byte) : Option Sense :=
  if b = 0 then some .rise else if b = 1 then some .fall else if b = 2 then some .high
  else if b = 3 then some .low else none

def Policy.code : Policy → Byte
  | .merge => 0
  | .stop => 1

def policyOf (b : Byte) : Option Policy := if b = 0 then some .merge else if b = 1 then some .stop else none

def BlockSide.code : BlockSide → Byte
  | .source => 0
  | .dest => 1

def blockSideOf (b : Byte) : Option BlockSide := if b = 0 then some .source else if b = 1 then some .dest else none

def Pacing.code : Pacing → Byte
  | .burst => 0
  | .interleaved => 1

def pacingOf (b : Byte) : Option Pacing := if b = 0 then some .burst else if b = 1 then some .interleaved else none

/-- The activation of a program record; line and sense are not decoded under SOFT (section 11.5). -/
def activationOf (activation line sense : Byte) : Option Activation :=
  if activation = 0 then some .soft
  else if activation = 1 then
    if h : line.toNat < 8 then (senseOf sense).map fun x => .line ⟨line.toNat, h⟩ x else none
  else none

/-- The mode of a program record with the fields that mode uses; the others are not decoded (R67). -/
def modeOf (r : List Byte) : Option Mode :=
  let paced : Option (Activation × Policy) :=
    match activationOf (byteAt r 22) (byteAt r 23) (byteAt r 24), policyOf (byteAt r 25) with
    | some a, some p => some (a, p)
    | _, _ => none
  if byteAt r 0 = 0 then paced.map fun x => .single x.1 x.2
  else if byteAt r 0 = 1 then paced.map fun x => .cyclic x.1 x.2
  else if byteAt r 0 = 2 then
    match paced, blockSideOf (byteAt r 21) with
    | some x, some side =>
      if 1 ≤ wordAt r 19 ∧ wordAt r 19 ≤ 256 then some (.block x.1 x.2 (wordAt r 19) side) else none
    | _, _ => none
  else if byteAt r 0 = 3 then (pacingOf (byteAt r 1)).map fun x => .sweep x
  else none

/-- The chain byte of a program record: absent, or a channel 0 to 15. -/
def chainOf (b : Byte) : Option (Option Chan) :=
  if b = 0xFF then some none else (chanOf b).map some

/-- A side of a program record from its place on: a handle, a start offset of at most 262,143 and a step. -/
def sideOf (r : List Byte) (k : Nat) : Option Side :=
  match stepOf (byteAt r (k + 5)) with
  | some step =>
    if tripleAt r (k + 2) < memoryBytes then some { handle := handleAt r k, start := tripleAt r (k + 2), step } else none
  | none => none

/-- The notify byte; unnamed bits are ignored (R177). -/
def notifyOf (b : Byte) : NotifySet :=
  { done := b.getLsbD 0, wrap := b.getLsbD 1, stop := b.getLsbD 2 }

/-- The range and consistency check of PROGRAM over the 28-byte record: the program it spells, or none for BAD_ARG (R67). -/
def programOf (r : List Byte) : Option Program :=
  match modeOf r, unitOf (byteAt r 2), sideOf r 4, sideOf r 10, chainOf (byteAt r 27) with
  | some mode, some unit, some source, some dest, some chain =>
    if h : (byteAt r 3).toNat < 4 then
      if 1 ≤ tripleAt r 16 ∧ tripleAt r 16 ≤ 65536 ∧ !(mode.isCyclic && chain.isSome) then
        some { mode, unit, cls := ⟨(byteAt r 3).toNat, h⟩, source, dest, count := tripleAt r 16
               notify := notifyOf (byteAt r 26), chain }
      else none
    else none
  | _, _, _, _, _ => none

def Side.encode (x : Side) : List Byte := handleBytes x.handle ++ bytes3 x.start ++ [x.step.code]

def Mode.code : Mode → Byte
  | .single _ _ => 0
  | .cyclic _ _ => 1
  | .block _ _ _ _ => 2
  | .sweep _ => 3

/-- Bytes 22 to 25 of the program record: activation, line, sense and policy, as far as the mode uses them. -/
def Mode.pacedBytes (m : Mode) : List Byte :=
  match m.activation, m.policy with
  | some .soft, some p => [0, 0xFF, 0xFF, p.code]
  | some (.line l s), some p => [1, byteOf l.val, s.code, p.code]
  | _, _ => absentBytes 4

/-- Bytes 19 to 21 of the program record: block length and block side under BLOCK. -/
def Mode.blockBytes : Mode → List Byte
  | .block _ _ b side => bytes2 b ++ [side.code]
  | _ => absentBytes 3

/-- Byte 1 of the program record: the pacing of a SWEEP. -/
def Mode.pacingByte : Mode → Byte
  | .sweep x => x.code
  | _ => 0xFF

/-- The program record as QUERY_CHANNEL sends it (section 11.5): 28 bytes. -/
def Program.encode (g : Program) : List Byte :=
  [g.mode.code, g.mode.pacingByte, byteOf g.unit.bytes, byteOf g.cls.val] ++ g.source.encode ++ g.dest.encode ++
    bytes3 g.count ++ g.mode.blockBytes ++ g.mode.pacedBytes ++
    [flagByte [g.notify.done, g.notify.wrap, g.notify.stop], (g.chain.map chanByte).getD 0xFF]

/-- The channel record as QUERY_CHANNEL sends it (R74, section 11.5): 48 bytes. -/
def Channel.encode (x : Channel) : List Byte :=
  [x.state.code, (x.lessee.map portByte).getD 0xFF] ++ (x.program.map Program.encode).getD (absentBytes 28) ++
    bytes3 x.run.sourceOffset ++ bytes3 x.run.destOffset ++ bytes3 x.run.remaining ++ bytes2 x.run.blockRemaining ++
    [flagByte [x.run.latch, x.run.overrunSeen, x.run.inService, x.run.unitInFlight]] ++ bytes2 x.run.wrapCount.toNat ++
    requestBytes x.recorded ++ [x.outcome.code, (x.suspension.map SuspendCause.code).getD 0xFF]

end Sys2Proof.Machine
end

