-- ==== Sys2Proof/Machine/Flags.lean ====
section
/-! DEFINITION. The flags a host sees without a command: the status summary (R152), the link answer (R153), the status block
(R155) and the interrupt line (R175). -/

namespace Sys2Proof.Machine

/-- Whether port `p`'s CLR input is sampled low: the port is held closed (R147). -/
def State.heldClosed (s : State) (p : Port) : Bool := look s.pins.clr p == .low

/-- INTk is asserted while a result waits and interrupt on result is on, or an event waits and interrupt on event is on
(R175). -/
def Link.interrupt (l : Link) : Bool :=
  (l.settings.onResult && !l.results.isEmpty) || (l.settings.onEvent && !l.events.isEmpty)

def State.interrupt (s : State) (p : Port) : Bool := (s.link p).interrupt

/-- The link state of the summary: bits 7 and 6 (section 11.2). -/
def linkStateCode (notReady : Bool) (x : Session) : Nat :=
  if notReady then 0 else match x with
    | .closed => 1
    | .opened => 2
    | .closing => 3

/-- The status summary (R152, section 11.2): in the NOT_READY period the queue fields and the malformed field are clear. -/
def State.summary (s : State) (p : Port) : Byte :=
  let l := s.link p
  let ready := !l.notReady
  flagByte [s.heldClosed p, s.halted p, ready && l.malformed, ready && !l.events.isEmpty, ready && !l.results.isEmpty,
    ready && decide (l.commands.length < Config.commandRoom)] + byteOf (64 * linkStateCode l.notReady (s.session p))

/-- The status block, 8 bytes (R155, section 11.2). -/
def State.statusBlock (s : State) (p : Port) : List Byte :=
  let l := s.link p
  [portByte p, (s.session p).code, s.table.quotaMode.code, byteOf l.commands.length, byteOf l.results.length,
    byteOf l.events.length,
    flagByte [l.malformed, l.settings.onResult, l.settings.onEvent, l.settings.reportDenials, l.interrupt, s.halted p,
      s.heldClosed p],
    flagByte ((indices 8).map fun n => look s.pins.trg n == .high)]

/-- The link answer, decided when the code byte is complete (R153, R154). A frame whose SELk fell in the NOT_READY period, and
a frame that comes while an earlier window access of the link is still pending, are answered NOT_READY whatever their code. -/
def State.linkAnswer (s : State) (p : Port) (fellNotReady : Bool) (code : Byte) : LinkAnswer :=
  let l := s.link p
  if fellNotReady || l.window.isSome then .notReady
  else if code = 0x02 then
    if s.session p = .closing then .closing
    else if Config.commandRoom ≤ l.commands.length then .full
    else if s.heldClosed p then .held
    else .accepted
  else if code = 0x03 then (if l.results.isEmpty then .empty else .accepted)
  else if code = 0x04 then (if l.events.isEmpty then .empty else .accepted)
  else if code = 0x01 ∨ code = 0x05 ∨ code = 0x06 then .accepted
  else .malformed

end Sys2Proof.Machine
end

