-- ==== Sys2Proof/Machine/Regions.lean ====
section
/-! DEFINITION. The region commands (chapter 1): ALLOCATE, FREE, PIN, UNPIN, LABEL, FIND, QUERY_REGION and QUERY_SPACE. -/

namespace Sys2Proof.Machine

/-- The lowest UNUSED slot (R8, R9). -/
def State.freeSlot (s : State) : Option Slot :=
  (indices 64).find? fun i => (s.region i).state == .unused

/-- Whether a port may own `length` more granules and one more region; always under OPEN (R8, R47). -/
def State.quotaAllows (s : State) (p : Port) (length : Nat) : Bool :=
  s.table.quotaMode == .openMode ||
    (decide ((s.quota p).granules + length ≤ Config.splitGranules) && decide ((s.quota p).regions < Config.splitRegions))

/-- The base an ALLOCATE gets: the given one under AT, the lowest that fits under FIRST_FIT (R8, R9). -/
def State.place (s : State) (atBase : Bool) (base length : Nat) : Option Nat :=
  if atBase then (if runFree s.table.granules base length then some base else none)
  else firstFit s.table.granules length (granuleCount - length + 1) 0

/-- The state after a region is placed in a slot (R10). -/
def State.placeRegion (s : State) (p : Port) (i : Slot) (base length label : Nat) : State :=
  let q := s.quota p
  let s := s.setRegion i
    { gen := (s.region i).gen, state := .live, owner := p, base, length, label, pinned := false, grants := noGrants
      refs := 0, offer := none }
  let s := s.setQuota p { q with granules := q.granules + length, regions := q.regions + 1 }
  s.setGranules (holdRun s.table.granules base length)

/-- ALLOCATE (R8 to R10). -/
def execAllocate (p : Port) (s : State) : Res :=
  s.command p 0x04 7 fun args t =>
    let length := wordAt args 0
    let label := wordAt args 2
    let placement := byteAt args 4
    let base := wordAt args 5
    if length = 0 ∨ granuleCount < length ∨ (placement ≠ 0 ∧ placement ≠ 1) ∨
        (placement = 1 ∧ (granuleCount ≤ base ∨ granuleCount < base + length)) then t.refuse .badArg
    else match t.freeSlot with
      | none => t.refuse .noSlot
      | some i =>
        if !t.quotaAllows p length then t.refuse .quota
        else match t.place (placement == 1) base length with
          | none => t.refuse .noSpace
          | some g => (t.placeRegion p i g length label).accepted (handleBytes (t.handle i) ++ bytes2 g)

/-- The checks FREE, PIN, UNPIN and LABEL begin with: current, owner, LIVE (R13, R21, R22). -/
def State.ownedLive (s : State) (p : Port) (h : Handle) : Except ResultCode Slot :=
  match s.current h with
  | none => .error .noRegion
  | some i =>
    if (s.region i).owner ≠ p then .error .notOwner
    else if (s.region i).state ≠ .live then .error .retiring
    else .ok i

/-- FREE (R13 to R15). -/
def execFree (p : Port) (s : State) : Res :=
  s.command p 0x05 2 fun args t =>
    match t.ownedLive p (handleAt args 0) with
    | .error code => t.refuse code
    | .ok i =>
      if (t.region i).pinned then t.refuse .pinned
      else if (t.region i).offer.isSome then t.refuse .offerPending
      else
        let u := t.freeRegion i
        u.accepted [(u.region i).state.code]

/-- PIN and UNPIN (R21). -/
def State.setPinned (s : State) (p : Port) (h : Handle) (pinned : Bool) : State × Option Reply :=
  match s.ownedLive p h with
  | .error code => s.refuse code
  | .ok i => (s.setRegion i { s.region i with pinned }).accepted [yesNo (s.region i).pinned]

/-- PIN (R21). -/
def execPin (p : Port) (s : State) : Res :=
  s.command p 0x06 2 fun args t => t.setPinned p (handleAt args 0) true

/-- UNPIN (R21). -/
def execUnpin (p : Port) (s : State) : Res :=
  s.command p 0x07 2 fun args t => t.setPinned p (handleAt args 0) false

/-- LABEL (R22). -/
def execLabel (p : Port) (s : State) : Res :=
  s.command p 0x08 4 fun args t =>
    match t.ownedLive p (handleAt args 0) with
    | .error code => t.refuse code
    | .ok i => (t.setRegion i { t.region i with label := wordAt args 2 }).accepted []

/-- The lowest LIVE slot from a first slot on that carries a label (R23). -/
def State.findLabel (s : State) (label first : Nat) : Option Slot :=
  (indices 64).find? fun i => decide (first ≤ i.val) && (s.region i).state == .live && (s.region i).label == label

/-- FIND (R23). -/
def execFind (p : Port) (s : State) : Res :=
  s.command p 0x09 3 fun args t =>
    let label := wordAt args 0
    let first := (byteAt args 2).toNat
    if label = 0 ∨ 63 < first then t.refuse .badArg
    else match t.findLabel label first with
      | none => t.refuse .notFound
      | some i =>
        let r := t.region i
        t.accepted (handleBytes (t.handle i) ++ portByte r.owner :: (bytes2 r.base ++ bytes2 r.length))

/-- The offer fields of QUERY_REGION: target and remaining time, 0xFF and 0 when absent (section 11.4). -/
def offerBytes : Option Offer → List Byte
  | none => 0xFF :: bytes2 0
  | some o => portByte o.target :: bytes2 o.remaining

/-- QUERY_REGION (R24). -/
def execQueryRegion (p : Port) (s : State) : Res :=
  s.command p 0x0A 2 fun args t =>
    match t.current (handleAt args 0) with
    | none => t.refuse .noRegion
    | some i =>
      let r := t.region i
      t.accepted ([r.state.code, portByte r.owner] ++ bytes2 r.base ++ bytes2 r.length ++ bytes2 r.label ++
        [yesNo r.pinned, byteOf r.refs, (t.rights p i).code] ++ offerBytes r.offer)

/-- The granules held by regions in SCRUBBING (R25). -/
def State.scrubbingGranules (s : State) : Nat :=
  ((indices 64).map fun i => if (s.region i).state = .scrubbing then (s.region i).length else 0).sum

/-- QUERY_SPACE (R25); the usage fields are 0 under OPEN. -/
def execQuerySpace (p : Port) (s : State) : Res :=
  s.command p 0x0B 0 fun _ t =>
    let free := countFree t.table.granules granuleCount 0 0 0 0
    let usage : Quota := match t.table.quotaMode with
      | .openMode => { granules := 0, regions := 0, channels := 0 }
      | .split => t.quota p
    t.accepted (bytes2 free.1 ++ bytes2 free.2 ++ bytes2 t.scrubbingGranules ++ bytes2 usage.granules ++
      [byteOf usage.regions, byteOf usage.channels])

end Sys2Proof.Machine
end

