-- ==== Sys2Proof/Machine/Channels.lean ====
section
/-! DEFINITION. The lease and program commands (chapter 4): LEASE, RELEASE, PROGRAM, QUERY_CHANNEL and LIST_CHANNELS. -/

namespace Sys2Proof.Machine

/-- A channel command that only the lessee may give: the channel number, then, behind the orders sent before, the lessee
(R61, R62). -/
def State.lesseeCommand (s : State) (p : Port) (opcode : Byte) (argLength : Nat)
    (body : List Byte → Chan → State → State × Option Reply) : Res :=
  s.command p opcode argLength fun args t =>
    match chanOf (byteAt args 0) with
    | none => t.refuse .badArg
    | some c =>
      let u := t.drainOrders
      if (u.channel c).lessee ≠ some p then u.refuse .notLessee else body args c u

/-! ### LEASE and RELEASE -/

/-- The channel a LEASE gets: the named one if it is FREE, the lowest FREE one under ANY (R63). -/
def State.leasable (s : State) (wanted : Option Chan) : Option Chan :=
  match wanted with
  | some c => if (s.channel c).state = .free then some c else none
  | none => (indices 16).find? fun c => (s.channel c).state == .free

/-- A channel just leased (R63). -/
def Channel.leasedTo (p : Port) : Channel := { Channel.empty with state := .leased, lessee := some p }

/-- The caller's lease count moves. -/
def State.setLeases (s : State) (p : Port) (n : Nat) : State := s.setQuota p { s.quota p with channels := n }

/-- LEASE of a channel, or of any when none is wanted (R63). -/
def State.leaseChannel (s : State) (p : Port) (wanted : Option Chan) : State × Option Reply :=
  match s.leasable wanted with
  | none => s.refuse .noChannel
  | some c =>
    if s.table.quotaMode = .split ∧ Config.splitChannels ≤ (s.quota p).channels then s.refuse .quota
    else ((s.setChannel c (Channel.leasedTo p)).setLeases p ((s.quota p).channels + 1)).accepted [chanByte c]

/-- LEASE (R62, R63): the channel byte 0xFF means ANY. -/
def execLease (p : Port) (s : State) : Res :=
  s.command p 0x12 1 fun args t =>
    if byteAt args 0 = 0xFF then t.drainOrders.leaseChannel p none
    else match chanOf (byteAt args 0) with
      | none => t.refuse .badArg
      | some c => t.drainOrders.leaseChannel p (some c)

/-- RELEASE (R64). -/
def execRelease (p : Port) (s : State) : Res :=
  s.lesseeCommand p 0x13 1 fun _ c t =>
    let x := t.channel c
    if x.recorded.isSome then t.refuse .busy
    else if x.state ≠ .leased ∧ x.state ≠ .programmed then t.refuse .wrongState
    else (((t.setChannel c Channel.empty).notify x.releases).setLeases p ((t.quota p).channels - 1)).accepted [x.state.code]

/-! ### PROGRAM -/

/-- The region check of one side: current, then LIVE (R69). -/
def State.sideRegion (s : State) (h : Handle) : Except ResultCode Slot :=
  match s.current h with
  | none => .error .noRegion
  | some i => if (s.region i).state = .live then .ok i else .error .retiring

/-- The units a side moves before its offset returns to its start (R71). -/
def Program.sideUnits (g : Program) (side : BlockSide) : Nat :=
  match g.mode with
  | .block _ _ b blockSide => if blockSide = side then b else b * g.count
  | _ => g.count

/-- The span check of one side of `units` units in a region of `length` bytes (R71). -/
def Side.spanOk (x : Side) (unit units length : Nat) : Bool :=
  match x.step with
  | .advance => x.start + units * unit ≤ length
  | .retreat => (units - 1) * unit ≤ x.start && x.start + unit ≤ length
  | .hold => x.start + unit ≤ length

/-- The checks of PROGRAM from the region check on (R69 to R71): the slots of both sides, or the code of the first that
fails. -/
def State.checkProgram (s : State) (p : Port) (g : Program) : Except ResultCode (Slot × Slot) :=
  match s.sideRegion g.source.handle with
  | .error code => .error code
  | .ok i =>
    match s.sideRegion g.dest.handle with
    | .error code => .error code
    | .ok j =>
      let u := g.unit.bytes
      if !((s.rights p i).hasRead && (s.rights p j).hasWrite) then .error .noRight
      else if g.source.start % u ≠ 0 ∨ g.dest.start % u ≠ 0 then .error .align
      else if !(g.source.spanOk u (g.sideUnits .source) (granuleBytes * (s.region i).length) &&
          g.dest.spanOk u (g.sideUnits .dest) (granuleBytes * (s.region j).length)) then .error .span
      else .ok (i, j)

/-- One reference more on the region in a slot (R72). -/
def State.addReference (s : State) (i : Slot) : State :=
  s.setRegion i { s.region i with refs := (s.region i).refs + 1 }

/-- One reference fewer on the region a handle's slot names. -/
def State.dropReference (s : State) (h : Handle) : State :=
  match h.slot? with
  | none => s
  | some i => s.setRegion i { s.region i with refs := (s.region i).refs - 1 }

/-- The references of an older program dropped in the taking of the PROGRAM that replaces it (R72). -/
def State.dropProgram (s : State) : Option Program → State
  | none => s
  | some g => (s.dropReference g.source.handle).dropReference g.dest.handle

/-- The state after a PROGRAM that passes every check (R72). -/
def State.install (s : State) (c : Chan) (g : Program) (i j : Slot) : State :=
  let x := s.channel c
  let s := ((s.addReference i).addReference j).dropProgram x.program
  s.setChannel c { x with state := .programmed, program := some g, run := g.initialRun false }

/-- PROGRAM (R66 to R72). -/
def execProgram (p : Port) (s : State) : Res :=
  s.lesseeCommand p 0x14 29 fun args c t =>
    let x := t.channel c
    if x.recorded.isSome then t.refuse .busy
    else if x.state ≠ .leased ∧ x.state ≠ .programmed then t.refuse .wrongState
    else match programOf args.tail with
      | none => t.refuse .badArg
      | some g =>
        match t.checkProgram p g with
        | .error code => t.refuse code
        | .ok (i, j) => (t.install c g i j).accepted [yesNo x.program.isSome]

/-! ### Queries -/

/-- QUERY_CHANNEL (R74): read at the channel controller's taking of the claim, behind the orders sent before. -/
def execQueryChannel (p : Port) (s : State) : Res :=
  s.command p 0x1A 1 fun args t =>
    match chanOf (byteAt args 0) with
    | none => t.refuse .badArg
    | some c =>
      let u := t.drainOrders
      u.accepted (u.channel c).encode

/-- LIST_CHANNELS (R75): sixteen entries of state and lessee, C0 first. -/
def execListChannels (p : Port) (s : State) : Res :=
  s.command p 0x1B 0 fun _ t =>
    let u := t.drainOrders
    u.accepted ((indices 16).flatMap fun c =>
      [(u.channel c).state.code, ((u.channel c).lessee.map portByte).getD 0xFF])

end Sys2Proof.Machine
end

