-- ==== Sys2Proof/Machine/Activation.lean ====
section
/-! DEFINITION. Arming and activation (chapter 5): ARM, TRIGGER, the level change of a trigger line and the edge claim it sends. -/

namespace Sys2Proof.Machine

/-- ARM (R76, R77). -/
def execArm (p : Port) (s : State) : Res :=
  s.lesseeCommand p 0x15 1 fun _ c t =>
    let x := t.channel c
    match x.program with
    | none => t.refuse .noProgram
    | some g =>
      if x.state ≠ .programmed then t.refuse .wrongState
      else if t.halted p then t.refuse .halted
      else (t.setChannel c (x.armed g)).accepted [x.outcome.code]

def Activated.code : Activated → Byte
  | .latched => 0
  | .merged => 1
  | .stopping => 2

/-- Whether a channel is ARMED or RUNNING: the states that take activations (R57). -/
def Channel.takesActivations (x : Channel) : Bool := x.state == .armed || x.state == .running

/-- TRIGGER (R89). -/
def execTrigger (p : Port) (s : State) : Res :=
  s.lesseeCommand p 0x19 1 fun _ c t =>
    let x := t.channel c
    if !x.takesActivations || (x.program.map fun g => g.mode.isSweep).getD true then t.refuse .wrongState
    else (t.commit c (activate c x).1).accepted [(activate c x).2.code]

/-! ### The trigger unit (R79 to R81) -/

/-- The other level. -/
def flipLevel : Level → Level
  | .low => .high
  | .high => .low

/-- Whether the trigger unit and the halt inputs send claims: not while RESET is asserted, and not in the start-up clear
(R81, R129). -/
def State.sendsClaims (s : State) : Bool := s.pins.reset == .high && !s.scrub.startup

/-- The sampled level of a line changes: the new level is recorded and one edge claim is sent (R79, R81). -/
def execTriggerLevelChange (n : Line) (s : State) : Res :=
  let old := look s.pins.trg n
  let t := s.setTrg n (flipLevel old)
  if s.sendsClaims then
    .next (t.setEdgeClaims (s.chan.edgeClaims ++ [{ line := n, edge := if old = .low then .rise else .fall }]))
  else .next t

/-- The sense an edge activates (R80). -/
def Edge.sense : Edge → Sense
  | .rise => .rise
  | .fall => .fall

/-- Whether an edge claim activates a channel: ARMED or RUNNING, its activation LINE with that line and sense (R80). -/
def Channel.selects (x : Channel) (claim : EdgeClaim) : Bool :=
  x.takesActivations &&
    (x.program.map fun g => g.mode.activation == some (.line claim.line claim.edge.sense)).getD false

/-- The taking of an edge claim (R80): one activation at each channel that selects it, in an order that `order` supplies. -/
def State.takeEdge (s : State) (claim : EdgeClaim) (order : List Chan) : State :=
  (arrange order (s.channelsWhere fun x => x.selects claim)).foldl
    (fun t c => t.commit c (activate c (t.channel c)).1) s

/-- EDGE_CLAIM: the oldest waiting claim of the line is taken (R79, R80). -/
def execEdgeClaim (n : Line) (order : List Chan) (s : State) : Res :=
  match s.chan.edgeClaims.find? fun k => k.line == n with
  | none => .next s
  | some claim =>
    .next ((s.setEdgeClaims (s.chan.edgeClaims.erase claim)).takeEdge claim order)

end Sys2Proof.Machine
end

