-- ==== Sys2Proof/Machine/Stops.lean ====
section
/-! DEFINITION. Suspension, halt and stop orders (chapter 7): SUSPEND, DISARM, RESUME, the HALT inputs and their claim, and the
taking of a DISCARD or TEARDOWN order. -/

namespace Sys2Proof.Machine

/-- APPLIED or RECORDED: whether a unit is in flight for the channel (R126, R127). -/
def Channel.recordedByte (x : Channel) : Byte := yesNo x.run.unitInFlight

/-- SUSPEND (R126). -/
def execSuspend (p : Port) (s : State) : Res :=
  s.lesseeCommand p 0x17 1 fun _ c t =>
    let x := t.channel c
    if x.recorded.isSome then t.refuse .busy
    else if !x.takesActivations then t.refuse .wrongState
    else (t.commit c (makeRequest c x (.suspend .command))).accepted [x.recordedByte]

/-- Whether a recorded request refuses a DISARM: any but a SUSPEND does (R127). -/
def Channel.refusesDisarm (x : Channel) : Bool :=
  match x.recorded with
  | none | some (.suspend _) => false
  | some (.abort _) | some (.discard _) | some .teardown => true

/-- DISARM (R127). -/
def execDisarm (p : Port) (s : State) : Res :=
  s.lesseeCommand p 0x16 1 fun _ c t =>
    let x := t.channel c
    if x.refusesDisarm then t.refuse .busy
    else if !x.takesActivations && x.state != .suspended then t.refuse .wrongState
    else (t.commit c (makeRequest c x (.abort .disarm))).accepted [x.recordedByte]

/-- A SUSPENDED channel resumed: ARMED with its progress kept (R128). -/
def Channel.resumed (x : Channel) : Channel :=
  { x with
    state := .armed, suspension := none
    run := { x.run with latch := (x.program.map fun g => g.mode.isSweep).getD false, inService := false } }

/-- RESUME (R128). -/
def execResume (p : Port) (s : State) : Res :=
  s.lesseeCommand p 0x18 1 fun _ c t =>
    let x := t.channel c
    if x.state ≠ .suspended then t.refuse .wrongState
    else if t.halted p then t.refuse .halted
    else (t.setChannel c x.resumed).accepted [(x.suspension.map SuspendCause.code).getD 0xFF]

/-! ### The HALT inputs (R129, R130) -/

/-- A sampled fall of HALTk is recorded and sends a halt claim (R129). -/
def execHaltFall (p : Port) (s : State) : Res :=
  if look s.pins.halt p = .low then .next s
  else
    let t := s.setHalt p .low
    if s.sendsClaims then .next (t.setHaltClaims (s.chan.haltClaims ++ [p]))
    else .next t

/-- A sampled rise of HALTk is recorded as the new level (R129, R130). -/
def execHaltRise (p : Port) (s : State) : Res := .next (s.setHalt p .high)

/-- The taking of a halt claim: a SUSPEND request with cause HALT at each ARMED or RUNNING channel the port leases, in an order
that `order` supplies (R129). -/
def State.takeHalt (s : State) (p : Port) (order : List Chan) : State :=
  (arrange order (s.channelsWhere fun x => x.lessee == some p && x.takesActivations)).foldl
    (fun t c => t.commit c (makeRequest c (t.channel c) (.suspend .halt))) s

/-- HALT_CLAIM: a waiting halt claim of the port is taken (R129). -/
def execHaltClaim (p : Port) (order : List Chan) (s : State) : Res :=
  if s.chan.haltClaims.contains p then
    .next ((s.setHaltClaims (s.chan.haltClaims.erase p)).takeHalt p order)
  else .next s

/-! ### Orders of the table controller (R61, R123, R124) -/

def OrderKind.isTeardown : OrderKind → Bool
  | .teardown => true
  | .discard _ _ => false

/-- The taking of the order for a channel among those of the oldest batch, a TEARDOWN or a DISCARD as asked: the orders of later
takings wait behind the whole batch (R61). -/
def State.takeOrderOf (s : State) (c : Chan) (teardown : Bool) : State :=
  match s.chan.orders with
  | [] => s
  | batch :: later =>
    match batch.find? fun o => o.channel == c && o.kind.isTeardown == teardown with
    | none => s
    | some o =>
      let left := batch.erase o
      (s.setOrders (if left.isEmpty then later else left :: later)).takeOrder o

/-- DISCARD_ORDER (R32, R118, R119, R123). -/
def execDiscardOrder (c : Chan) (s : State) : Res := .next (s.takeOrderOf c false)

/-- TEARDOWN_ORDER (R118, R119, R124). -/
def execTeardownOrder (c : Chan) (s : State) : Res := .next (s.takeOrderOf c true)

end Sys2Proof.Machine
end

