-- ==== Sys2Proof/Machine/Engine.lean ====
section
/-! DEFINITION. The transfer engine (chapter 6): the arbiter, the unit-start claim, the unit's read and write, and the taking of
its end report. -/

namespace Sys2Proof.Machine

/-! ### Requests and the arbiter (R86, R87, R94, R95) -/

/-- Whether a level-sensed program's line is at its active level (R86). -/
def State.levelActive (s : State) (g : Program) : Bool :=
  match g.mode.activation with
  | some (.line n .high) => look s.pins.trg n == .high
  | some (.line n .low) => look s.pins.trg n == .low
  | some (.line _ .rise) | some (.line _ .fall) | some .soft | none => false

/-- Whether an ARMED channel is ready (R87). -/
def State.ready (s : State) (x : Channel) (g : Program) : Bool := x.run.latch || s.levelActive g

/-- Whether a channel requests service (R94). -/
def State.requests (s : State) (c : Chan) : Bool :=
  let x := s.channel c
  match x.program with
  | none => false
  | some g =>
    x.recorded.isNone &&
      ((x.state == .armed && s.ready x g) || (x.state == .running && !x.run.unitInFlight))

/-- The class of a channel's program (R66). -/
def State.classOf (s : State) (c : Chan) : Option PriorityClass := (s.channel c).program.map Program.cls

/-- The round-robin order of a class: from the channel after its pointer, wrapping from C15 to C0, to the pointer's own (R95). -/
def roundRobin (pointer : Chan) : List Chan := (indices 16).map fun k => pointer + 1 + k

/-- The winner among the requesting channels that are not passed over (R95). -/
def State.winner (s : State) (passed : List Chan) : Option Chan :=
  let asks := fun c => s.requests c && !passed.contains c
  match (indices 4).find? fun k => (indices 16).any fun c => asks c && s.classOf c == some k with
  | none => none
  | some k =>
    let order := roundRobin (look s.engine.pointers k)
    let mine := fun c => asks c && s.classOf c == some k
    match order.find? fun c => mine c && (s.channel c).state == .running with
    | some c => some c
    | none => order.find? mine

/-- The unit-start check for a channel (R34): with the bases of its source and destination regions when it passes (R96). -/
def State.unitStartCheck (s : State) (c : Chan) : Option (Nat × Nat) :=
  let x := s.channel c
  match x.lessee, x.program with
  | some p, some g =>
    match s.current g.source.handle, s.current g.dest.handle with
    | some i, some j =>
      if s.session p = .opened ∧ (s.region i).state = .live ∧ (s.region j).state = .live ∧
          (s.rights p i).hasRead ∧ (s.rights p j).hasWrite then
        some ((s.region i).base, (s.region j).base)
      else none
    | _, _ => none
  | _, _ => none

/-- The grant: winners that fail the check are passed over and the arbiter chooses again, `fuel` times at most (R96). -/
def State.grantFrom (s : State) : Nat → List Chan → Option (Chan × Nat × Nat)
  | 0, _ => none
  | fuel + 1, passed =>
    match s.winner passed with
    | none => none
    | some c =>
      match s.unitStartCheck c with
      | some bases => some (c, bases)
      | none => s.grantFrom fuel (c :: passed)

/-- The channel a unit-start claim grants, with the bases of its regions (R96); at most sixteen are looked at. -/
def State.granted (s : State) : Option (Chan × Nat × Nat) := s.grantFrom 16 []

/-! ### The unit start (R96, R97) -/

/-- Whether the latch stays set when a service begins: a SWEEP INTERLEAVED run with more than one unit left (R82, R97). -/
def Channel.keepsLatch (x : Channel) (g : Program) : Bool :=
  g.mode == .sweep .interleaved && decide (1 < x.run.remaining)

/-- The channel record when its unit starts: an ARMED channel begins a service (R97). -/
def Channel.started (x : Channel) (g : Program) : Channel :=
  if x.state = .armed then
    { x with
      state := .running
      run := { x.run with unitInFlight := true, inService := true, latch := x.run.latch && x.keepsLatch g } }
  else { x with run := { x.run with unitInFlight := true } }

/-- The state after a unit starts for a channel (R96, R97). -/
def State.startUnit (s : State) (c : Chan) (g : Program) (sourceBase destBase : Nat) : State :=
  let x := s.channel c
  let t := s.setChannel c (x.started g)
  t.setEngine
    { pointers := if x.state = .armed then put s.engine.pointers g.cls c else s.engine.pointers
      unit := some
        { channel := c, source := granuleBytes * sourceBase + x.run.sourceOffset
          dest := granuleBytes * destBase + x.run.destOffset, size := g.unit, buffer := [], dataError := false
          phase := .started } }

/-- UNIT_START: a grant, made while no unit is in flight (R93, R96). When no requesting channel passes, no unit starts. -/
def execUnitStart (s : State) : Res :=
  if s.engine.unit.isSome then .next s
  else match s.granted with
    | none => .next s
    | some (c, sourceBase, destBase) =>
      match (s.channel c).program with
      | none => .next s
      | some g => .next (s.startUnit c g sourceBase destBase)

/-! ### The unit (R99) -/

def State.setUnit (s : State) (u : UnitInFlight) : State := s.setEngine { s.engine with unit := some u }

/-- The read access of the unit in flight: one access, with its parity check (R2, R99). -/
def State.unitRead (s : State) (u : UnitInFlight) : Res :=
  let n := u.size.bytes
  if memoryBytes < u.source + n then .fault .noSuchByte
  else .next (s.setUnit { u with
    buffer := s.mem.readSpan u.source n, dataError := s.mem.spanError u.source n, phase := .readDone })

/-- The write access of the unit in flight, not made when the unit is marked, and its end report (R99). -/
def State.unitWrite (s : State) (u : UnitInFlight) : Res :=
  let t := s.setUnit { u with phase := .reported }
  if u.dataError then .next t
  else if memoryBytes < u.dest + u.buffer.length then .fault .noSuchByte
  else .next (t.setMem (s.mem.writeSpan u.dest u.buffer))

/-- UNIT_TRANSFER (R99): its two accesses, one at a time or both. -/
def execUnitTransfer (part : UnitPart) (s : State) : Res :=
  match s.engine.unit with
  | none => .next s
  | some u =>
    match part, u.phase with
    | .read, .started => s.unitRead u
    | .write, .readDone => s.unitWrite u
    | .both, .readDone => s.unitWrite u
    | .both, .started =>
      match s.unitRead u with
      | .next t =>
        match t.engine.unit with
        | none => .next t
        | some v => t.unitWrite v
      | stop => stop
    | .read, .readDone | .read, .reported | .write, .started | .write, .reported | .both, .reported => .next s

/-! ### The end of the unit (R100 to R106) -/

/-- An offset after a unit; none where RETREAT would take it below 0 (R101). -/
def OffsetStep.move (step : OffsetStep) (unit offset : Nat) : Option Nat :=
  match step with
  | .advance => some (offset + unit)
  | .retreat => if unit ≤ offset then some (offset - unit) else none
  | .hold => some offset

/-- The offset a side shows after a unit: its start value where the moved one cannot be held (R101, R105). -/
def Side.moved (x : Side) (unit offset : Nat) : Nat := (x.step.move unit offset).getD x.start

/-- What the unit-end processing leaves (R101 to R106): the channel, the event of a wrap or a completion, and whether the run
completed. -/
structure UnitEnd where
  channel : Channel
  events : List Event
  completed : Bool
deriving DecidableEq, Repr

/-- The service has ended and the run has not completed (R106). -/
def Channel.rearmed (x : Channel) (run : RunState) : UnitEnd :=
  { channel := { x with state := .armed, run := { run with inService := false } }, events := [], completed := false }

/-- The run completes (R105). -/
def Channel.completed (c : Chan) (x : Channel) (g : Program) (run : RunState) : UnitEnd :=
  { channel := { x with state := .programmed, outcome := .complete, run := { run with inService := false } }
    events := if g.notify.done then [.channelDone c run.overrunSeen] else []
    completed := true }

/-- The unit-end processing of a unit without a data-error mark (R101 to R106). -/
def unitEnd (c : Chan) (x : Channel) (g : Program) : UnitEnd :=
  let u := g.unit.bytes
  let run : RunState := { x.run with
    sourceOffset := g.source.moved u x.run.sourceOffset, destOffset := g.dest.moved u x.run.destOffset }
  match g.mode with
  | .block _ _ b side =>
    if 1 < run.blockRemaining then
      { channel := { x with run := { run with blockRemaining := run.blockRemaining - 1 } }, events := [], completed := false }
    else
      let run : RunState := { run with
        sourceOffset := if side = .source then g.source.start else run.sourceOffset
        destOffset := if side = .dest then g.dest.start else run.destOffset
        blockRemaining := b, remaining := run.remaining - 1 }
      if run.remaining = 0 then x.completed c g run else x.rearmed run
  | .single _ _ =>
    let run : RunState := { run with remaining := run.remaining - 1 }
    if run.remaining = 0 then x.completed c g run else x.rearmed run
  | .cyclic _ _ =>
    let run : RunState := { run with remaining := run.remaining - 1 }
    if run.remaining = 0 then
      let run : RunState := { run with
        sourceOffset := g.source.start, destOffset := g.dest.start, remaining := g.count, wrapCount := run.wrapCount + 1 }
      { x.rearmed run with events := if g.notify.wrap then [.channelWrap c run.wrapCount run.overrunSeen] else [] }
    else x.rearmed run
  | .sweep pacing =>
    let run : RunState := { run with remaining := run.remaining - 1 }
    if run.remaining = 0 then x.completed c g run
    else if pacing = .interleaved then x.rearmed run
    else { channel := { x with run }, events := [], completed := false }

/-! ### Chains and data errors (R110 to R115) -/

/-- Why the chain of a completing channel to `target` fails, if it does (R110). -/
def State.chainFailure (s : State) (lessee : Option Port) (target : Chan) : Option ChainReason :=
  let x := s.channel target
  if x.lessee ≠ lessee ∨ lessee = none then some .notLessee
  else if x.state ≠ .programmed then some .wrongState
  else if (lessee.map s.halted).getD false then some .halted
  else none

/-- The chain of a completed channel followed (R110, R111). -/
def State.followChain (s : State) (c : Chan) (lessee : Option Port) : Option Chan → State
  | none => s
  | some target =>
    let x := s.channel target
    match s.chainFailure lessee target with
    | some reason =>
      match lessee with
      | none => s
      | some p => s.offerEvent p (.chainFailed c target reason)
    | none =>
      match x.program with
      | none => s
      | some g => s.setChannel target (x.armed g)

/-- A data-error mark at the end of a unit, settled by strength against a recorded request (R114, R115). -/
def dataErrorEnd (c : Chan) (x : Channel) : Effect :=
  match x.recorded with
  | some (.discard cause) => applyDiscard c x cause true
  | some .teardown => applyTeardown c x
  | none | some (.suspend _) | some (.abort _) =>
    { channel := x.stopped .dataError, events := [.channelStopped c .dataError true], notices := [] }

/-- An effect with events before its own. -/
def Effect.after (e : Effect) (events : List Event) : Effect := { e with events := events ++ e.events }

/-- The recorded request applied at the end of a unit that does not complete the run (R119, R125). -/
def recordedEnd (c : Chan) (x : Channel) : Effect :=
  match x.recorded with
  | none => Effect.keep x
  | some q => applyRequest c { x with recorded := none } false q

/-- A completion and a recorded request combined: what takes the program away, if anything does (R125). -/
def completedEnd (c : Chan) (x : Channel) : Effect :=
  match x.recorded with
  | some (.discard cause) => applyDiscard c x cause false
  | some .teardown => applyTeardown c x
  | none | some (.suspend _) | some (.abort _) => Effect.keep { x with recorded := none }

/-- Whether the chain of a completed channel is followed: not when a recorded request takes the program away (R125). -/
def Channel.followsChain (x : Channel) : Bool :=
  match x.recorded with
  | some (.discard _) | some .teardown => false
  | none | some (.suspend _) | some (.abort _) => true

/-- The taking of the end report of the unit in flight (R100). -/
def State.takeEndReport (s : State) (u : UnitInFlight) : State :=
  let c := u.channel
  let s := s.setEngine { s.engine with unit := none }
  let x := s.channel c
  let x := { x with run := { x.run with unitInFlight := false } }
  match x.program with
  | none => s.setChannel c x
  | some g =>
    if u.dataError then s.commit c (dataErrorEnd c x)
    else
      let e := unitEnd c x g
      if e.completed then
        let t := s.commit c ((completedEnd c e.channel).after e.events)
        if x.followsChain then t.followChain c x.lessee g.chain else t
      else s.commit c ((recordedEnd c e.channel).after e.events)

/-- UNIT_END_REPORT: the end report, once sent, is taken (R99, R100). -/
def execUnitEndReport (s : State) : Res :=
  match s.engine.unit with
  | none => .next s
  | some u => if u.phase = .reported then .next (s.takeEndReport u) else .next s

end Sys2Proof.Machine
end

