-- ==== Sys2Proof/Machine/GrantRights.lean ====
section
/-! DEFINITION. The rights commands (chapter 2): GRANT and RENOUNCE. -/

namespace Sys2Proof.Machine

/-- The rights of `old` that are missing from `new`. -/
def Rights.lostRead (old new : Rights) : Bool := old.hasRead && !new.hasRead

def Rights.lostWrite (old new : Rights) : Bool := old.hasWrite && !new.hasWrite

/-- Whether a channel is leased by a port and its program names a region on a side that needs a removed right: a source side
needs READ and a destination side needs WRITE (R32). -/
def Channel.needsRemoved (x : Channel) (p : Port) (h : Handle) (old new : Rights) : Bool :=
  x.lessee == some p &&
    (x.program.map fun g =>
      (old.lostRead new && g.source.handle == h) || (old.lostWrite new && g.dest.handle == h)).getD false

/-- A port's grant entry set to a value, with the DISCARD orders of R32 for each right removed. -/
def State.setGrant (s : State) (i : Slot) (p : Port) (new : Rights) : State :=
  let r := s.region i
  let old := look r.grants p
  (s.setRegion i { r with grants := put r.grants p new }).sendDiscards .revoked (s.handle i)
    fun x => x.needsRemoved p (s.handle i) old new

/-- The event a grantee gets for a GRANT: none when its entry stays equal, reason REVOKE when some right of the old entry is
missing from the new, reason GRANT otherwise (R31). -/
def grantEvents (h : Handle) (p : Port) (old new : Rights) : List (Port × Event) :=
  if old = new then []
  else [(p, .rightsChanged h new (if old.lostRead new || old.lostWrite new then .revoke else .grant))]

/-- GRANT (R30, R31). -/
def execGrant (p : Port) (s : State) : Res :=
  s.command p 0x0C 4 fun args t =>
    match t.ownedLive p (handleAt args 0) with
    | .error code => t.refuse code
    | .ok i =>
      match portOf (byteAt args 2), rightsOf (byteAt args 3) with
      | some q, some new =>
        if q = p ∨ t.session q ≠ .opened then t.refuse .badHost
        else
          let old := look (t.region i).grants q
          ((t.setGrant i q new).offerEvents (grantEvents (t.handle i) q old new)).accepted [old.code]
      | _, _ => t.refuse .badArg

/-- RENOUNCE (R33): no port receives an event. -/
def execRenounce (p : Port) (s : State) : Res :=
  s.command p 0x0D 2 fun args t =>
    match t.current (handleAt args 0) with
    | none => t.refuse .noRegion
    | some i =>
      if (t.region i).state ≠ .live then t.refuse .retiring
      else if (t.region i).owner = p then t.refuse .badHost
      else (t.setGrant i p .none).accepted [(look (t.region i).grants p).code]

end Sys2Proof.Machine
end

