-- ==== Sys2Proof/Machine/Handoff.lean ====
section
/-! DEFINITION. The handoff commands and the offer timer (chapter 3): OFFER, ACCEPT, DECLINE, WITHDRAW, the 1 ms tick, the run-out
of a timer and the taking of an expiry notice. -/

namespace Sys2Proof.Machine

/-- A slot's region with its offer removed. -/
def State.clearOffer (s : State) (i : Slot) : State := s.setRegion i { s.region i with offer := none }

/-- OFFER (R43, R44). -/
def execOffer (p : Port) (s : State) : Res :=
  s.command p 0x0E 5 fun args t =>
    match t.ownedLive p (handleAt args 0) with
    | .error code => t.refuse code
    | .ok i =>
      let r := t.region i
      let timeout := wordAt args 3
      if r.offer.isSome then t.refuse .offerPending
      else match portOf (byteAt args 2) with
        | none => t.refuse .badArg
        | some q =>
          if timeout = 0 then t.refuse .badArg
          else if q = p ∨ t.session q ≠ .opened then t.refuse .badHost
          else
            ((t.setRegion i { r with offer := some { target := q, remaining := timeout } }).offerEvent q
              (.offerReceived (t.handle i) p r.length r.label timeout)).accepted []

/-- The checks ACCEPT and DECLINE begin with: current, LIVE, offered to the caller (R47, R50). -/
def State.offeredTo (s : State) (p : Port) (h : Handle) : Except ResultCode Slot :=
  match s.current h with
  | none => .error .noRegion
  | some i =>
    if (s.region i).state ≠ .live then .error .retiring
    else match (s.region i).offer with
      | none => .error .notOffered
      | some o => if o.target = p then .ok i else .error .notOffered

/-- The record after an ACCEPT by `p` (R48). -/
def Region.handedTo (r : Region) (p : Port) : Region :=
  { r with owner := p, pinned := false, grants := put (put r.grants p .none) r.owner .none, offer := none }

/-- The quota counts after an ACCEPT: the length and one region move from the old owner to the new (R27, R48). -/
def State.moveQuota (s : State) (old new : Port) (length : Nat) : State :=
  let q := s.quota old
  let s := s.setQuota old { q with granules := q.granules - length, regions := q.regions - 1 }
  let q := s.quota new
  s.setQuota new { q with granules := q.granules + length, regions := q.regions + 1 }

/-- ACCEPT (R47 to R49). -/
def execAccept (p : Port) (s : State) : Res :=
  s.command p 0x10 2 fun args t =>
    match t.offeredTo p (handleAt args 0) with
    | .error code => t.refuse code
    | .ok i =>
      let r := t.region i
      let h := t.handle i
      if !t.quotaAllows p r.length then t.refuse .quota
      else
        ((((t.setRegion i (r.handedTo p)).moveQuota r.owner p r.length).offerEvent r.owner
          (.offerResolved h p .accepted)).sendDiscards .revoked h
            fun x => x.lessee == some r.owner && (x.program.map fun g => g.names h).getD false).accepted
          (bytes2 r.base ++ bytes2 r.length ++ bytes2 r.label ++ [yesNo r.pinned])

/-- DECLINE (R50). -/
def execDecline (p : Port) (s : State) : Res :=
  s.command p 0x11 2 fun args t =>
    match t.offeredTo p (handleAt args 0) with
    | .error code => t.refuse code
    | .ok i =>
      ((t.clearOffer i).offerEvent (t.region i).owner (.offerResolved (t.handle i) p .declined)).accepted []

/-- WITHDRAW (R51): the presence of an offer is checked before ownership. -/
def execWithdraw (p : Port) (s : State) : Res :=
  s.command p 0x0F 2 fun args t =>
    match t.current (handleAt args 0) with
    | none => t.refuse .noRegion
    | some i =>
      if (t.region i).state ≠ .live then t.refuse .retiring
      else match (t.region i).offer with
        | none => t.refuse .notOffered
        | some o =>
          if (t.region i).owner ≠ p then t.refuse .notOwner
          else ((t.clearOffer i).offerEvent o.target (.offerCancelled (t.handle i) p .withdrawn)).accepted
            (bytes2 o.remaining)

/-! ### The offer timer (R45, R46) -/

/-- A region whose offer timer the tick lowers by one. -/
def tickedRegion (r : Region) : Region :=
  { r with offer := r.offer.map fun o => { o with remaining := o.remaining - 1 } }

/-- The 1 ms tick lowers every remaining time above 0 by one; a timer the tick brings to 0 has run out (R45). -/
def execMsTick (s : State) : Res :=
  let due := (indices 64).filter fun i => ((s.region i).offer.map Offer.remaining) == some 1
  .next ((s.mapRegions tickedRegion).setExpiryDue (s.table.expiryDue ++ due))

/-- The run-out of a slot's offer timer raises its expiry notice, once (R45). -/
def execOfferTimerExpiry (i : Slot) (s : State) : Res :=
  if s.table.expiryDue.contains i then
    .next ((s.setExpiryDue (s.table.expiryDue.erase i)).notify [.offerExpiry i])
  else .next s

/-- What the taking of an expiry notice does (R46). -/
def State.expireOffer (s : State) (i : Slot) : State :=
  let r := s.region i
  match r.offer with
  | none => s
  | some o =>
    if r.state = .live ∧ o.remaining = 0 then
      (s.clearOffer i).offerEvents
        [(r.owner, .offerResolved (s.handle i) o.target .expired), (o.target, .offerCancelled (s.handle i) r.owner .expired)]
    else s

end Sys2Proof.Machine
end

