-- ==== Sys2Proof/Machine/Links.lean ====
section
/-! DEFINITION. Link framing (chapter 9): the parts of a frame, and the link transactions STATUS_READ, COMMAND_WRITE, RESULT_READ,
EVENT_READ, WINDOW_READ and WINDOW_WRITE, and the frame of an unknown code. -/

namespace Sys2Proof.Machine

/-- The marks and trailers of window frames (section 11.2). -/
def waitMark : Byte := 0xF0
def startMark : Byte := 0x0F
def trailerOk : Byte := 0xC1
def trailerDataError : Byte := 0xC2
def trailerDenied : Byte := 0xC3

/-! ### The fall of SELk and the code byte -/

/-- SELk falls: a frame begins, and the summary is captured (R151, R152). -/
def State.selectFrame (s : State) (p : Port) : State :=
  s.setLink p { s.link p with
    out := []
    frame := some
      { summary := s.summary p, notReady := (s.link p).notReady, code := none, answer := none, received := []
        toSend := [], live := false, closed := false } }

/-- What an answered transaction does at its code byte: STATUS_READ captures the block and clears the malformed flag (R155),
RESULT_READ and EVENT_READ remove the head record (R164, R172), an unknown code sets the malformed flag (R151). The second
component is what the hub has to send. DEDUCED (log entry 20): a frame of one byte does all of this too, although R152 says that
a host polls its port with one "without changing anything". -/
def State.answered (s : State) (p : Port) (code : Byte) (answer : LinkAnswer) : Link × List Byte :=
  let l := s.link p
  match answer with
  | .malformed => ({ l with malformed := true }, [])
  | .accepted =>
    if code = 0x01 then ({ l with malformed := false }, s.statusBlock p)
    else if code = 0x03 then
      ({ l with results := l.results.tail }, (l.results.head?.map ResultRecord.encode).getD [])
    else if code = 0x04 then
      ({ l with events := l.events.tail }, (l.events.head?.map Event.encode).getD [])
    else (l, [])
  | .full | .empty | .notReady | .closing | .held => (l, [])

/-- Whether the rest of the frame is taken in: after ACCEPTED, and after HELD, which is no refusal (R153). -/
def LinkAnswer.takesIn : LinkAnswer → Bool
  | .accepted | .held => true
  | .full | .empty | .notReady | .closing | .malformed => false

/-- The code byte is complete: the summary has gone out beside it and the link answer is decided (R151, R153). DEDUCED (log entry
21): the answer and what becomes of the record rest on the session from this moment on (R153, R156, R166), although R144 discards
a frame begun, at the fall of SELk, before a session close. -/
def State.codeByte (s : State) (p : Port) (code : Byte) : State :=
  match (s.link p).frame with
  | none => s
  | some f =>
    if f.code.isSome then s
    else
      let answer := s.linkAnswer p f.notReady code
      let done := s.answered p code answer
      s.setLink p { done.1 with
        out := [f.summary]
        frame := some { f with
          code := some code, answer := some answer, toSend := done.2, live := answer.takesIn, closed := false } }

/-! ### The bytes after the code byte -/

/-- The byte clocked out beside the next byte in, and what is left to send: the link answer beside the first byte, a wait mark
while the frame's window access is pending, then what the hub has to send, then zeros (R151, R165). -/
def Link.nextOut (l : Link) (f : Frame) : Byte × List Byte :=
  if f.received.isEmpty then ((f.answer.map LinkAnswer.code).getD 0, f.toSend)
  else if (l.window.map WindowRequest.framed).getD false then (waitMark, f.toSend)
  else match f.toSend with
    | [] => (0, [])
    | b :: rest => (b, rest)

/-- The start address of a window frame: the first three bytes after the code byte (section 11.2). -/
def windowAddr (received : List Byte) : BitVec 24 := BitVec.ofNat 24 (tripleAt received 0)

/-- The length of a window frame: the length byte plus one (R177). -/
def windowLength (received : List Byte) : Nat := (byteAt received 3).toNat + 1

/-- The link unit asks for the window check of the frame in progress (R165). -/
def Link.askWindow (l : Link) (direction : Direction) (received : List Byte) : Link :=
  { l with
    window := some
      { direction, addr := windowAddr received, length := windowLength received, admitted := false, framed := true } }

/-- A COMMAND_WRITE frame takes in a byte (R156): malformed at an argument length over 32; complete at the last declared byte,
where the record joins the command queue unless a session close was taken since the code byte. -/
def Link.commandByte (l : Link) (f : Frame) : Link :=
  let r := f.received
  let argLength := (byteAt r 2).toNat
  if r.length = 3 ∧ 32 < argLength then { l with malformed := true, frame := some { f with live := false } }
  else if 3 ≤ r.length ∧ r.length = 3 + argLength then
    { l with
      frame := some { f with live := false }
      commands := if f.closed then l.commands
        else l.commands ++ [{ opcode := byteAt r 0, tag := byteAt r 1, args := r.drop 3 }] }
  else l

/-- A WINDOW_READ frame takes in a byte: the check is asked for when the length field is complete (R38, R165). -/
def Link.windowReadByte (l : Link) (f : Frame) : Link :=
  if f.received.length = 4 then l.askWindow .read f.received else l

/-- A WINDOW_WRITE frame takes in a byte: data goes into the window write buffer, and the check is asked for when the last
declared data byte is complete (R39, R165). -/
def Link.windowWriteByte (l : Link) (f : Frame) (b : Byte) : Link :=
  let n := f.received.length
  let last := 4 + windowLength f.received
  if 4 < n ∧ n ≤ last then
    let l := { l with buffer := l.buffer ++ [b] }
    if n = last then l.askWindow .write f.received else l
  else l

/-- One byte is clocked in after the code byte, and one out beside it (R151). -/
def Link.clock (l : Link) (b : Byte) : Link :=
  match l.frame with
  | none => l
  | some f =>
    let sent := l.nextOut f
    let f := { f with received := f.received ++ [b], toSend := sent.2 }
    let l := { l with frame := some f, out := l.out ++ [sent.1] }
    if !f.live then l
    else if f.code = some 0x02 then l.commandByte f
    else if f.code = some 0x05 then l.windowReadByte f
    else if f.code = some 0x06 then l.windowWriteByte f b
    else l

/-! ### The rise of SELk -/

/-- Whether a frame that ends here is short (R156, R157): a command record not complete, a window header or its write data not
complete. -/
def Frame.short (f : Frame) : Bool :=
  let n := f.received.length
  f.live &&
    (f.code == some 0x02 || (f.code == some 0x05 && decide (n < 4)) ||
      (f.code == some 0x06 && decide (n < 4 ∨ n < 4 + windowLength f.received)))

/-- SELk rises: what is unsent is discarded, a short frame sets the malformed flag, and a short write's bytes are discarded
(R39, R151, R157). DEDUCED (log entry 20): a frame of the code byte alone can be short, although R152 says that a host polls its
port with one "without changing anything". -/
def Link.deselect (l : Link) : Link :=
  match l.frame with
  | none => l
  | some f =>
    { l with
      frame := none
      malformed := l.malformed || f.short
      buffer := if f.short && f.code == some 0x06 then [] else l.buffer
      window := l.window.map fun w => { w with framed := false } }

/-! ### The rows -/

/-- The parts of a frame whose code byte is `code`. A part that cannot come where the link stands is no part of a frame, and the
state stays as it is (log entry 2). -/
def State.framePart (s : State) (p : Port) (code : Byte) (part : FramePart) : State :=
  let begun := fun (t : State) (bs : List Byte) =>
    let u := (t.selectFrame p).codeByte p code
    u.setLink p (bs.foldl Link.clock (u.link p))
  let ended := fun (t : State) => t.setLink p (t.link p).deselect
  match part, (s.link p).frame with
  | .select, none => s.selectFrame p
  | .opening bs, none => begun s bs
  | .whole bs, none => ended (begun s bs)
  | .code, some f => if f.code = none then s.codeByte p code else s
  | .bytes bs, some f => if f.code = some code then s.setLink p (bs.foldl Link.clock (s.link p)) else s
  | .deselect, some f => if f.code = none ∨ f.code = some code then ended s else s
  | .select, some _ | .opening _, some _ | .whole _, some _ | .code, none | .bytes _, none | .deselect, none => s

/-- STATUS_READ (R155). -/
def execStatusRead (p : Port) (part : FramePart) (s : State) : Res := .next (s.framePart p 0x01 part)

/-- COMMAND_WRITE (R156). -/
def execCommandWrite (p : Port) (part : FramePart) (s : State) : Res := .next (s.framePart p 0x02 part)

/-- RESULT_READ (R164). -/
def execResultRead (p : Port) (part : FramePart) (s : State) : Res := .next (s.framePart p 0x03 part)

/-- EVENT_READ (R164, R172). -/
def execEventRead (p : Port) (part : FramePart) (s : State) : Res := .next (s.framePart p 0x04 part)

/-- WINDOW_READ (R38, R165): up to the request for the check; the check and the access are steps of their own. -/
def execWindowRead (p : Port) (part : FramePart) (s : State) : Res := .next (s.framePart p 0x05 part)

/-- WINDOW_WRITE (R39, R165). -/
def execWindowWrite (p : Port) (part : FramePart) (s : State) : Res := .next (s.framePart p 0x06 part)

/-- UNKNOWN_CODE_FRAME: a frame whose code byte names no transaction (R151). -/
def execUnknownCodeFrame (p : Port) (code : Byte) (part : FramePart) (s : State) : Res :=
  if 1 ≤ code.toNat ∧ code.toNat ≤ 6 then .next s else .next (s.framePart p code part)

end Sys2Proof.Machine
end

