-- ==== Sys2Proof/Machine/Notices.lean ====
section
/-! DEFINITION. The internal notices (R161): reference release, lease end, scrub done, offer expiry and clear, and the CLR inputs
that raise the last. -/

namespace Sys2Proof.Machine

/-- The oldest waiting notice, if the table controller may start a taking (R160, R162), with the state it is taken from. -/
def State.nextNotice (s : State) : Option (Notice × State) :=
  match s.table.notices with
  | [] => none
  | n :: rest => if s.accessPending then none else some (n, s.setNotices rest)

/-- What the taking of a reference-release notice does to a slot (R12, R145). -/
def State.releaseReference (s : State) (i : Slot) : State :=
  let r := s.region i
  let h := s.handle i
  let t := s.setRegion i { r with refs := r.refs - 1 }
  let t :=
    if r.state = .retiring ∧ r.refs - 1 = 0 then (t.enterScrubbing i).offerEvent r.owner (.regionRetired h) else t
  t.settleClosing r.owner

/-- REFERENCE_RELEASE (R12). -/
def execReferenceRelease (s : State) : Res :=
  match s.nextNotice with
  | some (.referenceRelease h, t) =>
    match h.slot? with
    | none => .next t
    | some i => .next (t.releaseReference i)
  | _ => .next s

/-- LEASE_END (R65, R145). -/
def execLeaseEnd (s : State) : Res :=
  match s.nextNotice with
  | some (.leaseEnd _ p, t) =>
    .next ((t.setQuota p { t.quota p with channels := (t.quota p).channels - 1 }).settleClosing p)
  | _ => .next s

/-- What the taking of a scrub-done notice does (R6, R18). -/
def State.finishScrub (s : State) (i : Slot) : State :=
  let r := s.region i
  (s.setRegion i (Region.empty (r.gen + 1))).setGranules (freeRun s.table.granules r.base r.length)

/-- SCRUB_DONE (R18). -/
def execScrubDone (s : State) : Res :=
  match s.nextNotice with
  | some (.scrubDone i, t) => .next (t.finishScrub i)
  | _ => .next s

/-- OFFER_EXPIRY (R46). -/
def execOfferExpiry (s : State) : Res :=
  match s.nextNotice with
  | some (.offerExpiry i, t) => .next (t.expireOffer i)
  | _ => .next s

/-- CLEAR_NOTICE (R137): an OPEN port's session close begins. -/
def execClearNotice (order : List Slot) (s : State) : Res :=
  match s.nextNotice with
  | some (.clear p, t) => if t.session p = .opened then .next (t.closeSession p order) else .next t
  | _ => .next s

/-! ### The CLR inputs (R137) -/

/-- A sampled fall of CLRk is recorded and raises a clear notice, unless one of that port already waits; none is raised while
RESET is asserted (R137, R161). -/
def execClrFall (p : Port) (s : State) : Res :=
  if look s.pins.clr p = .low then .next s
  else
    let t := s.setClr p .low
    if s.pins.reset = .low ∨ s.table.notices.contains (.clear p) then .next t else .next (t.notify [.clear p])

/-- A sampled rise of CLRk is recorded as the new level (R137). -/
def execClrRise (p : Port) (s : State) : Res := .next (s.setClr p .high)

end Sys2Proof.Machine
end

