-- ==== Sys2Proof/Machine/Scrub.lean ====
section
/-! DEFINITION. The scrub unit, the faults of the memory and device reset (chapters 1.1 and 1.7): the rows SCRUB_RUN_START,
SCRUB_RUN_END, MEMORY_FAULT, RESET_ASSERT, RESET_RELEASE and STARTUP_CLEAR_END, and the granule clears between them. -/

namespace Sys2Proof.Machine

/-- SCRUB_RUN_START: the entry at the head of the scrub queue is begun when no run is in progress (R17, R19). -/
def execScrubRunStart (s : State) : Res :=
  if s.scrub.queue.isEmpty || s.scrub.running.isSome || s.scrub.startup then .next s
  else .next (s.setScrub { s.scrub with running := some 0 })

/-- The granule at place `k` of a run is cleared, up to before place `n` (R17). -/
def Memory.clearGranules (m : Memory) (base k n : Nat) : Memory :=
  m.clear (granuleBytes * (base + k)) (granuleBytes * (base + n))

/-- SCRUB_RUN_END: the rest of the run is cleared down to its last granule, the entry is removed and a scrub-done notice is sent
(R17). -/
def execScrubRunEnd (s : State) : Res :=
  match s.scrub.queue, s.scrub.running with
  | run :: later, some k =>
    .next (((s.setMem (s.mem.clearGranules run.base k run.length)).setScrub
      { s.scrub with queue := later, running := none }).notify [.scrubDone run.slot])
  | _, _ => .next s

/-- One granule clear of the start-up clear or of the run in progress, short of its last granule, which belongs to
STARTUP_CLEAR_END and SCRUB_RUN_END (R17, R19). -/
def State.clearNextGranule (s : State) : State :=
  if s.scrub.startup then
    if s.mem.definedTo + granuleBytes < memoryBytes then
      s.setMem (s.mem.define (s.mem.definedTo + granuleBytes))
    else s
  else match s.scrub.queue, s.scrub.running with
    | run :: _, some k =>
      if k + 1 < run.length then
        (s.setMem (s.mem.clearGranules run.base k (k + 1))).setScrub { s.scrub with running := some (k + 1) }
      else s
    | _, _ => s

/-- MEMORY_FAULT: a byte's stored value or parity changes, and they no longer match (R2). -/
def execMemoryFault (addr : BitVec 18) (value : Byte) (s : State) : Res :=
  .next (s.setMem (s.mem.corrupt addr.toNat value))

/-- RESET_ASSERT: every table, queue, channel and session at its reset value, work in progress abandoned, the memory's contents
not defined (R1, R7, R20, R60, R92, R134, R150). The sampled levels and the quota mode stand until the release. -/
def execResetAssert (s : State) : Res :=
  .next
    { pins := { s.pins with reset := .low }
      table := TableController.reset s.table.quotaMode
      chan := ChannelController.reset
      engine := Engine.reset
      scrub := ScrubUnit.reset
      links := Vector.replicate 4 Link.empty
      mem := Memory.undefined (s.mem.resets + 1)
      pending := s.pending }

/-- The quota mode QSEL selects: low OPEN, high SPLIT (R26). -/
def quotaModeOf : Level → QuotaMode
  | .low => .openMode
  | .high => .split

/-- RESET_RELEASE: QSEL and the input lines are sampled, and the start-up clear starts (R19, R26, R81, R129, R137). -/
def execResetRelease (levels : ReleaseLevels) (s : State) : Res :=
  if s.pins.reset = .high then .next s
  else
    .next (((s.setPins { reset := .high, halt := levels.halt, clr := levels.clr, trg := levels.trg }).setQuotaMode
      (quotaModeOf levels.qsel)).setScrub { s.scrub with startup := true })

/-- STARTUP_CLEAR_END: the last granule has been written, every granule is FREE and every link leaves NOT_READY (R19, R154). -/
def execStartupClearEnd (s : State) : Res :=
  if s.scrub.startup then
    .next ((((s.setMem (s.mem.define memoryBytes)).setGranules 0).setScrub { s.scrub with startup := false }).mapLinks
      fun l => { l with notReady := false })
  else .next s

end Sys2Proof.Machine
end

