-- ==== Sys2Proof/Machine/Sessions.lean ====
section
/-! DEFINITION. The session commands (chapters 8 and 10): OPEN, CLOSE, SET_NOTIFY, and the taking of a record whose opcode names
no command. -/

namespace Sys2Proof.Machine

/-- The pinned LIVE regions a port owns (R136). -/
def State.pinnedCount (s : State) (p : Port) : Nat :=
  ((indices 64).filter fun i =>
    (s.region i).state == .live && (s.region i).owner == p && (s.region i).pinned).length

/-- OPEN (R135, R136, R147). -/
def execOpenSession (p : Port) (s : State) : Res :=
  s.taking p (fun r => r.opcode == 0x01 && decide (s.session p ≠ .closing)) fun r t =>
    if r.args.length ≠ 0 then t.refuse .badArg
    else if t.session p ≠ .closed then t.refuse .alreadyOpen
    else if t.heldClosed p then t.refuse .notOpen
    else
      let u := t.setSession p .opened
      let u := u.setLink p { u.link p with settings := NotifySettings.default }
      u.accepted [portByte p, u.table.quotaMode.code, Config.revision, byteOf (u.pinnedCount p)]

/-- CLOSE (R138): it begins the session close of R139 and writes no result when it does. -/
def execCloseSession (p : Port) (order : List Slot) (s : State) : Res :=
  s.command p 0x02 0 fun _ t => (t.closeSession p order, none)

/-- SET_NOTIFY (R173). -/
def execSetNotify (p : Port) (s : State) : Res :=
  s.command p 0x03 3 fun args t =>
    match settingOf (byteAt args 0), settingOf (byteAt args 1), settingOf (byteAt args 2) with
    | some onResult, some onEvent, some reportDenials =>
      let old := (t.link p).settings
      let u := t.setLink p { t.link p with settings := { onResult, onEvent, reportDenials } }
      u.accepted [yesNo old.onResult, yesNo old.onEvent, yesNo old.reportDenials]
    | _, _, _ => t.refuse .badArg

/-- Opcodes run from 0x01 to 0x1B (section 11.4). -/
def namesCommand (opcode : Byte) : Bool := 1 ≤ opcode.toNat && opcode.toNat ≤ 27

/-- The taking of a record whose opcode names no command: answered BAD_OPCODE, whatever its length and the session (R159). -/
def execBadOpcode (p : Port) (s : State) : Res :=
  s.taking p (fun r => !namesCommand r.opcode && decide (s.session p ≠ .closing)) fun _ t => t.refuse .badOpcode

end Sys2Proof.Machine
end

