-- ==== Sys2Proof/Machine/Windows.lean ====
section
/-! DEFINITION. Window access (chapter 2): the check of a whole span (R35, R36), the reporting of a denial (R40) and the admitted
access (R37 to R39). -/

namespace Sys2Proof.Machine

/-- The slot whose region covers a granule: a record LIVE, RETIRING or SCRUBBING (R3). -/
def State.holder (s : State) (g : Nat) : Option Slot :=
  (indices 64).find? fun i =>
    let r := s.region i
    r.state != .unused && decide (r.base ≤ g) && decide (g < r.base + r.length)

/-- Whether every granule from `g` to `g + n` is HELD. -/
def TableController.heldFrom (t : TableController) (g : Nat) : Nat → Bool
  | 0 => t.held g
  | n + 1 => t.held g && t.heldFrom (g + 1) n

/-- The slot that holds every granule a span touches (R35, test 2 of R36). -/
def State.spanSlot (s : State) (addr length : Nat) : Option Slot :=
  let last := addr + length - 1
  let g := addr / granuleBytes
  let h := last / granuleBytes
  if memoryBytes ≤ last ∨ !s.table.heldFrom g (h - g) then none
  else match s.holder g with
    | none => none
    | some i => if h < (s.region i).base + (s.region i).length then some i else none

/-- Why a window access is denied, if it is: the first of the four tests that fails (R36). -/
def State.denial (s : State) (p : Port) (w : WindowRequest) : Option DenialCause :=
  if s.session p ≠ .opened then some .notOpen
  else match s.spanSlot w.addr.toNat w.length with
    | none => some .unmapped
    | some i =>
      if (s.region i).state ≠ .live then some .retiring
      else match w.direction with
        | .read => if (s.rights p i).hasRead then none else some .noRight
        | .write => if (s.rights p i).hasWrite then none else some .noRight

/-- The outcome of a window transaction goes to the frame that asked for it, if it is still in progress; the transaction is no
longer pending, and the buffer is emptied after a write (R38, R39, R165). -/
def Link.windowDone (l : Link) (w : WindowRequest) (bytes : List Byte) : Link :=
  { l with
    window := none
    buffer := if w.direction = .write then [] else l.buffer
    frame := if w.framed then l.frame.map fun f => { f with toSend := bytes } else l.frame }

/-- What a denied window frame is sent: zeros for a read, then the trailer DENIED (R38, R39). -/
def deniedBytes (w : WindowRequest) : List Byte :=
  match w.direction with
  | .read => startMark :: List.replicate w.length 0 ++ [trailerDenied]
  | .write => [trailerDenied]

/-- A denied window access (R38 to R40, R174). -/
def State.denyWindow (s : State) (p : Port) (w : WindowRequest) (cause : DenialCause) : State :=
  let t := s.setLink p ((s.link p).windowDone w (deniedBytes w))
  if (s.link p).settings.reportDenials then t.offerEvent p (.accessDenied w.addr w.length w.direction cause) else t

/-- WINDOW_CHECK: the table controller answers a pending check (R36, R37, R162). -/
def execWindowCheck (p : Port) (s : State) : Res :=
  match (s.link p).window with
  | none => .next s
  | some w =>
    if w.admitted then .next s
    else match s.denial p w with
      | none => .next (s.setLink p { s.link p with window := some { w with admitted := true } })
      | some cause => .next (s.denyWindow p w cause)

/-- The bytes an admitted read returns (R38). -/
def State.windowData (s : State) (w : WindowRequest) : List Byte :=
  startMark :: s.mem.readSpan w.addr.toNat w.length ++
    [if s.mem.spanError w.addr.toNat w.length then trailerDataError else trailerOk]

/-- WINDOW_ACCESS: the admitted access is served whole (R1, R37 to R39). -/
def execWindowAccess (p : Port) (s : State) : Res :=
  match (s.link p).window with
  | none => .next s
  | some w =>
    if !w.admitted then .next s
    else if memoryBytes < w.addr.toNat + w.length then .fault .noSuchByte
    else match w.direction with
      | .read => .next (s.setLink p ((s.link p).windowDone w (s.windowData w)))
      | .write =>
        if memoryBytes < w.addr.toNat + (s.link p).buffer.length then .fault .noSuchByte
        else
          .next ((s.setMem (s.mem.writeSpan w.addr.toNat (s.link p).buffer)).setLink p
            ((s.link p).windowDone w [trailerOk]))

end Sys2Proof.Machine
end

