-- ==== Sys2Proof/Machine/Dispatch.lean ====
section
/-! DEFINITION. Which meaning each row of the table of operations and events has: one arm per constructor of Instr. -/

namespace Sys2Proof.Machine

def exec (i : Instr) (s : State) : Host.Outcome State Fault Refusal :=
  match i with
  | .openSession p => Sys2Proof.Machine.execOpenSession p s
  | .closeSession p order => Sys2Proof.Machine.execCloseSession p order s
  | .setNotify p => Sys2Proof.Machine.execSetNotify p s
  | .allocate p => Sys2Proof.Machine.execAllocate p s
  | .free p => Sys2Proof.Machine.execFree p s
  | .pin p => Sys2Proof.Machine.execPin p s
  | .unpin p => Sys2Proof.Machine.execUnpin p s
  | .label p => Sys2Proof.Machine.execLabel p s
  | .find p => Sys2Proof.Machine.execFind p s
  | .queryRegion p => Sys2Proof.Machine.execQueryRegion p s
  | .querySpace p => Sys2Proof.Machine.execQuerySpace p s
  | .grant p => Sys2Proof.Machine.execGrant p s
  | .renounce p => Sys2Proof.Machine.execRenounce p s
  | .offer p => Sys2Proof.Machine.execOffer p s
  | .withdraw p => Sys2Proof.Machine.execWithdraw p s
  | .accept p => Sys2Proof.Machine.execAccept p s
  | .decline p => Sys2Proof.Machine.execDecline p s
  | .lease p => Sys2Proof.Machine.execLease p s
  | .release p => Sys2Proof.Machine.execRelease p s
  | .program p => Sys2Proof.Machine.execProgram p s
  | .arm p => Sys2Proof.Machine.execArm p s
  | .disarm p => Sys2Proof.Machine.execDisarm p s
  | .suspend p => Sys2Proof.Machine.execSuspend p s
  | .resume p => Sys2Proof.Machine.execResume p s
  | .trigger p => Sys2Proof.Machine.execTrigger p s
  | .queryChannel p => Sys2Proof.Machine.execQueryChannel p s
  | .listChannels p => Sys2Proof.Machine.execListChannels p s
  | .badOpcode p => Sys2Proof.Machine.execBadOpcode p s
  | .statusRead p part => Sys2Proof.Machine.execStatusRead p part s
  | .commandWrite p part => Sys2Proof.Machine.execCommandWrite p part s
  | .resultRead p part => Sys2Proof.Machine.execResultRead p part s
  | .eventRead p part => Sys2Proof.Machine.execEventRead p part s
  | .windowRead p part => Sys2Proof.Machine.execWindowRead p part s
  | .windowWrite p part => Sys2Proof.Machine.execWindowWrite p part s
  | .unknownCodeFrame p code part => Sys2Proof.Machine.execUnknownCodeFrame p code part s
  | .windowCheck p => Sys2Proof.Machine.execWindowCheck p s
  | .windowAccess p => Sys2Proof.Machine.execWindowAccess p s
  | .referenceRelease => Sys2Proof.Machine.execReferenceRelease s
  | .leaseEnd => Sys2Proof.Machine.execLeaseEnd s
  | .scrubDone => Sys2Proof.Machine.execScrubDone s
  | .offerExpiry => Sys2Proof.Machine.execOfferExpiry s
  | .clearNotice order => Sys2Proof.Machine.execClearNotice order s
  | .msTick => Sys2Proof.Machine.execMsTick s
  | .offerTimerExpiry slot => Sys2Proof.Machine.execOfferTimerExpiry slot s
  | .clrFall p => Sys2Proof.Machine.execClrFall p s
  | .clrRise p => Sys2Proof.Machine.execClrRise p s
  | .haltFall p => Sys2Proof.Machine.execHaltFall p s
  | .haltRise p => Sys2Proof.Machine.execHaltRise p s
  | .haltClaim p order => Sys2Proof.Machine.execHaltClaim p order s
  | .triggerLevelChange line => Sys2Proof.Machine.execTriggerLevelChange line s
  | .edgeClaim line order => Sys2Proof.Machine.execEdgeClaim line order s
  | .discardOrder c => Sys2Proof.Machine.execDiscardOrder c s
  | .teardownOrder c => Sys2Proof.Machine.execTeardownOrder c s
  | .unitStart => Sys2Proof.Machine.execUnitStart s
  | .unitTransfer part => Sys2Proof.Machine.execUnitTransfer part s
  | .unitEndReport => Sys2Proof.Machine.execUnitEndReport s
  | .scrubRunStart => Sys2Proof.Machine.execScrubRunStart s
  | .scrubRunEnd => Sys2Proof.Machine.execScrubRunEnd s
  | .memoryFault addr value => Sys2Proof.Machine.execMemoryFault addr value s
  | .resetAssert => Sys2Proof.Machine.execResetAssert s
  | .resetRelease levels => Sys2Proof.Machine.execResetRelease levels s
  | .startupClearEnd => Sys2Proof.Machine.execStartupClearEnd s

end Sys2Proof.Machine
end

