-- ==== Sys2Proof/Machine/Step.lean ====
section
/-! DEFINITION. One step of the hub: the step at the front of the queue is run with the queue's rest. -/

namespace Sys2Proof.Machine

/-- One step. On an empty queue the hub is left to its clock: the scrub unit clears its next granule, if it clears any, and
nothing else changes (log entry 3). -/
def step (s : State) : Host.Outcome State Fault Refusal :=
  match s.pending with
  | [] => .next s.clearNextGranule
  | c :: rest => exec c { s with pending := rest }

/-- The state with the step a table word spells put at the front of its queue; no word spells one. -/
def State.withFetchWord (s : State) (nbits w : Nat) : State :=
  match decodeTableWord nbits w with
  | none => s
  | some c => { s with pending := c :: s.pending }

end Sys2Proof.Machine
end

