-- ==== Sys2Proof/Safety.lean ====
section
/-! DEFINITION. The terms in which statements about the hub are made: the argument table of section 11.4, a record at its turn, the
state a taking leaves that changes nothing else, and the laws of the hub, each a property of one state. -/

namespace Sys2Proof.Machine

/-! ### The commands (section 11.4) -/

/-- The rows that take a queued command with a named opcode: the port, the opcode and the argument length of section 11.4. -/
def commandRow : Instr → Option (Port × Byte × Nat)
  | .openSession p => some (p, 0x01, 0)
  | .closeSession p _ => some (p, 0x02, 0)
  | .setNotify p => some (p, 0x03, 3)
  | .allocate p => some (p, 0x04, 7)
  | .free p => some (p, 0x05, 2)
  | .pin p => some (p, 0x06, 2)
  | .unpin p => some (p, 0x07, 2)
  | .label p => some (p, 0x08, 4)
  | .find p => some (p, 0x09, 3)
  | .queryRegion p => some (p, 0x0A, 2)
  | .querySpace p => some (p, 0x0B, 0)
  | .grant p => some (p, 0x0C, 4)
  | .renounce p => some (p, 0x0D, 2)
  | .offer p => some (p, 0x0E, 5)
  | .withdraw p => some (p, 0x0F, 2)
  | .accept p => some (p, 0x10, 2)
  | .decline p => some (p, 0x11, 2)
  | .lease p => some (p, 0x12, 1)
  | .release p => some (p, 0x13, 1)
  | .program p => some (p, 0x14, 29)
  | .arm p => some (p, 0x15, 1)
  | .disarm p => some (p, 0x16, 1)
  | .suspend p => some (p, 0x17, 1)
  | .resume p => some (p, 0x18, 1)
  | .trigger p => some (p, 0x19, 1)
  | .queryChannel p => some (p, 0x1A, 1)
  | .listChannels p => some (p, 0x1B, 0)
  | .badOpcode _ | .statusRead _ _ | .commandWrite _ _ | .resultRead _ _ | .eventRead _ _ | .windowRead _ _
  | .windowWrite _ _ | .unknownCodeFrame _ _ _ | .windowCheck _ | .windowAccess _ | .referenceRelease | .leaseEnd
  | .scrubDone | .offerExpiry | .clearNotice _ | .msTick | .offerTimerExpiry _ | .clrFall _ | .clrRise _
  | .haltFall _ | .haltRise _ | .haltClaim _ _ | .triggerLevelChange _ | .edgeClaim _ _ | .discardOrder _
  | .teardownOrder _ | .unitStart | .unitTransfer _ | .unitEndReport | .scrubRunStart | .scrubRunEnd
  | .memoryFault _ _ | .resetAssert | .resetRelease _ | .startupClearEnd => none

/-- The record `r` stands at the head of port `p`'s command queue, and it is that port's turn (R159, R160). -/
def State.serves (s : State) (p : Port) (r : CommandRecord) : Prop :=
  (s.link p).commands.head? = some r ∧ s.commandTurn = some p

/-- The same for a command of an OPEN port (R135). -/
def State.servesOpen (s : State) (p : Port) (opcode tag : Byte) (args : List Byte) : Prop :=
  s.serves p { opcode, tag, args } ∧ s.session p = .opened

/-- What a taking leaves that only takes the head record of port `p`, moves the port pointer and writes one result record with
the opcode and tag as received. -/
def State.served (s : State) (p : Port) (opcode tag : Byte) (code : ResultCode) (payload : List Byte) : State :=
  { s with
    table := { s.table with pointer := p }
    links := put s.links p { s.link p with
      commands := (s.link p).commands.tail
      results := (s.link p).results ++ [{ opcode, tag, code, payload }] } }

/-- What a port gains by a record offered to its event queue: nothing unless it is OPEN (R168, R170). -/
def State.eventsAfter (s : State) (p : Port) (es : List Event) : List Event :=
  if s.session p = .opened then es.foldl placeEvent (s.link p).events else (s.link p).events

/-- A channel's program names the region `h` on some side, and the channel meets a further condition. -/
def State.channelsNaming (s : State) (h : Handle) (f : Channel → Bool) : List Chan :=
  s.channelsWhere fun x => f x && (x.program.map fun g => g.names h).getD false

/-- One DISCARD order for each of some channels, sent as one batch; no batch when there is none. -/
def State.discarding (s : State) (cause : DiscardCause) (h : Handle) (cs : List Chan) : State :=
  s.sendOrders (cs.map fun c => { channel := c, kind := .discard cause h })

/-- The channels leased by port `q` whose program names the region `h` on a side that needs a right which `old` holds and `new`
does not: a source side needs READ, a destination side WRITE (R32). -/
def State.losing (s : State) (q : Port) (h : Handle) (old new : Rights) : List Chan :=
  (indices 16).filter fun c => (s.channel c).lessee = some q ∧ ∃ g ∈ (s.channel c).program,
    (g.source.handle = h ∧ old.hasRead = true ∧ new.hasRead = false) ∨
      (g.dest.handle = h ∧ old.hasWrite = true ∧ new.hasWrite = false)

/-- A lessee's command at its turn: `u` is the state behind the orders sent before it (R61), and `x` the record of the channel `c` it
names, which port `p` leases (R62). -/
def State.servesLessee (s : State) (p : Port) (op tag b : Byte) (rest : List Byte) (c : Chan) (u : State) (x : Channel) :
    Prop :=
  s.servesOpen p op tag (b :: rest) ∧ b.toNat = c.val ∧ u = s.drainOrders ∧ x = u.channel c ∧ x.lessee = some p

/-- The record of a channel that is stopped into PROGRAMMED: its run state stands, with the in-service flag clear (R122). -/
def Channel.stoppedWith (x : Channel) (outcome : LastOutcome) : Channel :=
  { x with state := .programmed, outcome := outcome, suspension := none, recorded := none
           run := { x.run with inService := false } }

/-- The record of a channel that is suspended (R121). -/
def Channel.suspendedWith (x : Channel) (cause : SuspendCause) : Channel :=
  { x with state := .suspended, suspension := some cause, recorded := none, run := { x.run with latch := false } }

/-- The record of a channel at which a request arrives while its unit is in flight: a stronger one replaces the recorded one, any
other is dropped (R119, R120). -/
def Channel.recording (x : Channel) (q : Request) : Channel :=
  { x with recorded := if ∀ old ∈ x.recorded, old.strength < q.strength then some q else x.recorded }

/-- What an activation makes of a channel under an overrun policy (R83 to R85). -/
def Channel.activated (x : Channel) (policy : Policy) : Channel :=
  if x.run.latch = false then { x with run := { x.run with latch := true } }
  else match policy with
    | .merge => { x with run := { x.run with overrunSeen := true } }
    | .stop => if x.run.unitInFlight then x.recording (.abort .overrun) else x.stoppedWith .overrun

/-- An activation stops the channel at once: an overrun under STOP with no unit in flight (R85). -/
def Channel.overruns (x : Channel) (policy : Policy) : Prop :=
  x.run.latch = true ∧ policy = .stop ∧ x.run.unitInFlight = false

/-- The granules from `g` to before `g + n` exist and are FREE (R8, R9). -/
def State.FreeRun (s : State) (g n : Nat) : Prop :=
  g + n ≤ granuleCount ∧ ∀ x, g ≤ x → x < g + n → s.table.held x = false

/-- The handle `h` is current and names the LIVE region in slot `i`, which port `p` owns (R5, R13). -/
def State.ownsLive (s : State) (p : Port) (h : Handle) (i : Slot) : Prop :=
  s.current h = some i ∧ (s.region i).owner = p ∧ (s.region i).state = .live

/-! ### A session close (R139 to R145) -/

/-- What a close of port `p` makes of a region record: the offers of the port go (R52, R53), the port's grant entry goes (R140),
and a LIVE unpinned region of the port is freed (R142). -/
def regionAfterClose (p : Port) (r : Region) : Region :=
  let owned := r.owner = p ∧ (r.state = .live ∨ r.state = .retiring)
  let r' := { r with
    offer := if owned ∨ (∃ o ∈ r.offer, o.target = p) then none else r.offer
    grants := put r.grants p .none }
  if r.owner = p ∧ r.state = .live ∧ r.pinned = false then
    { r' with state := if r.refs = 0 then .scrubbing else .retiring, grants := noGrants }
  else r'

/-- The slots whose regions a close of port `p` frees, ascending (R142). -/
def State.freedByClose (s : State) (p : Port) : List Slot :=
  (indices 64).filter fun i =>
    (s.region i).owner = p ∧ (s.region i).state = .live ∧ (s.region i).pinned = false

/-- `t` is what a session close of port `p` makes of `s` (R139 to R145), but for the port pointer and the notice queue. The
order in which the offers' events go out within one step is left open: `targeted` and `owned` are the orders taken. -/
structure ClosedBy (s t : State) (p : Port) : Prop where
  pins : t.pins = s.pins
  engine : t.engine = s.engine
  mem : t.mem = s.mem
  pending : t.pending = s.pending
  granules : t.table.granules = s.table.granules
  quotaMode : t.table.quotaMode = s.table.quotaMode
  expiryDue : t.table.expiryDue = s.table.expiryDue
  channels : t.chan.channels = s.chan.channels
  claims : t.chan.haltClaims = s.chan.haltClaims ∧ t.chan.edgeClaims = s.chan.edgeClaims
  session : t.session p =
    if (t.quota p).channels = 0 ∧ ∀ i, ¬ ((t.region i).state = .retiring ∧ (t.region i).owner = p) then .closed else .closing
  sessions : ∀ q, q ≠ p → t.session q = s.session q
  regions : ∀ i, t.region i = regionAfterClose p (s.region i)
  quota : t.quota p =
    let scrubbed := (s.freedByClose p).filter fun i => (s.region i).refs = 0
    { granules := (s.quota p).granules - (scrubbed.map fun i => (s.region i).length).sum
      regions := (s.quota p).regions - scrubbed.length, channels := (s.quota p).channels }
  quotas : ∀ q, q ≠ p → t.quota q = s.quota q
  scrub : t.scrub = { s.scrub with
    queue := s.scrub.queue ++ ((s.freedByClose p).filter fun i => (s.region i).refs = 0).map fun i =>
      { slot := i, base := (s.region i).base, length := (s.region i).length } }
  orders : t.chan.orders = s.chan.orders ++
    (((s.channelsWhere fun x => x.lessee = some p).map fun c => ({ channel := c, kind := .teardown } : Order)) ::
      ((s.freedByClose p).filter fun i => (s.region i).refs ≠ 0).map fun i =>
        (s.channelsNaming (s.handle i) fun _ => true).map fun c =>
          ({ channel := c, kind := .discard .retired (s.handle i) } : Order)).filter fun batch => !batch.isEmpty
  link : t.link p = { s.link p with
    commands := [], results := [], events := []
    frame := (s.link p).frame.map fun f => { f with closed := f.code.isSome } }
  links : ∃ targeted owned : List Slot,
    targeted.Perm ((indices 64).filter fun i => ∃ o ∈ (s.region i).offer, o.target = p) ∧
    owned.Perm ((indices 64).filter fun i => s.owns p i ∧ (s.region i).offer.isSome) ∧
    ∀ q, q ≠ p → t.link q = { s.link q with
      events := s.eventsAfter q
        ((targeted.filter fun i => (s.region i).owner = q).map (fun i => .offerResolved (s.handle i) p .targetClosed) ++
          (owned.filter fun i => (s.region i).offer.map Offer.target = some q).map
            (fun i => .offerCancelled (s.handle i) p .ownerClosed) ++
          ((s.freedByClose p).filter fun i => look (s.region i).grants q ≠ .none).map
            fun i => .rightsChanged (s.handle i) .none .freed) }

/-! ### Link frames (chapter 9) -/

/-- The row of a frame whose code byte is `code` (section 11.2). -/
def frameOf (p : Port) (code : Byte) (part : FramePart) : Instr :=
  if code = 0x01 then .statusRead p part
  else if code = 0x02 then .commandWrite p part
  else if code = 0x03 then .resultRead p part
  else if code = 0x04 then .eventRead p part
  else if code = 0x05 then .windowRead p part
  else if code = 0x06 then .windowWrite p part
  else .unknownCodeFrame p code part

/-- The link stands between frames, outside the NOT_READY period, with no window access pending: a frame that begins now is answered
by the right-hand column of R153. -/
structure Link.Ready (l : Link) : Prop where
  frame : l.frame = none
  notReady : l.notReady = false
  window : l.window = none

/-- The bytes clocked out beside the `n` bytes in that follow the code byte: the link answer, what the hub sends, and zeros
(R151). -/
def bytesBeside (answer : LinkAnswer) (sent : List Byte) (n : Nat) : List Byte :=
  (answer.code :: (sent ++ List.replicate n 0)).take n

/-- What every byte clocked in after the code byte does to a link with the frame `f` in progress (R151, R165, section 11.2): it
joins the bytes received, and beside it goes the link answer, for the first, a wait mark, while the frame's window access is
pending, or the next byte the hub has to send, or zero. `live` says whether the frame takes in more. -/
def Link.clocked (l : Link) (f : Frame) (b : Byte) (live : Bool) : Link :=
  let waits := ∃ w ∈ l.window, w.framed = true
  { l with
    out := l.out ++
      [if f.received = [] then (f.answer.map LinkAnswer.code).getD 0 else if waits then 0xF0 else f.toSend.headD 0]
    frame := some { f with
      received := f.received ++ [b], toSend := if f.received = [] ∨ waits then f.toSend else f.toSend.tail, live } }

/-- A CLOSING port is CLOSED when it leases no channel and owns no RETIRING region (R145). -/
def State.closingSettled (s : State) (p : Port) : State :=
  if s.session p = .closing ∧ (s.quota p).channels = 0 ∧ ∀ i, ¬ ((s.region i).state = .retiring ∧ (s.region i).owner = p) then
    s.setSession p .closed
  else s

/-- A window access denied with a cause (R38 to R40): nothing is read or written, the frame that asked for it is sent the trailer
DENIED, behind zeros for a read, and the denial is reported when the setting is on. -/
def State.windowDenied (s : State) (p : Port) (w : WindowRequest) (cause : DenialCause) : State :=
  let l := s.link p
  let sent := match w.direction with
    | .read => 0x0F :: List.replicate w.length 0 ++ [0xC3]
    | .write => [0xC3]
  (s.setLink p { l with
    window := none, buffer := if w.direction = .write then [] else l.buffer
    frame := if w.framed then l.frame.map fun f => { f with toSend := sent } else l.frame }).offerEvents
    (if l.settings.reportDenials then [(p, .accessDenied w.addr w.length w.direction cause)] else [])

/-! ### The unit-start check (R34) -/

/-- Channel `c` passes the unit-start check: it has a lessee that is OPEN, and a program `g` whose sides name the LIVE regions in
slots `i` and `j`, on which the lessee holds READ and WRITE. -/
def State.PassesCheck (s : State) (c : Chan) (g : Program) (i j : Slot) : Prop :=
  (s.channel c).program = some g ∧ ∃ p, (s.channel c).lessee = some p ∧ s.session p = .opened ∧
    s.current g.source.handle = some i ∧ (s.region i).state = .live ∧ (s.rights p i).hasRead = true ∧
    s.current g.dest.handle = some j ∧ (s.region j).state = .live ∧ (s.rights p j).hasWrite = true

/-- The place of channel `d` in the order in which its class is looked at: RUNNING channels first, then by the distance behind the
class pointer (R95). -/
def State.placeInClass (s : State) (k : PriorityClass) (d : Chan) : Nat :=
  (if (s.channel d).state = .running then 0 else 16) + (d - look s.engine.pointers k - 1).val

/-- A channel's program is dropped (R123). -/
def Channel.discardedWith (x : Channel) (cause : DiscardCause) : Channel :=
  { x with
    state := .leased, program := none, run := RunState.clear, recorded := none, suspension := none
    outcome := match cause with
      | .retired => .retired
      | .revoked => .revoked }

/-! ### The laws of the hub -/

/-- RESET is asserted, or the start-up clear runs (R19). -/
def State.starting (s : State) : Prop := s.pins.reset = .low ∨ s.scrub.startup = true

/-- A link unit in the NOT_READY period: empty queues, and no frame that is taken in (R150, R154). -/
structure Link.Idle (l : Link) : Prop where
  notReady : l.notReady = true
  commands : l.commands = []
  results : l.results = []
  events : l.events = []
  window : l.window = none
  frame : ∀ f ∈ l.frame, f.notReady = true ∧ f.live = false

/-- From the assertion of RESET to the end of the start-up clear the tables stand at their reset values and nothing waits but
clear notices; after it every byte is defined and every link is ready (R7, R19, R20, R60, R92, R134, R150, R154, R161). -/
structure State.StartLaw (s : State) : Prop where
  clear : s.pins.reset = .low → s.scrub.startup = false
  regions : s.starting → ∀ i, s.region i = Region.empty 0
  granules : s.starting → s.table.granules = BitVec.allOnes 4096
  sessions : s.starting → ∀ p, s.session p = .closed
  quotas : s.starting → ∀ p, s.quota p = { granules := 0, regions := 0, channels := 0 }
  pointer : s.starting → s.table.pointer = 3
  notices : s.starting → ∀ n ∈ s.table.notices, ∃ p, n = .clear p
  timers : s.starting → s.table.expiryDue = []
  channels : s.starting → ∀ c, s.channel c = Channel.empty
  claims : s.starting → s.chan.orders = [] ∧ s.chan.haltClaims = [] ∧ s.chan.edgeClaims = []
  engine : s.starting → s.engine = Engine.reset
  runs : s.starting → s.scrub.queue = [] ∧ s.scrub.running = none
  links : s.starting → ∀ p, (s.link p).Idle
  defined : ¬ s.starting → s.mem.definedTo = memoryBytes
  ready : ¬ s.starting → ∀ p, (s.link p).notReady = false

/-- A frame that is filling the window write buffer: its last declared data byte is still to come (R39). -/
def Frame.filling (f : Frame) : Bool :=
  f.live && f.code == some 0x06 && (f.received.length < 4 || f.received.length < 4 + windowLength f.received)

/-- What a link unit holds stays within R150: the queues and the window write buffer within their sizes, the 16th event an OVERRUN
marker (R170), a frame before its code byte with nothing taken in (R151), a place kept for the command record of a frame in
progress (R156), no window access pending while a window frame fills its header (R153), the buffer holding the bytes of one
write, and an admitted span inside the memory (R36). -/
structure Link.Law (l : Link) : Prop where
  commands : l.commands.length ≤ 4
  results : l.results.length ≤ 8
  events : l.events.length ≤ 16
  marker : l.events.length = 16 → markerAtTail l.events = true
  codeless : ∀ f ∈ l.frame, f.code = none → f.received = [] ∧ f.live = false
  room : ∀ f ∈ l.frame, f.live = true → f.code = some 0x02 → l.commands.length < 4
  buffer : l.buffer.length ≤ 256
  header : ∀ f ∈ l.frame, f.live = true → f.code = some 0x05 → f.received.length < 4 → l.window = none
  filling : ∀ f ∈ l.frame, f.filling = true → l.window = none ∧ l.buffer.length = f.received.length - 4
  idle : l.window = none → (∀ f ∈ l.frame, f.filling = false) → l.buffer = []
  read : ∀ w ∈ l.window, w.direction = .read → l.buffer = []
  write : ∀ w ∈ l.window, w.direction = .write → l.buffer.length = w.length
  admitted : ∀ w ∈ l.window, w.admitted = true → w.addr.toNat + w.length ≤ memoryBytes

/-- The ranges PROGRAM checks (R66, R67): the count, and under BLOCK the block length. -/
def Program.Ranged (g : Program) : Prop :=
  1 ≤ g.count ∧ g.count ≤ 65536 ∧
    match g.mode with
    | .block _ _ b _ => 1 ≤ b ∧ b ≤ 256
    | .single _ _ | .cyclic _ _ | .sweep _ => True

/-- A run of a program between its units: 1 to n left, and under BLOCK 1 to B left of the block (R59). -/
def Program.Counting (g : Program) (x : RunState) : Prop :=
  1 ≤ x.remaining ∧ x.remaining ≤ g.count ∧
    match g.mode with
    | .block _ _ b _ => 1 ≤ x.blockRemaining ∧ x.blockRemaining ≤ b
    | .single _ _ | .cyclic _ _ | .sweep _ => True

/-- The states in which a channel has a run (R59). -/
def ChannelState.hasRun (x : ChannelState) : Prop := x = .armed ∨ x = .running ∨ x = .suspended

/-- The laws of one channel record (R56 to R59). -/
structure Channel.Law (x : Channel) : Prop where
  lessee : x.lessee = none ↔ x.state = .free
  program : x.program = none ↔ x.state = .free ∨ x.state = .leased
  idle : x.state = .free ∨ x.state = .leased → x.run = RunState.clear
  outcome : x.state = .free → x.outcome = .none
  suspension : x.suspension.isSome ↔ x.state = .suspended
  recorded : x.recorded.isSome → x.run.unitInFlight = true
  flight : x.run.unitInFlight = true → x.state = .running
  ranged : ∀ g ∈ x.program, g.Ranged
  counting : x.state.hasRun → ∀ g ∈ x.program, g.Counting x.run

/-- Every channel record keeps its laws, and the unit-in-flight field says which channel the engine's unit is for (R56, R93). -/
structure State.ChannelLaw (s : State) : Prop where
  channel : ∀ c, (s.channel c).Law
  unit : ∀ c, (s.channel c).run.unitInFlight = true ↔ (s.engine.unit.map UnitInFlight.channel) = some c

/-- The law of offers: a region with an offer is LIVE, and the target is an OPEN port other than the owner (R42). -/
def State.OfferLaw (s : State) : Prop :=
  ∀ i, ∀ o ∈ (s.region i).offer,
    (s.region i).state = .live ∧ s.session o.target = .opened ∧ o.target ≠ (s.region i).owner ∧ o.remaining ≤ 65535

/-- Granule `g` is covered by the region record in slot `i` (R3). -/
def State.covers (s : State) (i : Slot) (g : Nat) : Prop :=
  (s.region i).state ≠ .unused ∧ (s.region i).base ≤ g ∧ g < (s.region i).base + (s.region i).length

/-- The law of the granule map (R3): a region lies inside the memory, no granule is covered twice, and outside the start-up time a
granule is FREE exactly when no record covers it. -/
structure State.GranuleLaw (s : State) : Prop where
  inside : ∀ i, (s.region i).state ≠ .unused →
    1 ≤ (s.region i).length ∧ (s.region i).base + (s.region i).length ≤ granuleCount
  once : ∀ i j g, s.covers i g → s.covers j g → i = j
  held : ¬ s.starting → ∀ g, g < granuleCount → (s.table.held g = true ↔ ∃ i, s.covers i g)

/-- The sides of a program that name a slot (R11). -/
def Program.sidesOn (g : Program) (i : Slot) : Nat :=
  (if g.source.handle.slot? = some i then 1 else 0) + (if g.dest.handle.slot? = some i then 1 else 0)

/-- The program sides that name a slot, over all channels with a program. -/
def State.sidesOn (s : State) (i : Slot) : Nat :=
  ((indices 16).map fun c => ((s.channel c).program.map fun g => g.sidesOn i).getD 0).sum

/-- Whether a notice releases a reference on a slot. -/
def Notice.releases (n : Notice) (i : Slot) : Bool :=
  match n with
  | .referenceRelease h => h.slot? == some i
  | .leaseEnd _ _ | .scrubDone _ | .offerExpiry _ | .clear _ => false

/-- The waiting scrub work of a slot: its entries in the scrub queue and its scrub-done notices (R17, R18). -/
def State.scrubsOf (s : State) (i : Slot) : Nat :=
  (s.scrub.queue.filter fun e => e.slot == i).length + (s.table.notices.filter fun n => n == .scrubDone i).length

/-- The law of scrubbing (R16 to R18): a region is SCRUBBING exactly while its one run is queued or its one scrub-done notice
waits. So a scrub-done notice waits only for a SCRUBBING region. -/
def State.ScrubLaw (s : State) : Prop := ∀ i, s.scrubsOf i = if (s.region i).state = .scrubbing then 1 else 0

/-- The handles in use: those of program sides, and those of waiting release notices (R11). -/
def State.usesHandle (s : State) (h : Handle) : Prop :=
  (∃ c, ∃ g ∈ (s.channel c).program, g.names h = true) ∨ .referenceRelease h ∈ s.table.notices

/-- A channel's program is about to go: a DISCARD order naming the region is on its way to it, or a DISCARD or TEARDOWN is
recorded on it (R15, R119). -/
def State.leaving (s : State) (c : Chan) (h : Handle) : Prop :=
  (∃ batch ∈ s.chan.orders, ∃ o ∈ batch, ∃ cause, o = { channel := c, kind := .discard cause h }) ∨
    (∃ q ∈ (s.channel c).recorded, 4 ≤ q.strength)

/-- The laws of references and of retirement: a count is the number of sides that name the region, waiting releases included
(R11); it is 0 in UNUSED and SCRUBBING and above 0 in RETIRING (R11, R12); every handle in use names the region of its slot; a
program that names a RETIRING region is about to go (R15, R73); the law of scrubbing holds, and a queued run is that of its
region (R16, R17). -/
structure State.ReferenceLaw (s : State) : Prop where
  count : ∀ i, (s.region i).refs = s.sidesOn i + (s.table.notices.filter fun n => n.releases i).length
  zero : ∀ i, (s.region i).state = .unused ∨ (s.region i).state = .scrubbing → (s.region i).refs = 0
  retiring : ∀ i, (s.region i).state = .retiring → 0 < (s.region i).refs
  handles : ∀ h, s.usesHandle h → ∃ i, h.slot? = some i ∧ h.gen = (s.region i).gen
  leaves : ∀ i, (s.region i).state = .retiring →
    ∀ c, ∀ g ∈ (s.channel c).program, g.names (s.handle i) = true → s.leaving c (s.handle i)
  scrubs : s.ScrubLaw
  runs : ∀ e ∈ s.scrub.queue, e.base = (s.region e.slot).base ∧ e.length = (s.region e.slot).length

/-- The slots a port owns (R145). -/
def State.ownedSlots (s : State) (p : Port) : List Slot := (indices 64).filter fun i => s.owns p i

/-- The channels a port leases, and its lease-end notices that wait (R27, R65). -/
def State.leasesOf (s : State) (p : Port) : Nat :=
  (s.channelsWhere fun x => x.lessee == some p).length +
    (s.table.notices.filter fun n => match n with
      | .leaseEnd _ q => q == p
      | .referenceRelease _ | .scrubDone _ | .offerExpiry _ | .clear _ => false).length

/-- The law of the quota counts: each counts what R27 says, and under SPLIT none is over its limit (R26). -/
structure State.QuotaLaw (s : State) : Prop where
  granules : ∀ p, (s.quota p).granules = ((s.ownedSlots p).map fun i => (s.region i).length).sum
  regions : ∀ p, (s.quota p).regions = (s.ownedSlots p).length
  channels : ∀ p, (s.quota p).channels = s.leasesOf p
  split : s.table.quotaMode = .split → ∀ p,
    (s.quota p).granules ≤ Config.splitGranules ∧ (s.quota p).regions ≤ Config.splitRegions ∧
      (s.quota p).channels ≤ Config.splitChannels

/-- The law of sessions: a port that is not OPEN holds no grant, and what it owns is pinned or retiring; a CLOSED one leases no
channel and owns no RETIRING region (R140, R145). The owner has no grant entry (R29). -/
structure State.SessionLaw (s : State) : Prop where
  owner : ∀ i, look (s.region i).grants (s.region i).owner = .none
  grants : ∀ p i, s.session p ≠ .opened → look (s.region i).grants p = .none
  live : ∀ p i, s.session p ≠ .opened → (s.region i).state = .live → (s.region i).owner = p → (s.region i).pinned = true
  retiring : ∀ p i, s.session p = .closed → (s.region i).state = .retiring → (s.region i).owner ≠ p
  leases : ∀ p, s.session p = .closed → (s.quota p).channels = 0

/-- The memory is in its canonical form (R1). -/
def State.MemoryLaw (s : State) : Prop := s.mem.wf = true

/-! ### Where the engine may go (R71, R99) -/

/-- The units a side still moves before its offset returns to its start, this one included (R71, R102). -/
def Program.sideLeft (g : Program) (x : RunState) (side : BlockSide) : Nat :=
  match g.mode with
  | .block _ _ b blockSide => if blockSide = side then x.blockRemaining else (x.remaining - 1) * b + x.blockRemaining
  | .single _ _ | .cyclic _ _ | .sweep _ => x.remaining

/-- A side at an offset with `left` units to move stays in a region of `length` bytes, and its offset is a multiple of the unit
(R70, R71). -/
def Side.Within (x : Side) (unit left offset length : Nat) : Prop :=
  ({ x with start := offset } : Side).spanOk unit left length = true ∧ offset % unit = 0

/-- The length in bytes of the region a handle's slot holds. -/
def State.bytesOf (s : State) (h : Handle) : Nat := (h.slot?.map fun i => granuleBytes * (s.region i).length).getD 0

/-- The law of spans (R71): every program's whole span lies in its regions, what is left of a run lies in them, and the unit in
flight lies in the memory. -/
structure State.SpanLaw (s : State) : Prop where
  whole : ∀ c, ∀ g ∈ (s.channel c).program,
    g.source.Within g.unit.bytes (g.sideUnits .source) g.source.start (s.bytesOf g.source.handle) ∧
      g.dest.Within g.unit.bytes (g.sideUnits .dest) g.dest.start (s.bytesOf g.dest.handle)
  left : ∀ c, (s.channel c).state.hasRun → ∀ g ∈ (s.channel c).program,
    g.source.Within g.unit.bytes (g.sideLeft (s.channel c).run .source) (s.channel c).run.sourceOffset
        (s.bytesOf g.source.handle) ∧
      g.dest.Within g.unit.bytes (g.sideLeft (s.channel c).run .dest) (s.channel c).run.destOffset (s.bytesOf g.dest.handle)
  unit : ∀ u ∈ s.engine.unit,
    u.source + u.size.bytes ≤ memoryBytes ∧ u.dest + u.size.bytes ≤ memoryBytes ∧ u.buffer.length ≤ u.size.bytes

/-- All the laws of the hub together. -/
structure State.Lawful (s : State) : Prop where
  start : s.StartLaw
  link : ∀ p, (s.link p).Law
  channel : s.ChannelLaw
  offer : s.OfferLaw
  granule : s.GranuleLaw
  reference : s.ReferenceLaw
  quota : s.QuotaLaw
  session : s.SessionLaw
  memory : s.MemoryLaw
  span : s.SpanLaw

end Sys2Proof.Machine
end

