-- ==== Sys2Proof/Certificates/Slice0/Obligations.lean ====
section
/-! DEFINITION. The statements about the hub, each as a proposition. OBLIGATIONS.json says what each states and which rules it
rests on. -/

open Sys2Proof Sys2Proof.Machine

/-! ### The queue of steps, device reset and the scrub unit -/

/-- A step of a hub with a queue is the command at the front, on the hub with the queue's rest (log entry 3). -/
def Obligations.StepRunsFrontCommand : Prop :=
  ∀ (s : State) (c : Instr) (rest : List Instr), s.pending = c :: rest → step s = exec c { s with pending := rest }

/-- On an empty queue the scrub unit clears its next granule (R17, R19), and nothing else changes: the model's choice, log
entry 3. -/
def Obligations.IdleHubClearsGranules : Prop :=
  ∀ s : State, s.pending = [] →
    (s.scrub.startup = false → (s.scrub.running = none ∨ s.scrub.queue = []) → step s = .next s) ∧
    (s.scrub.startup = true → s.mem.definedTo + 64 < memoryBytes →
      step s = .next { s with mem := { s.mem with definedTo := s.mem.definedTo + 64 } }) ∧
    (s.scrub.startup = true → memoryBytes ≤ s.mem.definedTo + 64 → step s = .next s) ∧
    ∀ e rest k, s.scrub.startup = false → s.scrub.queue = e :: rest → s.scrub.running = some k →
      (e.length ≤ k + 1 → step s = .next s) ∧
      (k + 1 < e.length → ∃ m : Memory,
        step s = .next { s with mem := m, scrub := { s.scrub with running := some (k + 1) } } ∧
        m.definedTo = s.mem.definedTo ∧
        ∀ a, a < s.mem.definedTo →
          m.read a = (if 64 * (e.base + k) ≤ a ∧ a < 64 * (e.base + k) + 64 then 0 else s.mem.read a) ∧
          m.parityError a = (if 64 * (e.base + k) ≤ a ∧ a < 64 * (e.base + k) + 64 then false else s.mem.parityError a))

/-- RESET_ASSERT, RESET_RELEASE and STARTUP_CLEAR_END (R1, R7, R19, R20, R26, R60, R81, R92, R129, R134, R137, R150, R154): what
each leaves, whole, with the size of the memory (R1) and the records of an UNUSED slot, a FREE channel and a link unit in RESET
(R4, R59, R60, R150); the owner field of an UNUSED record stands for no owner. The model's choices: STARTUP_CLEAR_END clears all
that is left to clear in its one step (log entry 3), a byte that a fault changed after it was cleared keeps that value through
the end (log entry 11, where R19 could be read otherwise), and RESET_ASSERT keeps the sampled levels and the quota mode (log
entry 1). -/
def Obligations.ResetSequence : Prop :=
  (memoryBytes = 262144 ∧ granuleCount = 4096 ∧ (∀ (t : TableController) g, t.held g = t.granules.getLsbD g) ∧
    (∀ p, look noGrants p = .none) ∧
    (∀ gen, Region.empty gen =
      { gen, state := .unused, owner := 0, base := 0, length := 0, label := 0, pinned := false, grants := noGrants, refs := 0
        offer := none }) ∧
    RunState.clear =
      { sourceOffset := 0, destOffset := 0, remaining := 0, blockRemaining := 0, latch := false, overrunSeen := false
        wrapCount := 0, inService := false, unitInFlight := false } ∧
    Channel.empty =
      { state := .free, lessee := none, program := none, run := RunState.clear, recorded := none, suspension := none
        outcome := .none } ∧
    Link.empty =
      { commands := [], results := [], events := [], buffer := [], malformed := false
        settings := { onResult := true, onEvent := true, reportDenials := true }, notReady := true, frame := none
        window := none, out := [] }) ∧
  (∀ s : State, ∃ t, exec .resetAssert s = .next t ∧
    t.pins = { s.pins with reset := .low } ∧
    (∀ i, t.region i = Region.empty 0) ∧ (∀ g, g < granuleCount → t.table.held g = true) ∧
    (∀ p, t.session p = .closed ∧ t.quota p = { granules := 0, regions := 0, channels := 0 }) ∧
    t.table.quotaMode = s.table.quotaMode ∧ t.table.pointer = 3 ∧ t.table.notices = [] ∧ t.table.expiryDue = [] ∧
    (∀ c, t.channel c = Channel.empty) ∧ t.chan.orders = [] ∧ t.chan.haltClaims = [] ∧ t.chan.edgeClaims = [] ∧
    (∀ k, look t.engine.pointers k = 15) ∧ t.engine.unit = none ∧
    t.scrub = { queue := [], running := none, startup := false } ∧
    (∀ p, t.link p = Link.empty) ∧ t.mem.definedTo = 0 ∧ t.pending = s.pending) ∧
  (∀ (s : State) (levels : ReleaseLevels), s.pins.reset = .low →
    exec (.resetRelease levels) s = .next { s with
      pins := { reset := .high, halt := levels.halt, clr := levels.clr, trg := levels.trg }
      table := { s.table with quotaMode := if levels.qsel = .low then .openMode else .split }
      scrub := { s.scrub with startup := true } }) ∧
  ∀ s : State, s.MemoryLaw → s.scrub.startup = true → ∃ (m : Memory) (map : BitVec 4096) (ls : Vector Link 4),
    exec .startupClearEnd s = .next { s with
      mem := m, table := { s.table with granules := map }, scrub := { s.scrub with startup := false }, links := ls } ∧
    (∀ g, g < granuleCount → map.getLsbD g = false) ∧
    (∀ p, look ls p = { s.link p with notReady := false }) ∧
    m.definedTo = memoryBytes ∧
    (∀ a, s.mem.definedTo ≤ a → a < memoryBytes → m.read a = 0 ∧ m.parityError a = false) ∧
    ∀ a, a < s.mem.definedTo → m.read a = s.mem.read a ∧ m.parityError a = s.mem.parityError a

/-- MEMORY_FAULT (R2): one byte is left with a value and a mismatched parity, and nothing else changes. That a fault on a byte
whose contents are not defined yet changes nothing is the model's choice, log entry 7. -/
def Obligations.MemoryFaultEffect : Prop :=
  ∀ (s : State) (addr : BitVec 18) (value : Byte), s.MemoryLaw →
    (s.mem.definedTo ≤ addr.toNat → exec (.memoryFault addr value) s = .next s) ∧
    (addr.toNat < s.mem.definedTo → ∃ m : Memory, exec (.memoryFault addr value) s = .next { s with mem := m } ∧
      m.definedTo = s.mem.definedTo ∧
      ∀ a, a < s.mem.definedTo →
        m.read a = (if a = addr.toNat then value else s.mem.read a) ∧
        m.parityError a = (if a = addr.toNat then true else s.mem.parityError a))

/-- SCRUB_RUN_START, SCRUB_RUN_END and SCRUB_DONE (R6, R16 to R18): a queued run is begun when none is in progress; its end
leaves zeros with good parity over what was left of it and sends the notice; the notice's taking empties the slot, raises its
generation and frees its granules. That SCRUB_RUN_END clears what is left of the run in its one step is the model's choice, log
entry 3, and so is that the granules cleared before stand as they are, log entry 11. -/
def Obligations.ScrubCycle : Prop :=
  (∀ s : State, s.scrub.queue ≠ [] → s.scrub.running = none → s.scrub.startup = false →
    exec .scrubRunStart s = .next { s with scrub := { s.scrub with running := some 0 } }) ∧
  (∀ (s : State) (e : ScrubRun) (rest : List ScrubRun) (k : Nat), s.scrub.queue = e :: rest → s.scrub.running = some k →
    ∃ m : Memory,
      exec .scrubRunEnd s = .next { s with
        mem := m, scrub := { s.scrub with queue := rest, running := none }
        table := { s.table with notices := s.table.notices ++ [.scrubDone e.slot] } } ∧
      m.definedTo = s.mem.definedTo ∧
      ∀ a, a < s.mem.definedTo →
        m.read a = (if 64 * (e.base + k) ≤ a ∧ a < 64 * (e.base + e.length) then 0 else s.mem.read a) ∧
        m.parityError a =
          (if 64 * (e.base + k) ≤ a ∧ a < 64 * (e.base + e.length) then false else s.mem.parityError a)) ∧
  ∀ (s : State) (i : Slot) (rest : List Notice), s.table.notices = .scrubDone i :: rest → s.accessPending = false →
    (s.region i).base + (s.region i).length ≤ granuleCount →
    ∃ map : BitVec 4096,
      exec .scrubDone s = .next { s with table := { s.table with
        notices := rest, regions := put s.table.regions i (Region.empty ((s.region i).gen + 1)), granules := map } } ∧
      ∀ g, g < granuleCount →
        (map.getLsbD g = true ↔
          s.table.held g = true ∧ ¬ ((s.region i).base ≤ g ∧ g < (s.region i).base + (s.region i).length))

/-! ### The taking of commands -/

/-- A record at its turn is checked for its opcode, then its argument length, then the session (R135, R159). -/
def Obligations.RecordAndSessionChecks : Prop :=
  (∀ (s : State) (p : Port) (r : CommandRecord), s.serves p r → s.session p ≠ .closing →
    (r.opcode = 0 ∨ 0x1C ≤ r.opcode.toNat) →
      exec (.badOpcode p) s = .next (s.served p r.opcode r.tag .badOpcode [])) ∧
  ∀ (s : State) (c : Instr) (p : Port) (op : Byte) (n : Nat) (r : CommandRecord),
    commandRow c = some (p, op, n) → s.serves p r → r.opcode = op → s.session p ≠ .closing →
      (r.args.length ≠ n → exec c s = .next (s.served p op r.tag .badArg [])) ∧
      (r.args.length = n → op ≠ 0x01 → s.session p = .closed → exec c s = .next (s.served p op r.tag .notOpen [])) ∧
      (r.args.length = n → op = 0x01 → s.session p = .opened → exec c s = .next (s.served p op r.tag .alreadyOpen []))

/-- Whose turn it is (R159 to R162): a port is next exactly when no notice waits, no admitted window access is pending, it is
eligible, and no eligible port stands nearer behind the port pointer. A notice is taken only while no admitted access is
pending, and the oldest first (R37, R161). A row with no record of its own at its turn, and a notice row with no notice of its
kind at the head or with an admitted access pending, changes nothing: the model's choice, log entry 2. -/
def Obligations.TurnsFollowThePointer : Prop :=
  (∀ (s : State) (p : Port), s.commandTurn = some p ↔
    s.table.notices = [] ∧ (∀ q, ∀ w ∈ (s.link q).window, w.admitted = false) ∧
      ((s.link p).commands ≠ [] ∧ (s.link p).results.length < 8) ∧
      ∀ q, (s.link q).commands ≠ [] → (s.link q).results.length < 8 →
        (p - s.table.pointer - 1).val ≤ (q - s.table.pointer - 1).val) ∧
  (∀ (s : State) (c : Instr) (p : Port) (op : Byte) (n : Nat), commandRow c = some (p, op, n) →
    (∀ r, s.serves p r → r.opcode ≠ op ∨ s.session p = .closing) → exec c s = .next s) ∧
  (∀ s : State, s.accessPending = true ↔ ∃ q, ∃ w ∈ (s.link q).window, w.admitted = true) ∧
  ∀ (s : State) (order : List Slot),
    let keeps := fun (row : Instr) (mine : Notice → Prop) =>
      (∃ q, ∃ w ∈ (s.link q).window, w.admitted = true) ∨ (∀ n ∈ s.table.notices.head?, ¬ mine n) → exec row s = .next s
    keeps .referenceRelease (fun n => ∃ h, n = .referenceRelease h) ∧ keeps .leaseEnd (fun n => ∃ c p, n = .leaseEnd c p) ∧
      keeps .scrubDone (fun n => ∃ i, n = .scrubDone i) ∧ keeps .offerExpiry (fun n => ∃ i, n = .offerExpiry i) ∧
      keeps (.clearNotice order) (fun n => ∃ p, n = .clear p)

/-- Every taking of a command takes the head record, moves the port pointer, and writes exactly one result record, with the
opcode and tag as received, for its own port; a CLOSE that begins a session close writes none and empties the queues (R138,
R158, R163, R178). -/
def Obligations.EveryTakingWritesOneResult : Prop :=
  ∀ (s t : State) (c : Instr) (p : Port) (op : Byte) (n : Nat) (r : CommandRecord),
    (commandRow c = some (p, op, n) ∨ (c = .badOpcode p ∧ (r.opcode = 0 ∨ 0x1C ≤ r.opcode.toNat) ∧ op = r.opcode)) →
    s.serves p r → r.opcode = op → s.session p ≠ .closing → exec c s = .next t →
      t.table.pointer = p ∧
      (∀ q, q ≠ p → (t.link q).commands = (s.link q).commands ∧ (t.link q).results = (s.link q).results) ∧
      if op = 0x02 ∧ r.args = [] ∧ s.session p = .opened then
        (t.link p).commands = [] ∧ (t.link p).results = []
      else
        (t.link p).commands = (s.link p).commands.tail ∧
        ∃ x : ResultRecord, (t.link p).results = (s.link p).results ++ [x] ∧ x.opcode = r.opcode ∧ x.tag = r.tag ∧
          (x.code ≠ .ok → x.payload = [])

/-- A refused command changes nothing but its port's queues and the port pointer; a channel command has first let the
channel controller take the orders sent before it (R8, R13, R43, R47, R61, R62, R68, R159, R178). R62 says that such a
refusal changes no state: that the refused channel command has taken those orders inside its own taking (log entry 4; behind
a session close: log entry 22), and in which order (log entry 5), is the model's choice. -/
def Obligations.RefusedCommandsChangeNothing : Prop :=
  ∀ (s t : State) (c : Instr) (p : Port) (op : Byte) (n : Nat) (r : CommandRecord) (x : ResultRecord),
    commandRow c = some (p, op, n) → s.serves p r → r.opcode = op → s.session p ≠ .closing → exec c s = .next t →
    (t.link p).results = (s.link p).results ++ [x] → x.code ≠ .ok →
      t = s.served p op r.tag x.code [] ∨
        (0x12 ≤ op.toNat ∧ op.toNat ≤ 0x1B ∧ t = s.drainOrders.served p op r.tag x.code [])

/-! ### Sessions -/

/-- OPEN (R136, R147): refused while CLRk is sampled low; otherwise the port becomes OPEN with its settings at their defaults, and
the result carries the port, the quota mode, the revision and the count of the port's pinned regions. -/
def Obligations.OpenEffect : Prop :=
  ∀ (s : State) (p : Port) (tag : Byte), s.serves p { opcode := 0x01, tag, args := [] } → s.session p = .closed →
    (look s.pins.clr p = .low → exec (.openSession p) s = .next (s.served p 0x01 tag .notOpen [])) ∧
    (look s.pins.clr p = .high →
      exec (.openSession p) s = .next
        (((s.setSession p .opened).setLink p { s.link p with
            settings := { onResult := true, onEvent := true, reportDenials := true } }).served p 0x01 tag .ok
          [BitVec.ofNat 8 p.val, if s.table.quotaMode = .openMode then 0 else 1, 1,
            BitVec.ofNat 8 ((indices 64).filter fun i =>
              (s.region i).state = .live ∧ (s.region i).owner = p ∧ (s.region i).pinned = true).length]))

/-- CLOSE, and a clear notice for an OPEN port, carry out the session close whole; a clear notice for a port that is not OPEN
does nothing (R137 to R145); a port owns the regions LIVE or RETIRING under its name. The model's choices, log entry 5: the
events of R52 go before those of R53, and the orders of each step of the close are one batch. That a frame whose code byte is
still to come is not marked as closed is the model's reading, log entry 21. -/
def Obligations.SessionCloseEffect : Prop :=
  (∀ (s : State) (p : Port) (i : Slot), s.owns p i = true ↔
    ((s.region i).state = .live ∨ (s.region i).state = .retiring) ∧ (s.region i).owner = p) ∧
  (∀ (s : State) (p : Port) (order : List Slot) (tag : Byte), s.servesOpen p 0x02 tag [] →
    ∃ t, exec (.closeSession p order) s = .next t ∧ ClosedBy s t p ∧
      t.table.pointer = p ∧ t.table.notices = s.table.notices) ∧
  ∀ (s : State) (p : Port) (order : List Slot) (rest : List Notice), s.table.notices = .clear p :: rest →
    s.accessPending = false →
      (s.session p = .opened → ∃ t, exec (.clearNotice order) s = .next t ∧ ClosedBy s t p ∧
        t.table.pointer = s.table.pointer ∧ t.table.notices = rest) ∧
      (s.session p ≠ .opened →
        exec (.clearNotice order) s = .next { s with table := { s.table with notices := rest } })

/-- SET_NOTIFY (R173): each argument is ON or OFF, or BAD_ARG; the three settings are replaced, and the result carries the three
before. -/
def Obligations.SetNotifyEffect : Prop :=
  ∀ (s : State) (p : Port) (tag a b c : Byte), s.servesOpen p 0x03 tag [a, b, c] →
    (2 ≤ a.toNat ∨ 2 ≤ b.toNat ∨ 2 ≤ c.toNat → exec (.setNotify p) s = .next (s.served p 0x03 tag .badArg [])) ∧
    (a.toNat < 2 → b.toNat < 2 → c.toNat < 2 →
      exec (.setNotify p) s = .next
        ((s.setLink p { s.link p with
            settings := { onResult := a == 1, onEvent := b == 1, reportDenials := c == 1 } }).served p 0x03 tag .ok
          [if (s.link p).settings.onResult then 1 else 0, if (s.link p).settings.onEvent then 1 else 0,
            if (s.link p).settings.reportDenials then 1 else 0]))

/-! ### Regions -/

/-- A handle is current when its slot's generation is its own and the slot is LIVE or RETIRING; the handle of a region is its
generation and its slot, and a slot byte over 63 names no slot (R5, R177). FREE, PIN, UNPIN, LABEL, GRANT and OFFER begin with
the same three checks, in the same order (R13, R21, R22, R30, R43). -/
def Obligations.HandlesAndOwnerChecks : Prop :=
  (∀ (s : State) (i : Slot), s.handle i = { gen := (s.region i).gen, slot := BitVec.ofNat 8 i.val }) ∧
  (∀ (h : Handle) (i : Slot), h.slot? = some i ↔ h.slot.toNat = i.val) ∧
  (∀ (s : State) (h : Handle) (i : Slot), s.current h = some i ↔
    h.slot.toNat = i.val ∧ (s.region i).gen = h.gen ∧ ((s.region i).state = .live ∨ (s.region i).state = .retiring)) ∧
  ∀ (s : State) (c : Instr) (p : Port) (op : Byte) (n : Nat) (tag g i : Byte) (rest : List Byte),
    commandRow c = some (p, op, n) → op ∈ ([0x05, 0x06, 0x07, 0x08, 0x0C, 0x0E] : List Byte) →
    s.servesOpen p op tag (g :: i :: rest) → rest.length + 2 = n →
      (s.current { gen := g, slot := i } = none → exec c s = .next (s.served p op tag .noRegion [])) ∧
      ∀ k, s.current { gen := g, slot := i } = some k →
        ((s.region k).owner ≠ p → exec c s = .next (s.served p op tag .notOwner [])) ∧
        ((s.region k).owner = p → (s.region k).state ≠ .live → exec c s = .next (s.served p op tag .retiring []))

/-- ALLOCATE (R8 to R10): its checks in their order, the lowest UNUSED slot, the lowest run that fits under FIRST_FIT or the base
given under AT, and the region, quota counts and granules it makes. -/
def Obligations.AllocateEffect : Prop :=
  ∀ (s : State) (p : Port) (tag l1 l0 b1 b0 place m1 m0 : Byte),
    s.servesOpen p 0x04 tag [l1, l0, b1, b0, place, m1, m0] →
    let length := l1.toNat * 256 + l0.toNat
    let label := b1.toNat * 256 + b0.toNat
    let base := m1.toNat * 256 + m0.toNat
    let badArg := length = 0 ∨ 4096 < length ∨ 2 ≤ place.toNat ∨ (place = 1 ∧ (4096 ≤ base ∨ 4096 < base + length))
    let overQuota := s.table.quotaMode = .split ∧ (1024 < (s.quota p).granules + length ∨ 16 ≤ (s.quota p).regions)
    let fits := fun g => s.FreeRun g length ∧ (place = 1 → g = base)
    (badArg → exec (.allocate p) s = .next (s.served p 0x04 tag .badArg [])) ∧
    (¬ badArg → (∀ i, (s.region i).state ≠ .unused) → exec (.allocate p) s = .next (s.served p 0x04 tag .noSlot [])) ∧
    (¬ badArg → (∃ i, (s.region i).state = .unused) → overQuota →
      exec (.allocate p) s = .next (s.served p 0x04 tag .quota [])) ∧
    (¬ badArg → (∃ i, (s.region i).state = .unused) → ¬ overQuota → (∀ g, ¬ fits g) →
      exec (.allocate p) s = .next (s.served p 0x04 tag .noSpace [])) ∧
    ∀ (i : Slot) (g : Nat), ¬ badArg → ¬ overQuota → (s.region i).state = .unused →
      (∀ j, j < i → (s.region j).state ≠ .unused) → fits g → (∀ x, x < g → ¬ fits x) →
      ∃ map : BitVec 4096,
        exec (.allocate p) s = .next ((((s.setRegion i
            { gen := (s.region i).gen, state := .live, owner := p, base := g, length := length, label := label
              pinned := false, grants := noGrants, refs := 0, offer := none }).setQuota p
            { s.quota p with granules := (s.quota p).granules + length, regions := (s.quota p).regions + 1 }).setGranules
            map).served p 0x04 tag .ok ([(s.region i).gen, BitVec.ofNat 8 i.val] ++ bytes2 g)) ∧
        ∀ x, x < granuleCount → (map.getLsbD x = true ↔ s.table.held x = true ∨ (g ≤ x ∧ x < g + length))

/-- FREE of a LIVE region by its owner (R13 to R16): refused while pinned or offered; with no reference it enters SCRUBBING and
joins the scrub queue, otherwise it becomes RETIRING and its channels are sent DISCARD; its grantees are told. -/
def Obligations.FreeEffect : Prop :=
  ∀ (s : State) (p : Port) (tag g k : Byte) (i : Slot), s.servesOpen p 0x05 tag [g, k] →
    s.ownsLive p { gen := g, slot := k } i →
    let r := s.region i
    let q := s.quota p
    let events : List (Port × Event) := ((indices 4).filter fun x => look r.grants x ≠ .none).map fun x =>
      (x, .rightsChanged { gen := g, slot := k } .none .freed)
    (r.pinned = true → exec (.free p) s = .next (s.served p 0x05 tag .pinned [])) ∧
    (r.pinned = false → r.offer ≠ none → exec (.free p) s = .next (s.served p 0x05 tag .offerPending [])) ∧
    (r.pinned = false → r.offer = none → r.refs = 0 →
      exec (.free p) s = .next (((((s.setRegion i { r with state := .scrubbing, grants := noGrants }).setQuota p
          { q with granules := q.granules - r.length, regions := q.regions - 1 }).setScrub
          { s.scrub with queue := s.scrub.queue ++ [{ slot := i, base := r.base, length := r.length }] }).offerEvents
          events).served p 0x05 tag .ok [3])) ∧
    (r.pinned = false → r.offer = none → r.refs ≠ 0 →
      exec (.free p) s = .next ((((s.setRegion i { r with state := .retiring, grants := noGrants }).offerEvents
          events).discarding .retired { gen := g, slot := k }
            (s.channelsNaming { gen := g, slot := k } fun _ => true)).served p 0x05 tag .ok [2]))

/-- PIN, UNPIN and LABEL of a LIVE region by its owner (R21, R22): the one field changes, and nothing else of the record. -/
def Obligations.PinUnpinLabelEffect : Prop :=
  ∀ (s : State) (p : Port) (tag g k : Byte) (i : Slot), s.ownsLive p { gen := g, slot := k } i →
    (s.servesOpen p 0x06 tag [g, k] → exec (.pin p) s =
      .next ((s.setRegion i { s.region i with pinned := true }).served p 0x06 tag .ok
        [if (s.region i).pinned then 1 else 0])) ∧
    (s.servesOpen p 0x07 tag [g, k] → exec (.unpin p) s =
      .next ((s.setRegion i { s.region i with pinned := false }).served p 0x07 tag .ok
        [if (s.region i).pinned then 1 else 0])) ∧
    ∀ l1 l0, s.servesOpen p 0x08 tag [g, k, l1, l0] → exec (.label p) s =
      .next ((s.setRegion i { s.region i with label := l1.toNat * 256 + l0.toNat }).served p 0x08 tag .ok [])

/-- FIND (R23): the lowest LIVE slot from the first slot on whose label is the one asked for, or NOT_FOUND; BAD_ARG for a label of 0
or a first slot over 63. -/
def Obligations.FindEffect : Prop :=
  ∀ (s : State) (p : Port) (tag l1 l0 first : Byte), s.servesOpen p 0x09 tag [l1, l0, first] →
    let label := l1.toNat * 256 + l0.toNat
    let hit := fun i : Slot => first.toNat ≤ i.val ∧ (s.region i).state = .live ∧ (s.region i).label = label
    (label = 0 ∨ 64 ≤ first.toNat → exec (.find p) s = .next (s.served p 0x09 tag .badArg [])) ∧
    (label ≠ 0 → first.toNat < 64 → (∀ i, ¬ hit i) → exec (.find p) s = .next (s.served p 0x09 tag .notFound [])) ∧
    ∀ i, label ≠ 0 → first.toNat < 64 → hit i → (∀ j, j < i → ¬ hit j) →
      exec (.find p) s = .next (s.served p 0x09 tag .ok
        ([(s.region i).gen, BitVec.ofNat 8 i.val, BitVec.ofNat 8 (s.region i).owner.val] ++ bytes2 (s.region i).base ++
          bytes2 (s.region i).length))

/-- QUERY_REGION and QUERY_SPACE (R24, R25): what each result carries; neither changes anything. The longest run is one that is
there, and no longer one is. That the scrubbing count takes in a run that has ended while its scrub-done notice waits is the
model's reading, log entry 16. -/
def Obligations.RegionQueries : Prop :=
  (∀ (s : State) (p : Port) (tag g k : Byte), s.servesOpen p 0x0A tag [g, k] →
    (s.current { gen := g, slot := k } = none → exec (.queryRegion p) s = .next (s.served p 0x0A tag .noRegion [])) ∧
    ∀ i, s.current { gen := g, slot := k } = some i →
      let r := s.region i
      let rights := if r.state = .retiring then .none else if r.owner = p then .readWrite else look r.grants p
      exec (.queryRegion p) s = .next (s.served p 0x0A tag .ok
        ([if r.state = .live then 1 else 2, BitVec.ofNat 8 r.owner.val] ++ bytes2 r.base ++ bytes2 r.length ++
          bytes2 r.label ++ [if r.pinned then 1 else 0, BitVec.ofNat 8 r.refs, rights.code] ++
          match r.offer with
          | none => [0xFF, 0, 0]
          | some o => BitVec.ofNat 8 o.target.val :: bytes2 o.remaining))) ∧
  ∀ (s : State) (p : Port) (tag : Byte), s.servesOpen p 0x0B tag [] → ∃ longest : Nat,
    (longest ≤ granuleCount ∧ (∃ g, s.FreeRun g longest) ∧ ∀ g n, s.FreeRun g n → n ≤ longest) ∧
    exec (.querySpace p) s = .next (s.served p 0x0B tag .ok
      (bytes2 ((List.range granuleCount).filter fun g => !s.table.held g).length ++ bytes2 longest ++
        bytes2 ((indices 64).map fun i => if (s.region i).state = .scrubbing then (s.region i).length else 0).sum ++
        if s.table.quotaMode = .openMode then [0, 0, 0, 0]
        else bytes2 (s.quota p).granules ++ [BitVec.ofNat 8 (s.quota p).regions, BitVec.ofNat 8 (s.quota p).channels]))

/-! ### Rights -/

/-- The rights of a port on a region, and which values hold READ and WRITE (R28). GRANT by the owner of a LIVE region (R30 to
R32): the port's entry becomes the value given, the port is told how its rights moved, and its channels that lose a right they
need are sent DISCARD. -/
def Obligations.GrantEffect : Prop :=
  (∀ (s : State) (p : Port) (i : Slot), s.rights p i =
    if s.session p ≠ .opened then .none
    else if (s.region i).state ≠ .live then .none
    else if (s.region i).owner = p then .readWrite
    else look (s.region i).grants p) ∧
  (∀ x : Rights, (x.hasRead = true ↔ x = .read ∨ x = .readWrite) ∧ (x.hasWrite = true ↔ x = .write ∨ x = .readWrite)) ∧
  ∀ (s : State) (p : Port) (tag g k port rights : Byte) (i : Slot), s.servesOpen p 0x0C tag [g, k, port, rights] →
    s.ownsLive p { gen := g, slot := k } i →
    let h : Handle := { gen := g, slot := k }
    let r := s.region i
    (4 ≤ port.toNat ∨ 4 ≤ rights.toNat → exec (.grant p) s = .next (s.served p 0x0C tag .badArg [])) ∧
    ∀ (q : Port) (new : Rights), port.toNat = q.val → new.code = rights →
      (q = p ∨ s.session q ≠ .opened → exec (.grant p) s = .next (s.served p 0x0C tag .badHost [])) ∧
      (q ≠ p → s.session q = .opened →
        let old := look r.grants q
        let reason : RightsReason :=
          if (old.hasRead = true → new.hasRead = true) ∧ (old.hasWrite = true → new.hasWrite = true) then .grant else .revoke
        exec (.grant p) s = .next ((((s.setRegion i { r with grants := put r.grants q new }).discarding .revoked h
          (s.losing q h old new)).offerEvents (if new = old then [] else [(q, .rightsChanged h new reason)])).served
          p 0x0C tag .ok [old.code]))

/-- RENOUNCE (R33): its checks in their order; the caller's entry becomes NONE, its channels that lose a right they need are sent
DISCARD, and no event is sent. -/
def Obligations.RenounceEffect : Prop :=
  ∀ (s : State) (p : Port) (tag g k : Byte), s.servesOpen p 0x0D tag [g, k] →
    let h : Handle := { gen := g, slot := k }
    (s.current h = none → exec (.renounce p) s = .next (s.served p 0x0D tag .noRegion [])) ∧
    ∀ i, s.current h = some i →
      let r := s.region i
      let old := look r.grants p
      (r.state ≠ .live → exec (.renounce p) s = .next (s.served p 0x0D tag .retiring [])) ∧
      (r.state = .live → r.owner = p → exec (.renounce p) s = .next (s.served p 0x0D tag .badHost [])) ∧
      (r.state = .live → r.owner ≠ p → exec (.renounce p) s =
        .next (((s.setRegion i { r with grants := put r.grants p .none }).discarding .revoked h
          (s.losing p h old .none)).served p 0x0D tag .ok [old.code]))

/-! ### Handoff -/

/-- OFFER by the owner of a LIVE region (R43, R44): its checks in their order; the offer stands with the target and the timeout
given, and the target is sent OFFER_RECEIVED. -/
def Obligations.OfferEffect : Prop :=
  ∀ (s : State) (p : Port) (tag g k target t1 t0 : Byte) (i : Slot), s.servesOpen p 0x0E tag [g, k, target, t1, t0] →
    s.ownsLive p { gen := g, slot := k } i →
    let r := s.region i
    let timeout := t1.toNat * 256 + t0.toNat
    (r.offer ≠ none → exec (.offer p) s = .next (s.served p 0x0E tag .offerPending [])) ∧
    (r.offer = none → (4 ≤ target.toNat ∨ timeout = 0) → exec (.offer p) s = .next (s.served p 0x0E tag .badArg [])) ∧
    ∀ q : Port, r.offer = none → target.toNat = q.val → timeout ≠ 0 →
      (q = p ∨ s.session q ≠ .opened → exec (.offer p) s = .next (s.served p 0x0E tag .badHost [])) ∧
      (q ≠ p → s.session q = .opened → exec (.offer p) s =
        .next (((s.setRegion i { r with offer := some { target := q, remaining := timeout } }).offerEvents
          [(q, .offerReceived { gen := g, slot := k } p r.length r.label timeout)]).served p 0x0E tag .ok []))

/-- The checks of ACCEPT, DECLINE and WITHDRAW that refuse, in their order (R47, R50, R51). -/
def Obligations.OfferAnswersRefused : Prop :=
  ∀ (s : State) (c : Instr) (p : Port) (op : Byte) (tag g k : Byte), commandRow c = some (p, op, 2) →
    op ∈ ([0x0F, 0x10, 0x11] : List Byte) → s.servesOpen p op tag [g, k] →
    (s.current { gen := g, slot := k } = none → exec c s = .next (s.served p op tag .noRegion [])) ∧
    ∀ i, s.current { gen := g, slot := k } = some i →
      let r := s.region i
      (r.state ≠ .live → exec c s = .next (s.served p op tag .retiring [])) ∧
      (r.state = .live → r.offer = none → exec c s = .next (s.served p op tag .notOffered [])) ∧
      ∀ o, r.state = .live → r.offer = some o →
        (op ≠ 0x0F → o.target ≠ p → exec c s = .next (s.served p op tag .notOffered [])) ∧
        (op = 0x0F → r.owner ≠ p → exec c s = .next (s.served p op tag .notOwner []))

/-- ACCEPT by the target of a standing offer (R47 to R49): refused over the quota, the offer standing on; otherwise the region and
its counts pass to the caller, the old owner is told, and the old owner's channels that name the region are sent DISCARD. -/
def Obligations.AcceptEffect : Prop :=
  ∀ (s : State) (p : Port) (tag g k : Byte) (i : Slot) (o : Offer), s.servesOpen p 0x10 tag [g, k] →
    s.current { gen := g, slot := k } = some i → (s.region i).state = .live → (s.region i).offer = some o → o.target = p →
    s.OfferLaw →
    let h : Handle := { gen := g, slot := k }
    let r := s.region i
    let old := s.quota r.owner
    let new := s.quota p
    let overQuota := s.table.quotaMode = .split ∧ (1024 < new.granules + r.length ∨ 16 ≤ new.regions)
    (overQuota → exec (.accept p) s = .next (s.served p 0x10 tag .quota [])) ∧
    (¬ overQuota → exec (.accept p) s = .next ((((((s.setRegion i { r with
        owner := p, pinned := false, offer := none, grants := put (put r.grants p .none) r.owner .none }).setQuota r.owner
        { old with granules := old.granules - r.length, regions := old.regions - 1 }).setQuota p
        { new with granules := new.granules + r.length, regions := new.regions + 1 }).discarding .revoked h
        (s.channelsNaming h fun x => x.lessee = some r.owner)).offerEvents [(r.owner, .offerResolved h p .accepted)]).served
        p 0x10 tag .ok (bytes2 r.base ++ bytes2 r.length ++ bytes2 r.label ++ [if r.pinned then 1 else 0])))

/-- DECLINE by the target and WITHDRAW by the owner of a standing offer (R50, R51): the offer goes, the other party is told, and
nothing else changes. -/
def Obligations.DeclineWithdrawEffect : Prop :=
  ∀ (s : State) (p : Port) (tag g k : Byte) (i : Slot) (o : Offer),
    s.current { gen := g, slot := k } = some i → (s.region i).state = .live → (s.region i).offer = some o →
    let h : Handle := { gen := g, slot := k }
    let r := s.region i
    (s.servesOpen p 0x11 tag [g, k] → o.target = p → exec (.decline p) s =
      .next (((s.setRegion i { r with offer := none }).offerEvents [(r.owner, .offerResolved h p .declined)]).served
        p 0x11 tag .ok [])) ∧
    (s.servesOpen p 0x0F tag [g, k] → r.owner = p → exec (.withdraw p) s =
      .next (((s.setRegion i { r with offer := none }).offerEvents [(o.target, .offerCancelled h p .withdrawn)]).served
        p 0x0F tag .ok (bytes2 o.remaining)))

/-- MS_TICK, OFFER_TIMER_EXPIRY and OFFER_EXPIRY (R45, R46): the tick lowers every remaining time above 0 by one, and an offer
it brings to 0 has run out; a run-out raises one expiry notice for its slot; and at its taking an offer at 0 on a LIVE region
ends and both parties are told, while in every other case the notice does nothing. That the notice may come later than the tick
is the model's choice, log entry 6. That the run-out of a slot that is not due changes nothing is the model's choice, log entry
2. -/
def Obligations.OfferTimerEffect : Prop :=
  (∀ s : State, ∃ t due, exec .msTick s = .next t ∧
    t = { s with table := { s.table with regions := t.table.regions, expiryDue := s.table.expiryDue ++ due } } ∧
    (∀ i, t.region i = { s.region i with
      offer := (s.region i).offer.map fun o => { o with remaining := o.remaining - 1 } }) ∧
    due.Nodup ∧ ∀ i, i ∈ due ↔ ∃ o ∈ (s.region i).offer, o.remaining = 1) ∧
  (∀ (s : State) (i : Slot),
    (i ∈ s.table.expiryDue → exec (.offerTimerExpiry i) s = .next { s with table := { s.table with
      expiryDue := s.table.expiryDue.erase i, notices := s.table.notices ++ [.offerExpiry i] } }) ∧
    (i ∉ s.table.expiryDue → exec (.offerTimerExpiry i) s = .next s)) ∧
  ∀ (s : State) (i : Slot) (rest : List Notice), s.table.notices = .offerExpiry i :: rest → s.accessPending = false →
    let r := s.region i
    let t : State := { s with table := { s.table with notices := rest } }
    (∀ o, r.state = .live → r.offer = some o → o.remaining = 0 → exec .offerExpiry s =
      .next ((t.setRegion i { r with offer := none }).offerEvents
        [(r.owner, .offerResolved (s.handle i) o.target .expired), (o.target, .offerCancelled (s.handle i) r.owner .expired)])) ∧
    ((r.state = .live → ∀ o ∈ r.offer, o.remaining ≠ 0) → exec .offerExpiry s = .next t)

/-! ### Leases and programs -/

/-- A channel command first checks the channel number, then the lessee behind the orders sent before it (R61, R62); LEASE
and QUERY_CHANNEL check the number alone, and LEASE takes 0xFF for ANY. That the command takes the orders still on their way
inside its own taking (log entry 4; behind a session close: log entry 22), and in which order (log entry 5), is the model's
choice. -/
def Obligations.ChannelCommandChecks : Prop :=
  ∀ (s : State) (c : Instr) (p : Port) (op : Byte) (n : Nat) (tag b : Byte) (rest : List Byte),
    commandRow c = some (p, op, n) → 0x12 ≤ op.toNat → op.toNat ≤ 0x1A → s.servesOpen p op tag (b :: rest) →
    rest.length + 1 = n →
      (16 ≤ b.toNat → ¬ (op = 0x12 ∧ b = 0xFF) → exec c s = .next (s.served p op tag .badArg [])) ∧
      ∀ k : Chan, b.toNat = k.val → op ≠ 0x12 → op ≠ 0x1A → (s.drainOrders.channel k).lessee ≠ some p →
        exec c s = .next (s.drainOrders.served p op tag .notLessee [])

/-- LEASE (R63): the named channel if it is FREE, the lowest FREE one under ANY; NO_CHANNEL, then QUOTA under SPLIT, refuse
it. RELEASE by the lessee (R64): BUSY, then WRONG_STATE, refuse it; otherwise the channel becomes FREE, one release notice
goes for each side of its program, and the lease count falls. That the command takes the orders still on their way inside
its own taking (log entry 4; behind a session close: log entry 22), and in which order (log entry 5), is the model's choice.
That the source side's release notice goes before the destination side's is the model's choice, log entry 19. -/
def Obligations.LeaseAndReleaseEffect : Prop :=
  (∀ (s : State) (p : Port) (tag b : Byte) (wanted : Option Chan), s.servesOpen p 0x12 tag [b] →
    (b = 0xFF ∧ wanted = none ∨ ∃ c : Chan, wanted = some c ∧ b.toNat = c.val) →
    let u := s.drainOrders
    let q := s.quota p
    let mayLease := fun c : Chan => (u.channel c).state = .free ∧ ∀ w ∈ wanted, w = c
    let overQuota := s.table.quotaMode = .split ∧ 4 ≤ q.channels
    ((∀ c, ¬ mayLease c) → exec (.lease p) s = .next (u.served p 0x12 tag .noChannel [])) ∧
    ((∃ c, mayLease c) → overQuota → exec (.lease p) s = .next (u.served p 0x12 tag .quota [])) ∧
    ∀ c, ¬ overQuota → mayLease c → (∀ d, d < c → ¬ mayLease d) → exec (.lease p) s =
      .next (((u.setChannel c
        { state := .leased, lessee := some p, program := none, run := RunState.clear, recorded := none, suspension := none
          outcome := .none }).setQuota p { q with channels := q.channels + 1 }).served p 0x12 tag .ok [BitVec.ofNat 8 c.val])) ∧
  ∀ (s u : State) (p : Port) (tag b : Byte) (c : Chan) (x : Channel), s.servesLessee p 0x13 tag b [] c u x →
    let q := s.quota p
    let notices := match x.program with
      | none => []
      | some g => [Notice.referenceRelease g.source.handle, Notice.referenceRelease g.dest.handle]
    (x.recorded ≠ none → exec (.release p) s = .next (u.served p 0x13 tag .busy [])) ∧
    (x.recorded = none → x.state ≠ .leased → x.state ≠ .programmed →
      exec (.release p) s = .next (u.served p 0x13 tag .wrongState [])) ∧
    (x.recorded = none → (x.state = .leased ∨ x.state = .programmed) → exec (.release p) s =
      .next ((((u.setChannel c Channel.empty).setNotices (u.table.notices ++ notices)).setQuota p
        { q with channels := q.channels - 1 }).served p 0x13 tag .ok [if x.state = .leased then 1 else 2]))

/-- The range and consistency check of PROGRAM over its 28-byte record (R66, R67, section 11.5): which records spell a program. -/
def Obligations.ProgramRecordChecks : Prop :=
  ∀ r : List Byte, r.length = 28 →
    let byte := fun k => (r.getD k 0).toNat
    let paced := byte 22 ≤ 1 ∧ (byte 22 = 1 → byte 23 ≤ 7 ∧ byte 24 ≤ 3) ∧ byte 25 ≤ 1
    let count := byte 16 * 65536 + byte 17 * 256 + byte 18
    let blockLength := byte 19 * 256 + byte 20
    ((∃ g, programOf r = some g) ↔
      byte 0 ≤ 3 ∧ (byte 0 ≠ 3 → paced) ∧ (byte 0 = 3 → byte 1 ≤ 1) ∧
      (byte 0 = 2 → 1 ≤ blockLength ∧ blockLength ≤ 256 ∧ byte 21 ≤ 1) ∧
      (byte 2 = 1 ∨ byte 2 = 2 ∨ byte 2 = 4 ∨ byte 2 = 8) ∧ byte 3 ≤ 3 ∧ byte 9 ≤ 2 ∧ byte 15 ≤ 2 ∧
      byte 6 * 65536 + byte 7 * 256 + byte 8 ≤ 262143 ∧ byte 12 * 65536 + byte 13 * 256 + byte 14 ≤ 262143 ∧
      1 ≤ count ∧ count ≤ 65536 ∧ (byte 27 ≤ 15 ∨ byte 27 = 255) ∧ (byte 0 = 1 → byte 27 = 255))

/-- The program record of section 11.5 written out and read back: what QUERY_CHANNEL shows of a program is a record that spells that
program, for every program within the ranges of R66 and R67. -/
def Obligations.ProgramRecordRoundTrip : Prop :=
  ∀ g : Program, g.Ranged → g.source.start ≤ 262143 → g.dest.start ≤ 262143 → (∀ a o, g.mode = .cyclic a o → g.chain = none) →
    g.encode.length = 28 ∧ programOf g.encode = some g

/-- PROGRAM by the lessee (R66 to R72, section 11.5): which bytes of the record each field of the program is; its checks in
their order, the source side before the destination side, with the units a side moves and the span conditions of R71; a
program that passes is installed with its initial run state, and the reference counts of the new and the old sides stand at
their final values. That the command takes the orders still on their way inside its own taking (log entry 4; behind a
session close: log entry 22), and in which order (log entry 5), is the model's choice. -/
def Obligations.ProgramEffect : Prop :=
  ∀ (s u : State) (p : Port) (tag b : Byte) (r : List Byte) (c : Chan) (x : Channel), r.length = 28 →
    s.servesLessee p 0x14 tag b r c u x →
    let refused := fun code => exec (.program p) s = .next (u.served p 0x14 tag code [])
    let byte := fun k => (r.getD k 0).toNat
    let handle := fun k => ({ gen := r.getD k 0, slot := r.getD (k + 1) 0 } : Handle)
    let three := fun k => byte k * 65536 + byte (k + 1) * 256 + byte (k + 2)
    let step := fun v : OffsetStep => match v with
      | .advance => 0
      | .retreat => 1
      | .hold => 2
    let sense := fun v : Sense => match v with
      | .rise => 0
      | .fall => 1
      | .high => 2
      | .low => 3
    let paced := fun (a : Activation) (o : Policy) =>
      (match a with
        | .soft => byte 22 = 0
        | .line n v => byte 22 = 1 ∧ byte 23 = n.val ∧ byte 24 = sense v) ∧
      byte 25 = if o = .merge then 0 else 1
    (∀ g, programOf r = some g →
      (match g.mode with
        | .single a o => byte 0 = 0 ∧ paced a o
        | .cyclic a o => byte 0 = 1 ∧ paced a o
        | .block a o b side => byte 0 = 2 ∧ paced a o ∧ byte 19 * 256 + byte 20 = b ∧ byte 21 = if side = .source then 0 else 1
        | .sweep v => byte 0 = 3 ∧ byte 1 = if v = .burst then 0 else 1) ∧
      byte 2 = (match g.unit with
        | .one => 1
        | .two => 2
        | .four => 4
        | .eight => 8) ∧
      byte 3 = g.cls.val ∧
      g.source.handle = handle 4 ∧ g.source.start = three 6 ∧ byte 9 = step g.source.step ∧
      g.dest.handle = handle 10 ∧ g.dest.start = three 12 ∧ byte 15 = step g.dest.step ∧ g.count = three 16 ∧
      g.notify = { done := (r.getD 26 0).getLsbD 0, wrap := (r.getD 26 0).getLsbD 1, stop := (r.getD 26 0).getLsbD 2 } ∧
      byte 27 = (match g.chain with
        | none => 255
        | some d => d.val)) ∧
    (x.recorded ≠ none → refused .busy) ∧
    (x.recorded = none → x.state ≠ .leased → x.state ≠ .programmed → refused .wrongState) ∧
    (x.recorded = none → (x.state = .leased ∨ x.state = .programmed) →
      (programOf r = none → refused .badArg) ∧
      ∀ g, programOf r = some g →
        (u.current g.source.handle = none → refused .noRegion) ∧
        ∀ i, u.current g.source.handle = some i →
          ((u.region i).state ≠ .live → refused .retiring) ∧
          ((u.region i).state = .live →
            (u.current g.dest.handle = none → refused .noRegion) ∧
            ∀ j, u.current g.dest.handle = some j →
              ((u.region j).state ≠ .live → refused .retiring) ∧
              ((u.region j).state = .live →
                let rights := (u.rights p i).hasRead = true ∧ (u.rights p j).hasWrite = true
                let unit := g.unit.bytes
                let aligned := g.source.start % unit = 0 ∧ g.dest.start % unit = 0
                let units := fun side => match g.mode with
                  | .single _ _ | .cyclic _ _ | .sweep _ => g.count
                  | .block _ _ b blockSide => if blockSide = side then b else b * g.count
                let spanned := fun (y : Side) (n length : Nat) => match y.step with
                  | .advance => y.start + n * unit ≤ length
                  | .retreat => (n - 1) * unit ≤ y.start ∧ y.start + unit ≤ length
                  | .hold => y.start + unit ≤ length
                let spans := spanned g.source (units .source) (64 * (u.region i).length) ∧
                  spanned g.dest (units .dest) (64 * (u.region j).length)
                (¬ rights → refused .noRight) ∧ (rights → ¬ aligned → refused .align) ∧
                (rights → aligned → ¬ spans → refused .span) ∧
                (rights → aligned → spans → ∃ t : State,
                  exec (.program p) s = .next ((t.setChannel c { x with
                    state := .programmed, program := some g
                    run := { sourceOffset := g.source.start, destOffset := g.dest.start, remaining := g.count
                             blockRemaining := match g.mode with
                               | .single _ _ | .cyclic _ _ | .sweep _ => 0
                               | .block _ _ b _ => b
                             latch := false, overrunSeen := false, wrapCount := 0
                             inService := false, unitInFlight := false } }).served p 0x14 tag .ok
                      [if x.program = none then 0 else 1]) ∧
                  t = { u with table := { u.table with regions := t.table.regions } } ∧
                  ∀ k, t.region k = { u.region k with
                    refs := (u.region k).refs + g.sidesOn k - (x.program.map fun old => old.sidesOn k).getD 0 }))))

/-- QUERY_CHANNEL and LIST_CHANNELS (R74, R75, R177, section 11.5): the 48-byte channel record, and sixteen pairs of state
and lessee, read behind the orders sent before; nothing else changes. The 28 bytes of a program are given one by one: a
field the mode does not use is sent as 0xFF in each byte, and unnamed flag bits as 0. That the command takes the orders
still on their way inside its own taking (log entry 4; behind a session close: log entry 22), and in which order (log entry
5), is the model's choice, and so is that an offset of 262,144 is shown as it stands (log entry 9). -/
def Obligations.ChannelQueries : Prop :=
  (∀ (s : State) (p : Port) (tag b : Byte) (c : Chan), s.servesOpen p 0x1A tag [b] → b.toNat = c.val →
    let u := s.drainOrders
    let x := u.channel c
    let bit := fun f : Bool => if f then 1 else 0
    exec (.queryChannel p) s = .next (u.served p 0x1A tag .ok
      ([x.state.code, (x.lessee.map fun q => BitVec.ofNat 8 q.val).getD 0xFF] ++
        (x.program.map Program.encode).getD (List.replicate 28 0xFF) ++ bytes3 x.run.sourceOffset ++
        bytes3 x.run.destOffset ++ bytes3 x.run.remaining ++ bytes2 x.run.blockRemaining ++
        [BitVec.ofNat 8 (bit x.run.latch + 2 * bit x.run.overrunSeen + 4 * bit x.run.inService + 8 * bit x.run.unitInFlight)] ++
        bytes2 x.run.wrapCount.toNat ++
        (match x.recorded with
          | none => [0, 0xFF]
          | some (.suspend .command) => [1, 0]
          | some (.suspend .halt) => [1, 1]
          | some (.abort .disarm) => [2, 0]
          | some (.abort .overrun) => [2, 1]
          | some (.discard .retired) => [3, 0]
          | some (.discard .revoked) => [3, 1]
          | some .teardown => [4, 0]) ++
        [x.outcome.code, match x.suspension with
          | none => 0xFF
          | some .command => 0
          | some .halt => 1]))) ∧
  (∀ g : Program,
    let byte := fun n : Nat => BitVec.ofNat 8 n
    let bit := fun f : Bool => if f then 1 else 0
    let three := fun n : Nat => [byte (n / 65536), byte (n / 256), byte n]
    let side := fun x : Side => [x.handle.gen, x.handle.slot] ++ three x.start ++
      [match x.step with
        | .advance => 0
        | .retreat => 1
        | .hold => 2]
    let paced := fun (a : Activation) (o : Policy) => (
      (match a with
        | .soft => [0, 0xFF, 0xFF]
        | .line n v => [1, byte n.val, match v with
          | .rise => 0
          | .fall => 1
          | .high => 2
          | .low => 3]) ++ [if o = .merge then 0 else 1] : List Byte)
    let absent := fun n => List.replicate n (0xFF : Byte)
    let head : List Byte := match g.mode with
      | .single _ _ => [0, 0xFF]
      | .cyclic _ _ => [1, 0xFF]
      | .block _ _ _ _ => [2, 0xFF]
      | .sweep v => [3, if v = .burst then 0 else 1]
    let tail : List Byte := match g.mode with
      | .single a o | .cyclic a o => absent 3 ++ paced a o
      | .block a o b blockSide => [byte (b / 256), byte b, if blockSide = .source then 0 else 1] ++ paced a o
      | .sweep _ => absent 7
    let unit : Byte := match g.unit with
      | .one => 1
      | .two => 2
      | .four => 4
      | .eight => 8
    g.encode = head ++ [unit, byte g.cls.val] ++ side g.source ++ side g.dest ++ three g.count ++ tail ++
      [byte (bit g.notify.done + 2 * bit g.notify.wrap + 4 * bit g.notify.stop), match g.chain with
        | none => 0xFF
        | some d => byte d.val]) ∧
  ∀ (s : State) (p : Port) (tag : Byte), s.servesOpen p 0x1B tag [] →
    let u := s.drainOrders
    ∃ payload : List Byte, exec (.listChannels p) s = .next (u.served p 0x1B tag .ok payload) ∧ payload.length = 32 ∧
      ∀ c : Chan, payload[2 * c.val]? = some (u.channel c).state.code ∧
        payload[2 * c.val + 1]? = some (((u.channel c).lessee.map fun q => BitVec.ofNat 8 q.val).getD 0xFF)

/-! ### Arming, activation, suspension and stops -/

/-- ARM by the lessee (R76, R77, R130): NO_PROGRAM, WRONG_STATE and HALTED refuse it in that order; otherwise the channel is
armed from its start, and the result carries the last outcome from before. That the command takes the orders still on their
way inside its own taking (log entry 4; behind a session close: log entry 22), and in which order (log entry 5), is the
model's choice. -/
def Obligations.ArmEffect : Prop :=
  ∀ (s u : State) (p : Port) (tag b : Byte) (c : Chan) (x : Channel), s.servesLessee p 0x15 tag b [] c u x →
    (x.program = none → exec (.arm p) s = .next (u.served p 0x15 tag .noProgram [])) ∧
    ∀ g, x.program = some g →
      (x.state ≠ .programmed → exec (.arm p) s = .next (u.served p 0x15 tag .wrongState [])) ∧
      (x.state = .programmed → look s.pins.halt p = .low → exec (.arm p) s = .next (u.served p 0x15 tag .halted [])) ∧
      (x.state = .programmed → look s.pins.halt p = .high → exec (.arm p) s =
        .next ((u.setChannel c { x with
          state := .armed, outcome := .none
          run := { sourceOffset := g.source.start, destOffset := g.dest.start, remaining := g.count
                   blockRemaining := match g.mode with
                     | .block _ _ b _ => b
                     | .single _ _ | .cyclic _ _ | .sweep _ => 0
                   latch := match g.mode with
                     | .sweep _ => true
                     | .single _ _ | .cyclic _ _ | .block _ _ _ _ => false
                   overrunSeen := false, wrapCount := 0, inService := false, unitInFlight := false } }).served p 0x15 tag .ok [x.outcome.code]))

/-- TRIGGER by the lessee (R83 to R85, R89): WRONG_STATE unless the channel is ARMED or RUNNING and its mode is not SWEEP;
otherwise one activation, whose effect the payload tells, and CHANNEL_STOPPED when it stops the channel at once. That the
command takes the orders still on their way inside its own taking (log entry 4; behind a session close: log entry 22), and
in which order (log entry 5), is the model's choice. -/
def Obligations.TriggerEffect : Prop :=
  ∀ (s u : State) (p : Port) (tag b : Byte) (c : Chan) (x : Channel), s.servesLessee p 0x19 tag b [] c u x →
    let active := (x.state = .armed ∨ x.state = .running) ∧ ∃ g ∈ x.program, ∀ v, g.mode ≠ .sweep v
    (¬ active → exec (.trigger p) s = .next (u.served p 0x19 tag .wrongState [])) ∧
    ∀ g policy, (x.state = .armed ∨ x.state = .running) → x.program = some g → g.mode.policy = some policy →
      (x.overruns policy → exec (.trigger p) s =
        .next (((u.setChannel c (x.activated policy)).offerEvents [(p, .channelStopped c .overrun false)]).served
          p 0x19 tag .ok [2])) ∧
      (¬ x.overruns policy → exec (.trigger p) s = .next ((u.setChannel c (x.activated policy)).served p 0x19 tag .ok
        [if x.run.latch = false then 0 else if policy = .merge then 1 else 2]))

/-- TRIGGER_LEVEL_CHANGE and EDGE_CLAIM (R79 to R81, R83 to R85, R90): a level change is recorded and sends one claim, but none
in the start-up time; the oldest claim of the line is taken, and exactly the ARMED and RUNNING channels whose program has the
line and the sense of the claim are activated; a SWEEP has no activation and no overrun policy (R66). The channels stopped at
once report it, in an order that is left open. The model's choices: EDGE_CLAIM with no waiting claim of the line changes nothing
(log entry 2), and a level is recorded while RESET is asserted (log entry 1). -/
def Obligations.EdgeClaims : Prop :=
  (∀ m : Mode, (m.activation, m.policy) = match m with
    | .single a o | .cyclic a o | .block a o _ _ => (some a, some o)
    | .sweep _ => (none, none)) ∧
  (∀ (s : State) (n : Line),
    let old := look s.pins.trg n
    let t := s.setTrg n (if old = .low then .high else .low)
    (s.pins.reset = .high → s.scrub.startup = false → exec (.triggerLevelChange n) s =
      .next (t.setEdgeClaims (s.chan.edgeClaims ++ [{ line := n, edge := if old = .low then .rise else .fall }]))) ∧
    (s.pins.reset = .low ∨ s.scrub.startup = true → exec (.triggerLevelChange n) s = .next t)) ∧
  (∀ (s : State) (n : Line) (order : List Chan), (∀ k ∈ s.chan.edgeClaims, k.line ≠ n) →
    exec (.edgeClaim n order) s = .next s) ∧
  ∀ (s : State) (n : Line) (order : List Chan) (before after : List EdgeClaim) (edge : Edge),
    s.chan.edgeClaims = before ++ { line := n, edge } :: after → (∀ k ∈ before, k.line ≠ n) →
    let selected := fun c : Chan => ((s.channel c).state = .armed ∨ (s.channel c).state = .running) ∧
      ∃ g ∈ (s.channel c).program, g.mode.activation = some (.line n (if edge = .rise then .rise else .fall))
    ∃ (t : State) (stopped : List Chan), exec (.edgeClaim n order) s = .next t ∧
      t = { s with chan := { s.chan with channels := t.chan.channels, edgeClaims := before ++ after }, links := t.links } ∧
      (∀ c, ¬ selected c → t.channel c = s.channel c) ∧
      (∀ c g policy, selected c → (s.channel c).program = some g → g.mode.policy = some policy →
        t.channel c = (s.channel c).activated policy) ∧
      stopped.Nodup ∧
      (∀ c, c ∈ stopped ↔ selected c ∧ ∃ g ∈ (s.channel c).program, ∃ policy ∈ g.mode.policy,
        (s.channel c).overruns policy) ∧
      ∀ q, t.link q = { s.link q with
        events := s.eventsAfter q
          ((stopped.filter fun c => (s.channel c).lessee = some q).map fun c => .channelStopped c .overrun false) }

/-- SUSPEND, DISARM and RESUME by the lessee (R121, R122, R126 to R128, R130, R131): their checks in their order, APPLIED at
once or RECORDED behind a unit in flight, and a suspended run armed again with its progress kept. That the command takes the
orders still on their way inside its own taking (log entry 4; behind a session close: log entry 22), and in which order (log
entry 5), is the model's choice. -/
def Obligations.SuspendDisarmResumeEffect : Prop :=
  (∀ (s u : State) (p : Port) (tag b : Byte) (c : Chan) (x : Channel), s.servesLessee p 0x17 tag b [] c u x →
    (x.recorded ≠ none → exec (.suspend p) s = .next (u.served p 0x17 tag .busy [])) ∧
    (x.recorded = none → x.state ≠ .armed → x.state ≠ .running →
      exec (.suspend p) s = .next (u.served p 0x17 tag .wrongState [])) ∧
    (x.recorded = none → (x.state = .armed ∨ x.state = .running) → x.run.unitInFlight = true → exec (.suspend p) s =
      .next ((u.setChannel c { x with recorded := some (.suspend .command) }).served p 0x17 tag .ok [1])) ∧
    (x.recorded = none → (x.state = .armed ∨ x.state = .running) → x.run.unitInFlight = false → exec (.suspend p) s =
      .next (((u.setChannel c (x.suspendedWith .command)).offerEvents
        (if ∃ g ∈ x.program, g.notify.stop = true then [(p, .channelSuspended c .command)] else [])).served
        p 0x17 tag .ok [0]))) ∧
  (∀ (s u : State) (p : Port) (tag b : Byte) (c : Chan) (x : Channel), s.servesLessee p 0x16 tag b [] c u x →
    let stoppable := x.state = .armed ∨ x.state = .running ∨ x.state = .suspended
    let busy := ∃ q ∈ x.recorded, 2 ≤ q.strength
    (busy → exec (.disarm p) s = .next (u.served p 0x16 tag .busy [])) ∧
    (¬ busy → ¬ stoppable → exec (.disarm p) s = .next (u.served p 0x16 tag .wrongState [])) ∧
    (¬ busy → stoppable → x.run.unitInFlight = true → exec (.disarm p) s =
      .next ((u.setChannel c { x with recorded := some (.abort .disarm) }).served p 0x16 tag .ok [1])) ∧
    (¬ busy → stoppable → x.run.unitInFlight = false → exec (.disarm p) s =
      .next (((u.setChannel c (x.stoppedWith .aborted)).offerEvents
        (if ∃ g ∈ x.program, g.notify.stop = true then [(p, .channelStopped c .aborted false)] else [])).served
        p 0x16 tag .ok [0]))) ∧
  ∀ (s u : State) (p : Port) (tag b : Byte) (c : Chan) (x : Channel), s.servesLessee p 0x18 tag b [] c u x →
    (x.state ≠ .suspended → exec (.resume p) s = .next (u.served p 0x18 tag .wrongState [])) ∧
    (x.state = .suspended → look s.pins.halt p = .low → exec (.resume p) s = .next (u.served p 0x18 tag .halted [])) ∧
    ∀ cause, x.state = .suspended → look s.pins.halt p = .high → x.suspension = some cause → exec (.resume p) s =
      .next ((u.setChannel c { x with
        state := .armed, suspension := none
        run := { x.run with
          latch := match x.program.map Program.mode with
            | some (.sweep _) => true
            | none | some (.single _ _) | some (.cyclic _ _) | some (.block _ _ _ _) => false
          inService := false } }).served p 0x18 tag .ok [if cause = .command then 0 else 1])

/-- HALT_FALL, HALT_RISE, CLR_FALL and CLR_RISE (R129, R130, R137): a change is recorded as the new level; a fall of HALTk sends
a claim, but none in the start-up time, and a fall of CLRk raises a notice, unless one of the port waits or RESET is asserted.
The model's choices: a fall of a line that is low already changes nothing (log entry 2), and a level is recorded while RESET is
asserted (log entry 1). -/
def Obligations.HaltAndClrLines : Prop :=
  ∀ (s : State) (p : Port),
    exec (.haltRise p) s = .next (s.setHalt p .high) ∧ exec (.clrRise p) s = .next (s.setClr p .high) ∧
    (look s.pins.halt p = .high → s.pins.reset = .high → s.scrub.startup = false →
      exec (.haltFall p) s = .next ((s.setHalt p .low).setHaltClaims (s.chan.haltClaims ++ [p]))) ∧
    (look s.pins.halt p = .high → (s.pins.reset = .low ∨ s.scrub.startup = true) →
      exec (.haltFall p) s = .next (s.setHalt p .low)) ∧
    (look s.pins.halt p = .low → exec (.haltFall p) s = .next s) ∧
    (look s.pins.clr p = .high → s.pins.reset = .high → .clear p ∉ s.table.notices →
      exec (.clrFall p) s = .next ((s.setClr p .low).setNotices (s.table.notices ++ [.clear p]))) ∧
    (look s.pins.clr p = .high → (s.pins.reset = .low ∨ .clear p ∈ s.table.notices) →
      exec (.clrFall p) s = .next (s.setClr p .low)) ∧
    (look s.pins.clr p = .low → exec (.clrFall p) s = .next s)

/-- HALT_CLAIM (R120, R121, R129, R131): every ARMED or RUNNING channel the port leases is suspended, at once or behind its unit
in flight, and no other; those suspended at once report it when STOP is notified, in an order that is left open. That HALT_CLAIM
with no waiting claim of the port changes nothing is the model's choice, log entry 2. -/
def Obligations.HaltClaimEffect : Prop :=
  (∀ (s : State) (p : Port) (order : List Chan), p ∉ s.chan.haltClaims → exec (.haltClaim p order) s = .next s) ∧
  ∀ (s : State) (p : Port) (order : List Chan), p ∈ s.chan.haltClaims →
    let struck := fun c : Chan => (s.channel c).lessee = some p ∧
      ((s.channel c).state = .armed ∨ (s.channel c).state = .running)
    ∃ (t : State) (told : List Chan), exec (.haltClaim p order) s = .next t ∧
      t = { s with
        chan := { s.chan with channels := t.chan.channels, haltClaims := s.chan.haltClaims.erase p }, links := t.links } ∧
      (∀ c, t.channel c =
        if ¬ struck c then s.channel c
        else if (s.channel c).run.unitInFlight then (s.channel c).recording (.suspend .halt)
        else (s.channel c).suspendedWith .halt) ∧
      told.Nodup ∧
      (∀ c, c ∈ told ↔ struck c ∧ (s.channel c).run.unitInFlight = false ∧
        ∃ g ∈ (s.channel c).program, g.notify.stop = true) ∧
      t.link p = { s.link p with events := s.eventsAfter p (told.map fun c => .channelSuspended c .halt) } ∧
      ∀ q, q ≠ p → t.link q = s.link q

/-- A program names the region of either side, and the orders of one taking are sent as one batch; DISCARD_ORDER and
TEARDOWN_ORDER (R32, R61, R118, R119, R123, R124, R131): the order of the oldest batch is taken; one that no longer applies is
dropped, one that finds a unit in flight is recorded by strength, and any other is applied at once. That the orders of one
taking may be taken in any order is the model's choice, log entry 5. That the source side's release notice goes before the
destination side's is the model's choice, log entry 19. That an order row with no such order in the oldest batch changes nothing
is the model's choice, log entry 2. -/
def Obligations.StopOrders : Prop :=
  (∀ (g : Program) (h : Handle), g.names h = true ↔ g.source.handle = h ∨ g.dest.handle = h) ∧
  (∀ (s : State) (f : Channel → Bool), s.channelsWhere f = (List.finRange 16).filter fun c => f (s.channel c)) ∧
  (∀ (s : State) (batch : List Order), s.sendOrders batch =
    if batch = [] then s else s.setOrders (s.chan.orders ++ [batch])) ∧
  (∀ (s : State) (c : Chan) (h : Handle) (cause : DiscardCause) (before after : List Order) (later : List (List Order)),
    s.chan.orders = (before ++ { channel := c, kind := .discard cause h } :: after) :: later →
    (∀ o ∈ before, ¬ (o.channel = c ∧ o.kind ≠ .teardown)) →
    let x := s.channel c
    let t := s.setOrders (if before ++ after = [] then later else (before ++ after) :: later)
    ((∀ g ∈ x.program, g.names h = false) → exec (.discardOrder c) s = .next t) ∧
    ∀ g, x.program = some g → g.names h = true →
      (x.run.unitInFlight = true → exec (.discardOrder c) s = .next (t.setChannel c (x.recording (.discard cause)))) ∧
      ∀ p, x.run.unitInFlight = false → x.lessee = some p → exec (.discardOrder c) s =
        .next (((t.setChannel c { x with
          state := .leased, program := none, run := RunState.clear, recorded := none, suspension := none
          outcome := if cause = .retired then .retired else .revoked }).setNotices
          (s.table.notices ++ [.referenceRelease g.source.handle, .referenceRelease g.dest.handle])).offerEvents
          [(p, .channelStopped c (if cause = .retired then .retired else .revoked) false)])) ∧
  (∀ (s : State) (c : Chan) (before after : List Order) (later : List (List Order)),
    s.chan.orders = (before ++ { channel := c, kind := .teardown } :: after) :: later →
    (∀ o ∈ before, ¬ (o.channel = c ∧ o.kind = .teardown)) →
    let x := s.channel c
    let t := s.setOrders (if before ++ after = [] then later else (before ++ after) :: later)
    (x.state = .free → exec (.teardownOrder c) s = .next t) ∧
    (x.state ≠ .free → x.run.unitInFlight = true →
      exec (.teardownOrder c) s = .next (t.setChannel c (x.recording .teardown))) ∧
    ∀ p, x.state ≠ .free → x.run.unitInFlight = false → x.lessee = some p → exec (.teardownOrder c) s =
      .next ((t.setChannel c Channel.empty).setNotices (s.table.notices ++
        (match x.program with
          | none => []
          | some g => [.referenceRelease g.source.handle, .referenceRelease g.dest.handle]) ++ [.leaseEnd c p]))) ∧
  ∀ (s : State) (c : Chan), (∀ batch rest, s.chan.orders = batch :: rest → ∀ o ∈ batch, o.channel ≠ c) →
    exec (.discardOrder c) s = .next s ∧ exec (.teardownOrder c) s = .next s

/-- A channel command taken while orders are on their way (R61) does what it does on the hub where those orders have been
taken before it, and the notices they raise wait in front of its own. To take the first of the orders as a step of its own
leaves the same hub before the command, and with no order on its way the hub stands as it is. That the command takes the
orders inside its own taking (log entry 4; behind a session close: log entry 22), in the order of the batches (log entry 5),
is the model's choice. -/
def Obligations.CommandsFollowOrders : Prop :=
  (∀ (s : State) (c : Instr) (p : Port) (op : Byte) (n : Nat) (tag : Byte) (args : List Byte),
    commandRow c = some (p, op, n) → 0x12 ≤ op.toNat → s.servesOpen p op tag args → args.length = n →
    (∀ b ∈ args.head?, b.toNat < 16 ∨ (op = 0x12 ∧ b = 0xFF)) →
    let u := s.drainOrders
    ∃ v, exec c (u.setNotices []) = .next v ∧ exec c s = .next (v.setNotices (u.table.notices ++ v.table.notices))) ∧
  (∀ s : State, s.chan.orders = [] → s.drainOrders = s) ∧
  ∀ (s t : State) (o : Order) (batch : List Order) (later : List (List Order)), s.chan.orders = (o :: batch) :: later →
    exec (if o.kind = .teardown then .teardownOrder o.channel else .discardOrder o.channel) s = .next t →
    t.drainOrders = s.drainOrders ∧ t.drainOrders.chan.orders = []

/-- Two requests at one channel are settled by strength, SUSPEND 1, ABORT 2, DISCARD 4 and TEARDOWN 5 (R117, R120): at a channel
with a unit in flight the stronger one stands recorded, and of two equal ones the first; nothing is sent and nothing else
changes. -/
def Obligations.StrengthSettlesRequests : Prop :=
  (∀ q : Request, q.strength = match q with
    | .suspend _ => 1
    | .abort _ => 2
    | .discard _ => 4
    | .teardown => 5) ∧
  ∀ (c : Chan) (x : Channel) (old new : Request), x.recorded = some old → x.run.unitInFlight = true → x.state = .running →
    x.program ≠ none → makeRequest c x new =
      { channel := { x with recorded := some (if old.strength < new.strength then new else old) }, events := [], notices := [] }

/-! ### The transfer engine -/

/-- The arbiter (R94, R95): which channels request service, and the winner among those not passed over: a channel of the lowest class
number that asks, a RUNNING one before an ARMED one, and of these the first in the round-robin order behind the class pointer. -/
def Obligations.ArbiterWinner : Prop :=
  (∀ (s : State) (c : Chan), s.requests c = true ↔
    (s.channel c).recorded = none ∧ ∃ g ∈ (s.channel c).program,
      ((s.channel c).state = .armed ∧ ((s.channel c).run.latch = true ∨
        ∃ n, (g.mode.activation = some (.line n .high) ∧ look s.pins.trg n = .high) ∨
          (g.mode.activation = some (.line n .low) ∧ look s.pins.trg n = .low))) ∨
      ((s.channel c).state = .running ∧ (s.channel c).run.unitInFlight = false)) ∧
  ∀ (s : State) (passed : List Chan) (c : Chan),
    let asks := fun d => s.requests d = true ∧ d ∉ passed
    s.winner passed = some c ↔ asks c ∧ ∃ g ∈ (s.channel c).program, ∀ d, asks d → ∀ h ∈ (s.channel d).program,
      g.cls ≤ h.cls ∧ (h.cls = g.cls → s.placeInClass g.cls c ≤ s.placeInClass g.cls d)

/-- UNIT_START (R34, R93, R96, R97): with no unit in flight, the channel that wins when every requesting channel that fails the
unit-start check is passed over is granted its unit, and a service begins for one that was ARMED; when none is left, nothing
changes. That UNIT_START with a unit in flight, or with nothing to grant, changes nothing is the model's choice, log entry 2. -/
def Obligations.UnitStartEffect : Prop :=
  (∀ s : State, s.engine.unit ≠ none → exec .unitStart s = .next s) ∧
  ∀ (s : State) (failing : List Chan), s.engine.unit = none →
    (∀ d, d ∈ failing ↔ s.requests d = true ∧ ∀ g i j, ¬ s.PassesCheck d g i j) →
    (s.winner failing = none → exec .unitStart s = .next s) ∧
    ∀ (c : Chan) (g : Program) (i j : Slot), s.winner failing = some c → s.PassesCheck c g i j →
      let x := s.channel c
      let keeps := g.mode = .sweep .interleaved ∧ 1 < x.run.remaining
      let unit : UnitInFlight :=
        { channel := c, source := 64 * (s.region i).base + x.run.sourceOffset
          dest := 64 * (s.region j).base + x.run.destOffset, size := g.unit, buffer := [], dataError := false
          phase := .started }
      (x.state = .armed → exec .unitStart s =
        .next ((s.setChannel c { x with
          state := .running
          run := { x.run with
            unitInFlight := true, inService := true, latch := decide (x.run.latch = true ∧ keeps) } }).setEngine
          { pointers := put s.engine.pointers g.cls c, unit := some unit })) ∧
      (x.state ≠ .armed → exec .unitStart s =
        .next ((s.setChannel c { x with run := { x.run with unitInFlight := true } }).setEngine
          { s.engine with unit := some unit }))

/-- UNIT_TRANSFER (R1, R2, R99): the read takes the unit's bytes and finds any parity error among them; the write stores them
with good parity, and is not made for a marked unit; then the end report is sent. Both parts in one step are the read and then
the write. The model's choices: the division into parts, and the stop of an access past the last byte address (log entry 10); a
part out of its turn changes nothing (log entry 2). -/
def Obligations.UnitTransferEffect : Prop :=
  ∀ (s : State) (u : UnitInFlight), s.engine.unit = some u →
    let n := u.size.bytes
    let withUnit := fun v : UnitInFlight => s.setEngine { s.engine with unit := some v }
    (u.phase = .started → memoryBytes < u.source + n → exec (.unitTransfer .read) s = .fault .noSuchByte) ∧
    (u.phase = .started → u.source + n ≤ memoryBytes → ∃ (bytes : List Byte) (err : Bool),
      exec (.unitTransfer .read) s = .next (withUnit { u with buffer := bytes, dataError := err, phase := .readDone }) ∧
      bytes.length = n ∧ (∀ k, k < n → bytes[k]? = some (s.mem.read (u.source + k))) ∧
      (err = true ↔ ∃ k, k < n ∧ s.mem.parityError (u.source + k) = true)) ∧
    (u.phase = .started → ∀ t, exec (.unitTransfer .read) s = .next t →
      exec (.unitTransfer .both) s = exec (.unitTransfer .write) t) ∧
    (∀ part, part ≠ .read → u.phase = .readDone →
      (u.dataError = true → exec (.unitTransfer part) s = .next (withUnit { u with phase := .reported })) ∧
      (u.dataError = false → memoryBytes < u.dest + u.buffer.length →
        exec (.unitTransfer part) s = .fault .noSuchByte) ∧
      (u.dataError = false → s.MemoryLaw → u.dest + u.buffer.length ≤ s.mem.definedTo → ∃ m : Memory,
        exec (.unitTransfer part) s = .next ((withUnit { u with phase := .reported }).setMem m) ∧
        m.definedTo = s.mem.definedTo ∧
        ∀ a, a < s.mem.definedTo →
          m.read a = (if u.dest ≤ a ∧ a < u.dest + u.buffer.length then u.buffer.getD (a - u.dest) 0 else s.mem.read a) ∧
          m.parityError a =
            (if u.dest ≤ a ∧ a < u.dest + u.buffer.length then false else s.mem.parityError a))) ∧
    (∀ part, u.phase = .reported ∨ (part = .read ∧ u.phase = .readDone) ∨ (part = .write ∧ u.phase = .started) →
      exec (.unitTransfer part) s = .next s)

/-- The unit-end processing (R101 to R106): the bytes of a unit, how each side's offset moves, and, by mode, the counts, the end
of the service, the wrap and the completion. That an offset RETREAT would take below 0 is given its start value at once, also
where the service goes on or ends without a wrap, is the model's choice, log entry 12. That an ADVANCE offset which reaches
262,144 is kept, against the range R59 gives, is the model's reading, log entry 9. -/
def Obligations.UnitEndProcessing : Prop :=
  (∀ u : UnitSize, u.bytes = match u with
    | .one => 1
    | .two => 2
    | .four => 4
    | .eight => 8) ∧
  ∀ (c : Chan) (x : Channel) (g : Program),
    let moved := fun (side : Side) (offset : Nat) => match side.step with
      | .advance => offset + g.unit.bytes
      | .retreat => if g.unit.bytes ≤ offset then offset - g.unit.bytes else side.start
      | .hold => offset
    let run := { x.run with
      sourceOffset := moved g.source x.run.sourceOffset, destOffset := moved g.dest x.run.destOffset }
    let goesOn := fun r : RunState => unitEnd c x g = { channel := { x with run := r }, events := [], completed := false }
    let serviceEnds := fun (r : RunState) (es : List Event) => unitEnd c x g =
      { channel := { x with state := .armed, run := { r with inService := false } }, events := es, completed := false }
    let runCompletes := fun r : RunState => unitEnd c x g =
      { channel := { x with state := .programmed, outcome := .complete, run := { r with inService := false } }
        events := if g.notify.done then [.channelDone c x.run.overrunSeen] else [], completed := true }
    (∀ a o b side, g.mode = .block a o b side →
      let back := { run with
        sourceOffset := if side = .source then g.source.start else run.sourceOffset
        destOffset := if side = .dest then g.dest.start else run.destOffset
        blockRemaining := b, remaining := x.run.remaining - 1 }
      (1 < x.run.blockRemaining → goesOn { run with blockRemaining := x.run.blockRemaining - 1 }) ∧
      (x.run.blockRemaining = 1 → 1 < x.run.remaining → serviceEnds back []) ∧
      (x.run.blockRemaining = 1 → x.run.remaining = 1 → runCompletes back)) ∧
    (∀ a o, g.mode = .single a o →
      (1 < x.run.remaining → serviceEnds { run with remaining := x.run.remaining - 1 } []) ∧
      (x.run.remaining = 1 → runCompletes { run with remaining := 0 })) ∧
    (∀ a o, g.mode = .cyclic a o →
      (1 < x.run.remaining → serviceEnds { run with remaining := x.run.remaining - 1 } []) ∧
      (x.run.remaining = 1 → serviceEnds { run with
        sourceOffset := g.source.start, destOffset := g.dest.start, remaining := g.count
        wrapCount := x.run.wrapCount + 1 }
        (if g.notify.wrap then [.channelWrap c (x.run.wrapCount + 1) x.run.overrunSeen] else []))) ∧
    ∀ pacing, g.mode = .sweep pacing →
      (1 < x.run.remaining → pacing = .burst → goesOn { run with remaining := x.run.remaining - 1 }) ∧
      (1 < x.run.remaining → pacing = .interleaved → serviceEnds { run with remaining := x.run.remaining - 1 } []) ∧
      (x.run.remaining = 1 → runCompletes { run with remaining := 0 })

/-- UNIT_END_REPORT (R100, R107, R110, R111, R113 to R115, R119, R121 to R125): the unit-end processing, or the data-error stop,
then the recorded request, settled by strength, and the chain of a completed run. That the source side's release notice goes
before the destination side's is the model's choice, log entry 19. -/
def Obligations.UnitEndReportEffect : Prop :=
  ∀ (s : State) (u : UnitInFlight) (c : Chan) (x : Channel) (g : Program) (p : Port), s.engine.unit = some u →
    u.phase = .reported → u.channel = c → s.channel c = x → x.program = some g → x.lessee = some p →
    let y : Channel := { x with run := { x.run with unitInFlight := false } }
    let e := unitEnd c y g
    let ended := fun (z : Channel) (es : List Event) (ns : List Notice) =>
      (((s.setEngine { s.engine with unit := none }).setChannel c z).setNotices (s.table.notices ++ ns)).offerEvents
        (es.map fun ev => (p, ev))
    let leaves := fun (z : Channel) (es : List Event) (ns : List Notice) =>
      exec .unitEndReport s = .next (ended z es ns)
    let releases := [Notice.referenceRelease g.source.handle, Notice.referenceRelease g.dest.handle]
    (u.dataError = true →
      ((∀ q ∈ x.recorded, q.strength < 4) → leaves (y.stoppedWith .dataError) [.channelStopped c .dataError true] []) ∧
      (∀ k, x.recorded = some (.discard k) →
        leaves (y.discardedWith k) [.channelStopped c (y.discardedWith k).outcome true] releases) ∧
      (x.recorded = some .teardown → leaves Channel.empty [] (releases ++ [.leaseEnd c p]))) ∧
    (u.dataError = false →
      (∀ k, x.recorded = some (.discard k) →
        leaves (e.channel.discardedWith k) (e.events ++ [.channelStopped c (y.discardedWith k).outcome false]) releases) ∧
      (x.recorded = some .teardown → leaves Channel.empty e.events (releases ++ [.leaseEnd c p])) ∧
      (e.completed = false →
        (x.recorded = none → leaves e.channel e.events []) ∧
        (∀ k, x.recorded = some (.suspend k) → leaves (e.channel.suspendedWith k)
          (e.events ++ if g.notify.stop then [.channelSuspended c k] else []) []) ∧
        (x.recorded = some (.abort .disarm) → leaves (e.channel.stoppedWith .aborted)
          (e.events ++ if g.notify.stop then [.channelStopped c .aborted false] else []) []) ∧
        (x.recorded = some (.abort .overrun) → leaves (e.channel.stoppedWith .overrun)
          (e.events ++ [.channelStopped c .overrun false]) [])) ∧
      (e.completed = true → (∀ q ∈ x.recorded, q.strength < 4) →
        let z : Channel := { e.channel with recorded := none }
        (g.chain = none → leaves z e.events []) ∧
        ∀ d, g.chain = some d →
          let target := if d = c then z else s.channel d
          let fails := fun reason => leaves z (e.events ++ [.chainFailed c d reason]) []
          (target.lessee ≠ some p → fails .notLessee) ∧
          (target.lessee = some p → target.state ≠ .programmed → fails .wrongState) ∧
          (target.lessee = some p → target.state = .programmed → look s.pins.halt p = .low → fails .halted) ∧
          ∀ h, target.lessee = some p → target.state = .programmed → look s.pins.halt p = .high →
            target.program = some h → exec .unitEndReport s = .next ((ended z e.events []).setChannel d { target with
              state := .armed, outcome := .none
              run := { sourceOffset := h.source.start, destOffset := h.dest.start, remaining := h.count
                       blockRemaining := match h.mode with
                         | .block _ _ b _ => b
                         | .single _ _ | .cyclic _ _ | .sweep _ => 0
                       latch := match h.mode with
                         | .sweep _ => true
                         | .single _ _ | .cyclic _ _ | .block _ _ _ _ => false
                       overrunSeen := false, wrapCount := 0, inService := false, unitInFlight := false } })))

/-! ### The host links -/

/-- A frame in its parts (R150 to R154, R157, R166): the fall of SELk with the summary it captures; the code byte, beside which
that summary goes out and whose answer is decided from the link's state at that moment, but NOT_READY where SELk fell in the
NOT_READY period; the bytes of a frame that takes nothing in, beside which go the answer, what the hub has to send and zeros,
whatever has become of the queues since; the rise with what makes a frame short; and a frame in one step as its parts one after
the other. A part that cannot come where the link stands changes nothing: the model's choice, log entry 2. The parts and the
kept output are the model's form, log entry 8. That a record short after a session close is still short, and that an unknown
code answered NOT_READY leaves the malformed flag, is log entry 13. That a frame of one byte does all this too, against R152's
words on polling, is the model's reading, log entry 20. That a session close before the code byte counts only in the answer,
against R144's words, is the model's reading, log entry 21. -/
def Obligations.FramesAreTheirParts : Prop :=
  ∀ (p : Port) (code : Byte),
    (∀ s : State, (s.link p).frame = none →
      let l := s.link p
      let bit := fun f : Bool => if f then 1 else 0
      let state := if l.notReady then 0 else match s.session p with
        | .closed => 1
        | .opened => 2
        | .closing => 3
      let queues := if l.notReady then 0 else
        32 * bit (decide (l.commands.length < 4)) + 16 * bit (!l.results.isEmpty) + 8 * bit (!l.events.isEmpty) + 4 * bit l.malformed
      exec (frameOf p code .select) s = .next (s.setLink p { l with
        out := []
        frame := some
          { summary := BitVec.ofNat 8 (64 * state + queues + 2 * bit (look s.pins.halt p == .low) + bit (look s.pins.clr p == .low))
            notReady := l.notReady, code := none, answer := none, received := [], toSend := [], live := false
            closed := false } })) ∧
    (∀ (s : State) (f : Frame), (s.link p).frame = some f → f.code = none →
      let l := s.link p
      let answer : LinkAnswer :=
        if f.notReady = true ∨ l.window ≠ none then .notReady
        else if code = 0x02 then
          if s.session p = .closing then .closing
          else if 4 ≤ l.commands.length then .full
          else if look s.pins.clr p = .low then .held
          else .accepted
        else if code = 0x03 then (if l.results = [] then .empty else .accepted)
        else if code = 0x04 then (if l.events = [] then .empty else .accepted)
        else if code = 0x01 ∨ code = 0x05 ∨ code = 0x06 then .accepted
        else .malformed
      let takes := fun c : Byte => answer = .accepted ∧ code = c
      ∃ sent : List Byte, ((¬ takes 0x01 ∧ ¬ takes 0x03 ∧ ¬ takes 0x04) → sent = []) ∧
        exec (frameOf p code .code) s = .next (s.setLink p { l with
          malformed := if answer = .malformed then true else if takes 0x01 then false else l.malformed
          results := if takes 0x03 then l.results.tail else l.results
          events := if takes 0x04 then l.events.tail else l.events
          out := [f.summary]
          frame := some { f with
            code := some code, answer := some answer, toSend := sent
            live := decide (answer = .accepted ∨ answer = .held), closed := false } })) ∧
    (∀ (s : State) (f : Frame) (a : LinkAnswer) (bs : List Byte), (s.link p).frame = some f → f.code = some code →
      f.answer = some a → (f.live = false ∨ (code ≠ 0x02 ∧ code ≠ 0x05 ∧ code ≠ 0x06)) →
      (∀ w ∈ (s.link p).window, w.framed = false) →
      let l := s.link p
      let sends := fun (out : List Byte) (n : Nat) => .next (s.setLink p { l with
        out := l.out ++ out
        frame := some { f with received := f.received ++ bs, toSend := f.toSend.drop n } })
      exec (frameOf p code (.bytes bs)) s =
        if f.received = [] then sends (bytesBeside a f.toSend bs.length) (bs.length - 1)
        else sends ((f.toSend ++ List.replicate bs.length 0).take bs.length) bs.length) ∧
    (∀ (s : State) (f : Frame), (s.link p).frame = some f → f.code = none ∨ f.code = some code →
      let l := s.link p
      let n := f.received.length
      let declared := 5 + (f.received.getD 3 0).toNat
      let short := f.live = true ∧
        (f.code = some 0x02 ∨ (f.code = some 0x05 ∧ n < 4) ∨ (f.code = some 0x06 ∧ (n < 4 ∨ n < declared)))
      exec (frameOf p code .deselect) s = .next (s.setLink p { l with
        frame := none, malformed := l.malformed || decide short
        buffer := if short ∧ f.code = some 0x06 then [] else l.buffer
        window := l.window.map fun w => { w with framed := false } })) ∧
    (∀ (s t u v : State) (bs : List Byte), (s.link p).frame = none → exec (frameOf p code .select) s = .next t →
      exec (frameOf p code .code) t = .next u → exec (frameOf p code (.bytes bs)) u = .next v →
        exec (frameOf p code (.opening bs)) s = .next v ∧
        exec (frameOf p code (.whole bs)) s = exec (frameOf p code .deselect) v) ∧
    (∀ (s t : State) (f : Frame) (as bs : List Byte), (s.link p).frame = some f → f.code = some code →
      exec (frameOf p code (.bytes as)) s = .next t →
        exec (frameOf p code (.bytes (as ++ bs))) s = exec (frameOf p code (.bytes bs)) t) ∧
    ∀ (s : State) (bs : List Byte),
      ((s.link p).frame = none → ∀ part ∈ [FramePart.code, .bytes bs, .deselect], exec (frameOf p code part) s = .next s) ∧
      ((s.link p).frame ≠ none → ∀ part ∈ [FramePart.select, .opening bs, .whole bs],
        exec (frameOf p code part) s = .next s)

/-- STATUS_READ, RESULT_READ and EVENT_READ as whole frames, and at the code byte of a frame in progress (R151, R153, R155,
R164, R166, R172, R175, sections 11.2, 11.3, 11.6 and 11.7): the status block, as it stands at the code byte, and the malformed
flag it clears; the head record removed and sent; EMPTY for an empty queue; the byte layout of each event; and the values of the
link answers, and of the rights, states, result codes, causes and reasons that results and events carry. That a frame of one
byte does all this too, against R152's words on polling, is the model's reading, log entry 20. -/
def Obligations.StatusAndQueueReads : Prop :=
  (∀ (s : State) (p : Port),
    let l := s.link p
    let bit := fun f : Bool => if f then 1 else 0
    let int := (l.settings.onResult = true ∧ l.results ≠ []) ∨ (l.settings.onEvent = true ∧ l.events ≠ [])
    let block : List Byte :=
      [BitVec.ofNat 8 p.val,
        (match s.session p with
          | .closed => 1
          | .opened => 2
          | .closing => 3),
        (match s.table.quotaMode with
          | .openMode => 0
          | .split => 1),
        BitVec.ofNat 8 l.commands.length, BitVec.ofNat 8 l.results.length, BitVec.ofNat 8 l.events.length,
        BitVec.ofNat 8 (bit l.malformed + 2 * bit l.settings.onResult + 4 * bit l.settings.onEvent +
          8 * bit l.settings.reportDenials + 16 * bit (decide int) + 32 * bit (look s.pins.halt p == .low) +
          64 * bit (look s.pins.clr p == .low)),
        BitVec.ofNat 8 ((indices 8).map fun n => 2 ^ n.val * bit (look s.pins.trg n == .high)).sum]
    let record := fun r : ResultRecord => [r.opcode, r.tag, r.code.code, BitVec.ofNat 8 r.payload.length] ++ r.payload
    (l.Ready → ∀ bs : List Byte,
      let sends := fun answer bytes => s.summary p :: bytesBeside answer bytes bs.length
      exec (.statusRead p (.whole bs)) s = .next (s.setLink p { l with malformed := false, out := sends .accepted block }) ∧
      (l.results = [] → exec (.resultRead p (.whole bs)) s = .next (s.setLink p { l with out := sends .empty [] })) ∧
      (∀ r rest, l.results = r :: rest → exec (.resultRead p (.whole bs)) s =
        .next (s.setLink p { l with results := rest, out := sends .accepted (record r) })) ∧
      (l.events = [] → exec (.eventRead p (.whole bs)) s = .next (s.setLink p { l with out := sends .empty [] })) ∧
      ∀ e rest, l.events = e :: rest → exec (.eventRead p (.whole bs)) s =
        .next (s.setLink p { l with events := rest, out := sends .accepted e.encode })) ∧
    ∀ f : Frame, l.frame = some f → f.code = none → f.notReady = false → l.window = none →
      let answers := fun (code : Byte) (answer : LinkAnswer) (bytes : List Byte) (l : Link) => .next (s.setLink p { l with
        out := [f.summary]
        frame := some { f with
          code := some code, answer := some answer, toSend := bytes, live := decide (answer = .accepted), closed := false } })
      exec (.statusRead p .code) s = answers 0x01 .accepted block { l with malformed := false } ∧
      (l.results = [] → exec (.resultRead p .code) s = answers 0x03 .empty [] l) ∧
      (∀ r rest, l.results = r :: rest →
        exec (.resultRead p .code) s = answers 0x03 .accepted (record r) { l with results := rest }) ∧
      (l.events = [] → exec (.eventRead p .code) s = answers 0x04 .empty [] l) ∧
      ∀ e rest, l.events = e :: rest →
        exec (.eventRead p .code) s = answers 0x04 .accepted e.encode { l with events := rest }) ∧
  (∀ e : Event,
    let two := fun n : Nat => [BitVec.ofNat 8 (n / 256), BitVec.ofNat 8 n]
    let flag := fun f : Bool => if f then (1 : Byte) else 0
    e.encode = match e with
      | .channelDone c seen => [0x01, 2, BitVec.ofNat 8 c.val, flag seen]
      | .channelWrap c n seen => [0x02, 4, BitVec.ofNat 8 c.val] ++ two n.toNat ++ [flag seen]
      | .channelStopped c cause err => [0x03, 3, BitVec.ofNat 8 c.val, cause.code, flag err]
      | .channelSuspended c cause => [0x04, 2, BitVec.ofNat 8 c.val, if cause = .command then 0 else 1]
      | .chainFailed c d reason => [0x05, 3, BitVec.ofNat 8 c.val, BitVec.ofNat 8 d.val, reason.code]
      | .offerReceived h owner length label timeout =>
        [0x06, 9, h.gen, h.slot, BitVec.ofNat 8 owner.val] ++ two length ++ two label ++ two timeout
      | .offerResolved h target outcome => [0x07, 4, h.gen, h.slot, BitVec.ofNat 8 target.val, outcome.code]
      | .offerCancelled h owner reason => [0x08, 4, h.gen, h.slot, BitVec.ofNat 8 owner.val, reason.code]
      | .rightsChanged h rights reason => [0x09, 4, h.gen, h.slot, rights.code, reason.code]
      | .regionRetired h => [0x0A, 2, h.gen, h.slot]
      | .accessDenied addr length dir cause =>
        [0x0B, 7, BitVec.ofNat 8 (addr.toNat / 65536), BitVec.ofNat 8 (addr.toNat / 256), BitVec.ofNat 8 addr.toNat] ++
          two length ++ [if dir = .read then 0 else 1, cause.code]
      | .overrun n => [0x0C, 2] ++ two n) ∧
  (∀ x : Rights, x.code = match x with
    | .none => 0
    | .read => 1
    | .write => 2
    | .readWrite => 3) ∧
  (∀ x : RegionState, x.code = match x with
    | .unused => 0
    | .live => 1
    | .retiring => 2
    | .scrubbing => 3) ∧
  (∀ x : ChannelState, x.code = match x with
    | .free => 0
    | .leased => 1
    | .programmed => 2
    | .armed => 3
    | .running => 4
    | .suspended => 5) ∧
  (∀ x : ResultCode, x.code = match x with
    | .ok => 0
    | .badOpcode => 1
    | .badArg => 2
    | .notOpen => 3
    | .alreadyOpen => 4
    | .noRegion => 5
    | .notOwner => 6
    | .noSpace => 7
    | .noSlot => 8
    | .quota => 9
    | .pinned => 10
    | .offerPending => 11
    | .notOffered => 12
    | .badHost => 13
    | .retiring => 14
    | .noRight => 15
    | .notFound => 16
    | .noChannel => 17
    | .notLessee => 18
    | .wrongState => 19
    | .busy => 20
    | .span => 21
    | .align => 22
    | .noProgram => 23
    | .halted => 24) ∧
  (∀ x : LastOutcome, x.code = match x with
    | .none => 0
    | .complete => 1
    | .aborted => 2
    | .overrun => 3
    | .dataError => 4
    | .retired => 5
    | .revoked => 6) ∧
  (∀ x : ChainReason, x.code = match x with
    | .notLessee => 0
    | .wrongState => 1
    | .halted => 2) ∧
  (∀ x : DenialCause, x.code = match x with
    | .notOpen => 0
    | .unmapped => 1
    | .retiring => 2
    | .noRight => 3) ∧
  (∀ x : RightsReason, x.code = match x with
    | .grant => 0
    | .revoke => 1
    | .freed => 2) ∧
  (∀ x : OfferOutcome, x.code = match x with
    | .accepted => 0
    | .declined => 1
    | .expired => 2
    | .targetClosed => 3) ∧
  (∀ x : CancelReason, x.code = match x with
    | .withdrawn => 0
    | .expired => 1
    | .ownerClosed => 2) ∧
  ∀ x : LinkAnswer, x.code = match x with
    | .accepted => 1
    | .full => 2
    | .empty => 3
    | .notReady => 4
    | .closing => 5
    | .held => 6
    | .malformed => 7

/-- COMMAND_WRITE (R153, R156, R157): CLOSING, FULL, HELD and ACCEPTED in that order; a record complete at its last declared
byte joins the queue; an argument length over 32 and a short frame set the malformed flag and queue nothing; and a record whose
last byte comes after a session close taken since the code byte is discarded. A byte that comes in a part of its own, whatever
steps have come between, does the same at its place in the record (the parts: log entry 8). That a close before the code byte
discards nothing is the model's reading, log entry 21. That a frame of one byte does all this too, against R152's words on
polling, is the model's reading, log entry 20. -/
def Obligations.CommandWriteEffect : Prop :=
  (∀ (s : State) (p : Port) (bs : List Byte), (s.link p).Ready →
    let l := s.link p
    let sends := fun answer => s.summary p :: bytesBeside answer [] bs.length
    let answer := if look s.pins.clr p = .low then LinkAnswer.held else .accepted
    let argLength := (bs.getD 2 0).toNat
    (s.session p = .closing → exec (.commandWrite p (.whole bs)) s = .next (s.setLink p { l with out := sends .closing })) ∧
    (s.session p ≠ .closing → 4 ≤ l.commands.length →
      exec (.commandWrite p (.whole bs)) s = .next (s.setLink p { l with out := sends .full })) ∧
    (s.session p ≠ .closing → l.commands.length < 4 →
      (3 ≤ bs.length → argLength ≤ 32 → 3 + argLength ≤ bs.length → exec (.commandWrite p (.whole bs)) s =
        .next (s.setLink p { l with
          commands := l.commands ++
            [{ opcode := bs.getD 0 0, tag := bs.getD 1 0, args := (bs.drop 3).take argLength }]
          out := sends answer })) ∧
      (bs.length < 3 ∨ 32 < argLength ∨ bs.length < 3 + argLength → exec (.commandWrite p (.whole bs)) s =
        .next (s.setLink p { l with malformed := true, out := sends answer })))) ∧
  ∀ (s : State) (p : Port) (f : Frame) (b : Byte), (s.link p).frame = some f → f.code = some 0x02 → f.live = true →
    let l := s.link p
    let r := f.received ++ [b]
    let argLength := (r.getD 2 0).toNat
    let becomes := fun x : Link => exec (.commandWrite p (.bytes [b])) s = .next (s.setLink p x)
    (r.length = 3 → 32 < argLength → becomes { l.clocked f b false with malformed := true }) ∧
    (3 ≤ r.length → argLength ≤ 32 → r.length = 3 + argLength → becomes { l.clocked f b false with
      commands := if f.closed then l.commands
        else l.commands ++ [{ opcode := r.getD 0 0, tag := r.getD 1 0, args := r.drop 3 }] }) ∧
    (r.length < 3 ∨ (argLength ≤ 32 ∧ r.length ≠ 3 + argLength) → becomes (l.clocked f b true))

/-- WINDOW_READ and WINDOW_WRITE (R35, R38, R39, R157, R165): the header and the write data are taken in and the check is asked
for; a byte that comes in a part of its own, whatever steps have come between, is taken in at its place in the header or the
data (the parts: log entry 8); wait marks go out while the check or the access is pending; a frame that is short sets the
malformed flag, and a short write's bytes are discarded. That a frame of one byte does all this too, against R152's words on
polling, is the model's reading, log entry 20. -/
def Obligations.WindowFrames : Prop :=
  (∀ (s : State) (p : Port) (a2 a1 a0 n : Byte), (s.link p).Ready →
    let l := s.link p
    let addr : BitVec 24 := BitVec.ofNat 24 (a2.toNat * 65536 + a1.toNat * 256 + a0.toNat)
    let header := [a2, a1, a0, n]
    let asked := fun (code : Byte) (bs : List Byte) (dir : Direction) => { l with
      out := s.summary p :: bytesBeside .accepted [] bs.length
      buffer := if dir = .write then bs.drop 4 else l.buffer
      window := some { direction := dir, addr, length := n.toNat + 1, admitted := false, framed := true }
      frame := some
        { summary := s.summary p, notReady := false, code := some code, answer := some .accepted, received := bs
          toSend := [], live := true, closed := false } }
    exec (.windowRead p (.opening header)) s = .next (s.setLink p (asked 0x05 header .read)) ∧
    ∀ data : List Byte, data.length = n.toNat + 1 → l.buffer = [] →
      exec (.windowWrite p (.opening (header ++ data))) s = .next (s.setLink p (asked 0x06 (header ++ data) .write))) ∧
  (∀ (s : State) (p : Port) (f : Frame) (w : WindowRequest) (bs : List Byte), (s.link p).frame = some f →
    (s.link p).window = some w → w.framed = true →
    let l := s.link p
    let waits := .next (s.setLink p { l with
      frame := some { f with received := f.received ++ bs }, out := l.out ++ List.replicate bs.length 0xF0 })
    (f.code = some 0x05 → 4 ≤ f.received.length → exec (.windowRead p (.bytes bs)) s = waits) ∧
    (f.code = some 0x06 → 5 + (f.received.getD 3 0).toNat ≤ f.received.length →
      exec (.windowWrite p (.bytes bs)) s = waits)) ∧
  (∀ (s : State) (p : Port) (f : Frame) (bs : List Byte), (s.link p).frame = some f → (s.link p).window = none →
    let l := s.link p
    let sent := .next (s.setLink p { l with
      frame := some { f with received := f.received ++ bs, toSend := f.toSend.drop bs.length }
      out := l.out ++ (f.toSend ++ List.replicate bs.length 0).take bs.length })
    (f.code = some 0x05 → 4 ≤ f.received.length → exec (.windowRead p (.bytes bs)) s = sent) ∧
    (f.code = some 0x06 → 5 + (f.received.getD 3 0).toNat ≤ f.received.length → exec (.windowWrite p (.bytes bs)) s = sent)) ∧
  (∀ (s : State) (p : Port) (f : Frame) (b : Byte), (s.link p).frame = some f → f.live = true →
    let l := s.link p
    let r := f.received ++ [b]
    let taken := l.clocked f b true
    let filled := { taken with buffer := l.buffer ++ [b] }
    let last := 5 + (r.getD 3 0).toNat
    let asks := fun dir : Direction => some
      { direction := dir, length := (r.getD 3 0).toNat + 1, admitted := false, framed := true
        addr := BitVec.ofNat 24 ((r.getD 0 0).toNat * 65536 + (r.getD 1 0).toNat * 256 + (r.getD 2 0).toNat) : WindowRequest }
    (f.code = some 0x05 → exec (.windowRead p (.bytes [b])) s = .next (s.setLink p
      (if r.length = 4 then { taken with window := asks .read } else taken))) ∧
    (f.code = some 0x06 → exec (.windowWrite p (.bytes [b])) s = .next (s.setLink p
      (if 4 < r.length ∧ r.length < last then filled
        else if 4 < r.length ∧ r.length = last then { filled with window := asks .write }
        else taken)))) ∧
  ∀ (s : State) (p : Port) (bs : List Byte), (s.link p).Ready →
    let l := s.link p
    let out := s.summary p :: bytesBeside .accepted [] bs.length
    (bs.length < 4 → exec (.windowRead p (.whole bs)) s = .next (s.setLink p { l with malformed := true, out := out })) ∧
    (bs.length < 4 ∨ bs.length < 5 + (bs.getD 3 0).toNat → exec (.windowWrite p (.whole bs)) s =
      .next (s.setLink p { l with malformed := true, buffer := [], out := out }))

/-- The frames that are answered without being taken in (R151, R153, R154): NOT_READY in the NOT_READY period or while a window
access of the link is pending, whatever the code, and MALFORMED, with the flag set, for an unknown code. UNKNOWN_CODE_FRAME with
the code of a transaction is no step of the hub: the model's choice, log entry 2. That an unknown code answered NOT_READY while
a window access is pending does not set the malformed flag is the model's choice, log entry 13. That a frame of one byte with an
unknown code sets it, against R152's words on polling, is the model's reading, log entry 20. -/
def Obligations.RefusedFrames : Prop :=
  (∀ (s : State) (p : Port) (code : Byte) (bs : List Byte), (s.link p).frame = none →
    ((s.link p).notReady = true ∨ (s.link p).window ≠ none) → (∀ w ∈ (s.link p).window, w.framed = false) →
    exec (frameOf p code (.whole bs)) s = .next (s.setLink p { s.link p with
      out := s.summary p :: bytesBeside .notReady [] bs.length })) ∧
  (∀ (s : State) (p : Port) (code : Byte) (bs : List Byte), (s.link p).Ready → (code = 0 ∨ 7 ≤ code.toNat) →
    exec (.unknownCodeFrame p code (.whole bs)) s = .next (s.setLink p { s.link p with
      malformed := true, out := s.summary p :: bytesBeside .malformed [] bs.length })) ∧
  ∀ (s : State) (p : Port) (code : Byte) (part : FramePart), 1 ≤ code.toNat → code.toNat ≤ 6 →
    exec (.unknownCodeFrame p code part) s = .next s

/-! ### Window access, notices and events -/

/-- WINDOW_CHECK (R35, R36, R40, R174): the four tests in their order, over a span that may touch several granules; a denial is
reported when the setting is on; an access that passes is admitted. -/
def Obligations.WindowCheckEffect : Prop :=
  ∀ (s : State) (p : Port) (w : WindowRequest), (s.link p).window = some w → w.admitted = false → 1 ≤ w.length →
    s.GranuleLaw →
    let first := w.addr.toNat
    let last := w.addr.toNat + w.length - 1
    let inside := fun i : Slot => ∀ g, first / 64 ≤ g → g ≤ last / 64 → s.table.held g = true ∧ s.covers i g
    let denied := fun cause => exec (.windowCheck p) s = .next (s.windowDenied p w cause)
    (s.session p ≠ .opened → denied .notOpen) ∧
    (s.session p = .opened → (memoryBytes ≤ last ∨ ∀ i, ¬ inside i) → denied .unmapped) ∧
    ∀ i, s.session p = .opened → last < memoryBytes → inside i →
      let rights := if (s.region i).owner = p then .readWrite else look (s.region i).grants p
      let allowed := if w.direction = .read then rights.hasRead else rights.hasWrite
      ((s.region i).state ≠ .live → denied .retiring) ∧
      ((s.region i).state = .live → allowed = false → denied .noRight) ∧
      ((s.region i).state = .live → allowed = true →
        exec (.windowCheck p) s = .next (s.setLink p { s.link p with window := some { w with admitted := true } }))

/-- WINDOW_ACCESS (R1, R2, R37 to R39, R165): an admitted read sends the start mark, the bytes as they stand and the trailer OK,
or DATA_ERROR after a parity error; an admitted write stores the buffer with good parity and sends OK. With no admitted access
there is nothing to serve: the model's choice, log entry 2. An access past the last byte address stops with a fault: the model's
choice, log entry 10. -/
def Obligations.WindowAccessEffect : Prop :=
  (∀ (s : State) (p : Port), (∀ w ∈ (s.link p).window, w.admitted = false) →
    exec (.windowAccess p) s = .next s ∧ ((s.link p).window = none → exec (.windowCheck p) s = .next s)) ∧
  ∀ (s : State) (p : Port) (w : WindowRequest), (s.link p).window = some w → w.admitted = true →
    let l := s.link p
    let first := w.addr.toNat
    let done := fun (buffer sent : List Byte) => { l with
      window := none, buffer
      frame := if w.framed then l.frame.map fun f => { f with toSend := sent } else l.frame }
    (memoryBytes < first + w.length → exec (.windowAccess p) s = .fault .noSuchByte) ∧
    (w.direction = .read → first + w.length ≤ memoryBytes → ∃ bytes : List Byte, bytes.length = w.length ∧
      (∀ k, k < w.length → bytes[k]? = some (s.mem.read (first + k))) ∧
      let trailer := if ∃ k, k < w.length ∧ s.mem.parityError (first + k) = true then 0xC2 else 0xC1
      exec (.windowAccess p) s = .next (s.setLink p (done l.buffer (0x0F :: bytes ++ [trailer])))) ∧
    (w.direction = .write → first + w.length ≤ memoryBytes → l.buffer.length = w.length → s.MemoryLaw →
      s.mem.definedTo = memoryBytes → ∃ m : Memory,
        exec (.windowAccess p) s = .next ((s.setLink p (done [] [0xC1])).setMem m) ∧ m.definedTo = s.mem.definedTo ∧
        ∀ a, a < memoryBytes →
          m.read a = (if first ≤ a ∧ a < first + w.length then l.buffer.getD (a - first) 0 else s.mem.read a) ∧
          m.parityError a = (if first ≤ a ∧ a < first + w.length then false else s.mem.parityError a))

/-- REFERENCE_RELEASE and LEASE_END (R12, R16, R65, R145): the count falls by one; a RETIRING region whose last reference has come back
enters SCRUBBING, its owner is told and its counts fall; and a CLOSING port that has nothing left is CLOSED. -/
def Obligations.ReleaseAndLeaseEndNotices : Prop :=
  (∀ (s : State) (h : Handle) (i : Slot) (rest : List Notice), s.table.notices = .referenceRelease h :: rest →
    s.accessPending = false → h.slot.toNat = i.val →
    let t : State := { s with table := { s.table with notices := rest } }
    let r := s.region i
    let q := s.quota r.owner
    (r.state ≠ .retiring ∨ 1 < r.refs →
      exec .referenceRelease s = .next ((t.setRegion i { r with refs := r.refs - 1 }).closingSettled r.owner)) ∧
    (r.state = .retiring → r.refs = 1 → exec .referenceRelease s =
      .next (((((t.setRegion i { r with refs := 0, state := .scrubbing }).setQuota r.owner
        { q with granules := q.granules - r.length, regions := q.regions - 1 }).setScrub
        { s.scrub with queue := s.scrub.queue ++ [{ slot := i, base := r.base, length := r.length }] }).offerEvents
        [(r.owner, .regionRetired (s.handle i))]).closingSettled r.owner))) ∧
  ∀ (s : State) (c : Chan) (p : Port) (rest : List Notice), s.table.notices = .leaseEnd c p :: rest →
    s.accessPending = false →
    let t : State := { s with table := { s.table with notices := rest } }
    exec .leaseEnd s =
      .next ((t.setQuota p { s.quota p with channels := (s.quota p).channels - 1 }).closingSettled p)

/-- A record offered to an event queue (R168, R170, R171): dropped unless the port is OPEN; otherwise it joins a queue of up to 14, and
a longer one counts it in a marker, a new one in place 16 or the one at the tail. -/
def Obligations.EventPlacement : Prop :=
  (∀ (s : State) (p : Port) (e : Event), s.session p ≠ .opened → s.offerEvents [(p, e)] = s) ∧
  (∀ (s : State) (p : Port) (e : Event), s.session p = .opened →
    s.offerEvents [(p, e)] = s.setLink p { s.link p with events := placeEvent (s.link p).events e }) ∧
  (∀ (q : List Event) (e : Event), q.length ≤ 14 → placeEvent q e = q ++ [e]) ∧
  (∀ (q : List Event) (e : Event) (n : Nat), 14 ≤ q.length →
    placeEvent (q ++ [.overrun n]) e = q ++ [.overrun (if n < 65535 then n + 1 else 65535)]) ∧
  ∀ (q : List Event) (last e : Event), q.length = 14 → (∀ n, last ≠ .overrun n) →
    placeEvent (q ++ [last]) e = q ++ [last, .overrun 1]

/-! ### The laws of the hub -/

/-- The hub while RESET is asserted keeps every law. -/
def Obligations.ResetIsLawful : Prop :=
  State.reset.Lawful

/-- Every step keeps the start-up law (R7, R19, R20, R60, R92, R134, R150, R154, R161). -/
def Obligations.StepKeepsStartLaw : Prop :=
  ∀ s t : State, s.StartLaw → step s = .next t → t.StartLaw

/-- Every step keeps the bounds of the link units, what a frame in progress may stand beside, and the canonical form of the
memory (R1, R150, R151, R153, R156, R163, R170). -/
def Obligations.StepKeepsLinkAndMemoryLaw : Prop :=
  ∀ s t : State, ((∀ p, (s.link p).Law) ∧ s.MemoryLaw) → step s = .next t → (∀ p, (t.link p).Law) ∧ t.MemoryLaw

/-- Every step keeps the laws of the channel records and of the unit in flight (R56 to R60, R93). -/
def Obligations.StepKeepsChannelLaw : Prop :=
  ∀ s t : State, s.ChannelLaw → step s = .next t → t.ChannelLaw

/-- Every step keeps the law of offers, the law of the granule map and the law of scrubbing (R3, R16 to R18, R42): a scrub-done
notice frees the granules of the SCRUBBING region it waits for, and of no other. -/
def Obligations.StepKeepsOfferAndGranuleLaw : Prop :=
  ∀ s t : State, s.StartLaw → s.OfferLaw → s.GranuleLaw → s.ScrubLaw → step s = .next t →
    t.OfferLaw ∧ t.GranuleLaw ∧ t.ScrubLaw

/-- From every lawful state each step goes on, without a stop, to a lawful state: references, retirement, quota counts, sessions,
spans and all the other laws of the hub hold for ever (R3, R11, R12, R26, R27, R42, R71, R93, R145, R163, R170). -/
def Obligations.LawsHoldForEver : Prop :=
  ∀ s : State, s.Lawful → ∃ t, step s = .next t ∧ t.Lawful
end

