-- ==== Sys2Proof/Laws/State.lean ====
section
/-! SUPPORT. One lemma for each field under each update of the state, so that no proof unfolds an update. Each holds by unfolding;
an entry of a table after an update is what was put there or what stood there. -/

namespace Sys2Proof.Machine

section

variable (s : State)

/-! `State.setHalt` -/

@[simp] theorem State.setHalt_pins (p : Port) (x : Level) : (s.setHalt p x).pins = { s.pins with halt := put s.pins.halt p x } := rfl
@[simp] theorem State.setHalt_engine (p : Port) (x : Level) : (s.setHalt p x).engine = s.engine := rfl
@[simp] theorem State.setHalt_scrub (p : Port) (x : Level) : (s.setHalt p x).scrub = s.scrub := rfl
@[simp] theorem State.setHalt_mem (p : Port) (x : Level) : (s.setHalt p x).mem = s.mem := rfl
@[simp] theorem State.setHalt_pending (p : Port) (x : Level) : (s.setHalt p x).pending = s.pending := rfl
@[simp] theorem State.setHalt_links (p : Port) (x : Level) : (s.setHalt p x).links = s.links := rfl
@[simp] theorem State.setHalt_chan_channels (p : Port) (x : Level) : (s.setHalt p x).chan.channels = s.chan.channels := rfl
@[simp] theorem State.setHalt_chan_orders (p : Port) (x : Level) : (s.setHalt p x).chan.orders = s.chan.orders := rfl
@[simp] theorem State.setHalt_chan_haltClaims (p : Port) (x : Level) : (s.setHalt p x).chan.haltClaims = s.chan.haltClaims := rfl
@[simp] theorem State.setHalt_chan_edgeClaims (p : Port) (x : Level) : (s.setHalt p x).chan.edgeClaims = s.chan.edgeClaims := rfl
@[simp] theorem State.setHalt_table_regions (p : Port) (x : Level) : (s.setHalt p x).table.regions = s.table.regions := rfl
@[simp] theorem State.setHalt_table_granules (p : Port) (x : Level) : (s.setHalt p x).table.granules = s.table.granules := rfl
@[simp] theorem State.setHalt_table_sessions (p : Port) (x : Level) : (s.setHalt p x).table.sessions = s.table.sessions := rfl
@[simp] theorem State.setHalt_table_quotas (p : Port) (x : Level) : (s.setHalt p x).table.quotas = s.table.quotas := rfl
@[simp] theorem State.setHalt_table_quotaMode (p : Port) (x : Level) : (s.setHalt p x).table.quotaMode = s.table.quotaMode := rfl
@[simp] theorem State.setHalt_table_pointer (p : Port) (x : Level) : (s.setHalt p x).table.pointer = s.table.pointer := rfl
@[simp] theorem State.setHalt_table_notices (p : Port) (x : Level) : (s.setHalt p x).table.notices = s.table.notices := rfl
@[simp] theorem State.setHalt_table_expiryDue (p : Port) (x : Level) : (s.setHalt p x).table.expiryDue = s.table.expiryDue := rfl
@[simp] theorem State.setHalt_region (p : Port) (x : Level) (i : Slot) : (s.setHalt p x).region i = s.region i := rfl
@[simp] theorem State.setHalt_channel (p : Port) (x : Level) (c' : Chan) : (s.setHalt p x).channel c' = s.channel c' := rfl
@[simp] theorem State.setHalt_link (p : Port) (x : Level) (q' : Port) : (s.setHalt p x).link q' = s.link q' := rfl
@[simp] theorem State.setHalt_session (p : Port) (x : Level) (q' : Port) : (s.setHalt p x).session q' = s.session q' := rfl
@[simp] theorem State.setHalt_quota (p : Port) (x : Level) (q' : Port) : (s.setHalt p x).quota q' = s.quota q' := rfl

/-! `State.setClr` -/

@[simp] theorem State.setClr_pins (p : Port) (x : Level) : (s.setClr p x).pins = { s.pins with clr := put s.pins.clr p x } := rfl
@[simp] theorem State.setClr_engine (p : Port) (x : Level) : (s.setClr p x).engine = s.engine := rfl
@[simp] theorem State.setClr_scrub (p : Port) (x : Level) : (s.setClr p x).scrub = s.scrub := rfl
@[simp] theorem State.setClr_mem (p : Port) (x : Level) : (s.setClr p x).mem = s.mem := rfl
@[simp] theorem State.setClr_pending (p : Port) (x : Level) : (s.setClr p x).pending = s.pending := rfl
@[simp] theorem State.setClr_links (p : Port) (x : Level) : (s.setClr p x).links = s.links := rfl
@[simp] theorem State.setClr_chan_channels (p : Port) (x : Level) : (s.setClr p x).chan.channels = s.chan.channels := rfl
@[simp] theorem State.setClr_chan_orders (p : Port) (x : Level) : (s.setClr p x).chan.orders = s.chan.orders := rfl
@[simp] theorem State.setClr_chan_haltClaims (p : Port) (x : Level) : (s.setClr p x).chan.haltClaims = s.chan.haltClaims := rfl
@[simp] theorem State.setClr_chan_edgeClaims (p : Port) (x : Level) : (s.setClr p x).chan.edgeClaims = s.chan.edgeClaims := rfl
@[simp] theorem State.setClr_table_regions (p : Port) (x : Level) : (s.setClr p x).table.regions = s.table.regions := rfl
@[simp] theorem State.setClr_table_granules (p : Port) (x : Level) : (s.setClr p x).table.granules = s.table.granules := rfl
@[simp] theorem State.setClr_table_sessions (p : Port) (x : Level) : (s.setClr p x).table.sessions = s.table.sessions := rfl
@[simp] theorem State.setClr_table_quotas (p : Port) (x : Level) : (s.setClr p x).table.quotas = s.table.quotas := rfl
@[simp] theorem State.setClr_table_quotaMode (p : Port) (x : Level) : (s.setClr p x).table.quotaMode = s.table.quotaMode := rfl
@[simp] theorem State.setClr_table_pointer (p : Port) (x : Level) : (s.setClr p x).table.pointer = s.table.pointer := rfl
@[simp] theorem State.setClr_table_notices (p : Port) (x : Level) : (s.setClr p x).table.notices = s.table.notices := rfl
@[simp] theorem State.setClr_table_expiryDue (p : Port) (x : Level) : (s.setClr p x).table.expiryDue = s.table.expiryDue := rfl
@[simp] theorem State.setClr_region (p : Port) (x : Level) (i : Slot) : (s.setClr p x).region i = s.region i := rfl
@[simp] theorem State.setClr_channel (p : Port) (x : Level) (c' : Chan) : (s.setClr p x).channel c' = s.channel c' := rfl
@[simp] theorem State.setClr_link (p : Port) (x : Level) (q' : Port) : (s.setClr p x).link q' = s.link q' := rfl
@[simp] theorem State.setClr_session (p : Port) (x : Level) (q' : Port) : (s.setClr p x).session q' = s.session q' := rfl
@[simp] theorem State.setClr_quota (p : Port) (x : Level) (q' : Port) : (s.setClr p x).quota q' = s.quota q' := rfl

/-! `State.setTrg` -/

@[simp] theorem State.setTrg_pins (n : Line) (x : Level) : (s.setTrg n x).pins = { s.pins with trg := put s.pins.trg n x } := rfl
@[simp] theorem State.setTrg_engine (n : Line) (x : Level) : (s.setTrg n x).engine = s.engine := rfl
@[simp] theorem State.setTrg_scrub (n : Line) (x : Level) : (s.setTrg n x).scrub = s.scrub := rfl
@[simp] theorem State.setTrg_mem (n : Line) (x : Level) : (s.setTrg n x).mem = s.mem := rfl
@[simp] theorem State.setTrg_pending (n : Line) (x : Level) : (s.setTrg n x).pending = s.pending := rfl
@[simp] theorem State.setTrg_links (n : Line) (x : Level) : (s.setTrg n x).links = s.links := rfl
@[simp] theorem State.setTrg_chan_channels (n : Line) (x : Level) : (s.setTrg n x).chan.channels = s.chan.channels := rfl
@[simp] theorem State.setTrg_chan_orders (n : Line) (x : Level) : (s.setTrg n x).chan.orders = s.chan.orders := rfl
@[simp] theorem State.setTrg_chan_haltClaims (n : Line) (x : Level) : (s.setTrg n x).chan.haltClaims = s.chan.haltClaims := rfl
@[simp] theorem State.setTrg_chan_edgeClaims (n : Line) (x : Level) : (s.setTrg n x).chan.edgeClaims = s.chan.edgeClaims := rfl
@[simp] theorem State.setTrg_table_regions (n : Line) (x : Level) : (s.setTrg n x).table.regions = s.table.regions := rfl
@[simp] theorem State.setTrg_table_granules (n : Line) (x : Level) : (s.setTrg n x).table.granules = s.table.granules := rfl
@[simp] theorem State.setTrg_table_sessions (n : Line) (x : Level) : (s.setTrg n x).table.sessions = s.table.sessions := rfl
@[simp] theorem State.setTrg_table_quotas (n : Line) (x : Level) : (s.setTrg n x).table.quotas = s.table.quotas := rfl
@[simp] theorem State.setTrg_table_quotaMode (n : Line) (x : Level) : (s.setTrg n x).table.quotaMode = s.table.quotaMode := rfl
@[simp] theorem State.setTrg_table_pointer (n : Line) (x : Level) : (s.setTrg n x).table.pointer = s.table.pointer := rfl
@[simp] theorem State.setTrg_table_notices (n : Line) (x : Level) : (s.setTrg n x).table.notices = s.table.notices := rfl
@[simp] theorem State.setTrg_table_expiryDue (n : Line) (x : Level) : (s.setTrg n x).table.expiryDue = s.table.expiryDue := rfl
@[simp] theorem State.setTrg_region (n : Line) (x : Level) (i : Slot) : (s.setTrg n x).region i = s.region i := rfl
@[simp] theorem State.setTrg_channel (n : Line) (x : Level) (c' : Chan) : (s.setTrg n x).channel c' = s.channel c' := rfl
@[simp] theorem State.setTrg_link (n : Line) (x : Level) (q' : Port) : (s.setTrg n x).link q' = s.link q' := rfl
@[simp] theorem State.setTrg_session (n : Line) (x : Level) (q' : Port) : (s.setTrg n x).session q' = s.session q' := rfl
@[simp] theorem State.setTrg_quota (n : Line) (x : Level) (q' : Port) : (s.setTrg n x).quota q' = s.quota q' := rfl

/-! `State.setPins` -/

@[simp] theorem State.setPins_pins (x : Pins) : (s.setPins x).pins = x := rfl
@[simp] theorem State.setPins_engine (x : Pins) : (s.setPins x).engine = s.engine := rfl
@[simp] theorem State.setPins_scrub (x : Pins) : (s.setPins x).scrub = s.scrub := rfl
@[simp] theorem State.setPins_mem (x : Pins) : (s.setPins x).mem = s.mem := rfl
@[simp] theorem State.setPins_pending (x : Pins) : (s.setPins x).pending = s.pending := rfl
@[simp] theorem State.setPins_links (x : Pins) : (s.setPins x).links = s.links := rfl
@[simp] theorem State.setPins_chan_channels (x : Pins) : (s.setPins x).chan.channels = s.chan.channels := rfl
@[simp] theorem State.setPins_chan_orders (x : Pins) : (s.setPins x).chan.orders = s.chan.orders := rfl
@[simp] theorem State.setPins_chan_haltClaims (x : Pins) : (s.setPins x).chan.haltClaims = s.chan.haltClaims := rfl
@[simp] theorem State.setPins_chan_edgeClaims (x : Pins) : (s.setPins x).chan.edgeClaims = s.chan.edgeClaims := rfl
@[simp] theorem State.setPins_table_regions (x : Pins) : (s.setPins x).table.regions = s.table.regions := rfl
@[simp] theorem State.setPins_table_granules (x : Pins) : (s.setPins x).table.granules = s.table.granules := rfl
@[simp] theorem State.setPins_table_sessions (x : Pins) : (s.setPins x).table.sessions = s.table.sessions := rfl
@[simp] theorem State.setPins_table_quotas (x : Pins) : (s.setPins x).table.quotas = s.table.quotas := rfl
@[simp] theorem State.setPins_table_quotaMode (x : Pins) : (s.setPins x).table.quotaMode = s.table.quotaMode := rfl
@[simp] theorem State.setPins_table_pointer (x : Pins) : (s.setPins x).table.pointer = s.table.pointer := rfl
@[simp] theorem State.setPins_table_notices (x : Pins) : (s.setPins x).table.notices = s.table.notices := rfl
@[simp] theorem State.setPins_table_expiryDue (x : Pins) : (s.setPins x).table.expiryDue = s.table.expiryDue := rfl
@[simp] theorem State.setPins_region (x : Pins) (i : Slot) : (s.setPins x).region i = s.region i := rfl
@[simp] theorem State.setPins_channel (x : Pins) (c' : Chan) : (s.setPins x).channel c' = s.channel c' := rfl
@[simp] theorem State.setPins_link (x : Pins) (q' : Port) : (s.setPins x).link q' = s.link q' := rfl
@[simp] theorem State.setPins_session (x : Pins) (q' : Port) : (s.setPins x).session q' = s.session q' := rfl
@[simp] theorem State.setPins_quota (x : Pins) (q' : Port) : (s.setPins x).quota q' = s.quota q' := rfl

/-! `State.setRegion` -/

@[simp] theorem State.setRegion_pins (k : Slot) (x : Region) : (s.setRegion k x).pins = s.pins := rfl
@[simp] theorem State.setRegion_engine (k : Slot) (x : Region) : (s.setRegion k x).engine = s.engine := rfl
@[simp] theorem State.setRegion_scrub (k : Slot) (x : Region) : (s.setRegion k x).scrub = s.scrub := rfl
@[simp] theorem State.setRegion_mem (k : Slot) (x : Region) : (s.setRegion k x).mem = s.mem := rfl
@[simp] theorem State.setRegion_pending (k : Slot) (x : Region) : (s.setRegion k x).pending = s.pending := rfl
@[simp] theorem State.setRegion_links (k : Slot) (x : Region) : (s.setRegion k x).links = s.links := rfl
@[simp] theorem State.setRegion_chan_channels (k : Slot) (x : Region) : (s.setRegion k x).chan.channels = s.chan.channels := rfl
@[simp] theorem State.setRegion_chan_orders (k : Slot) (x : Region) : (s.setRegion k x).chan.orders = s.chan.orders := rfl
@[simp] theorem State.setRegion_chan_haltClaims (k : Slot) (x : Region) : (s.setRegion k x).chan.haltClaims = s.chan.haltClaims := rfl
@[simp] theorem State.setRegion_chan_edgeClaims (k : Slot) (x : Region) : (s.setRegion k x).chan.edgeClaims = s.chan.edgeClaims := rfl
@[simp] theorem State.setRegion_table_regions (k : Slot) (x : Region) : (s.setRegion k x).table.regions = put s.table.regions k x := rfl
@[simp] theorem State.setRegion_table_granules (k : Slot) (x : Region) : (s.setRegion k x).table.granules = s.table.granules := rfl
@[simp] theorem State.setRegion_table_sessions (k : Slot) (x : Region) : (s.setRegion k x).table.sessions = s.table.sessions := rfl
@[simp] theorem State.setRegion_table_quotas (k : Slot) (x : Region) : (s.setRegion k x).table.quotas = s.table.quotas := rfl
@[simp] theorem State.setRegion_table_quotaMode (k : Slot) (x : Region) : (s.setRegion k x).table.quotaMode = s.table.quotaMode := rfl
@[simp] theorem State.setRegion_table_pointer (k : Slot) (x : Region) : (s.setRegion k x).table.pointer = s.table.pointer := rfl
@[simp] theorem State.setRegion_table_notices (k : Slot) (x : Region) : (s.setRegion k x).table.notices = s.table.notices := rfl
@[simp] theorem State.setRegion_table_expiryDue (k : Slot) (x : Region) : (s.setRegion k x).table.expiryDue = s.table.expiryDue := rfl
@[simp] theorem State.setRegion_region (k : Slot) (x : Region) (i : Slot) :
    (s.setRegion k x).region i = if k = i then x else s.region i := look_put _ _ _ _
@[simp] theorem State.setRegion_channel (k : Slot) (x : Region) (c' : Chan) : (s.setRegion k x).channel c' = s.channel c' := rfl
@[simp] theorem State.setRegion_link (k : Slot) (x : Region) (q' : Port) : (s.setRegion k x).link q' = s.link q' := rfl
@[simp] theorem State.setRegion_session (k : Slot) (x : Region) (q' : Port) : (s.setRegion k x).session q' = s.session q' := rfl
@[simp] theorem State.setRegion_quota (k : Slot) (x : Region) (q' : Port) : (s.setRegion k x).quota q' = s.quota q' := rfl

/-! `State.mapRegions` -/

@[simp] theorem State.mapRegions_pins (f : Region → Region) : (s.mapRegions f).pins = s.pins := by
  simp only [State.mapRegions]
@[simp] theorem State.mapRegions_engine (f : Region → Region) : (s.mapRegions f).engine = s.engine := by
  simp only [State.mapRegions]
@[simp] theorem State.mapRegions_scrub (f : Region → Region) : (s.mapRegions f).scrub = s.scrub := by
  simp only [State.mapRegions]
@[simp] theorem State.mapRegions_mem (f : Region → Region) : (s.mapRegions f).mem = s.mem := by
  simp only [State.mapRegions]
@[simp] theorem State.mapRegions_pending (f : Region → Region) : (s.mapRegions f).pending = s.pending := by
  simp only [State.mapRegions]
@[simp] theorem State.mapRegions_links (f : Region → Region) : (s.mapRegions f).links = s.links := by
  simp only [State.mapRegions]
@[simp] theorem State.mapRegions_chan_channels (f : Region → Region) : (s.mapRegions f).chan.channels = s.chan.channels := by
  simp only [State.mapRegions]
@[simp] theorem State.mapRegions_chan_orders (f : Region → Region) : (s.mapRegions f).chan.orders = s.chan.orders := by
  simp only [State.mapRegions]
@[simp] theorem State.mapRegions_chan_haltClaims (f : Region → Region) : (s.mapRegions f).chan.haltClaims = s.chan.haltClaims := by
  simp only [State.mapRegions]
@[simp] theorem State.mapRegions_chan_edgeClaims (f : Region → Region) : (s.mapRegions f).chan.edgeClaims = s.chan.edgeClaims := by
  simp only [State.mapRegions]
@[simp] theorem State.mapRegions_table_regions (f : Region → Region) : (s.mapRegions f).table.regions = tabulate fun i => f (s.region i) := by
  simp only [State.mapRegions]
@[simp] theorem State.mapRegions_table_granules (f : Region → Region) : (s.mapRegions f).table.granules = s.table.granules := by
  simp only [State.mapRegions]
@[simp] theorem State.mapRegions_table_sessions (f : Region → Region) : (s.mapRegions f).table.sessions = s.table.sessions := by
  simp only [State.mapRegions]
@[simp] theorem State.mapRegions_table_quotas (f : Region → Region) : (s.mapRegions f).table.quotas = s.table.quotas := by
  simp only [State.mapRegions]
@[simp] theorem State.mapRegions_table_quotaMode (f : Region → Region) : (s.mapRegions f).table.quotaMode = s.table.quotaMode := by
  simp only [State.mapRegions]
@[simp] theorem State.mapRegions_table_pointer (f : Region → Region) : (s.mapRegions f).table.pointer = s.table.pointer := by
  simp only [State.mapRegions]
@[simp] theorem State.mapRegions_table_notices (f : Region → Region) : (s.mapRegions f).table.notices = s.table.notices := by
  simp only [State.mapRegions]
@[simp] theorem State.mapRegions_table_expiryDue (f : Region → Region) : (s.mapRegions f).table.expiryDue = s.table.expiryDue := by
  simp only [State.mapRegions]
@[simp] theorem State.mapRegions_region (f : Region → Region) (i : Slot) : (s.mapRegions f).region i = f (s.region i) := look_tabulate _ _
@[simp] theorem State.mapRegions_channel (f : Region → Region) (c' : Chan) : (s.mapRegions f).channel c' = s.channel c' := by
  simp only [State.mapRegions, State.channel]
@[simp] theorem State.mapRegions_link (f : Region → Region) (q' : Port) : (s.mapRegions f).link q' = s.link q' := by
  simp only [State.mapRegions, State.link]
@[simp] theorem State.mapRegions_session (f : Region → Region) (q' : Port) : (s.mapRegions f).session q' = s.session q' := by
  simp only [State.mapRegions, State.session]
@[simp] theorem State.mapRegions_quota (f : Region → Region) (q' : Port) : (s.mapRegions f).quota q' = s.quota q' := by
  simp only [State.mapRegions, State.quota]

/-! `State.setGranules` -/

@[simp] theorem State.setGranules_pins (x : BitVec 4096) : (s.setGranules x).pins = s.pins := rfl
@[simp] theorem State.setGranules_engine (x : BitVec 4096) : (s.setGranules x).engine = s.engine := rfl
@[simp] theorem State.setGranules_scrub (x : BitVec 4096) : (s.setGranules x).scrub = s.scrub := rfl
@[simp] theorem State.setGranules_mem (x : BitVec 4096) : (s.setGranules x).mem = s.mem := rfl
@[simp] theorem State.setGranules_pending (x : BitVec 4096) : (s.setGranules x).pending = s.pending := rfl
@[simp] theorem State.setGranules_links (x : BitVec 4096) : (s.setGranules x).links = s.links := rfl
@[simp] theorem State.setGranules_chan_channels (x : BitVec 4096) : (s.setGranules x).chan.channels = s.chan.channels := rfl
@[simp] theorem State.setGranules_chan_orders (x : BitVec 4096) : (s.setGranules x).chan.orders = s.chan.orders := rfl
@[simp] theorem State.setGranules_chan_haltClaims (x : BitVec 4096) : (s.setGranules x).chan.haltClaims = s.chan.haltClaims := rfl
@[simp] theorem State.setGranules_chan_edgeClaims (x : BitVec 4096) : (s.setGranules x).chan.edgeClaims = s.chan.edgeClaims := rfl
@[simp] theorem State.setGranules_table_regions (x : BitVec 4096) : (s.setGranules x).table.regions = s.table.regions := rfl
@[simp] theorem State.setGranules_table_granules (x : BitVec 4096) : (s.setGranules x).table.granules = x := rfl
@[simp] theorem State.setGranules_table_sessions (x : BitVec 4096) : (s.setGranules x).table.sessions = s.table.sessions := rfl
@[simp] theorem State.setGranules_table_quotas (x : BitVec 4096) : (s.setGranules x).table.quotas = s.table.quotas := rfl
@[simp] theorem State.setGranules_table_quotaMode (x : BitVec 4096) : (s.setGranules x).table.quotaMode = s.table.quotaMode := rfl
@[simp] theorem State.setGranules_table_pointer (x : BitVec 4096) : (s.setGranules x).table.pointer = s.table.pointer := rfl
@[simp] theorem State.setGranules_table_notices (x : BitVec 4096) : (s.setGranules x).table.notices = s.table.notices := rfl
@[simp] theorem State.setGranules_table_expiryDue (x : BitVec 4096) : (s.setGranules x).table.expiryDue = s.table.expiryDue := rfl
@[simp] theorem State.setGranules_region (x : BitVec 4096) (i : Slot) : (s.setGranules x).region i = s.region i := rfl
@[simp] theorem State.setGranules_channel (x : BitVec 4096) (c' : Chan) : (s.setGranules x).channel c' = s.channel c' := rfl
@[simp] theorem State.setGranules_link (x : BitVec 4096) (q' : Port) : (s.setGranules x).link q' = s.link q' := rfl
@[simp] theorem State.setGranules_session (x : BitVec 4096) (q' : Port) : (s.setGranules x).session q' = s.session q' := rfl
@[simp] theorem State.setGranules_quota (x : BitVec 4096) (q' : Port) : (s.setGranules x).quota q' = s.quota q' := rfl

/-! `State.setSession` -/

@[simp] theorem State.setSession_pins (p : Port) (x : Session) : (s.setSession p x).pins = s.pins := rfl
@[simp] theorem State.setSession_engine (p : Port) (x : Session) : (s.setSession p x).engine = s.engine := rfl
@[simp] theorem State.setSession_scrub (p : Port) (x : Session) : (s.setSession p x).scrub = s.scrub := rfl
@[simp] theorem State.setSession_mem (p : Port) (x : Session) : (s.setSession p x).mem = s.mem := rfl
@[simp] theorem State.setSession_pending (p : Port) (x : Session) : (s.setSession p x).pending = s.pending := rfl
@[simp] theorem State.setSession_links (p : Port) (x : Session) : (s.setSession p x).links = s.links := rfl
@[simp] theorem State.setSession_chan_channels (p : Port) (x : Session) : (s.setSession p x).chan.channels = s.chan.channels := rfl
@[simp] theorem State.setSession_chan_orders (p : Port) (x : Session) : (s.setSession p x).chan.orders = s.chan.orders := rfl
@[simp] theorem State.setSession_chan_haltClaims (p : Port) (x : Session) : (s.setSession p x).chan.haltClaims = s.chan.haltClaims := rfl
@[simp] theorem State.setSession_chan_edgeClaims (p : Port) (x : Session) : (s.setSession p x).chan.edgeClaims = s.chan.edgeClaims := rfl
@[simp] theorem State.setSession_table_regions (p : Port) (x : Session) : (s.setSession p x).table.regions = s.table.regions := rfl
@[simp] theorem State.setSession_table_granules (p : Port) (x : Session) : (s.setSession p x).table.granules = s.table.granules := rfl
@[simp] theorem State.setSession_table_sessions (p : Port) (x : Session) : (s.setSession p x).table.sessions = put s.table.sessions p x := rfl
@[simp] theorem State.setSession_table_quotas (p : Port) (x : Session) : (s.setSession p x).table.quotas = s.table.quotas := rfl
@[simp] theorem State.setSession_table_quotaMode (p : Port) (x : Session) : (s.setSession p x).table.quotaMode = s.table.quotaMode := rfl
@[simp] theorem State.setSession_table_pointer (p : Port) (x : Session) : (s.setSession p x).table.pointer = s.table.pointer := rfl
@[simp] theorem State.setSession_table_notices (p : Port) (x : Session) : (s.setSession p x).table.notices = s.table.notices := rfl
@[simp] theorem State.setSession_table_expiryDue (p : Port) (x : Session) : (s.setSession p x).table.expiryDue = s.table.expiryDue := rfl
@[simp] theorem State.setSession_region (p : Port) (x : Session) (i : Slot) : (s.setSession p x).region i = s.region i := rfl
@[simp] theorem State.setSession_channel (p : Port) (x : Session) (c' : Chan) : (s.setSession p x).channel c' = s.channel c' := rfl
@[simp] theorem State.setSession_link (p : Port) (x : Session) (q' : Port) : (s.setSession p x).link q' = s.link q' := rfl
@[simp] theorem State.setSession_session (p : Port) (x : Session) (q' : Port) :
    (s.setSession p x).session q' = if p = q' then x else s.session q' := look_put _ _ _ _
@[simp] theorem State.setSession_quota (p : Port) (x : Session) (q' : Port) : (s.setSession p x).quota q' = s.quota q' := rfl

/-! `State.setQuota` -/

@[simp] theorem State.setQuota_pins (p : Port) (x : Quota) : (s.setQuota p x).pins = s.pins := rfl
@[simp] theorem State.setQuota_engine (p : Port) (x : Quota) : (s.setQuota p x).engine = s.engine := rfl
@[simp] theorem State.setQuota_scrub (p : Port) (x : Quota) : (s.setQuota p x).scrub = s.scrub := rfl
@[simp] theorem State.setQuota_mem (p : Port) (x : Quota) : (s.setQuota p x).mem = s.mem := rfl
@[simp] theorem State.setQuota_pending (p : Port) (x : Quota) : (s.setQuota p x).pending = s.pending := rfl
@[simp] theorem State.setQuota_links (p : Port) (x : Quota) : (s.setQuota p x).links = s.links := rfl
@[simp] theorem State.setQuota_chan_channels (p : Port) (x : Quota) : (s.setQuota p x).chan.channels = s.chan.channels := rfl
@[simp] theorem State.setQuota_chan_orders (p : Port) (x : Quota) : (s.setQuota p x).chan.orders = s.chan.orders := rfl
@[simp] theorem State.setQuota_chan_haltClaims (p : Port) (x : Quota) : (s.setQuota p x).chan.haltClaims = s.chan.haltClaims := rfl
@[simp] theorem State.setQuota_chan_edgeClaims (p : Port) (x : Quota) : (s.setQuota p x).chan.edgeClaims = s.chan.edgeClaims := rfl
@[simp] theorem State.setQuota_table_regions (p : Port) (x : Quota) : (s.setQuota p x).table.regions = s.table.regions := rfl
@[simp] theorem State.setQuota_table_granules (p : Port) (x : Quota) : (s.setQuota p x).table.granules = s.table.granules := rfl
@[simp] theorem State.setQuota_table_sessions (p : Port) (x : Quota) : (s.setQuota p x).table.sessions = s.table.sessions := rfl
@[simp] theorem State.setQuota_table_quotas (p : Port) (x : Quota) : (s.setQuota p x).table.quotas = put s.table.quotas p x := rfl
@[simp] theorem State.setQuota_table_quotaMode (p : Port) (x : Quota) : (s.setQuota p x).table.quotaMode = s.table.quotaMode := rfl
@[simp] theorem State.setQuota_table_pointer (p : Port) (x : Quota) : (s.setQuota p x).table.pointer = s.table.pointer := rfl
@[simp] theorem State.setQuota_table_notices (p : Port) (x : Quota) : (s.setQuota p x).table.notices = s.table.notices := rfl
@[simp] theorem State.setQuota_table_expiryDue (p : Port) (x : Quota) : (s.setQuota p x).table.expiryDue = s.table.expiryDue := rfl
@[simp] theorem State.setQuota_region (p : Port) (x : Quota) (i : Slot) : (s.setQuota p x).region i = s.region i := rfl
@[simp] theorem State.setQuota_channel (p : Port) (x : Quota) (c' : Chan) : (s.setQuota p x).channel c' = s.channel c' := rfl
@[simp] theorem State.setQuota_link (p : Port) (x : Quota) (q' : Port) : (s.setQuota p x).link q' = s.link q' := rfl
@[simp] theorem State.setQuota_session (p : Port) (x : Quota) (q' : Port) : (s.setQuota p x).session q' = s.session q' := rfl
@[simp] theorem State.setQuota_quota (p : Port) (x : Quota) (q' : Port) :
    (s.setQuota p x).quota q' = if p = q' then x else s.quota q' := look_put _ _ _ _

/-! `State.setQuotaMode` -/

@[simp] theorem State.setQuotaMode_pins (x : QuotaMode) : (s.setQuotaMode x).pins = s.pins := rfl
@[simp] theorem State.setQuotaMode_engine (x : QuotaMode) : (s.setQuotaMode x).engine = s.engine := rfl
@[simp] theorem State.setQuotaMode_scrub (x : QuotaMode) : (s.setQuotaMode x).scrub = s.scrub := rfl
@[simp] theorem State.setQuotaMode_mem (x : QuotaMode) : (s.setQuotaMode x).mem = s.mem := rfl
@[simp] theorem State.setQuotaMode_pending (x : QuotaMode) : (s.setQuotaMode x).pending = s.pending := rfl
@[simp] theorem State.setQuotaMode_links (x : QuotaMode) : (s.setQuotaMode x).links = s.links := rfl
@[simp] theorem State.setQuotaMode_chan_channels (x : QuotaMode) : (s.setQuotaMode x).chan.channels = s.chan.channels := rfl
@[simp] theorem State.setQuotaMode_chan_orders (x : QuotaMode) : (s.setQuotaMode x).chan.orders = s.chan.orders := rfl
@[simp] theorem State.setQuotaMode_chan_haltClaims (x : QuotaMode) : (s.setQuotaMode x).chan.haltClaims = s.chan.haltClaims := rfl
@[simp] theorem State.setQuotaMode_chan_edgeClaims (x : QuotaMode) : (s.setQuotaMode x).chan.edgeClaims = s.chan.edgeClaims := rfl
@[simp] theorem State.setQuotaMode_table_regions (x : QuotaMode) : (s.setQuotaMode x).table.regions = s.table.regions := rfl
@[simp] theorem State.setQuotaMode_table_granules (x : QuotaMode) : (s.setQuotaMode x).table.granules = s.table.granules := rfl
@[simp] theorem State.setQuotaMode_table_sessions (x : QuotaMode) : (s.setQuotaMode x).table.sessions = s.table.sessions := rfl
@[simp] theorem State.setQuotaMode_table_quotas (x : QuotaMode) : (s.setQuotaMode x).table.quotas = s.table.quotas := rfl
@[simp] theorem State.setQuotaMode_table_quotaMode (x : QuotaMode) : (s.setQuotaMode x).table.quotaMode = x := rfl
@[simp] theorem State.setQuotaMode_table_pointer (x : QuotaMode) : (s.setQuotaMode x).table.pointer = s.table.pointer := rfl
@[simp] theorem State.setQuotaMode_table_notices (x : QuotaMode) : (s.setQuotaMode x).table.notices = s.table.notices := rfl
@[simp] theorem State.setQuotaMode_table_expiryDue (x : QuotaMode) : (s.setQuotaMode x).table.expiryDue = s.table.expiryDue := rfl
@[simp] theorem State.setQuotaMode_region (x : QuotaMode) (i : Slot) : (s.setQuotaMode x).region i = s.region i := rfl
@[simp] theorem State.setQuotaMode_channel (x : QuotaMode) (c' : Chan) : (s.setQuotaMode x).channel c' = s.channel c' := rfl
@[simp] theorem State.setQuotaMode_link (x : QuotaMode) (q' : Port) : (s.setQuotaMode x).link q' = s.link q' := rfl
@[simp] theorem State.setQuotaMode_session (x : QuotaMode) (q' : Port) : (s.setQuotaMode x).session q' = s.session q' := rfl
@[simp] theorem State.setQuotaMode_quota (x : QuotaMode) (q' : Port) : (s.setQuotaMode x).quota q' = s.quota q' := rfl

/-! `State.setPointer` -/

@[simp] theorem State.setPointer_pins (p : Port) : (s.setPointer p).pins = s.pins := rfl
@[simp] theorem State.setPointer_engine (p : Port) : (s.setPointer p).engine = s.engine := rfl
@[simp] theorem State.setPointer_scrub (p : Port) : (s.setPointer p).scrub = s.scrub := rfl
@[simp] theorem State.setPointer_mem (p : Port) : (s.setPointer p).mem = s.mem := rfl
@[simp] theorem State.setPointer_pending (p : Port) : (s.setPointer p).pending = s.pending := rfl
@[simp] theorem State.setPointer_links (p : Port) : (s.setPointer p).links = s.links := rfl
@[simp] theorem State.setPointer_chan_channels (p : Port) : (s.setPointer p).chan.channels = s.chan.channels := rfl
@[simp] theorem State.setPointer_chan_orders (p : Port) : (s.setPointer p).chan.orders = s.chan.orders := rfl
@[simp] theorem State.setPointer_chan_haltClaims (p : Port) : (s.setPointer p).chan.haltClaims = s.chan.haltClaims := rfl
@[simp] theorem State.setPointer_chan_edgeClaims (p : Port) : (s.setPointer p).chan.edgeClaims = s.chan.edgeClaims := rfl
@[simp] theorem State.setPointer_table_regions (p : Port) : (s.setPointer p).table.regions = s.table.regions := rfl
@[simp] theorem State.setPointer_table_granules (p : Port) : (s.setPointer p).table.granules = s.table.granules := rfl
@[simp] theorem State.setPointer_table_sessions (p : Port) : (s.setPointer p).table.sessions = s.table.sessions := rfl
@[simp] theorem State.setPointer_table_quotas (p : Port) : (s.setPointer p).table.quotas = s.table.quotas := rfl
@[simp] theorem State.setPointer_table_quotaMode (p : Port) : (s.setPointer p).table.quotaMode = s.table.quotaMode := rfl
@[simp] theorem State.setPointer_table_pointer (p : Port) : (s.setPointer p).table.pointer = p := rfl
@[simp] theorem State.setPointer_table_notices (p : Port) : (s.setPointer p).table.notices = s.table.notices := rfl
@[simp] theorem State.setPointer_table_expiryDue (p : Port) : (s.setPointer p).table.expiryDue = s.table.expiryDue := rfl
@[simp] theorem State.setPointer_region (p : Port) (i : Slot) : (s.setPointer p).region i = s.region i := rfl
@[simp] theorem State.setPointer_channel (p : Port) (c' : Chan) : (s.setPointer p).channel c' = s.channel c' := rfl
@[simp] theorem State.setPointer_link (p : Port) (q' : Port) : (s.setPointer p).link q' = s.link q' := rfl
@[simp] theorem State.setPointer_session (p : Port) (q' : Port) : (s.setPointer p).session q' = s.session q' := rfl
@[simp] theorem State.setPointer_quota (p : Port) (q' : Port) : (s.setPointer p).quota q' = s.quota q' := rfl

/-! `State.setNotices` -/

@[simp] theorem State.setNotices_pins (x : List Notice) : (s.setNotices x).pins = s.pins := rfl
@[simp] theorem State.setNotices_engine (x : List Notice) : (s.setNotices x).engine = s.engine := rfl
@[simp] theorem State.setNotices_scrub (x : List Notice) : (s.setNotices x).scrub = s.scrub := rfl
@[simp] theorem State.setNotices_mem (x : List Notice) : (s.setNotices x).mem = s.mem := rfl
@[simp] theorem State.setNotices_pending (x : List Notice) : (s.setNotices x).pending = s.pending := rfl
@[simp] theorem State.setNotices_links (x : List Notice) : (s.setNotices x).links = s.links := rfl
@[simp] theorem State.setNotices_chan_channels (x : List Notice) : (s.setNotices x).chan.channels = s.chan.channels := rfl
@[simp] theorem State.setNotices_chan_orders (x : List Notice) : (s.setNotices x).chan.orders = s.chan.orders := rfl
@[simp] theorem State.setNotices_chan_haltClaims (x : List Notice) : (s.setNotices x).chan.haltClaims = s.chan.haltClaims := rfl
@[simp] theorem State.setNotices_chan_edgeClaims (x : List Notice) : (s.setNotices x).chan.edgeClaims = s.chan.edgeClaims := rfl
@[simp] theorem State.setNotices_table_regions (x : List Notice) : (s.setNotices x).table.regions = s.table.regions := rfl
@[simp] theorem State.setNotices_table_granules (x : List Notice) : (s.setNotices x).table.granules = s.table.granules := rfl
@[simp] theorem State.setNotices_table_sessions (x : List Notice) : (s.setNotices x).table.sessions = s.table.sessions := rfl
@[simp] theorem State.setNotices_table_quotas (x : List Notice) : (s.setNotices x).table.quotas = s.table.quotas := rfl
@[simp] theorem State.setNotices_table_quotaMode (x : List Notice) : (s.setNotices x).table.quotaMode = s.table.quotaMode := rfl
@[simp] theorem State.setNotices_table_pointer (x : List Notice) : (s.setNotices x).table.pointer = s.table.pointer := rfl
@[simp] theorem State.setNotices_table_notices (x : List Notice) : (s.setNotices x).table.notices = x := rfl
@[simp] theorem State.setNotices_table_expiryDue (x : List Notice) : (s.setNotices x).table.expiryDue = s.table.expiryDue := rfl
@[simp] theorem State.setNotices_region (x : List Notice) (i : Slot) : (s.setNotices x).region i = s.region i := rfl
@[simp] theorem State.setNotices_channel (x : List Notice) (c' : Chan) : (s.setNotices x).channel c' = s.channel c' := rfl
@[simp] theorem State.setNotices_link (x : List Notice) (q' : Port) : (s.setNotices x).link q' = s.link q' := rfl
@[simp] theorem State.setNotices_session (x : List Notice) (q' : Port) : (s.setNotices x).session q' = s.session q' := rfl
@[simp] theorem State.setNotices_quota (x : List Notice) (q' : Port) : (s.setNotices x).quota q' = s.quota q' := rfl

/-! `State.setExpiryDue` -/

@[simp] theorem State.setExpiryDue_pins (x : List Slot) : (s.setExpiryDue x).pins = s.pins := rfl
@[simp] theorem State.setExpiryDue_engine (x : List Slot) : (s.setExpiryDue x).engine = s.engine := rfl
@[simp] theorem State.setExpiryDue_scrub (x : List Slot) : (s.setExpiryDue x).scrub = s.scrub := rfl
@[simp] theorem State.setExpiryDue_mem (x : List Slot) : (s.setExpiryDue x).mem = s.mem := rfl
@[simp] theorem State.setExpiryDue_pending (x : List Slot) : (s.setExpiryDue x).pending = s.pending := rfl
@[simp] theorem State.setExpiryDue_links (x : List Slot) : (s.setExpiryDue x).links = s.links := rfl
@[simp] theorem State.setExpiryDue_chan_channels (x : List Slot) : (s.setExpiryDue x).chan.channels = s.chan.channels := rfl
@[simp] theorem State.setExpiryDue_chan_orders (x : List Slot) : (s.setExpiryDue x).chan.orders = s.chan.orders := rfl
@[simp] theorem State.setExpiryDue_chan_haltClaims (x : List Slot) : (s.setExpiryDue x).chan.haltClaims = s.chan.haltClaims := rfl
@[simp] theorem State.setExpiryDue_chan_edgeClaims (x : List Slot) : (s.setExpiryDue x).chan.edgeClaims = s.chan.edgeClaims := rfl
@[simp] theorem State.setExpiryDue_table_regions (x : List Slot) : (s.setExpiryDue x).table.regions = s.table.regions := rfl
@[simp] theorem State.setExpiryDue_table_granules (x : List Slot) : (s.setExpiryDue x).table.granules = s.table.granules := rfl
@[simp] theorem State.setExpiryDue_table_sessions (x : List Slot) : (s.setExpiryDue x).table.sessions = s.table.sessions := rfl
@[simp] theorem State.setExpiryDue_table_quotas (x : List Slot) : (s.setExpiryDue x).table.quotas = s.table.quotas := rfl
@[simp] theorem State.setExpiryDue_table_quotaMode (x : List Slot) : (s.setExpiryDue x).table.quotaMode = s.table.quotaMode := rfl
@[simp] theorem State.setExpiryDue_table_pointer (x : List Slot) : (s.setExpiryDue x).table.pointer = s.table.pointer := rfl
@[simp] theorem State.setExpiryDue_table_notices (x : List Slot) : (s.setExpiryDue x).table.notices = s.table.notices := rfl
@[simp] theorem State.setExpiryDue_table_expiryDue (x : List Slot) : (s.setExpiryDue x).table.expiryDue = x := rfl
@[simp] theorem State.setExpiryDue_region (x : List Slot) (i : Slot) : (s.setExpiryDue x).region i = s.region i := rfl
@[simp] theorem State.setExpiryDue_channel (x : List Slot) (c' : Chan) : (s.setExpiryDue x).channel c' = s.channel c' := rfl
@[simp] theorem State.setExpiryDue_link (x : List Slot) (q' : Port) : (s.setExpiryDue x).link q' = s.link q' := rfl
@[simp] theorem State.setExpiryDue_session (x : List Slot) (q' : Port) : (s.setExpiryDue x).session q' = s.session q' := rfl
@[simp] theorem State.setExpiryDue_quota (x : List Slot) (q' : Port) : (s.setExpiryDue x).quota q' = s.quota q' := rfl

/-! `State.setChannel` -/

@[simp] theorem State.setChannel_pins (c : Chan) (x : Channel) : (s.setChannel c x).pins = s.pins := rfl
@[simp] theorem State.setChannel_engine (c : Chan) (x : Channel) : (s.setChannel c x).engine = s.engine := rfl
@[simp] theorem State.setChannel_scrub (c : Chan) (x : Channel) : (s.setChannel c x).scrub = s.scrub := rfl
@[simp] theorem State.setChannel_mem (c : Chan) (x : Channel) : (s.setChannel c x).mem = s.mem := rfl
@[simp] theorem State.setChannel_pending (c : Chan) (x : Channel) : (s.setChannel c x).pending = s.pending := rfl
@[simp] theorem State.setChannel_links (c : Chan) (x : Channel) : (s.setChannel c x).links = s.links := rfl
@[simp] theorem State.setChannel_chan_channels (c : Chan) (x : Channel) : (s.setChannel c x).chan.channels = put s.chan.channels c x := rfl
@[simp] theorem State.setChannel_chan_orders (c : Chan) (x : Channel) : (s.setChannel c x).chan.orders = s.chan.orders := rfl
@[simp] theorem State.setChannel_chan_haltClaims (c : Chan) (x : Channel) : (s.setChannel c x).chan.haltClaims = s.chan.haltClaims := rfl
@[simp] theorem State.setChannel_chan_edgeClaims (c : Chan) (x : Channel) : (s.setChannel c x).chan.edgeClaims = s.chan.edgeClaims := rfl
@[simp] theorem State.setChannel_table_regions (c : Chan) (x : Channel) : (s.setChannel c x).table.regions = s.table.regions := rfl
@[simp] theorem State.setChannel_table_granules (c : Chan) (x : Channel) : (s.setChannel c x).table.granules = s.table.granules := rfl
@[simp] theorem State.setChannel_table_sessions (c : Chan) (x : Channel) : (s.setChannel c x).table.sessions = s.table.sessions := rfl
@[simp] theorem State.setChannel_table_quotas (c : Chan) (x : Channel) : (s.setChannel c x).table.quotas = s.table.quotas := rfl
@[simp] theorem State.setChannel_table_quotaMode (c : Chan) (x : Channel) : (s.setChannel c x).table.quotaMode = s.table.quotaMode := rfl
@[simp] theorem State.setChannel_table_pointer (c : Chan) (x : Channel) : (s.setChannel c x).table.pointer = s.table.pointer := rfl
@[simp] theorem State.setChannel_table_notices (c : Chan) (x : Channel) : (s.setChannel c x).table.notices = s.table.notices := rfl
@[simp] theorem State.setChannel_table_expiryDue (c : Chan) (x : Channel) : (s.setChannel c x).table.expiryDue = s.table.expiryDue := rfl
@[simp] theorem State.setChannel_region (c : Chan) (x : Channel) (i : Slot) : (s.setChannel c x).region i = s.region i := rfl
@[simp] theorem State.setChannel_channel (c : Chan) (x : Channel) (c' : Chan) :
    (s.setChannel c x).channel c' = if c = c' then x else s.channel c' := look_put _ _ _ _
@[simp] theorem State.setChannel_link (c : Chan) (x : Channel) (q' : Port) : (s.setChannel c x).link q' = s.link q' := rfl
@[simp] theorem State.setChannel_session (c : Chan) (x : Channel) (q' : Port) : (s.setChannel c x).session q' = s.session q' := rfl
@[simp] theorem State.setChannel_quota (c : Chan) (x : Channel) (q' : Port) : (s.setChannel c x).quota q' = s.quota q' := rfl

/-! `State.setOrders` -/

@[simp] theorem State.setOrders_pins (x : List (List Order)) : (s.setOrders x).pins = s.pins := rfl
@[simp] theorem State.setOrders_engine (x : List (List Order)) : (s.setOrders x).engine = s.engine := rfl
@[simp] theorem State.setOrders_scrub (x : List (List Order)) : (s.setOrders x).scrub = s.scrub := rfl
@[simp] theorem State.setOrders_mem (x : List (List Order)) : (s.setOrders x).mem = s.mem := rfl
@[simp] theorem State.setOrders_pending (x : List (List Order)) : (s.setOrders x).pending = s.pending := rfl
@[simp] theorem State.setOrders_links (x : List (List Order)) : (s.setOrders x).links = s.links := rfl
@[simp] theorem State.setOrders_chan_channels (x : List (List Order)) : (s.setOrders x).chan.channels = s.chan.channels := rfl
@[simp] theorem State.setOrders_chan_orders (x : List (List Order)) : (s.setOrders x).chan.orders = x := rfl
@[simp] theorem State.setOrders_chan_haltClaims (x : List (List Order)) : (s.setOrders x).chan.haltClaims = s.chan.haltClaims := rfl
@[simp] theorem State.setOrders_chan_edgeClaims (x : List (List Order)) : (s.setOrders x).chan.edgeClaims = s.chan.edgeClaims := rfl
@[simp] theorem State.setOrders_table_regions (x : List (List Order)) : (s.setOrders x).table.regions = s.table.regions := rfl
@[simp] theorem State.setOrders_table_granules (x : List (List Order)) : (s.setOrders x).table.granules = s.table.granules := rfl
@[simp] theorem State.setOrders_table_sessions (x : List (List Order)) : (s.setOrders x).table.sessions = s.table.sessions := rfl
@[simp] theorem State.setOrders_table_quotas (x : List (List Order)) : (s.setOrders x).table.quotas = s.table.quotas := rfl
@[simp] theorem State.setOrders_table_quotaMode (x : List (List Order)) : (s.setOrders x).table.quotaMode = s.table.quotaMode := rfl
@[simp] theorem State.setOrders_table_pointer (x : List (List Order)) : (s.setOrders x).table.pointer = s.table.pointer := rfl
@[simp] theorem State.setOrders_table_notices (x : List (List Order)) : (s.setOrders x).table.notices = s.table.notices := rfl
@[simp] theorem State.setOrders_table_expiryDue (x : List (List Order)) : (s.setOrders x).table.expiryDue = s.table.expiryDue := rfl
@[simp] theorem State.setOrders_region (x : List (List Order)) (i : Slot) : (s.setOrders x).region i = s.region i := rfl
@[simp] theorem State.setOrders_channel (x : List (List Order)) (c' : Chan) : (s.setOrders x).channel c' = s.channel c' := rfl
@[simp] theorem State.setOrders_link (x : List (List Order)) (q' : Port) : (s.setOrders x).link q' = s.link q' := rfl
@[simp] theorem State.setOrders_session (x : List (List Order)) (q' : Port) : (s.setOrders x).session q' = s.session q' := rfl
@[simp] theorem State.setOrders_quota (x : List (List Order)) (q' : Port) : (s.setOrders x).quota q' = s.quota q' := rfl

/-! `State.setHaltClaims` -/

@[simp] theorem State.setHaltClaims_pins (x : List Port) : (s.setHaltClaims x).pins = s.pins := rfl
@[simp] theorem State.setHaltClaims_engine (x : List Port) : (s.setHaltClaims x).engine = s.engine := rfl
@[simp] theorem State.setHaltClaims_scrub (x : List Port) : (s.setHaltClaims x).scrub = s.scrub := rfl
@[simp] theorem State.setHaltClaims_mem (x : List Port) : (s.setHaltClaims x).mem = s.mem := rfl
@[simp] theorem State.setHaltClaims_pending (x : List Port) : (s.setHaltClaims x).pending = s.pending := rfl
@[simp] theorem State.setHaltClaims_links (x : List Port) : (s.setHaltClaims x).links = s.links := rfl
@[simp] theorem State.setHaltClaims_chan_channels (x : List Port) : (s.setHaltClaims x).chan.channels = s.chan.channels := rfl
@[simp] theorem State.setHaltClaims_chan_orders (x : List Port) : (s.setHaltClaims x).chan.orders = s.chan.orders := rfl
@[simp] theorem State.setHaltClaims_chan_haltClaims (x : List Port) : (s.setHaltClaims x).chan.haltClaims = x := rfl
@[simp] theorem State.setHaltClaims_chan_edgeClaims (x : List Port) : (s.setHaltClaims x).chan.edgeClaims = s.chan.edgeClaims := rfl
@[simp] theorem State.setHaltClaims_table_regions (x : List Port) : (s.setHaltClaims x).table.regions = s.table.regions := rfl
@[simp] theorem State.setHaltClaims_table_granules (x : List Port) : (s.setHaltClaims x).table.granules = s.table.granules := rfl
@[simp] theorem State.setHaltClaims_table_sessions (x : List Port) : (s.setHaltClaims x).table.sessions = s.table.sessions := rfl
@[simp] theorem State.setHaltClaims_table_quotas (x : List Port) : (s.setHaltClaims x).table.quotas = s.table.quotas := rfl
@[simp] theorem State.setHaltClaims_table_quotaMode (x : List Port) : (s.setHaltClaims x).table.quotaMode = s.table.quotaMode := rfl
@[simp] theorem State.setHaltClaims_table_pointer (x : List Port) : (s.setHaltClaims x).table.pointer = s.table.pointer := rfl
@[simp] theorem State.setHaltClaims_table_notices (x : List Port) : (s.setHaltClaims x).table.notices = s.table.notices := rfl
@[simp] theorem State.setHaltClaims_table_expiryDue (x : List Port) : (s.setHaltClaims x).table.expiryDue = s.table.expiryDue := rfl
@[simp] theorem State.setHaltClaims_region (x : List Port) (i : Slot) : (s.setHaltClaims x).region i = s.region i := rfl
@[simp] theorem State.setHaltClaims_channel (x : List Port) (c' : Chan) : (s.setHaltClaims x).channel c' = s.channel c' := rfl
@[simp] theorem State.setHaltClaims_link (x : List Port) (q' : Port) : (s.setHaltClaims x).link q' = s.link q' := rfl
@[simp] theorem State.setHaltClaims_session (x : List Port) (q' : Port) : (s.setHaltClaims x).session q' = s.session q' := rfl
@[simp] theorem State.setHaltClaims_quota (x : List Port) (q' : Port) : (s.setHaltClaims x).quota q' = s.quota q' := rfl

/-! `State.setEdgeClaims` -/

@[simp] theorem State.setEdgeClaims_pins (x : List EdgeClaim) : (s.setEdgeClaims x).pins = s.pins := rfl
@[simp] theorem State.setEdgeClaims_engine (x : List EdgeClaim) : (s.setEdgeClaims x).engine = s.engine := rfl
@[simp] theorem State.setEdgeClaims_scrub (x : List EdgeClaim) : (s.setEdgeClaims x).scrub = s.scrub := rfl
@[simp] theorem State.setEdgeClaims_mem (x : List EdgeClaim) : (s.setEdgeClaims x).mem = s.mem := rfl
@[simp] theorem State.setEdgeClaims_pending (x : List EdgeClaim) : (s.setEdgeClaims x).pending = s.pending := rfl
@[simp] theorem State.setEdgeClaims_links (x : List EdgeClaim) : (s.setEdgeClaims x).links = s.links := rfl
@[simp] theorem State.setEdgeClaims_chan_channels (x : List EdgeClaim) : (s.setEdgeClaims x).chan.channels = s.chan.channels := rfl
@[simp] theorem State.setEdgeClaims_chan_orders (x : List EdgeClaim) : (s.setEdgeClaims x).chan.orders = s.chan.orders := rfl
@[simp] theorem State.setEdgeClaims_chan_haltClaims (x : List EdgeClaim) : (s.setEdgeClaims x).chan.haltClaims = s.chan.haltClaims := rfl
@[simp] theorem State.setEdgeClaims_chan_edgeClaims (x : List EdgeClaim) : (s.setEdgeClaims x).chan.edgeClaims = x := rfl
@[simp] theorem State.setEdgeClaims_table_regions (x : List EdgeClaim) : (s.setEdgeClaims x).table.regions = s.table.regions := rfl
@[simp] theorem State.setEdgeClaims_table_granules (x : List EdgeClaim) : (s.setEdgeClaims x).table.granules = s.table.granules := rfl
@[simp] theorem State.setEdgeClaims_table_sessions (x : List EdgeClaim) : (s.setEdgeClaims x).table.sessions = s.table.sessions := rfl
@[simp] theorem State.setEdgeClaims_table_quotas (x : List EdgeClaim) : (s.setEdgeClaims x).table.quotas = s.table.quotas := rfl
@[simp] theorem State.setEdgeClaims_table_quotaMode (x : List EdgeClaim) : (s.setEdgeClaims x).table.quotaMode = s.table.quotaMode := rfl
@[simp] theorem State.setEdgeClaims_table_pointer (x : List EdgeClaim) : (s.setEdgeClaims x).table.pointer = s.table.pointer := rfl
@[simp] theorem State.setEdgeClaims_table_notices (x : List EdgeClaim) : (s.setEdgeClaims x).table.notices = s.table.notices := rfl
@[simp] theorem State.setEdgeClaims_table_expiryDue (x : List EdgeClaim) : (s.setEdgeClaims x).table.expiryDue = s.table.expiryDue := rfl
@[simp] theorem State.setEdgeClaims_region (x : List EdgeClaim) (i : Slot) : (s.setEdgeClaims x).region i = s.region i := rfl
@[simp] theorem State.setEdgeClaims_channel (x : List EdgeClaim) (c' : Chan) : (s.setEdgeClaims x).channel c' = s.channel c' := rfl
@[simp] theorem State.setEdgeClaims_link (x : List EdgeClaim) (q' : Port) : (s.setEdgeClaims x).link q' = s.link q' := rfl
@[simp] theorem State.setEdgeClaims_session (x : List EdgeClaim) (q' : Port) : (s.setEdgeClaims x).session q' = s.session q' := rfl
@[simp] theorem State.setEdgeClaims_quota (x : List EdgeClaim) (q' : Port) : (s.setEdgeClaims x).quota q' = s.quota q' := rfl

/-! `State.setEngine` -/

@[simp] theorem State.setEngine_pins (x : Engine) : (s.setEngine x).pins = s.pins := rfl
@[simp] theorem State.setEngine_engine (x : Engine) : (s.setEngine x).engine = x := rfl
@[simp] theorem State.setEngine_scrub (x : Engine) : (s.setEngine x).scrub = s.scrub := rfl
@[simp] theorem State.setEngine_mem (x : Engine) : (s.setEngine x).mem = s.mem := rfl
@[simp] theorem State.setEngine_pending (x : Engine) : (s.setEngine x).pending = s.pending := rfl
@[simp] theorem State.setEngine_links (x : Engine) : (s.setEngine x).links = s.links := rfl
@[simp] theorem State.setEngine_chan_channels (x : Engine) : (s.setEngine x).chan.channels = s.chan.channels := rfl
@[simp] theorem State.setEngine_chan_orders (x : Engine) : (s.setEngine x).chan.orders = s.chan.orders := rfl
@[simp] theorem State.setEngine_chan_haltClaims (x : Engine) : (s.setEngine x).chan.haltClaims = s.chan.haltClaims := rfl
@[simp] theorem State.setEngine_chan_edgeClaims (x : Engine) : (s.setEngine x).chan.edgeClaims = s.chan.edgeClaims := rfl
@[simp] theorem State.setEngine_table_regions (x : Engine) : (s.setEngine x).table.regions = s.table.regions := rfl
@[simp] theorem State.setEngine_table_granules (x : Engine) : (s.setEngine x).table.granules = s.table.granules := rfl
@[simp] theorem State.setEngine_table_sessions (x : Engine) : (s.setEngine x).table.sessions = s.table.sessions := rfl
@[simp] theorem State.setEngine_table_quotas (x : Engine) : (s.setEngine x).table.quotas = s.table.quotas := rfl
@[simp] theorem State.setEngine_table_quotaMode (x : Engine) : (s.setEngine x).table.quotaMode = s.table.quotaMode := rfl
@[simp] theorem State.setEngine_table_pointer (x : Engine) : (s.setEngine x).table.pointer = s.table.pointer := rfl
@[simp] theorem State.setEngine_table_notices (x : Engine) : (s.setEngine x).table.notices = s.table.notices := rfl
@[simp] theorem State.setEngine_table_expiryDue (x : Engine) : (s.setEngine x).table.expiryDue = s.table.expiryDue := rfl
@[simp] theorem State.setEngine_region (x : Engine) (i : Slot) : (s.setEngine x).region i = s.region i := rfl
@[simp] theorem State.setEngine_channel (x : Engine) (c' : Chan) : (s.setEngine x).channel c' = s.channel c' := rfl
@[simp] theorem State.setEngine_link (x : Engine) (q' : Port) : (s.setEngine x).link q' = s.link q' := rfl
@[simp] theorem State.setEngine_session (x : Engine) (q' : Port) : (s.setEngine x).session q' = s.session q' := rfl
@[simp] theorem State.setEngine_quota (x : Engine) (q' : Port) : (s.setEngine x).quota q' = s.quota q' := rfl

/-! `State.setScrub` -/

@[simp] theorem State.setScrub_pins (x : ScrubUnit) : (s.setScrub x).pins = s.pins := rfl
@[simp] theorem State.setScrub_engine (x : ScrubUnit) : (s.setScrub x).engine = s.engine := rfl
@[simp] theorem State.setScrub_scrub (x : ScrubUnit) : (s.setScrub x).scrub = x := rfl
@[simp] theorem State.setScrub_mem (x : ScrubUnit) : (s.setScrub x).mem = s.mem := rfl
@[simp] theorem State.setScrub_pending (x : ScrubUnit) : (s.setScrub x).pending = s.pending := rfl
@[simp] theorem State.setScrub_links (x : ScrubUnit) : (s.setScrub x).links = s.links := rfl
@[simp] theorem State.setScrub_chan_channels (x : ScrubUnit) : (s.setScrub x).chan.channels = s.chan.channels := rfl
@[simp] theorem State.setScrub_chan_orders (x : ScrubUnit) : (s.setScrub x).chan.orders = s.chan.orders := rfl
@[simp] theorem State.setScrub_chan_haltClaims (x : ScrubUnit) : (s.setScrub x).chan.haltClaims = s.chan.haltClaims := rfl
@[simp] theorem State.setScrub_chan_edgeClaims (x : ScrubUnit) : (s.setScrub x).chan.edgeClaims = s.chan.edgeClaims := rfl
@[simp] theorem State.setScrub_table_regions (x : ScrubUnit) : (s.setScrub x).table.regions = s.table.regions := rfl
@[simp] theorem State.setScrub_table_granules (x : ScrubUnit) : (s.setScrub x).table.granules = s.table.granules := rfl
@[simp] theorem State.setScrub_table_sessions (x : ScrubUnit) : (s.setScrub x).table.sessions = s.table.sessions := rfl
@[simp] theorem State.setScrub_table_quotas (x : ScrubUnit) : (s.setScrub x).table.quotas = s.table.quotas := rfl
@[simp] theorem State.setScrub_table_quotaMode (x : ScrubUnit) : (s.setScrub x).table.quotaMode = s.table.quotaMode := rfl
@[simp] theorem State.setScrub_table_pointer (x : ScrubUnit) : (s.setScrub x).table.pointer = s.table.pointer := rfl
@[simp] theorem State.setScrub_table_notices (x : ScrubUnit) : (s.setScrub x).table.notices = s.table.notices := rfl
@[simp] theorem State.setScrub_table_expiryDue (x : ScrubUnit) : (s.setScrub x).table.expiryDue = s.table.expiryDue := rfl
@[simp] theorem State.setScrub_region (x : ScrubUnit) (i : Slot) : (s.setScrub x).region i = s.region i := rfl
@[simp] theorem State.setScrub_channel (x : ScrubUnit) (c' : Chan) : (s.setScrub x).channel c' = s.channel c' := rfl
@[simp] theorem State.setScrub_link (x : ScrubUnit) (q' : Port) : (s.setScrub x).link q' = s.link q' := rfl
@[simp] theorem State.setScrub_session (x : ScrubUnit) (q' : Port) : (s.setScrub x).session q' = s.session q' := rfl
@[simp] theorem State.setScrub_quota (x : ScrubUnit) (q' : Port) : (s.setScrub x).quota q' = s.quota q' := rfl

/-! `State.setLink` -/

@[simp] theorem State.setLink_pins (p : Port) (x : Link) : (s.setLink p x).pins = s.pins := rfl
@[simp] theorem State.setLink_engine (p : Port) (x : Link) : (s.setLink p x).engine = s.engine := rfl
@[simp] theorem State.setLink_scrub (p : Port) (x : Link) : (s.setLink p x).scrub = s.scrub := rfl
@[simp] theorem State.setLink_mem (p : Port) (x : Link) : (s.setLink p x).mem = s.mem := rfl
@[simp] theorem State.setLink_pending (p : Port) (x : Link) : (s.setLink p x).pending = s.pending := rfl
@[simp] theorem State.setLink_links (p : Port) (x : Link) : (s.setLink p x).links = put s.links p x := rfl
@[simp] theorem State.setLink_chan_channels (p : Port) (x : Link) : (s.setLink p x).chan.channels = s.chan.channels := rfl
@[simp] theorem State.setLink_chan_orders (p : Port) (x : Link) : (s.setLink p x).chan.orders = s.chan.orders := rfl
@[simp] theorem State.setLink_chan_haltClaims (p : Port) (x : Link) : (s.setLink p x).chan.haltClaims = s.chan.haltClaims := rfl
@[simp] theorem State.setLink_chan_edgeClaims (p : Port) (x : Link) : (s.setLink p x).chan.edgeClaims = s.chan.edgeClaims := rfl
@[simp] theorem State.setLink_table_regions (p : Port) (x : Link) : (s.setLink p x).table.regions = s.table.regions := rfl
@[simp] theorem State.setLink_table_granules (p : Port) (x : Link) : (s.setLink p x).table.granules = s.table.granules := rfl
@[simp] theorem State.setLink_table_sessions (p : Port) (x : Link) : (s.setLink p x).table.sessions = s.table.sessions := rfl
@[simp] theorem State.setLink_table_quotas (p : Port) (x : Link) : (s.setLink p x).table.quotas = s.table.quotas := rfl
@[simp] theorem State.setLink_table_quotaMode (p : Port) (x : Link) : (s.setLink p x).table.quotaMode = s.table.quotaMode := rfl
@[simp] theorem State.setLink_table_pointer (p : Port) (x : Link) : (s.setLink p x).table.pointer = s.table.pointer := rfl
@[simp] theorem State.setLink_table_notices (p : Port) (x : Link) : (s.setLink p x).table.notices = s.table.notices := rfl
@[simp] theorem State.setLink_table_expiryDue (p : Port) (x : Link) : (s.setLink p x).table.expiryDue = s.table.expiryDue := rfl
@[simp] theorem State.setLink_region (p : Port) (x : Link) (i : Slot) : (s.setLink p x).region i = s.region i := rfl
@[simp] theorem State.setLink_channel (p : Port) (x : Link) (c' : Chan) : (s.setLink p x).channel c' = s.channel c' := rfl
@[simp] theorem State.setLink_link (p : Port) (x : Link) (q' : Port) :
    (s.setLink p x).link q' = if p = q' then x else s.link q' := look_put _ _ _ _
@[simp] theorem State.setLink_session (p : Port) (x : Link) (q' : Port) : (s.setLink p x).session q' = s.session q' := rfl
@[simp] theorem State.setLink_quota (p : Port) (x : Link) (q' : Port) : (s.setLink p x).quota q' = s.quota q' := rfl

/-! `State.mapLinks` -/

@[simp] theorem State.mapLinks_pins (f : Link → Link) : (s.mapLinks f).pins = s.pins := by
  simp only [State.mapLinks]
@[simp] theorem State.mapLinks_engine (f : Link → Link) : (s.mapLinks f).engine = s.engine := by
  simp only [State.mapLinks]
@[simp] theorem State.mapLinks_scrub (f : Link → Link) : (s.mapLinks f).scrub = s.scrub := by
  simp only [State.mapLinks]
@[simp] theorem State.mapLinks_mem (f : Link → Link) : (s.mapLinks f).mem = s.mem := by
  simp only [State.mapLinks]
@[simp] theorem State.mapLinks_pending (f : Link → Link) : (s.mapLinks f).pending = s.pending := by
  simp only [State.mapLinks]
@[simp] theorem State.mapLinks_links (f : Link → Link) : (s.mapLinks f).links = tabulate fun p => f (s.link p) := by
  simp only [State.mapLinks]
@[simp] theorem State.mapLinks_chan_channels (f : Link → Link) : (s.mapLinks f).chan.channels = s.chan.channels := by
  simp only [State.mapLinks]
@[simp] theorem State.mapLinks_chan_orders (f : Link → Link) : (s.mapLinks f).chan.orders = s.chan.orders := by
  simp only [State.mapLinks]
@[simp] theorem State.mapLinks_chan_haltClaims (f : Link → Link) : (s.mapLinks f).chan.haltClaims = s.chan.haltClaims := by
  simp only [State.mapLinks]
@[simp] theorem State.mapLinks_chan_edgeClaims (f : Link → Link) : (s.mapLinks f).chan.edgeClaims = s.chan.edgeClaims := by
  simp only [State.mapLinks]
@[simp] theorem State.mapLinks_table_regions (f : Link → Link) : (s.mapLinks f).table.regions = s.table.regions := by
  simp only [State.mapLinks]
@[simp] theorem State.mapLinks_table_granules (f : Link → Link) : (s.mapLinks f).table.granules = s.table.granules := by
  simp only [State.mapLinks]
@[simp] theorem State.mapLinks_table_sessions (f : Link → Link) : (s.mapLinks f).table.sessions = s.table.sessions := by
  simp only [State.mapLinks]
@[simp] theorem State.mapLinks_table_quotas (f : Link → Link) : (s.mapLinks f).table.quotas = s.table.quotas := by
  simp only [State.mapLinks]
@[simp] theorem State.mapLinks_table_quotaMode (f : Link → Link) : (s.mapLinks f).table.quotaMode = s.table.quotaMode := by
  simp only [State.mapLinks]
@[simp] theorem State.mapLinks_table_pointer (f : Link → Link) : (s.mapLinks f).table.pointer = s.table.pointer := by
  simp only [State.mapLinks]
@[simp] theorem State.mapLinks_table_notices (f : Link → Link) : (s.mapLinks f).table.notices = s.table.notices := by
  simp only [State.mapLinks]
@[simp] theorem State.mapLinks_table_expiryDue (f : Link → Link) : (s.mapLinks f).table.expiryDue = s.table.expiryDue := by
  simp only [State.mapLinks]
@[simp] theorem State.mapLinks_region (f : Link → Link) (i : Slot) : (s.mapLinks f).region i = s.region i := by
  simp only [State.mapLinks, State.region]
@[simp] theorem State.mapLinks_channel (f : Link → Link) (c' : Chan) : (s.mapLinks f).channel c' = s.channel c' := by
  simp only [State.mapLinks, State.channel]
@[simp] theorem State.mapLinks_link (f : Link → Link) (q' : Port) : (s.mapLinks f).link q' = f (s.link q') := look_tabulate _ _
@[simp] theorem State.mapLinks_session (f : Link → Link) (q' : Port) : (s.mapLinks f).session q' = s.session q' := by
  simp only [State.mapLinks, State.session]
@[simp] theorem State.mapLinks_quota (f : Link → Link) (q' : Port) : (s.mapLinks f).quota q' = s.quota q' := by
  simp only [State.mapLinks, State.quota]

/-! `State.setMem` -/

@[simp] theorem State.setMem_pins (x : Memory) : (s.setMem x).pins = s.pins := rfl
@[simp] theorem State.setMem_engine (x : Memory) : (s.setMem x).engine = s.engine := rfl
@[simp] theorem State.setMem_scrub (x : Memory) : (s.setMem x).scrub = s.scrub := rfl
@[simp] theorem State.setMem_mem (x : Memory) : (s.setMem x).mem = x := rfl
@[simp] theorem State.setMem_pending (x : Memory) : (s.setMem x).pending = s.pending := rfl
@[simp] theorem State.setMem_links (x : Memory) : (s.setMem x).links = s.links := rfl
@[simp] theorem State.setMem_chan_channels (x : Memory) : (s.setMem x).chan.channels = s.chan.channels := rfl
@[simp] theorem State.setMem_chan_orders (x : Memory) : (s.setMem x).chan.orders = s.chan.orders := rfl
@[simp] theorem State.setMem_chan_haltClaims (x : Memory) : (s.setMem x).chan.haltClaims = s.chan.haltClaims := rfl
@[simp] theorem State.setMem_chan_edgeClaims (x : Memory) : (s.setMem x).chan.edgeClaims = s.chan.edgeClaims := rfl
@[simp] theorem State.setMem_table_regions (x : Memory) : (s.setMem x).table.regions = s.table.regions := rfl
@[simp] theorem State.setMem_table_granules (x : Memory) : (s.setMem x).table.granules = s.table.granules := rfl
@[simp] theorem State.setMem_table_sessions (x : Memory) : (s.setMem x).table.sessions = s.table.sessions := rfl
@[simp] theorem State.setMem_table_quotas (x : Memory) : (s.setMem x).table.quotas = s.table.quotas := rfl
@[simp] theorem State.setMem_table_quotaMode (x : Memory) : (s.setMem x).table.quotaMode = s.table.quotaMode := rfl
@[simp] theorem State.setMem_table_pointer (x : Memory) : (s.setMem x).table.pointer = s.table.pointer := rfl
@[simp] theorem State.setMem_table_notices (x : Memory) : (s.setMem x).table.notices = s.table.notices := rfl
@[simp] theorem State.setMem_table_expiryDue (x : Memory) : (s.setMem x).table.expiryDue = s.table.expiryDue := rfl
@[simp] theorem State.setMem_region (x : Memory) (i : Slot) : (s.setMem x).region i = s.region i := rfl
@[simp] theorem State.setMem_channel (x : Memory) (c' : Chan) : (s.setMem x).channel c' = s.channel c' := rfl
@[simp] theorem State.setMem_link (x : Memory) (q' : Port) : (s.setMem x).link q' = s.link q' := rfl
@[simp] theorem State.setMem_session (x : Memory) (q' : Port) : (s.setMem x).session q' = s.session q' := rfl
@[simp] theorem State.setMem_quota (x : Memory) (q' : Port) : (s.setMem x).quota q' = s.quota q' := rfl

/-! `State.notify` -/

@[simp] theorem State.notify_pins (x : List Notice) : (s.notify x).pins = s.pins := rfl
@[simp] theorem State.notify_engine (x : List Notice) : (s.notify x).engine = s.engine := rfl
@[simp] theorem State.notify_scrub (x : List Notice) : (s.notify x).scrub = s.scrub := rfl
@[simp] theorem State.notify_mem (x : List Notice) : (s.notify x).mem = s.mem := rfl
@[simp] theorem State.notify_pending (x : List Notice) : (s.notify x).pending = s.pending := rfl
@[simp] theorem State.notify_links (x : List Notice) : (s.notify x).links = s.links := rfl
@[simp] theorem State.notify_chan_channels (x : List Notice) : (s.notify x).chan.channels = s.chan.channels := rfl
@[simp] theorem State.notify_chan_orders (x : List Notice) : (s.notify x).chan.orders = s.chan.orders := rfl
@[simp] theorem State.notify_chan_haltClaims (x : List Notice) : (s.notify x).chan.haltClaims = s.chan.haltClaims := rfl
@[simp] theorem State.notify_chan_edgeClaims (x : List Notice) : (s.notify x).chan.edgeClaims = s.chan.edgeClaims := rfl
@[simp] theorem State.notify_table_regions (x : List Notice) : (s.notify x).table.regions = s.table.regions := rfl
@[simp] theorem State.notify_table_granules (x : List Notice) : (s.notify x).table.granules = s.table.granules := rfl
@[simp] theorem State.notify_table_sessions (x : List Notice) : (s.notify x).table.sessions = s.table.sessions := rfl
@[simp] theorem State.notify_table_quotas (x : List Notice) : (s.notify x).table.quotas = s.table.quotas := rfl
@[simp] theorem State.notify_table_quotaMode (x : List Notice) : (s.notify x).table.quotaMode = s.table.quotaMode := rfl
@[simp] theorem State.notify_table_pointer (x : List Notice) : (s.notify x).table.pointer = s.table.pointer := rfl
@[simp] theorem State.notify_table_notices (x : List Notice) : (s.notify x).table.notices = s.table.notices ++ x := rfl
@[simp] theorem State.notify_table_expiryDue (x : List Notice) : (s.notify x).table.expiryDue = s.table.expiryDue := rfl
@[simp] theorem State.notify_region (x : List Notice) (i : Slot) : (s.notify x).region i = s.region i := rfl
@[simp] theorem State.notify_channel (x : List Notice) (c' : Chan) : (s.notify x).channel c' = s.channel c' := rfl
@[simp] theorem State.notify_link (x : List Notice) (q' : Port) : (s.notify x).link q' = s.link q' := rfl
@[simp] theorem State.notify_session (x : List Notice) (q' : Port) : (s.notify x).session q' = s.session q' := rfl
@[simp] theorem State.notify_quota (x : List Notice) (q' : Port) : (s.notify x).quota q' = s.quota q' := rfl

end

end Sys2Proof.Machine
end

