-- ==== Sys2Proof/Laws/Takings.lean ====
section
/-! SUPPORT. The taking of a command: what `State.taking` and the operations over it answer when a record is at its turn, and the
state a taking leaves that only takes the record and writes its result. -/

namespace Sys2Proof.Machine

/-- Two states whose pieces agree are equal. -/
theorem State.ext_pieces {s t : State} (pins : s.pins = t.pins) (regions : ∀ i, s.region i = t.region i)
    (granules : s.table.granules = t.table.granules) (sessions : ∀ p, s.session p = t.session p)
    (quotas : ∀ p, s.quota p = t.quota p) (quotaMode : s.table.quotaMode = t.table.quotaMode)
    (pointer : s.table.pointer = t.table.pointer) (notices : s.table.notices = t.table.notices)
    (expiryDue : s.table.expiryDue = t.table.expiryDue) (channels : ∀ c, s.channel c = t.channel c)
    (orders : s.chan.orders = t.chan.orders) (haltClaims : s.chan.haltClaims = t.chan.haltClaims)
    (edgeClaims : s.chan.edgeClaims = t.chan.edgeClaims) (engine : s.engine = t.engine) (scrub : s.scrub = t.scrub)
    (links : ∀ p, s.link p = t.link p) (mem : s.mem = t.mem) (pending : s.pending = t.pending) : s = t := by
  obtain ⟨a1, ⟨b1, b2, b3, b4, b5, b6, b7, b8⟩, ⟨c1, c2, c3, c4⟩, a4, a5, a6, a7, a8⟩ := s
  obtain ⟨a1', ⟨b1', b2', b3', b4', b5', b6', b7', b8'⟩, ⟨c1', c2', c3', c4'⟩, a4', a5', a6', a7', a8'⟩ := t
  have h1 : b1 = b1' := table_ext regions
  have h2 : b3 = b3' := table_ext sessions
  have h3 : b4 = b4' := table_ext quotas
  have h4 : c1 = c1' := table_ext channels
  have h5 : a6 = a6' := table_ext links
  simp only at pins granules quotaMode pointer notices expiryDue orders haltClaims edgeClaims engine scrub mem pending
  subst_vars
  rfl

section
variable (s : State) (p : Port) (op tag : Byte) (code : ResultCode) (payload : List Byte)

@[simp] theorem State.served_pins : (s.served p op tag code payload).pins = s.pins := rfl
@[simp] theorem State.served_engine : (s.served p op tag code payload).engine = s.engine := rfl
@[simp] theorem State.served_scrub : (s.served p op tag code payload).scrub = s.scrub := rfl
@[simp] theorem State.served_mem : (s.served p op tag code payload).mem = s.mem := rfl
@[simp] theorem State.served_pending : (s.served p op tag code payload).pending = s.pending := rfl
@[simp] theorem State.served_chan : (s.served p op tag code payload).chan = s.chan := rfl
@[simp] theorem State.served_granules : (s.served p op tag code payload).table.granules = s.table.granules := rfl
@[simp] theorem State.served_quotaMode : (s.served p op tag code payload).table.quotaMode = s.table.quotaMode := rfl
@[simp] theorem State.served_pointer : (s.served p op tag code payload).table.pointer = p := rfl
@[simp] theorem State.served_notices : (s.served p op tag code payload).table.notices = s.table.notices := rfl
@[simp] theorem State.served_expiryDue : (s.served p op tag code payload).table.expiryDue = s.table.expiryDue := rfl
@[simp] theorem State.served_region (i : Slot) : (s.served p op tag code payload).region i = s.region i := rfl
@[simp] theorem State.served_session (q : Port) : (s.served p op tag code payload).session q = s.session q := rfl
@[simp] theorem State.served_quota (q : Port) : (s.served p op tag code payload).quota q = s.quota q := rfl
@[simp] theorem State.served_channel (c : Chan) : (s.served p op tag code payload).channel c = s.channel c := rfl
@[simp] theorem State.served_link (q : Port) : (s.served p op tag code payload).link q =
    if p = q then { s.link p with
      commands := (s.link p).commands.tail, results := (s.link p).results ++ [{ opcode := op, tag, code, payload }] }
    else s.link q := look_put _ _ _ _
end

section
variable (s : State) (p : Port)

@[simp] theorem State.popCommand_pins : (s.popCommand p).pins = s.pins := rfl
@[simp] theorem State.popCommand_engine : (s.popCommand p).engine = s.engine := rfl
@[simp] theorem State.popCommand_scrub : (s.popCommand p).scrub = s.scrub := rfl
@[simp] theorem State.popCommand_mem : (s.popCommand p).mem = s.mem := rfl
@[simp] theorem State.popCommand_pending : (s.popCommand p).pending = s.pending := rfl
@[simp] theorem State.popCommand_chan : (s.popCommand p).chan = s.chan := rfl
@[simp] theorem State.popCommand_regions : (s.popCommand p).table.regions = s.table.regions := rfl
@[simp] theorem State.popCommand_granules : (s.popCommand p).table.granules = s.table.granules := rfl
@[simp] theorem State.popCommand_sessions : (s.popCommand p).table.sessions = s.table.sessions := rfl
@[simp] theorem State.popCommand_quotas : (s.popCommand p).table.quotas = s.table.quotas := rfl
@[simp] theorem State.popCommand_quotaMode : (s.popCommand p).table.quotaMode = s.table.quotaMode := rfl
@[simp] theorem State.popCommand_pointer : (s.popCommand p).table.pointer = p := rfl
@[simp] theorem State.popCommand_notices : (s.popCommand p).table.notices = s.table.notices := rfl
@[simp] theorem State.popCommand_expiryDue : (s.popCommand p).table.expiryDue = s.table.expiryDue := rfl
@[simp] theorem State.popCommand_region (i : Slot) : (s.popCommand p).region i = s.region i := rfl
@[simp] theorem State.popCommand_session (q : Port) : (s.popCommand p).session q = s.session q := rfl
@[simp] theorem State.popCommand_quota (q : Port) : (s.popCommand p).quota q = s.quota q := rfl
@[simp] theorem State.popCommand_channel (c : Chan) : (s.popCommand p).channel c = s.channel c := rfl
@[simp] theorem State.popCommand_link (q : Port) : (s.popCommand p).link q =
    if p = q then { s.link p with commands := (s.link p).commands.tail } else s.link q := look_put _ _ _ _
@[simp] theorem State.popCommand_handle (i : Slot) : (s.popCommand p).handle i = s.handle i := rfl
@[simp] theorem State.popCommand_current (h : Handle) : (s.popCommand p).current h = s.current h := rfl
@[simp] theorem State.popCommand_rights (q : Port) (i : Slot) : (s.popCommand p).rights q i = s.rights q i := rfl
@[simp] theorem State.popCommand_ownedLive (q : Port) (h : Handle) : (s.popCommand p).ownedLive q h = s.ownedLive q h := rfl
@[simp] theorem State.popCommand_offeredTo (q : Port) (h : Handle) : (s.popCommand p).offeredTo q h = s.offeredTo q h := rfl

variable (r : CommandRecord) (y : Reply)

@[simp] theorem State.answer_pins : (s.answer p r y).pins = s.pins := rfl
@[simp] theorem State.answer_engine : (s.answer p r y).engine = s.engine := rfl
@[simp] theorem State.answer_scrub : (s.answer p r y).scrub = s.scrub := rfl
@[simp] theorem State.answer_mem : (s.answer p r y).mem = s.mem := rfl
@[simp] theorem State.answer_pending : (s.answer p r y).pending = s.pending := rfl
@[simp] theorem State.answer_chan : (s.answer p r y).chan = s.chan := rfl
@[simp] theorem State.answer_table : (s.answer p r y).table = s.table := rfl
@[simp] theorem State.answer_region (i : Slot) : (s.answer p r y).region i = s.region i := rfl
@[simp] theorem State.answer_session (q : Port) : (s.answer p r y).session q = s.session q := rfl
@[simp] theorem State.answer_quota (q : Port) : (s.answer p r y).quota q = s.quota q := rfl
@[simp] theorem State.answer_channel (c : Chan) : (s.answer p r y).channel c = s.channel c := rfl
@[simp] theorem State.answer_link (q : Port) : (s.answer p r y).link q =
    if p = q then { s.link p with
      results := (s.link p).results ++ [{ opcode := r.opcode, tag := r.tag, code := y.code, payload := y.payload }] }
    else s.link q := look_put _ _ _ _
end

/-- A refusal and an acceptance that change nothing else leave the served state. -/
theorem State.popCommand_answer (s : State) (p : Port) (r : CommandRecord) (y : Reply) :
    (s.popCommand p).answer p r y = s.served p r.opcode r.tag y.code y.payload := by
  refine State.ext_pieces ?_ ?_ ?_ ?_ ?_ ?_ ?_ ?_ ?_ ?_ ?_ ?_ ?_ ?_ ?_ ?_ ?_ ?_ <;> intros <;> first | rfl | skip
  simp
  split_ifs <;> simp_all

/-- The taking of a record at its turn: the body's answer, with the result record written when there is one. -/
theorem State.taking_of_serves {s : State} {p : Port} {r : CommandRecord} (h : s.serves p r) {mine : CommandRecord → Bool}
    (hm : mine r = true) (body : CommandRecord → State → State × Option Reply) :
    s.taking p mine body =
      match body r (s.popCommand p) with
      | (t, none) => .next t
      | (t, some y) => .next (t.answer p r y) := by
  obtain ⟨h1, h2⟩ := h
  unfold State.taking
  cases hc : (s.link p).commands with
  | nil => simp [hc] at h1
  | cons r' rest =>
    simp only [hc, List.head?_cons, Option.some.injEq] at h1
    subst h1
    simp only [h2, hm, and_self, if_true] <;> rfl

/-- Where the record is not the row's own, or the port not at its turn, a taking leaves the state as it is. -/
theorem State.taking_of_not {s : State} {p : Port} {mine : CommandRecord → Bool}
    (h : ∀ r, s.serves p r → mine r = false) (body : CommandRecord → State → State × Option Reply) :
    s.taking p mine body = .next s := by
  unfold State.taking
  cases hc : (s.link p).commands with
  | nil => rfl
  | cons r rest =>
    simp only
    rw [if_neg]
    rintro ⟨h1, h2⟩
    have := h r ⟨by simp [hc], h1⟩
    simp [this] at h2

/-- The taking of a command of an OPEN port whose argument length is the table's. -/
theorem State.command_of_servesOpen {s : State} {p : Port} {op tag : Byte} {args : List Byte}
    (h : s.servesOpen p op tag args) {n : Nat} (hn : args.length = n) (body : List Byte → State → State × Option Reply) :
    s.command p op n body =
      match body args (s.popCommand p) with
      | (t, none) => .next t
      | (t, some y) => .next (t.answer p { opcode := op, tag, args } y) := by
  unfold State.command
  rw [State.taking_of_serves h.1 (by simp [h.2])]
  simp [hn, h.2]

/-- Every command row but OPEN is a taking with the record checks and the session check of `State.command`. -/
theorem exec_commandRow {s : State} {c : Instr} {p : Port} {op : Byte} {n : Nat} (h : commandRow c = some (p, op, n))
    (ho : op ≠ 0x01) : ∃ body, exec c s = s.command p op n body := by
  cases c <;> simp only [commandRow, Option.some.injEq, Prod.mk.injEq, reduceCtorEq] at h
  case openSession => exact absurd h.2.1.symm ho
  all_goals
    obtain ⟨rfl, rfl, rfl⟩ := h
    simp only [exec, execCloseSession, execSetNotify, execAllocate, execFree, execPin, execUnpin, execLabel, execFind,
      execQueryRegion, execQuerySpace, execGrant, execRenounce, execOffer, execWithdraw, execAccept, execDecline, execLease,
      execRelease, execProgram, execArm, execDisarm, execSuspend, execResume, execTrigger, execQueryChannel,
      execListChannels, State.lesseeCommand]
    exact ⟨_, rfl⟩

/-- A command row is OPEN only with its own opcode. -/
theorem commandRow_open {c : Instr} {p : Port} {n : Nat} (h : commandRow c = some (p, 0x01, n)) :
    c = .openSession p ∧ n = 0 := by
  cases c <;> simp [commandRow] at h
  exact ⟨by rw [h.1], h.2.symm⟩

/-- Every command row is a taking of a record with the row's opcode, of a port that is not CLOSING. -/
theorem exec_commandRow_taking {s : State} {c : Instr} {p : Port} {op : Byte} {n : Nat}
    (h : commandRow c = some (p, op, n)) :
    ∃ body, exec c s = s.taking p (fun r => r.opcode == op && decide (s.session p ≠ .closing)) body := by
  by_cases ho : op = 0x01
  · subst ho
    obtain ⟨rfl, rfl⟩ := commandRow_open h
    simp only [exec, execOpenSession]
    exact ⟨_, rfl⟩
  · obtain ⟨body, hb⟩ := exec_commandRow (s := s) h ho
    exact ⟨_, hb⟩

end Sys2Proof.Machine
end

