-- ==== Sys2Proof/Laws/Frames.lean ====
section
/-! SUPPORT. What each shared operation over the state leaves as it was, piece by piece. -/

namespace Sys2Proof.Machine

section

variable (s : State)

/-! `State.offerEvent` -/

@[simp] theorem State.offerEvent_pins (p : Port) (e : Event) : (s.offerEvent p e).pins = s.pins := by
  unfold State.offerEvent; split_ifs <;> rfl
@[simp] theorem State.offerEvent_engine (p : Port) (e : Event) : (s.offerEvent p e).engine = s.engine := by
  unfold State.offerEvent; split_ifs <;> rfl
@[simp] theorem State.offerEvent_scrub (p : Port) (e : Event) : (s.offerEvent p e).scrub = s.scrub := by
  unfold State.offerEvent; split_ifs <;> rfl
@[simp] theorem State.offerEvent_mem (p : Port) (e : Event) : (s.offerEvent p e).mem = s.mem := by
  unfold State.offerEvent; split_ifs <;> rfl
@[simp] theorem State.offerEvent_pending (p : Port) (e : Event) : (s.offerEvent p e).pending = s.pending := by
  unfold State.offerEvent; split_ifs <;> rfl
@[simp] theorem State.offerEvent_chan_channels (p : Port) (e : Event) : (s.offerEvent p e).chan.channels = s.chan.channels := by
  unfold State.offerEvent; split_ifs <;> rfl
@[simp] theorem State.offerEvent_chan_orders (p : Port) (e : Event) : (s.offerEvent p e).chan.orders = s.chan.orders := by
  unfold State.offerEvent; split_ifs <;> rfl
@[simp] theorem State.offerEvent_chan_haltClaims (p : Port) (e : Event) : (s.offerEvent p e).chan.haltClaims = s.chan.haltClaims := by
  unfold State.offerEvent; split_ifs <;> rfl
@[simp] theorem State.offerEvent_chan_edgeClaims (p : Port) (e : Event) : (s.offerEvent p e).chan.edgeClaims = s.chan.edgeClaims := by
  unfold State.offerEvent; split_ifs <;> rfl
@[simp] theorem State.offerEvent_table_regions (p : Port) (e : Event) : (s.offerEvent p e).table.regions = s.table.regions := by
  unfold State.offerEvent; split_ifs <;> rfl
@[simp] theorem State.offerEvent_table_granules (p : Port) (e : Event) : (s.offerEvent p e).table.granules = s.table.granules := by
  unfold State.offerEvent; split_ifs <;> rfl
@[simp] theorem State.offerEvent_table_sessions (p : Port) (e : Event) : (s.offerEvent p e).table.sessions = s.table.sessions := by
  unfold State.offerEvent; split_ifs <;> rfl
@[simp] theorem State.offerEvent_table_quotas (p : Port) (e : Event) : (s.offerEvent p e).table.quotas = s.table.quotas := by
  unfold State.offerEvent; split_ifs <;> rfl
@[simp] theorem State.offerEvent_table_quotaMode (p : Port) (e : Event) : (s.offerEvent p e).table.quotaMode = s.table.quotaMode := by
  unfold State.offerEvent; split_ifs <;> rfl
@[simp] theorem State.offerEvent_table_pointer (p : Port) (e : Event) : (s.offerEvent p e).table.pointer = s.table.pointer := by
  unfold State.offerEvent; split_ifs <;> rfl
@[simp] theorem State.offerEvent_table_notices (p : Port) (e : Event) : (s.offerEvent p e).table.notices = s.table.notices := by
  unfold State.offerEvent; split_ifs <;> rfl
@[simp] theorem State.offerEvent_table_expiryDue (p : Port) (e : Event) : (s.offerEvent p e).table.expiryDue = s.table.expiryDue := by
  unfold State.offerEvent; split_ifs <;> rfl
@[simp] theorem State.offerEvent_region (p : Port) (e : Event) (i' : Slot) : (s.offerEvent p e).region i' = s.region i' :=
  congrArg (look · i') (State.offerEvent_table_regions s p e)
@[simp] theorem State.offerEvent_channel (p : Port) (e : Event) (c' : Chan) : (s.offerEvent p e).channel c' = s.channel c' :=
  congrArg (look · c') (State.offerEvent_chan_channels s p e)
@[simp] theorem State.offerEvent_session (p : Port) (e : Event) (q' : Port) : (s.offerEvent p e).session q' = s.session q' :=
  congrArg (look · q') (State.offerEvent_table_sessions s p e)
@[simp] theorem State.offerEvent_quota (p : Port) (e : Event) (q' : Port) : (s.offerEvent p e).quota q' = s.quota q' :=
  congrArg (look · q') (State.offerEvent_table_quotas s p e)

/-! `State.offerEvents` -/

@[simp] theorem State.offerEvents_pins (es : List (Port × Event)) : (s.offerEvents es).pins = s.pins := by
  induction es generalizing s with
  | nil => rfl
  | cons x rest ih => exact (ih _).trans (State.offerEvent_pins s x.1 x.2)
@[simp] theorem State.offerEvents_engine (es : List (Port × Event)) : (s.offerEvents es).engine = s.engine := by
  induction es generalizing s with
  | nil => rfl
  | cons x rest ih => exact (ih _).trans (State.offerEvent_engine s x.1 x.2)
@[simp] theorem State.offerEvents_scrub (es : List (Port × Event)) : (s.offerEvents es).scrub = s.scrub := by
  induction es generalizing s with
  | nil => rfl
  | cons x rest ih => exact (ih _).trans (State.offerEvent_scrub s x.1 x.2)
@[simp] theorem State.offerEvents_mem (es : List (Port × Event)) : (s.offerEvents es).mem = s.mem := by
  induction es generalizing s with
  | nil => rfl
  | cons x rest ih => exact (ih _).trans (State.offerEvent_mem s x.1 x.2)
@[simp] theorem State.offerEvents_pending (es : List (Port × Event)) : (s.offerEvents es).pending = s.pending := by
  induction es generalizing s with
  | nil => rfl
  | cons x rest ih => exact (ih _).trans (State.offerEvent_pending s x.1 x.2)
@[simp] theorem State.offerEvents_chan_channels (es : List (Port × Event)) : (s.offerEvents es).chan.channels = s.chan.channels := by
  induction es generalizing s with
  | nil => rfl
  | cons x rest ih => exact (ih _).trans (State.offerEvent_chan_channels s x.1 x.2)
@[simp] theorem State.offerEvents_chan_orders (es : List (Port × Event)) : (s.offerEvents es).chan.orders = s.chan.orders := by
  induction es generalizing s with
  | nil => rfl
  | cons x rest ih => exact (ih _).trans (State.offerEvent_chan_orders s x.1 x.2)
@[simp] theorem State.offerEvents_chan_haltClaims (es : List (Port × Event)) : (s.offerEvents es).chan.haltClaims = s.chan.haltClaims := by
  induction es generalizing s with
  | nil => rfl
  | cons x rest ih => exact (ih _).trans (State.offerEvent_chan_haltClaims s x.1 x.2)
@[simp] theorem State.offerEvents_chan_edgeClaims (es : List (Port × Event)) : (s.offerEvents es).chan.edgeClaims = s.chan.edgeClaims := by
  induction es generalizing s with
  | nil => rfl
  | cons x rest ih => exact (ih _).trans (State.offerEvent_chan_edgeClaims s x.1 x.2)
@[simp] theorem State.offerEvents_table_regions (es : List (Port × Event)) : (s.offerEvents es).table.regions = s.table.regions := by
  induction es generalizing s with
  | nil => rfl
  | cons x rest ih => exact (ih _).trans (State.offerEvent_table_regions s x.1 x.2)
@[simp] theorem State.offerEvents_table_granules (es : List (Port × Event)) : (s.offerEvents es).table.granules = s.table.granules := by
  induction es generalizing s with
  | nil => rfl
  | cons x rest ih => exact (ih _).trans (State.offerEvent_table_granules s x.1 x.2)
@[simp] theorem State.offerEvents_table_sessions (es : List (Port × Event)) : (s.offerEvents es).table.sessions = s.table.sessions := by
  induction es generalizing s with
  | nil => rfl
  | cons x rest ih => exact (ih _).trans (State.offerEvent_table_sessions s x.1 x.2)
@[simp] theorem State.offerEvents_table_quotas (es : List (Port × Event)) : (s.offerEvents es).table.quotas = s.table.quotas := by
  induction es generalizing s with
  | nil => rfl
  | cons x rest ih => exact (ih _).trans (State.offerEvent_table_quotas s x.1 x.2)
@[simp] theorem State.offerEvents_table_quotaMode (es : List (Port × Event)) : (s.offerEvents es).table.quotaMode = s.table.quotaMode := by
  induction es generalizing s with
  | nil => rfl
  | cons x rest ih => exact (ih _).trans (State.offerEvent_table_quotaMode s x.1 x.2)
@[simp] theorem State.offerEvents_table_pointer (es : List (Port × Event)) : (s.offerEvents es).table.pointer = s.table.pointer := by
  induction es generalizing s with
  | nil => rfl
  | cons x rest ih => exact (ih _).trans (State.offerEvent_table_pointer s x.1 x.2)
@[simp] theorem State.offerEvents_table_notices (es : List (Port × Event)) : (s.offerEvents es).table.notices = s.table.notices := by
  induction es generalizing s with
  | nil => rfl
  | cons x rest ih => exact (ih _).trans (State.offerEvent_table_notices s x.1 x.2)
@[simp] theorem State.offerEvents_table_expiryDue (es : List (Port × Event)) : (s.offerEvents es).table.expiryDue = s.table.expiryDue := by
  induction es generalizing s with
  | nil => rfl
  | cons x rest ih => exact (ih _).trans (State.offerEvent_table_expiryDue s x.1 x.2)
@[simp] theorem State.offerEvents_region (es : List (Port × Event)) (i' : Slot) : (s.offerEvents es).region i' = s.region i' :=
  congrArg (look · i') (State.offerEvents_table_regions s es)
@[simp] theorem State.offerEvents_channel (es : List (Port × Event)) (c' : Chan) : (s.offerEvents es).channel c' = s.channel c' :=
  congrArg (look · c') (State.offerEvents_chan_channels s es)
@[simp] theorem State.offerEvents_session (es : List (Port × Event)) (q' : Port) : (s.offerEvents es).session q' = s.session q' :=
  congrArg (look · q') (State.offerEvents_table_sessions s es)
@[simp] theorem State.offerEvents_quota (es : List (Port × Event)) (q' : Port) : (s.offerEvents es).quota q' = s.quota q' :=
  congrArg (look · q') (State.offerEvents_table_quotas s es)

/-! `State.sendOrders` -/

@[simp] theorem State.sendOrders_pins (b : List Order) : (s.sendOrders b).pins = s.pins := by
  unfold State.sendOrders; split_ifs <;> rfl
@[simp] theorem State.sendOrders_engine (b : List Order) : (s.sendOrders b).engine = s.engine := by
  unfold State.sendOrders; split_ifs <;> rfl
@[simp] theorem State.sendOrders_scrub (b : List Order) : (s.sendOrders b).scrub = s.scrub := by
  unfold State.sendOrders; split_ifs <;> rfl
@[simp] theorem State.sendOrders_mem (b : List Order) : (s.sendOrders b).mem = s.mem := by
  unfold State.sendOrders; split_ifs <;> rfl
@[simp] theorem State.sendOrders_pending (b : List Order) : (s.sendOrders b).pending = s.pending := by
  unfold State.sendOrders; split_ifs <;> rfl
@[simp] theorem State.sendOrders_links (b : List Order) : (s.sendOrders b).links = s.links := by
  unfold State.sendOrders; split_ifs <;> rfl
@[simp] theorem State.sendOrders_chan_channels (b : List Order) : (s.sendOrders b).chan.channels = s.chan.channels := by
  unfold State.sendOrders; split_ifs <;> rfl
@[simp] theorem State.sendOrders_chan_haltClaims (b : List Order) : (s.sendOrders b).chan.haltClaims = s.chan.haltClaims := by
  unfold State.sendOrders; split_ifs <;> rfl
@[simp] theorem State.sendOrders_chan_edgeClaims (b : List Order) : (s.sendOrders b).chan.edgeClaims = s.chan.edgeClaims := by
  unfold State.sendOrders; split_ifs <;> rfl
@[simp] theorem State.sendOrders_table_regions (b : List Order) : (s.sendOrders b).table.regions = s.table.regions := by
  unfold State.sendOrders; split_ifs <;> rfl
@[simp] theorem State.sendOrders_table_granules (b : List Order) : (s.sendOrders b).table.granules = s.table.granules := by
  unfold State.sendOrders; split_ifs <;> rfl
@[simp] theorem State.sendOrders_table_sessions (b : List Order) : (s.sendOrders b).table.sessions = s.table.sessions := by
  unfold State.sendOrders; split_ifs <;> rfl
@[simp] theorem State.sendOrders_table_quotas (b : List Order) : (s.sendOrders b).table.quotas = s.table.quotas := by
  unfold State.sendOrders; split_ifs <;> rfl
@[simp] theorem State.sendOrders_table_quotaMode (b : List Order) : (s.sendOrders b).table.quotaMode = s.table.quotaMode := by
  unfold State.sendOrders; split_ifs <;> rfl
@[simp] theorem State.sendOrders_table_pointer (b : List Order) : (s.sendOrders b).table.pointer = s.table.pointer := by
  unfold State.sendOrders; split_ifs <;> rfl
@[simp] theorem State.sendOrders_table_notices (b : List Order) : (s.sendOrders b).table.notices = s.table.notices := by
  unfold State.sendOrders; split_ifs <;> rfl
@[simp] theorem State.sendOrders_table_expiryDue (b : List Order) : (s.sendOrders b).table.expiryDue = s.table.expiryDue := by
  unfold State.sendOrders; split_ifs <;> rfl
@[simp] theorem State.sendOrders_region (b : List Order) (i' : Slot) : (s.sendOrders b).region i' = s.region i' :=
  congrArg (look · i') (State.sendOrders_table_regions s b)
@[simp] theorem State.sendOrders_channel (b : List Order) (c' : Chan) : (s.sendOrders b).channel c' = s.channel c' :=
  congrArg (look · c') (State.sendOrders_chan_channels s b)
@[simp] theorem State.sendOrders_link (b : List Order) (q' : Port) : (s.sendOrders b).link q' = s.link q' :=
  congrArg (look · q') (State.sendOrders_links s b)
@[simp] theorem State.sendOrders_session (b : List Order) (q' : Port) : (s.sendOrders b).session q' = s.session q' :=
  congrArg (look · q') (State.sendOrders_table_sessions s b)
@[simp] theorem State.sendOrders_quota (b : List Order) (q' : Port) : (s.sendOrders b).quota q' = s.quota q' :=
  congrArg (look · q') (State.sendOrders_table_quotas s b)

/-! `State.sendDiscards` -/

@[simp] theorem State.sendDiscards_pins (k : DiscardCause) (h : Handle) (f : Channel → Bool) : (s.sendDiscards k h f).pins = s.pins := State.sendOrders_pins s _
@[simp] theorem State.sendDiscards_engine (k : DiscardCause) (h : Handle) (f : Channel → Bool) : (s.sendDiscards k h f).engine = s.engine := State.sendOrders_engine s _
@[simp] theorem State.sendDiscards_scrub (k : DiscardCause) (h : Handle) (f : Channel → Bool) : (s.sendDiscards k h f).scrub = s.scrub := State.sendOrders_scrub s _
@[simp] theorem State.sendDiscards_mem (k : DiscardCause) (h : Handle) (f : Channel → Bool) : (s.sendDiscards k h f).mem = s.mem := State.sendOrders_mem s _
@[simp] theorem State.sendDiscards_pending (k : DiscardCause) (h : Handle) (f : Channel → Bool) : (s.sendDiscards k h f).pending = s.pending := State.sendOrders_pending s _
@[simp] theorem State.sendDiscards_links (k : DiscardCause) (h : Handle) (f : Channel → Bool) : (s.sendDiscards k h f).links = s.links := State.sendOrders_links s _
@[simp] theorem State.sendDiscards_chan_channels (k : DiscardCause) (h : Handle) (f : Channel → Bool) : (s.sendDiscards k h f).chan.channels = s.chan.channels := State.sendOrders_chan_channels s _
@[simp] theorem State.sendDiscards_chan_haltClaims (k : DiscardCause) (h : Handle) (f : Channel → Bool) : (s.sendDiscards k h f).chan.haltClaims = s.chan.haltClaims := State.sendOrders_chan_haltClaims s _
@[simp] theorem State.sendDiscards_chan_edgeClaims (k : DiscardCause) (h : Handle) (f : Channel → Bool) : (s.sendDiscards k h f).chan.edgeClaims = s.chan.edgeClaims := State.sendOrders_chan_edgeClaims s _
@[simp] theorem State.sendDiscards_table_regions (k : DiscardCause) (h : Handle) (f : Channel → Bool) : (s.sendDiscards k h f).table.regions = s.table.regions := State.sendOrders_table_regions s _
@[simp] theorem State.sendDiscards_table_granules (k : DiscardCause) (h : Handle) (f : Channel → Bool) : (s.sendDiscards k h f).table.granules = s.table.granules := State.sendOrders_table_granules s _
@[simp] theorem State.sendDiscards_table_sessions (k : DiscardCause) (h : Handle) (f : Channel → Bool) : (s.sendDiscards k h f).table.sessions = s.table.sessions := State.sendOrders_table_sessions s _
@[simp] theorem State.sendDiscards_table_quotas (k : DiscardCause) (h : Handle) (f : Channel → Bool) : (s.sendDiscards k h f).table.quotas = s.table.quotas := State.sendOrders_table_quotas s _
@[simp] theorem State.sendDiscards_table_quotaMode (k : DiscardCause) (h : Handle) (f : Channel → Bool) : (s.sendDiscards k h f).table.quotaMode = s.table.quotaMode := State.sendOrders_table_quotaMode s _
@[simp] theorem State.sendDiscards_table_pointer (k : DiscardCause) (h : Handle) (f : Channel → Bool) : (s.sendDiscards k h f).table.pointer = s.table.pointer := State.sendOrders_table_pointer s _
@[simp] theorem State.sendDiscards_table_notices (k : DiscardCause) (h : Handle) (f : Channel → Bool) : (s.sendDiscards k h f).table.notices = s.table.notices := State.sendOrders_table_notices s _
@[simp] theorem State.sendDiscards_table_expiryDue (k : DiscardCause) (h : Handle) (f : Channel → Bool) : (s.sendDiscards k h f).table.expiryDue = s.table.expiryDue := State.sendOrders_table_expiryDue s _
@[simp] theorem State.sendDiscards_region (k : DiscardCause) (h : Handle) (f : Channel → Bool) (i' : Slot) : (s.sendDiscards k h f).region i' = s.region i' :=
  congrArg (look · i') (State.sendDiscards_table_regions s k h f)
@[simp] theorem State.sendDiscards_channel (k : DiscardCause) (h : Handle) (f : Channel → Bool) (c' : Chan) : (s.sendDiscards k h f).channel c' = s.channel c' :=
  congrArg (look · c') (State.sendDiscards_chan_channels s k h f)
@[simp] theorem State.sendDiscards_link (k : DiscardCause) (h : Handle) (f : Channel → Bool) (q' : Port) : (s.sendDiscards k h f).link q' = s.link q' :=
  congrArg (look · q') (State.sendDiscards_links s k h f)
@[simp] theorem State.sendDiscards_session (k : DiscardCause) (h : Handle) (f : Channel → Bool) (q' : Port) : (s.sendDiscards k h f).session q' = s.session q' :=
  congrArg (look · q') (State.sendDiscards_table_sessions s k h f)
@[simp] theorem State.sendDiscards_quota (k : DiscardCause) (h : Handle) (f : Channel → Bool) (q' : Port) : (s.sendDiscards k h f).quota q' = s.quota q' :=
  congrArg (look · q') (State.sendDiscards_table_quotas s k h f)

/-! `State.discarding` -/

@[simp] theorem State.discarding_pins (k : DiscardCause) (h : Handle) (cs : List Chan) : (s.discarding k h cs).pins = s.pins := State.sendOrders_pins s _
@[simp] theorem State.discarding_engine (k : DiscardCause) (h : Handle) (cs : List Chan) : (s.discarding k h cs).engine = s.engine := State.sendOrders_engine s _
@[simp] theorem State.discarding_scrub (k : DiscardCause) (h : Handle) (cs : List Chan) : (s.discarding k h cs).scrub = s.scrub := State.sendOrders_scrub s _
@[simp] theorem State.discarding_mem (k : DiscardCause) (h : Handle) (cs : List Chan) : (s.discarding k h cs).mem = s.mem := State.sendOrders_mem s _
@[simp] theorem State.discarding_pending (k : DiscardCause) (h : Handle) (cs : List Chan) : (s.discarding k h cs).pending = s.pending := State.sendOrders_pending s _
@[simp] theorem State.discarding_links (k : DiscardCause) (h : Handle) (cs : List Chan) : (s.discarding k h cs).links = s.links := State.sendOrders_links s _
@[simp] theorem State.discarding_chan_channels (k : DiscardCause) (h : Handle) (cs : List Chan) : (s.discarding k h cs).chan.channels = s.chan.channels := State.sendOrders_chan_channels s _
@[simp] theorem State.discarding_chan_haltClaims (k : DiscardCause) (h : Handle) (cs : List Chan) : (s.discarding k h cs).chan.haltClaims = s.chan.haltClaims := State.sendOrders_chan_haltClaims s _
@[simp] theorem State.discarding_chan_edgeClaims (k : DiscardCause) (h : Handle) (cs : List Chan) : (s.discarding k h cs).chan.edgeClaims = s.chan.edgeClaims := State.sendOrders_chan_edgeClaims s _
@[simp] theorem State.discarding_table_regions (k : DiscardCause) (h : Handle) (cs : List Chan) : (s.discarding k h cs).table.regions = s.table.regions := State.sendOrders_table_regions s _
@[simp] theorem State.discarding_table_granules (k : DiscardCause) (h : Handle) (cs : List Chan) : (s.discarding k h cs).table.granules = s.table.granules := State.sendOrders_table_granules s _
@[simp] theorem State.discarding_table_sessions (k : DiscardCause) (h : Handle) (cs : List Chan) : (s.discarding k h cs).table.sessions = s.table.sessions := State.sendOrders_table_sessions s _
@[simp] theorem State.discarding_table_quotas (k : DiscardCause) (h : Handle) (cs : List Chan) : (s.discarding k h cs).table.quotas = s.table.quotas := State.sendOrders_table_quotas s _
@[simp] theorem State.discarding_table_quotaMode (k : DiscardCause) (h : Handle) (cs : List Chan) : (s.discarding k h cs).table.quotaMode = s.table.quotaMode := State.sendOrders_table_quotaMode s _
@[simp] theorem State.discarding_table_pointer (k : DiscardCause) (h : Handle) (cs : List Chan) : (s.discarding k h cs).table.pointer = s.table.pointer := State.sendOrders_table_pointer s _
@[simp] theorem State.discarding_table_notices (k : DiscardCause) (h : Handle) (cs : List Chan) : (s.discarding k h cs).table.notices = s.table.notices := State.sendOrders_table_notices s _
@[simp] theorem State.discarding_table_expiryDue (k : DiscardCause) (h : Handle) (cs : List Chan) : (s.discarding k h cs).table.expiryDue = s.table.expiryDue := State.sendOrders_table_expiryDue s _
@[simp] theorem State.discarding_region (k : DiscardCause) (h : Handle) (cs : List Chan) (i' : Slot) : (s.discarding k h cs).region i' = s.region i' :=
  congrArg (look · i') (State.discarding_table_regions s k h cs)
@[simp] theorem State.discarding_channel (k : DiscardCause) (h : Handle) (cs : List Chan) (c' : Chan) : (s.discarding k h cs).channel c' = s.channel c' :=
  congrArg (look · c') (State.discarding_chan_channels s k h cs)
@[simp] theorem State.discarding_link (k : DiscardCause) (h : Handle) (cs : List Chan) (q' : Port) : (s.discarding k h cs).link q' = s.link q' :=
  congrArg (look · q') (State.discarding_links s k h cs)
@[simp] theorem State.discarding_session (k : DiscardCause) (h : Handle) (cs : List Chan) (q' : Port) : (s.discarding k h cs).session q' = s.session q' :=
  congrArg (look · q') (State.discarding_table_sessions s k h cs)
@[simp] theorem State.discarding_quota (k : DiscardCause) (h : Handle) (cs : List Chan) (q' : Port) : (s.discarding k h cs).quota q' = s.quota q' :=
  congrArg (look · q') (State.discarding_table_quotas s k h cs)

/-! `State.commit` -/

@[simp] theorem State.commit_pins (c : Chan) (e : Effect) : (s.commit c e).pins = s.pins := by
  unfold State.commit; cases (s.channel c).lessee <;> simp
@[simp] theorem State.commit_engine (c : Chan) (e : Effect) : (s.commit c e).engine = s.engine := by
  unfold State.commit; cases (s.channel c).lessee <;> simp
@[simp] theorem State.commit_scrub (c : Chan) (e : Effect) : (s.commit c e).scrub = s.scrub := by
  unfold State.commit; cases (s.channel c).lessee <;> simp
@[simp] theorem State.commit_mem (c : Chan) (e : Effect) : (s.commit c e).mem = s.mem := by
  unfold State.commit; cases (s.channel c).lessee <;> simp
@[simp] theorem State.commit_pending (c : Chan) (e : Effect) : (s.commit c e).pending = s.pending := by
  unfold State.commit; cases (s.channel c).lessee <;> simp
@[simp] theorem State.commit_chan_orders (c : Chan) (e : Effect) : (s.commit c e).chan.orders = s.chan.orders := by
  unfold State.commit; cases (s.channel c).lessee <;> simp
@[simp] theorem State.commit_chan_haltClaims (c : Chan) (e : Effect) : (s.commit c e).chan.haltClaims = s.chan.haltClaims := by
  unfold State.commit; cases (s.channel c).lessee <;> simp
@[simp] theorem State.commit_chan_edgeClaims (c : Chan) (e : Effect) : (s.commit c e).chan.edgeClaims = s.chan.edgeClaims := by
  unfold State.commit; cases (s.channel c).lessee <;> simp
@[simp] theorem State.commit_table_regions (c : Chan) (e : Effect) : (s.commit c e).table.regions = s.table.regions := by
  unfold State.commit; cases (s.channel c).lessee <;> simp
@[simp] theorem State.commit_table_granules (c : Chan) (e : Effect) : (s.commit c e).table.granules = s.table.granules := by
  unfold State.commit; cases (s.channel c).lessee <;> simp
@[simp] theorem State.commit_table_sessions (c : Chan) (e : Effect) : (s.commit c e).table.sessions = s.table.sessions := by
  unfold State.commit; cases (s.channel c).lessee <;> simp
@[simp] theorem State.commit_table_quotas (c : Chan) (e : Effect) : (s.commit c e).table.quotas = s.table.quotas := by
  unfold State.commit; cases (s.channel c).lessee <;> simp
@[simp] theorem State.commit_table_quotaMode (c : Chan) (e : Effect) : (s.commit c e).table.quotaMode = s.table.quotaMode := by
  unfold State.commit; cases (s.channel c).lessee <;> simp
@[simp] theorem State.commit_table_pointer (c : Chan) (e : Effect) : (s.commit c e).table.pointer = s.table.pointer := by
  unfold State.commit; cases (s.channel c).lessee <;> simp
@[simp] theorem State.commit_table_expiryDue (c : Chan) (e : Effect) : (s.commit c e).table.expiryDue = s.table.expiryDue := by
  unfold State.commit; cases (s.channel c).lessee <;> simp
@[simp] theorem State.commit_region (c : Chan) (e : Effect) (i' : Slot) : (s.commit c e).region i' = s.region i' :=
  congrArg (look · i') (State.commit_table_regions s c e)
@[simp] theorem State.commit_session (c : Chan) (e : Effect) (q' : Port) : (s.commit c e).session q' = s.session q' :=
  congrArg (look · q') (State.commit_table_sessions s c e)
@[simp] theorem State.commit_quota (c : Chan) (e : Effect) (q' : Port) : (s.commit c e).quota q' = s.quota q' :=
  congrArg (look · q') (State.commit_table_quotas s c e)

/-! `State.takeOrder` -/

@[simp] theorem State.takeOrder_pins (o : Order) : (s.takeOrder o).pins = s.pins := State.commit_pins s _ _
@[simp] theorem State.takeOrder_engine (o : Order) : (s.takeOrder o).engine = s.engine := State.commit_engine s _ _
@[simp] theorem State.takeOrder_scrub (o : Order) : (s.takeOrder o).scrub = s.scrub := State.commit_scrub s _ _
@[simp] theorem State.takeOrder_mem (o : Order) : (s.takeOrder o).mem = s.mem := State.commit_mem s _ _
@[simp] theorem State.takeOrder_pending (o : Order) : (s.takeOrder o).pending = s.pending := State.commit_pending s _ _
@[simp] theorem State.takeOrder_chan_orders (o : Order) : (s.takeOrder o).chan.orders = s.chan.orders := State.commit_chan_orders s _ _
@[simp] theorem State.takeOrder_chan_haltClaims (o : Order) : (s.takeOrder o).chan.haltClaims = s.chan.haltClaims := State.commit_chan_haltClaims s _ _
@[simp] theorem State.takeOrder_chan_edgeClaims (o : Order) : (s.takeOrder o).chan.edgeClaims = s.chan.edgeClaims := State.commit_chan_edgeClaims s _ _
@[simp] theorem State.takeOrder_table_regions (o : Order) : (s.takeOrder o).table.regions = s.table.regions := State.commit_table_regions s _ _
@[simp] theorem State.takeOrder_table_granules (o : Order) : (s.takeOrder o).table.granules = s.table.granules := State.commit_table_granules s _ _
@[simp] theorem State.takeOrder_table_sessions (o : Order) : (s.takeOrder o).table.sessions = s.table.sessions := State.commit_table_sessions s _ _
@[simp] theorem State.takeOrder_table_quotas (o : Order) : (s.takeOrder o).table.quotas = s.table.quotas := State.commit_table_quotas s _ _
@[simp] theorem State.takeOrder_table_quotaMode (o : Order) : (s.takeOrder o).table.quotaMode = s.table.quotaMode := State.commit_table_quotaMode s _ _
@[simp] theorem State.takeOrder_table_pointer (o : Order) : (s.takeOrder o).table.pointer = s.table.pointer := State.commit_table_pointer s _ _
@[simp] theorem State.takeOrder_table_expiryDue (o : Order) : (s.takeOrder o).table.expiryDue = s.table.expiryDue := State.commit_table_expiryDue s _ _
@[simp] theorem State.takeOrder_region (o : Order) (i' : Slot) : (s.takeOrder o).region i' = s.region i' :=
  congrArg (look · i') (State.takeOrder_table_regions s o)
@[simp] theorem State.takeOrder_session (o : Order) (q' : Port) : (s.takeOrder o).session q' = s.session q' :=
  congrArg (look · q') (State.takeOrder_table_sessions s o)
@[simp] theorem State.takeOrder_quota (o : Order) (q' : Port) : (s.takeOrder o).quota q' = s.quota q' :=
  congrArg (look · q') (State.takeOrder_table_quotas s o)

/-! `State.drainOrders` -/

theorem State.foldl_takeOrder_pins (os : List Order) : (os.foldl State.takeOrder s).pins = s.pins := by
  induction os generalizing s with
  | nil => rfl
  | cons o rest ih => exact (ih _).trans (State.takeOrder_pins s o)
@[simp] theorem State.drainOrders_pins : s.drainOrders.pins = s.pins := by
  unfold State.drainOrders; simp [State.foldl_takeOrder_pins]
theorem State.foldl_takeOrder_engine (os : List Order) : (os.foldl State.takeOrder s).engine = s.engine := by
  induction os generalizing s with
  | nil => rfl
  | cons o rest ih => exact (ih _).trans (State.takeOrder_engine s o)
@[simp] theorem State.drainOrders_engine : s.drainOrders.engine = s.engine := by
  unfold State.drainOrders; simp [State.foldl_takeOrder_engine]
theorem State.foldl_takeOrder_scrub (os : List Order) : (os.foldl State.takeOrder s).scrub = s.scrub := by
  induction os generalizing s with
  | nil => rfl
  | cons o rest ih => exact (ih _).trans (State.takeOrder_scrub s o)
@[simp] theorem State.drainOrders_scrub : s.drainOrders.scrub = s.scrub := by
  unfold State.drainOrders; simp [State.foldl_takeOrder_scrub]
theorem State.foldl_takeOrder_mem (os : List Order) : (os.foldl State.takeOrder s).mem = s.mem := by
  induction os generalizing s with
  | nil => rfl
  | cons o rest ih => exact (ih _).trans (State.takeOrder_mem s o)
@[simp] theorem State.drainOrders_mem : s.drainOrders.mem = s.mem := by
  unfold State.drainOrders; simp [State.foldl_takeOrder_mem]
theorem State.foldl_takeOrder_pending (os : List Order) : (os.foldl State.takeOrder s).pending = s.pending := by
  induction os generalizing s with
  | nil => rfl
  | cons o rest ih => exact (ih _).trans (State.takeOrder_pending s o)
@[simp] theorem State.drainOrders_pending : s.drainOrders.pending = s.pending := by
  unfold State.drainOrders; simp [State.foldl_takeOrder_pending]
theorem State.foldl_takeOrder_chan_haltClaims (os : List Order) : (os.foldl State.takeOrder s).chan.haltClaims = s.chan.haltClaims := by
  induction os generalizing s with
  | nil => rfl
  | cons o rest ih => exact (ih _).trans (State.takeOrder_chan_haltClaims s o)
@[simp] theorem State.drainOrders_chan_haltClaims : s.drainOrders.chan.haltClaims = s.chan.haltClaims := by
  unfold State.drainOrders; simp [State.foldl_takeOrder_chan_haltClaims]
theorem State.foldl_takeOrder_chan_edgeClaims (os : List Order) : (os.foldl State.takeOrder s).chan.edgeClaims = s.chan.edgeClaims := by
  induction os generalizing s with
  | nil => rfl
  | cons o rest ih => exact (ih _).trans (State.takeOrder_chan_edgeClaims s o)
@[simp] theorem State.drainOrders_chan_edgeClaims : s.drainOrders.chan.edgeClaims = s.chan.edgeClaims := by
  unfold State.drainOrders; simp [State.foldl_takeOrder_chan_edgeClaims]
theorem State.foldl_takeOrder_table_regions (os : List Order) : (os.foldl State.takeOrder s).table.regions = s.table.regions := by
  induction os generalizing s with
  | nil => rfl
  | cons o rest ih => exact (ih _).trans (State.takeOrder_table_regions s o)
@[simp] theorem State.drainOrders_table_regions : s.drainOrders.table.regions = s.table.regions := by
  unfold State.drainOrders; simp [State.foldl_takeOrder_table_regions]
theorem State.foldl_takeOrder_table_granules (os : List Order) : (os.foldl State.takeOrder s).table.granules = s.table.granules := by
  induction os generalizing s with
  | nil => rfl
  | cons o rest ih => exact (ih _).trans (State.takeOrder_table_granules s o)
@[simp] theorem State.drainOrders_table_granules : s.drainOrders.table.granules = s.table.granules := by
  unfold State.drainOrders; simp [State.foldl_takeOrder_table_granules]
theorem State.foldl_takeOrder_table_sessions (os : List Order) : (os.foldl State.takeOrder s).table.sessions = s.table.sessions := by
  induction os generalizing s with
  | nil => rfl
  | cons o rest ih => exact (ih _).trans (State.takeOrder_table_sessions s o)
@[simp] theorem State.drainOrders_table_sessions : s.drainOrders.table.sessions = s.table.sessions := by
  unfold State.drainOrders; simp [State.foldl_takeOrder_table_sessions]
theorem State.foldl_takeOrder_table_quotas (os : List Order) : (os.foldl State.takeOrder s).table.quotas = s.table.quotas := by
  induction os generalizing s with
  | nil => rfl
  | cons o rest ih => exact (ih _).trans (State.takeOrder_table_quotas s o)
@[simp] theorem State.drainOrders_table_quotas : s.drainOrders.table.quotas = s.table.quotas := by
  unfold State.drainOrders; simp [State.foldl_takeOrder_table_quotas]
theorem State.foldl_takeOrder_table_quotaMode (os : List Order) : (os.foldl State.takeOrder s).table.quotaMode = s.table.quotaMode := by
  induction os generalizing s with
  | nil => rfl
  | cons o rest ih => exact (ih _).trans (State.takeOrder_table_quotaMode s o)
@[simp] theorem State.drainOrders_table_quotaMode : s.drainOrders.table.quotaMode = s.table.quotaMode := by
  unfold State.drainOrders; simp [State.foldl_takeOrder_table_quotaMode]
theorem State.foldl_takeOrder_table_pointer (os : List Order) : (os.foldl State.takeOrder s).table.pointer = s.table.pointer := by
  induction os generalizing s with
  | nil => rfl
  | cons o rest ih => exact (ih _).trans (State.takeOrder_table_pointer s o)
@[simp] theorem State.drainOrders_table_pointer : s.drainOrders.table.pointer = s.table.pointer := by
  unfold State.drainOrders; simp [State.foldl_takeOrder_table_pointer]
theorem State.foldl_takeOrder_table_expiryDue (os : List Order) : (os.foldl State.takeOrder s).table.expiryDue = s.table.expiryDue := by
  induction os generalizing s with
  | nil => rfl
  | cons o rest ih => exact (ih _).trans (State.takeOrder_table_expiryDue s o)
@[simp] theorem State.drainOrders_table_expiryDue : s.drainOrders.table.expiryDue = s.table.expiryDue := by
  unfold State.drainOrders; simp [State.foldl_takeOrder_table_expiryDue]
@[simp] theorem State.drainOrders_region (i' : Slot) : s.drainOrders.region i' = s.region i' :=
  congrArg (look · i') (State.drainOrders_table_regions s)
@[simp] theorem State.drainOrders_session (q' : Port) : s.drainOrders.session q' = s.session q' :=
  congrArg (look · q') (State.drainOrders_table_sessions s)
@[simp] theorem State.drainOrders_quota (q' : Port) : s.drainOrders.quota q' = s.quota q' :=
  congrArg (look · q') (State.drainOrders_table_quotas s)

/-! `State.enterScrubbing` -/

@[simp] theorem State.enterScrubbing_pins (i : Slot) : (s.enterScrubbing i).pins = s.pins := rfl
@[simp] theorem State.enterScrubbing_engine (i : Slot) : (s.enterScrubbing i).engine = s.engine := rfl
@[simp] theorem State.enterScrubbing_mem (i : Slot) : (s.enterScrubbing i).mem = s.mem := rfl
@[simp] theorem State.enterScrubbing_pending (i : Slot) : (s.enterScrubbing i).pending = s.pending := rfl
@[simp] theorem State.enterScrubbing_links (i : Slot) : (s.enterScrubbing i).links = s.links := rfl
@[simp] theorem State.enterScrubbing_chan_channels (i : Slot) : (s.enterScrubbing i).chan.channels = s.chan.channels := rfl
@[simp] theorem State.enterScrubbing_chan_orders (i : Slot) : (s.enterScrubbing i).chan.orders = s.chan.orders := rfl
@[simp] theorem State.enterScrubbing_chan_haltClaims (i : Slot) : (s.enterScrubbing i).chan.haltClaims = s.chan.haltClaims := rfl
@[simp] theorem State.enterScrubbing_chan_edgeClaims (i : Slot) : (s.enterScrubbing i).chan.edgeClaims = s.chan.edgeClaims := rfl
@[simp] theorem State.enterScrubbing_table_granules (i : Slot) : (s.enterScrubbing i).table.granules = s.table.granules := rfl
@[simp] theorem State.enterScrubbing_table_sessions (i : Slot) : (s.enterScrubbing i).table.sessions = s.table.sessions := rfl
@[simp] theorem State.enterScrubbing_table_quotaMode (i : Slot) : (s.enterScrubbing i).table.quotaMode = s.table.quotaMode := rfl
@[simp] theorem State.enterScrubbing_table_pointer (i : Slot) : (s.enterScrubbing i).table.pointer = s.table.pointer := rfl
@[simp] theorem State.enterScrubbing_table_notices (i : Slot) : (s.enterScrubbing i).table.notices = s.table.notices := rfl
@[simp] theorem State.enterScrubbing_table_expiryDue (i : Slot) : (s.enterScrubbing i).table.expiryDue = s.table.expiryDue := rfl
@[simp] theorem State.enterScrubbing_channel (i : Slot) (c' : Chan) : (s.enterScrubbing i).channel c' = s.channel c' :=
  congrArg (look · c') (State.enterScrubbing_chan_channels s i)
@[simp] theorem State.enterScrubbing_link (i : Slot) (q' : Port) : (s.enterScrubbing i).link q' = s.link q' :=
  congrArg (look · q') (State.enterScrubbing_links s i)
@[simp] theorem State.enterScrubbing_session (i : Slot) (q' : Port) : (s.enterScrubbing i).session q' = s.session q' :=
  congrArg (look · q') (State.enterScrubbing_table_sessions s i)

/-! `State.freeRegion` -/

@[simp] theorem State.freeRegion_pins (i : Slot) : (s.freeRegion i).pins = s.pins := by
  unfold State.freeRegion; simp only []; split_ifs <;> simp
@[simp] theorem State.freeRegion_engine (i : Slot) : (s.freeRegion i).engine = s.engine := by
  unfold State.freeRegion; simp only []; split_ifs <;> simp
@[simp] theorem State.freeRegion_mem (i : Slot) : (s.freeRegion i).mem = s.mem := by
  unfold State.freeRegion; simp only []; split_ifs <;> simp
@[simp] theorem State.freeRegion_pending (i : Slot) : (s.freeRegion i).pending = s.pending := by
  unfold State.freeRegion; simp only []; split_ifs <;> simp
@[simp] theorem State.freeRegion_chan_channels (i : Slot) : (s.freeRegion i).chan.channels = s.chan.channels := by
  unfold State.freeRegion; simp only []; split_ifs <;> simp
@[simp] theorem State.freeRegion_chan_haltClaims (i : Slot) : (s.freeRegion i).chan.haltClaims = s.chan.haltClaims := by
  unfold State.freeRegion; simp only []; split_ifs <;> simp
@[simp] theorem State.freeRegion_chan_edgeClaims (i : Slot) : (s.freeRegion i).chan.edgeClaims = s.chan.edgeClaims := by
  unfold State.freeRegion; simp only []; split_ifs <;> simp
@[simp] theorem State.freeRegion_table_granules (i : Slot) : (s.freeRegion i).table.granules = s.table.granules := by
  unfold State.freeRegion; simp only []; split_ifs <;> simp
@[simp] theorem State.freeRegion_table_sessions (i : Slot) : (s.freeRegion i).table.sessions = s.table.sessions := by
  unfold State.freeRegion; simp only []; split_ifs <;> simp
@[simp] theorem State.freeRegion_table_quotaMode (i : Slot) : (s.freeRegion i).table.quotaMode = s.table.quotaMode := by
  unfold State.freeRegion; simp only []; split_ifs <;> simp
@[simp] theorem State.freeRegion_table_pointer (i : Slot) : (s.freeRegion i).table.pointer = s.table.pointer := by
  unfold State.freeRegion; simp only []; split_ifs <;> simp
@[simp] theorem State.freeRegion_table_notices (i : Slot) : (s.freeRegion i).table.notices = s.table.notices := by
  unfold State.freeRegion; simp only []; split_ifs <;> simp
@[simp] theorem State.freeRegion_table_expiryDue (i : Slot) : (s.freeRegion i).table.expiryDue = s.table.expiryDue := by
  unfold State.freeRegion; simp only []; split_ifs <;> simp
@[simp] theorem State.freeRegion_channel (i : Slot) (c' : Chan) : (s.freeRegion i).channel c' = s.channel c' :=
  congrArg (look · c') (State.freeRegion_chan_channels s i)
@[simp] theorem State.freeRegion_session (i : Slot) (q' : Port) : (s.freeRegion i).session q' = s.session q' :=
  congrArg (look · q') (State.freeRegion_table_sessions s i)

/-! `State.settleClosing` -/

@[simp] theorem State.settleClosing_pins (p : Port) : (s.settleClosing p).pins = s.pins := by
  unfold State.settleClosing; split_ifs <;> rfl
@[simp] theorem State.settleClosing_engine (p : Port) : (s.settleClosing p).engine = s.engine := by
  unfold State.settleClosing; split_ifs <;> rfl
@[simp] theorem State.settleClosing_scrub (p : Port) : (s.settleClosing p).scrub = s.scrub := by
  unfold State.settleClosing; split_ifs <;> rfl
@[simp] theorem State.settleClosing_mem (p : Port) : (s.settleClosing p).mem = s.mem := by
  unfold State.settleClosing; split_ifs <;> rfl
@[simp] theorem State.settleClosing_pending (p : Port) : (s.settleClosing p).pending = s.pending := by
  unfold State.settleClosing; split_ifs <;> rfl
@[simp] theorem State.settleClosing_links (p : Port) : (s.settleClosing p).links = s.links := by
  unfold State.settleClosing; split_ifs <;> rfl
@[simp] theorem State.settleClosing_chan_channels (p : Port) : (s.settleClosing p).chan.channels = s.chan.channels := by
  unfold State.settleClosing; split_ifs <;> rfl
@[simp] theorem State.settleClosing_chan_orders (p : Port) : (s.settleClosing p).chan.orders = s.chan.orders := by
  unfold State.settleClosing; split_ifs <;> rfl
@[simp] theorem State.settleClosing_chan_haltClaims (p : Port) : (s.settleClosing p).chan.haltClaims = s.chan.haltClaims := by
  unfold State.settleClosing; split_ifs <;> rfl
@[simp] theorem State.settleClosing_chan_edgeClaims (p : Port) : (s.settleClosing p).chan.edgeClaims = s.chan.edgeClaims := by
  unfold State.settleClosing; split_ifs <;> rfl
@[simp] theorem State.settleClosing_table_regions (p : Port) : (s.settleClosing p).table.regions = s.table.regions := by
  unfold State.settleClosing; split_ifs <;> rfl
@[simp] theorem State.settleClosing_table_granules (p : Port) : (s.settleClosing p).table.granules = s.table.granules := by
  unfold State.settleClosing; split_ifs <;> rfl
@[simp] theorem State.settleClosing_table_quotas (p : Port) : (s.settleClosing p).table.quotas = s.table.quotas := by
  unfold State.settleClosing; split_ifs <;> rfl
@[simp] theorem State.settleClosing_table_quotaMode (p : Port) : (s.settleClosing p).table.quotaMode = s.table.quotaMode := by
  unfold State.settleClosing; split_ifs <;> rfl
@[simp] theorem State.settleClosing_table_pointer (p : Port) : (s.settleClosing p).table.pointer = s.table.pointer := by
  unfold State.settleClosing; split_ifs <;> rfl
@[simp] theorem State.settleClosing_table_notices (p : Port) : (s.settleClosing p).table.notices = s.table.notices := by
  unfold State.settleClosing; split_ifs <;> rfl
@[simp] theorem State.settleClosing_table_expiryDue (p : Port) : (s.settleClosing p).table.expiryDue = s.table.expiryDue := by
  unfold State.settleClosing; split_ifs <;> rfl
@[simp] theorem State.settleClosing_region (p : Port) (i' : Slot) : (s.settleClosing p).region i' = s.region i' :=
  congrArg (look · i') (State.settleClosing_table_regions s p)
@[simp] theorem State.settleClosing_channel (p : Port) (c' : Chan) : (s.settleClosing p).channel c' = s.channel c' :=
  congrArg (look · c') (State.settleClosing_chan_channels s p)
@[simp] theorem State.settleClosing_link (p : Port) (q' : Port) : (s.settleClosing p).link q' = s.link q' :=
  congrArg (look · q') (State.settleClosing_links s p)
@[simp] theorem State.settleClosing_quota (p : Port) (q' : Port) : (s.settleClosing p).quota q' = s.quota q' :=
  congrArg (look · q') (State.settleClosing_table_quotas s p)

end

end Sys2Proof.Machine
end

