-- ==== Sys2Proof/Laws/Commands.lean ====
section
/-! SUPPORT. Taking the head record of a command queue commutes with everything a command does, so that an accepted command is its
effect on the state from before the taking, with the record then taken and answered. -/

namespace Sys2Proof.Machine

section
variable (s : State) (p : Port)

@[simp] theorem State.popCommand_halted (q : Port) : (s.popCommand p).halted q = s.halted q := rfl
@[simp] theorem State.popCommand_heldClosed (q : Port) : (s.popCommand p).heldClosed q = s.heldClosed q := rfl
@[simp] theorem State.popCommand_pinnedCount (q : Port) : (s.popCommand p).pinnedCount q = s.pinnedCount q := rfl
@[simp] theorem State.popCommand_freeSlot : (s.popCommand p).freeSlot = s.freeSlot := rfl
@[simp] theorem State.popCommand_quotaAllows (q : Port) (n : Nat) :
    (s.popCommand p).quotaAllows q n = s.quotaAllows q n := rfl
@[simp] theorem State.popCommand_place (at' : Bool) (b n : Nat) : (s.popCommand p).place at' b n = s.place at' b n := rfl
@[simp] theorem State.popCommand_findLabel (l f : Nat) : (s.popCommand p).findLabel l f = s.findLabel l f := rfl
@[simp] theorem State.popCommand_scrubbingGranules : (s.popCommand p).scrubbingGranules = s.scrubbingGranules := rfl
@[simp] theorem State.popCommand_channelsWhere (f : Channel → Bool) :
    (s.popCommand p).channelsWhere f = s.channelsWhere f := rfl
@[simp] theorem State.popCommand_freedEvents (i : Slot) : (s.popCommand p).freedEvents i = s.freedEvents i := rfl
@[simp] theorem State.popCommand_leasable (c : Option Chan) : (s.popCommand p).leasable c = s.leasable c := rfl
@[simp] theorem State.popCommand_checkProgram (q : Port) (g : Program) :
    (s.popCommand p).checkProgram q g = s.checkProgram q g := rfl

@[simp] theorem State.popCommand_setRegion (i : Slot) (r : Region) :
    (s.popCommand p).setRegion i r = (s.setRegion i r).popCommand p := rfl
@[simp] theorem State.popCommand_setGranules (x : BitVec 4096) :
    (s.popCommand p).setGranules x = (s.setGranules x).popCommand p := rfl
@[simp] theorem State.popCommand_setQuota (q : Port) (x : Quota) :
    (s.popCommand p).setQuota q x = (s.setQuota q x).popCommand p := rfl
@[simp] theorem State.popCommand_setSession (q : Port) (x : Session) :
    (s.popCommand p).setSession q x = (s.setSession q x).popCommand p := rfl
@[simp] theorem State.popCommand_setChannel (c : Chan) (x : Channel) :
    (s.popCommand p).setChannel c x = (s.setChannel c x).popCommand p := rfl
@[simp] theorem State.popCommand_setScrub (x : ScrubUnit) :
    (s.popCommand p).setScrub x = (s.setScrub x).popCommand p := rfl
@[simp] theorem State.popCommand_setOrders (x : List (List Order)) :
    (s.popCommand p).setOrders x = (s.setOrders x).popCommand p := rfl
@[simp] theorem State.popCommand_notify (ns : List Notice) :
    (s.popCommand p).notify ns = (s.notify ns).popCommand p := rfl
@[simp] theorem State.popCommand_sendOrders (os : List Order) :
    (s.popCommand p).sendOrders os = (s.sendOrders os).popCommand p := by
  unfold State.sendOrders; split_ifs <;> rfl
@[simp] theorem State.popCommand_sendDiscards (k : DiscardCause) (h : Handle) (f : Channel → Bool) :
    (s.popCommand p).sendDiscards k h f = (s.sendDiscards k h f).popCommand p := by
  simp only [State.sendDiscards, State.popCommand_channelsWhere, State.popCommand_sendOrders]

@[simp] theorem State.popCommand_offerEvent (q : Port) (e : Event) :
    (s.popCommand p).offerEvent q e = (s.offerEvent q e).popCommand p := by
  unfold State.offerEvent
  by_cases hs : s.session q = .opened
  · rw [if_pos (show (s.popCommand p).session q = .opened from hs), if_pos hs]
    refine State.ext_pieces rfl (fun _ => rfl) rfl (fun _ => rfl) (fun _ => rfl) rfl rfl rfl rfl (fun _ => rfl) rfl rfl rfl
      rfl rfl (fun k => ?_) rfl rfl
    simp only [State.setLink_link, State.popCommand_link]
    by_cases h1 : q = k <;> by_cases h2 : p = k <;> by_cases h3 : p = q <;> simp_all
  · rw [if_neg (show ¬ (s.popCommand p).session q = .opened from hs), if_neg hs]

@[simp] theorem State.popCommand_offerEvents (es : List (Port × Event)) :
    (s.popCommand p).offerEvents es = (s.offerEvents es).popCommand p := by
  induction es generalizing s with
  | nil => rfl
  | cons e es ih => simp only [State.offerEvents, State.popCommand_offerEvent, ih]

@[simp] theorem State.popCommand_commit (c : Chan) (e : Effect) :
    (s.popCommand p).commit c e = (s.commit c e).popCommand p := by
  unfold State.commit
  simp only [State.popCommand_channel, State.popCommand_setChannel, State.popCommand_notify]
  cases (s.channel c).lessee <;> simp

@[simp] theorem State.popCommand_takeOrder (o : Order) : (s.popCommand p).takeOrder o = (s.takeOrder o).popCommand p := by
  simp only [State.takeOrder, State.popCommand_channel, State.popCommand_commit]

theorem State.popCommand_foldl_takeOrder (os : List Order) :
    os.foldl State.takeOrder (s.popCommand p) = (os.foldl State.takeOrder s).popCommand p := by
  induction os generalizing s with
  | nil => rfl
  | cons o os ih => simp only [List.foldl_cons, State.popCommand_takeOrder, ih]

@[simp] theorem State.popCommand_drainOrders : (s.popCommand p).drainOrders = s.drainOrders.popCommand p := by
  simp only [State.drainOrders, State.popCommand_chan, State.popCommand_setOrders, State.popCommand_foldl_takeOrder]

@[simp] theorem State.popCommand_enterScrubbing (i : Slot) :
    (s.popCommand p).enterScrubbing i = (s.enterScrubbing i).popCommand p := rfl
@[simp] theorem State.popCommand_freeRegion (i : Slot) :
    (s.popCommand p).freeRegion i = (s.freeRegion i).popCommand p := by
  unfold State.freeRegion
  simp only [State.popCommand_region, State.popCommand_handle, State.popCommand_freedEvents, State.popCommand_setRegion,
    State.popCommand_enterScrubbing, State.popCommand_offerEvents, State.popCommand_sendDiscards]
  split_ifs <;> rfl
@[simp] theorem State.popCommand_placeRegion (q : Port) (i : Slot) (b n l : Nat) :
    (s.popCommand p).placeRegion q i b n l = (s.placeRegion q i b n l).popCommand p := rfl
@[simp] theorem State.popCommand_clearOffer (i : Slot) : (s.popCommand p).clearOffer i = (s.clearOffer i).popCommand p := rfl
@[simp] theorem State.popCommand_setGrant (i : Slot) (q : Port) (x : Rights) :
    (s.popCommand p).setGrant i q x = (s.setGrant i q x).popCommand p := by
  simp only [State.setGrant, State.popCommand_region, State.popCommand_handle, State.popCommand_setRegion,
    State.popCommand_sendDiscards]
@[simp] theorem State.popCommand_moveQuota (a b : Port) (n : Nat) :
    (s.popCommand p).moveQuota a b n = (s.moveQuota a b n).popCommand p := rfl
@[simp] theorem State.popCommand_setLeases (q : Port) (n : Nat) :
    (s.popCommand p).setLeases q n = (s.setLeases q n).popCommand p := rfl
@[simp] theorem State.popCommand_addReference (i : Slot) :
    (s.popCommand p).addReference i = (s.addReference i).popCommand p := rfl
@[simp] theorem State.popCommand_dropReference (h : Handle) :
    (s.popCommand p).dropReference h = (s.dropReference h).popCommand p := by
  unfold State.dropReference; cases h.slot? <;> rfl
@[simp] theorem State.popCommand_dropProgram (g : Option Program) :
    (s.popCommand p).dropProgram g = (s.dropProgram g).popCommand p := by
  unfold State.dropProgram; cases g <;> simp
@[simp] theorem State.popCommand_install (c : Chan) (g : Program) (i j : Slot) :
    (s.popCommand p).install c g i j = (s.install c g i j).popCommand p := by
  simp only [State.install, State.popCommand_channel, State.popCommand_addReference, State.popCommand_dropProgram,
    State.popCommand_setChannel]

end

/-- A command of an OPEN port at its turn that is answered without any other change. -/
theorem State.command_refused {s : State} {p : Port} {op tag : Byte} {args : List Byte} (h : s.servesOpen p op tag args)
    {n : Nat} (hn : args.length = n) {body : List Byte → State → State × Option Reply} {code : ResultCode}
    (hb : body args (s.popCommand p) = (s.popCommand p).refuse code) :
    s.command p op n body = .next (s.served p op tag code []) := by
  rw [State.command_of_servesOpen h hn, hb]
  simp only [State.refuse, State.popCommand_answer]

/-- A command of an OPEN port at its turn that is accepted: its effect, with the record taken and answered. -/
theorem State.command_accepted {s : State} {p : Port} {op tag : Byte} {args : List Byte} (h : s.servesOpen p op tag args)
    {n : Nat} (hn : args.length = n) {body : List Byte → State → State × Option Reply} {t : State} {code : ResultCode}
    {payload : List Byte} (hb : body args (s.popCommand p) = (t.popCommand p, some { code, payload })) :
    s.command p op n body = .next (t.served p op tag code payload) := by
  rw [State.command_of_servesOpen h hn, hb]
  simp only [State.popCommand_answer]

end Sys2Proof.Machine
end

