-- ==== Sys2Proof/Laws/Operands.lean ====
section
/-! SUPPORT. The byte layouts of chapter 11, field by field: which bytes each decoding function accepts, and that it reads
what the encoding writes. -/

namespace Sys2Proof.Machine

theorem handleAt_cons (g i : Byte) (rest : List Byte) : handleAt (g :: i :: rest) 0 = { gen := g, slot := i } := rfl

theorem byteAt_zero (b : Byte) (rest : List Byte) : byteAt (b :: rest) 0 = b := rfl

theorem byteAt_append (r : List Byte) (b : Byte) (k : Nat) (h : k < r.length) : byteAt (r ++ [b]) k = byteAt r k := by
  unfold byteAt; rw [List.getD_eq_getElem?_getD, List.getD_eq_getElem?_getD, List.getElem?_append_left h]

theorem portOf_none {b : Byte} (h : 4 ≤ b.toNat) : portOf b = none := by simp [portOf, h]

theorem portOf_some {b : Byte} {q : Port} (h : b.toNat = q.val) : portOf b = some q := by
  have := q.isLt
  unfold portOf
  rw [dif_pos (by omega)]
  congr 1; exact Fin.ext h

theorem chanOf_none {b : Byte} (h : 16 ≤ b.toNat) : chanOf b = none := by simp [chanOf, h]

theorem chanOf_some {b : Byte} {c : Chan} (h : b.toNat = c.val) : chanOf b = some c := by
  have := c.isLt
  unfold chanOf
  rw [dif_pos (by omega)]
  congr 1; exact Fin.ext h

theorem rightsOf_none {b : Byte} (h : 4 ≤ b.toNat) : rightsOf b = none := by
  revert h; revert b; decide

theorem rightsOf_code (r : Rights) : rightsOf r.code = some r := by cases r <;> rfl

theorem settingOf_none (a : Byte) (h : 2 ≤ a.toNat) : settingOf a = none := by
  unfold settingOf
  rw [if_neg, if_neg] <;> rintro rfl <;> exact absurd h (by decide)

theorem settingOf_some (a : Byte) (h : a.toNat < 2) : settingOf a = some (a == 1) := by
  have : a = 0 ∨ a = 1 := by
    rcases (show a.toNat = 0 ∨ a.toNat = 1 by omega) with h | h
    · exact Or.inl (BitVec.eq_of_toNat_eq h)
    · exact Or.inr (BitVec.eq_of_toNat_eq h)
  rcases this with rfl | rfl <;> rfl

theorem byte_eq_iff {b : Byte} {k : Nat} (hk : k < 256) : b = BitVec.ofNat 8 k ↔ b.toNat = k := by
  constructor
  · rintro rfl; simp [Nat.mod_eq_of_lt hk]
  · intro h; apply BitVec.eq_of_toNat_eq; simp [h, Nat.mod_eq_of_lt hk]

theorem unitOf_ex (b : Byte) : (∃ x, unitOf b = some x) ↔ b.toNat = 1 ∨ b.toNat = 2 ∨ b.toNat = 4 ∨ b.toNat = 8 := by
  rw [← Option.isSome_iff_exists]; revert b; decide

theorem stepOf_ex (b : Byte) : (∃ x, stepOf b = some x) ↔ b.toNat ≤ 2 :=
    by rw [← Option.isSome_iff_exists]; revert b; decide

theorem senseOf_ex (b : Byte) : (∃ x, senseOf b = some x) ↔ b.toNat ≤ 3 :=
    by rw [← Option.isSome_iff_exists]; revert b; decide

theorem policyOf_ex (b : Byte) : (∃ x, policyOf b = some x) ↔ b.toNat ≤ 1 :=
    by rw [← Option.isSome_iff_exists]; revert b; decide

theorem blockSideOf_ex (b : Byte) : (∃ x, blockSideOf b = some x) ↔ b.toNat ≤ 1 :=
    by rw [← Option.isSome_iff_exists]; revert b; decide

theorem pacingOf_ex (b : Byte) : (∃ x, pacingOf b = some x) ↔ b.toNat ≤ 1 :=
    by rw [← Option.isSome_iff_exists]; revert b; decide

theorem chainOf_ex (b : Byte) : (∃ x, chainOf b = some x) ↔ b.toNat ≤ 15 ∨ b.toNat = 255 :=
    by rw [← Option.isSome_iff_exists]; revert b; decide

theorem chainOf_none (b : Byte) : chainOf b = some none ↔ b.toNat = 255 := by revert b; decide

theorem activationOf_ex (a l s : Byte) : (∃ x, activationOf a l s = some x) ↔
    a.toNat ≤ 1 ∧ (a.toNat = 1 → l.toNat ≤ 7 ∧ s.toNat ≤ 3) := by
  unfold activationOf
  have e0 : a = 0 ↔ a.toNat = 0 := byte_eq_iff (by decide)
  have e1 : a = 1 ↔ a.toNat = 1 := byte_eq_iff (by decide)
  by_cases h0 : a = 0
  · simp [h0]
  · rw [if_neg h0]
    by_cases h1 : a = 1
    · rw [if_pos h1]
      by_cases hl : l.toNat < 8
      · rw [dif_pos hl]
        have := senseOf_ex s
        simp only [Option.map_eq_some_iff]
        rw [e1] at h1
        constructor
        · rintro ⟨x, y, hy, -⟩; exact ⟨by omega, fun _ => ⟨by omega, this.1 ⟨y, hy⟩⟩⟩
        · rintro ⟨-, h⟩; obtain ⟨y, hy⟩ := this.2 (h h1).2; exact ⟨_, y, hy, rfl⟩
      · rw [dif_neg hl]
        rw [e1] at h1
        simp [h1]; intro h; omega
    · rw [if_neg h1]; rw [e0] at h0; rw [e1] at h1; simp; intro h; omega

theorem sideOf_ex (r : List Byte) (k : Nat) : (∃ x, sideOf r k = some x) ↔
    (byteAt r (k + 5)).toNat ≤ 2 ∧ tripleAt r (k + 2) ≤ 262143 := by
  unfold sideOf
  have := stepOf_ex (byteAt r (k + 5))
  cases h : stepOf (byteAt r (k + 5)) with
  | none => rw [h] at this; simp at this; simp; omega
  | some x =>
    have h2 := this.1 ⟨x, h⟩
    simp only [h2, true_and]
    have hm : memoryBytes = 262144 := rfl
    by_cases hx : tripleAt r (k + 2) < memoryBytes
    · rw [if_pos hx]; simp; omega
    · rw [if_neg hx]; simp; omega

def pacedOf (r : List Byte) : Option (Activation × Policy) :=
    match activationOf (byteAt r 22) (byteAt r 23) (byteAt r 24), policyOf (byteAt r 25) with
    | some a, some p => some (a, p)
    | _, _ => none

theorem pacedOf_ex (r : List Byte) : (∃ x, pacedOf r = some x) ↔
    ((byteAt r 22).toNat ≤ 1 ∧ ((byteAt r 22).toNat = 1 → (byteAt r 23).toNat ≤ 7 ∧ (byteAt r 24).toNat ≤ 3) ∧
        (byteAt r 25).toNat ≤ 1) := by
  unfold pacedOf
  have h1 := activationOf_ex (byteAt r 22) (byteAt r 23) (byteAt r 24)
  have h2 := policyOf_ex (byteAt r 25)
  cases a : activationOf (byteAt r 22) (byteAt r 23) (byteAt r 24) <;> cases b : policyOf (byteAt r 25) <;> simp_all

theorem modeOf_eq (r : List Byte) : modeOf r =
  if byteAt r 0 = 0 then (pacedOf r).map fun x => .single x.1 x.2
  else if byteAt r 0 = 1 then (pacedOf r).map fun x => .cyclic x.1 x.2
  else if byteAt r 0 = 2 then
    match pacedOf r, blockSideOf (byteAt r 21) with
    | some x, some side =>
      if 1 ≤ wordAt r 19 ∧ wordAt r 19 ≤ 256 then some (.block x.1 x.2 (wordAt r 19) side) else none
    | _, _ => none
  else if byteAt r 0 = 3 then (pacingOf (byteAt r 1)).map fun x => .sweep x
  else none := rfl

theorem modeOf_ex (r : List Byte) : (∃ m, modeOf r = some m) ↔
    (byteAt r 0).toNat ≤ 3 ∧ ((byteAt r 0).toNat ≠ 3 → (∃ x, pacedOf r = some x)) ∧ ((byteAt r 0).toNat = 3 →
        (byteAt r 1).toNat ≤ 1) ∧
    ((byteAt r 0).toNat = 2 → 1 ≤ wordAt r 19 ∧ wordAt r 19 ≤ 256 ∧ (byteAt r 21).toNat ≤ 1) := by
  rw [modeOf_eq]
  have e0 : byteAt r 0 = 0 ↔ (byteAt r 0).toNat = 0 := byte_eq_iff (by decide)
  have e1 : byteAt r 0 = 1 ↔ (byteAt r 0).toNat = 1 := byte_eq_iff (by decide)
  have e2 : byteAt r 0 = 2 ↔ (byteAt r 0).toNat = 2 := byte_eq_iff (by decide)
  have e3 : byteAt r 0 = 3 ↔ (byteAt r 0).toNat = 3 := byte_eq_iff (by decide)
  by_cases h0 : byteAt r 0 = 0
  · rw [if_pos h0]; rw [e0] at h0; cases pacedOf r <;> simp [h0]
  · rw [if_neg h0]; rw [e0] at h0
    by_cases h1 : byteAt r 0 = 1
    · rw [if_pos h1]; rw [e1] at h1; cases pacedOf r <;> simp [h1]
    · rw [if_neg h1]; rw [e1] at h1
      by_cases h2 : byteAt r 0 = 2
      · rw [if_pos h2]; rw [e2] at h2
        have := blockSideOf_ex (byteAt r 21)
        cases pacedOf r with
        | none => simp [h2]
        | some x =>
          cases hb : blockSideOf (byteAt r 21) with
          | none => simp [hb] at this; simp [h2]; omega
          | some sd =>
            have := this.1 ⟨_, hb⟩
            simp only [h2]
            split_ifs <;> simp <;> omega
      · rw [if_neg h2]; rw [e2] at h2
        by_cases h3 : byteAt r 0 = 3
        · rw [if_pos h3]; rw [e3] at h3
          have := pacingOf_ex (byteAt r 1)
          cases hb : pacingOf (byteAt r 1) with
          | none => simp [hb] at this; simp [h3]; omega
          | some sd => have := this.1 ⟨_, hb⟩; simp [h3]; omega
        · rw [if_neg h3]; rw [e3] at h3; simp; omega

theorem modeOf_cyclic {r : List Byte} {m : Mode} (h : modeOf r = some m) : m.isCyclic = true ↔ (byteAt r 0).toNat = 1 := by
  rw [modeOf_eq] at h
  have e1 : byteAt r 0 = 1 ↔ (byteAt r 0).toNat = 1 := byte_eq_iff (by decide)
  rw [← e1]
  split_ifs at h with h0 h1 h2 h3
  · obtain ⟨x, _, rfl⟩ := Option.map_eq_some_iff.1 h; simp [Mode.isCyclic, h0]
  · obtain ⟨x, _, rfl⟩ := Option.map_eq_some_iff.1 h; simp [Mode.isCyclic, h1]
  · cases hp : pacedOf r <;> cases hb : blockSideOf (byteAt r 21) <;> simp [hp, hb] at h
    subst h; simp [Mode.isCyclic, h2]
  · cases hp : pacedOf r <;> cases hb : blockSideOf (byteAt r 21) <;> simp [hp, hb] at h
  · obtain ⟨x, _, rfl⟩ := Option.map_eq_some_iff.1 h
    simp only [Mode.isCyclic, Bool.false_eq_true, false_iff]
    exact h1

theorem byteOf_toNat (n : Nat) : (byteOf n).toNat = n % 256 := by simp [byteOf]

theorem chainOf_chan (c : Chan) : chainOf (chanByte c) = some (some c) := by revert c; decide

theorem unitOf_bytes (u : UnitSize) : unitOf (byteOf u.bytes) = some u := by cases u <;> rfl

theorem stepOf_code (u : OffsetStep) : stepOf u.code = some u := by cases u <;> rfl

theorem senseOf_code (u : Sense) : senseOf u.code = some u := by cases u <;> rfl

theorem policyOf_code (u : Policy) : policyOf u.code = some u := by cases u <;> rfl

theorem blockSideOf_code (u : BlockSide) : blockSideOf u.code = some u := by cases u <;> rfl

theorem pacingOf_code (u : Pacing) : pacingOf u.code = some u := by cases u <;> rfl

theorem notifyOf_flag (n : NotifySet) : notifyOf (flagByte [n.done, n.wrap, n.stop]) = n := by
  obtain ⟨a, b, c⟩ := n; cases a <;> cases b <;> cases c <;> rfl

theorem activationOf_line (l : Line) (s : Sense) : activationOf 1 (byteOf l.val) s.code = some (.line l s) := by
  revert l; cases s <;> decide

end Sys2Proof.Machine
end

