-- ==== Sys2Proof/Laws/Channels.lean ====
section
/-! SUPPORT. What the shared operations of the channel controller do: a lessee's command, the installing of a program, a claim
at one channel and at several, activations, stop requests, the taking of an order, and the arbiter's questions. -/

namespace Sys2Proof.Machine

/-- A lessee's command at its turn is its body, behind the orders sent before (R61, R62). -/
theorem State.lesseeCommand_of_serves {s u : State} {p : Port} {op tag b : Byte} {rest : List Byte} {c : Chan} {x : Channel}
    (h : s.servesLessee p op tag b rest c u x) {n : Nat} (hn : rest.length + 1 = n)
    (body : List Byte → Chan → State → State × Option Reply) :
    s.lesseeCommand p op n body =
      match body (b :: rest) c (u.popCommand p) with
      | (t, none) => .next t
      | (t, some y) => .next (t.answer p { opcode := op, tag, args := b :: rest } y) := by
  obtain ⟨h1, h2, rfl, rfl, h3⟩ := h
  unfold State.lesseeCommand
  rw [State.command_of_servesOpen h1 (by simpa using hn)]
  simp only [byteAt_zero, chanOf_some h2, State.popCommand_drainOrders]
  rw [if_neg (show ¬ ((s.drainOrders.popCommand p).channel c).lessee ≠ some p from not_not.2 h3)] <;> rfl

theorem State.lesseeCommand_refused {s u : State} {p : Port} {op tag b : Byte} {rest : List Byte} {c : Chan} {x : Channel}
    (h : s.servesLessee p op tag b rest c u x) {n : Nat} (hn : rest.length + 1 = n)
    {body : List Byte → Chan → State → State × Option Reply} {code : ResultCode}
    (hb : body (b :: rest) c (u.popCommand p) = (u.popCommand p).refuse code) :
    s.lesseeCommand p op n body = .next (u.served p op tag code []) := by
  rw [State.lesseeCommand_of_serves h hn, hb]
  simp only [State.refuse, State.popCommand_answer]

theorem State.lesseeCommand_accepted {s u : State} {p : Port} {op tag b : Byte} {rest : List Byte} {c : Chan} {x : Channel}
    (h : s.servesLessee p op tag b rest c u x) {n : Nat} (hn : rest.length + 1 = n)
    {body : List Byte → Chan → State → State × Option Reply} {t : State} {payload : List Byte}
    (hb : body (b :: rest) c (u.popCommand p) = (t.popCommand p).accepted payload) :
    s.lesseeCommand p op n body = .next (t.served p op tag .ok payload) := by
  rw [State.lesseeCommand_of_serves h hn, hb]
  simp only [State.accepted, State.popCommand_answer]

theorem State.lesseeCommand_notLessee {s : State} {p : Port} {op tag b : Byte} {rest : List Byte} {c : Chan}
    (h1 : s.servesOpen p op tag (b :: rest)) {n : Nat} (hn : rest.length + 1 = n) (h2 : b.toNat = c.val)
    (h3 : (s.drainOrders.channel c).lessee ≠ some p)
    (body : List Byte → Chan → State → State × Option Reply) :
    s.lesseeCommand p op n body = .next (s.drainOrders.served p op tag .notLessee []) := by
  unfold State.lesseeCommand
  rw [State.command_of_servesOpen h1 (by simpa using hn)]
  simp only [byteAt_zero, chanOf_some h2, State.popCommand_drainOrders]
  rw [if_pos (show ((s.drainOrders.popCommand p).channel c).lessee ≠ some p from h3)]
  simp only [State.refuse, State.popCommand_answer]

theorem State.install_regions (s : State) (c : Chan) (g : Program) (i j : Slot) (hi : g.source.handle.slot? = some i) (hj :
    g.dest.handle.slot? = some j) :
   ∃ t : State, s.install c g i j =
       t.setChannel c { s.channel c with state := .programmed, program := some g, run := g.initialRun false } ∧
     t = { s with table := { s.table with regions := t.table.regions } } ∧
     ∀ k, t.region k = { s.region k with refs := (s.region k).refs + g.sidesOn k - ((s.channel c).program.map fun old => old.sidesOn k).getD 0 } := by
  refine ⟨((s.addReference i).addReference j).dropProgram (s.channel c).program, rfl, ?_, ?_⟩
  · cases (s.channel c).program with
    | none => rfl
    | some o =>
      simp only [State.dropProgram, State.dropReference]
      cases o.source.handle.slot? <;> cases o.dest.handle.slot? <;> rfl
  · intro k
    have e : ∀ k, ((s.addReference i).addReference j).region k = { s.region k with refs := (s.region k).refs + g.sidesOn k }
        := by
      intro k
      simp only [State.addReference, State.setRegion_region, Program.sidesOn, hi, hj, Option.some.injEq]
      by_cases h1 : i = k <;> by_cases h2 : j = k <;> by_cases h3 : i = j <;> simp_all
    cases (s.channel c).program with
    | none => simp only [State.dropProgram, e]; rfl
    | some o =>
      have d : ∀ (t : State) (h : Handle) k, (t.dropReference h).region k =
          { t.region k with refs := (t.region k).refs - if h.slot? = some k then 1 else 0 } := by
        intro t h k
        unfold State.dropReference
        cases hs : h.slot? with
        | none => simp
        | some x => simp only [State.setRegion_region, Option.some.injEq]; by_cases hx : x = k <;> simp [hx]
      simp only [State.dropProgram, d, e, Option.map_some, Option.getD_some]
      rw [Nat.sub_sub, Nat.sub_add_eq]
      simp only [Program.sidesOn]
      congr 1
      omega

theorem State.commit_keep {s : State} {c : Chan} {x : Channel} : s.commit c (Effect.keep x) = s.setChannel c x := by
  unfold State.commit Effect.keep
  simp only [State.notify, List.append_nil, List.map_nil]
  have : (s.setChannel c x).setNotices s.table.notices = s.setChannel c x := rfl
  cases (s.channel c).lessee <;> simp [this, State.offerEvents]

theorem State.commit_without_notices {s : State} {c : Chan} {y : Channel} {es : List Event} {p : Port} (h :
    (s.channel c).lessee = some p) :
    s.commit c { channel := y, events := es, notices := [] } = (s.setChannel c y).offerEvents (es.map fun e => (p, e)) := by
  unfold State.commit
  simp only [h]
  congr 1
  unfold State.notify
  simp only [List.append_nil]
  rfl

/-- A claim at a leased channel: the record, the notices, and the events for the lessee (R61). -/
theorem State.commit_leased {s : State} {c : Chan} {p : Port} (h : (s.channel c).lessee = some p) (e : Effect) :
    s.commit c e = ((s.setChannel c e.channel).setNotices (s.table.notices ++ e.notices)).offerEvents (e.events.map fun ev => (p, ev)) := by
  unfold State.commit; simp only [h]; rfl

theorem State.eventsAfter_nil (s : State) (p : Port) : s.eventsAfter p [] = (s.link p).events := by
  unfold State.eventsAfter; split_ifs <;> rfl

theorem State.offerEvent_link_eq (s : State) (p q : Port) (e : Event) :
    (s.offerEvent p e).link q = { s.link q with events := s.eventsAfter q (if p = q then [e] else []) } := by
  unfold State.offerEvent State.eventsAfter
  by_cases hpq : p = q
  · subst hpq; by_cases h : s.session p = .opened <;> simp [h]
  · by_cases h : s.session p = .opened <;> by_cases h2 : s.session q = .opened <;> simp [h, h2, hpq]

theorem State.eventsAfter_append (s t : State) (p : Port) (a b : List Event) (hs : t.session p = s.session p)
   (hl : (t.link p).events = s.eventsAfter p a) : t.eventsAfter p b = s.eventsAfter p (a ++ b) := by
  unfold State.eventsAfter at *
  rw [hs]
  by_cases h : s.session p = .opened
  · simp only [h, if_true] at *; rw [hl, List.foldl_append]
  · simp only [h, if_false] at *; exact hl

theorem State.offerEvents_link_eq (s : State) (es : List (Port × Event)) (q : Port) :
    (s.offerEvents es).link q = { s.link q with events := s.eventsAfter q ((es.filter fun e => e.1 = q).map Prod.snd) } :=
        by
  induction es generalizing s with
  | nil => simp [State.offerEvents, State.eventsAfter_nil]
  | cons e es ih =>
    obtain ⟨p, e⟩ := e
    simp only [State.offerEvents]
    rw [ih, State.offerEvent_link_eq]
    simp only
    rw [State.eventsAfter_append s _ q (if p = q then [e] else []) _ (by simp) (by rw [State.offerEvent_link_eq])]
    by_cases hpq : p = q <;> simp [hpq]

/-- What the links show of a claim at one channel: its events at the lessee's. -/
theorem State.commit_link_eq (s : State) (c : Chan) (e : Effect) (q : Port) :
    (s.commit c e).link q =
        { s.link q with events := s.eventsAfter q (if (s.channel c).lessee = some q then e.events else []) } := by
  unfold State.commit
  cases h : (s.channel c).lessee with
  | none => simp [State.eventsAfter_nil]
  | some p =>
    simp only
    rw [State.offerEvents_link_eq]
    simp only [State.notify_link, State.setChannel_link, Option.some.injEq]
    have : ∀ es, ((s.setChannel c e.channel).notify e.notices).eventsAfter q es = s.eventsAfter q es := fun _ => rfl
    rw [this]
    by_cases hpq : p = q
    · simp [hpq, List.filter_map, Function.comp_def]
    · simp [hpq, List.filter_map, Function.comp_def]

theorem State.commit_channel_eq (s : State) (c d : Chan) (e : Effect) : (s.commit c e).channel d = if c =
    d then e.channel else s.channel d := by
  unfold State.commit; cases (s.channel c).lessee <;> simp

theorem State.commit_notices_eq (s : State) (c : Chan) (e : Effect) : (s.commit c e).table.notices =
    s.table.notices ++ e.notices := by
  unfold State.commit; cases (s.channel c).lessee <;> simp

structure SameButChannelsAndEvents (s t : State) : Prop where
  pins : t.pins = s.pins
  table : t.table = s.table
  engine : t.engine = s.engine
  scrub : t.scrub = s.scrub
  mem : t.mem = s.mem
  pending : t.pending = s.pending
  orders : t.chan.orders = s.chan.orders
  halts : t.chan.haltClaims = s.chan.haltClaims
  edges : t.chan.edgeClaims = s.chan.edgeClaims

theorem State.commit_keeps_the_rest (s : State) (c : Chan) (e : Effect) (h : e.notices = []) :
    SameButChannelsAndEvents s (s.commit c e) := by
  refine ⟨by simp, ?_, by simp, by simp, by simp, by simp, by simp, by simp, by simp⟩
  have := State.commit_notices_eq s c e
  rw [h, List.append_nil] at this
  have h1 : (s.commit c e).table.regions = s.table.regions := by simp
  have h2 : (s.commit c e).table.granules = s.table.granules := by simp
  have h3 : (s.commit c e).table.sessions = s.table.sessions := by simp
  have h4 : (s.commit c e).table.quotas = s.table.quotas := by simp
  have h5 : (s.commit c e).table.quotaMode = s.table.quotaMode := by simp
  have h6 : (s.commit c e).table.pointer = s.table.pointer := by simp
  have h7 : (s.commit c e).table.expiryDue = s.table.expiryDue := by simp
  revert this h1 h2 h3 h4 h5 h6 h7
  generalize (s.commit c e).table = t
  generalize s.table = t'
  obtain ⟨⟩ := t; obtain ⟨⟩ := t'
  simp only
  rintro rfl rfl rfl rfl rfl rfl rfl rfl; rfl

theorem State.foldl_commit (f : Chan → Channel → Effect) (hf : ∀ c x, (f c x).notices = []) (hl : ∀ c x,
    (f c x).channel.lessee = x.lessee)
    (L : List Chan) (hL : L.Nodup) (s : State) :
    let t := L.foldl (fun t c => t.commit c (f c (t.channel c))) s
    SameButChannelsAndEvents s t ∧ (∀ c, t.channel c = if c ∈ L then (f c (s.channel c)).channel else s.channel c) ∧
    ∀ q, t.link q = { s.link q with events := s.eventsAfter q ((L.filter fun c => (s.channel c).lessee = some q).flatMap fun c => (f c (s.channel c)).events) } := by
  induction L generalizing s with
  | nil => exact ⟨⟨rfl, rfl, rfl, rfl, rfl, rfl, rfl, rfl, rfl⟩, fun c => by simp, fun q => by simp [State.eventsAfter_nil]⟩
  | cons a L ih =>
    rw [List.nodup_cons] at hL
    have ih := ih hL.2 (s.commit a (f a (s.channel a)))
    have h1 := State.commit_keeps_the_rest s a (f a (s.channel a)) (hf _ _)
    have hch : ∀ c, c ∈ L → (s.commit a (f a (s.channel a))).channel c = s.channel c := by
      intro c hc; rw [State.commit_channel_eq, if_neg]; rintro rfl; exact hL.1 hc
    simp only [List.foldl_cons]
    refine ⟨?_, ?_, ?_⟩
    · obtain ⟨h2, -, -⟩ := ih
      exact ⟨h2.1.trans h1.1, h2.2.trans h1.2, h2.3.trans h1.3, h2.4.trans h1.4, h2.5.trans h1.5, h2.6.trans h1.6,
          h2.7.trans h1.7, h2.8.trans h1.8, h2.9.trans h1.9⟩
    · intro c
      rw [ih.2.1 c]
      by_cases hc : c ∈ L
      · simp [hc, hch c hc]
      · rw [if_neg hc, State.commit_channel_eq]
        by_cases hac : a = c
        · subst hac; simp
        · have : ¬ c = a := fun h => hac h.symm
          simp [hac, hc, this]
    · intro q
      rw [ih.2.2 q, State.commit_link_eq]
      simp only
      rw [State.eventsAfter_append s _ q (if (s.channel a).lessee =
          some q then (f a (s.channel a)).events else []) _ (by simp)
        (by rw [State.commit_link_eq])]
      have e1 : (L.filter fun c => ((s.commit a (f a (s.channel a))).channel c).lessee = some q) =
          L.filter fun c => (s.channel c).lessee = some q := by
        apply List.filter_congr
        intro c hc; rw [hch c hc]
      have e2 : ((L.filter fun c => (s.channel c).lessee =
          some q).flatMap fun c => (f c ((s.commit a (f a (s.channel a))).channel c)).events) = 
          ((L.filter fun c => (s.channel c).lessee = some q).flatMap fun c => (f c (s.channel c)).events) := by
        rw [List.flatMap_congr]
        intro c hc
        rw [hch c (List.mem_filter.1 hc).1]
      rw [e1, e2]
      by_cases ha : (s.channel a).lessee = some q <;> simp [ha]

theorem State.setOrders_commit (s : State) (os) (c : Chan) (e : Effect) : (s.commit c e).setOrders os =
    (s.setOrders os).commit c e := by
  refine State.ext_pieces (by simp) (by simp) (by simp) (by simp) (by simp) (by simp) (by simp)
      (by simp [State.commit_notices_eq]) (by simp) (by simp [State.commit_channel_eq]) (by simp) (by simp) (by simp)
      (by simp) (by simp) (fun p => ?_) (by simp) (by simp)
  rw [State.setOrders_link, State.commit_link_eq, State.commit_link_eq]; rfl

theorem arrange_nodup {α : Type} [DecidableEq α] (o a : List α) (h : a.Nodup) : (arrange o a).Nodup := by
  unfold arrange
  rw [List.nodup_append]
  refine ⟨(List.nodup_dedup _).filter _, h.filter _, ?_⟩
  intro x hx y hy hxy
  subst hxy
  simp at hx hy
  exact hy.2 hx.1

theorem arrange_mem {α : Type} [DecidableEq α] (o a : List α) (x : α) : x ∈ arrange o a ↔ x ∈ a := by
  unfold arrange; simp; tauto

theorem State.channelsWhere_nodup (s : State) (f) : (s.channelsWhere f).Nodup := (List.nodup_finRange 16).filter _

theorem State.channelsWhere_mem (s : State) (f) (c) : c ∈ s.channelsWhere f ↔ f (s.channel c) = true :=
    by simp [State.channelsWhere, indices]

theorem Channel.record_eq (x : Channel) (q : Request) : x.record q = x.recording q := by
  unfold Channel.record Channel.recording
  cases h : x.recorded with
  | none => simp
  | some old => 
    simp only [Option.mem_def, Option.some.injEq, forall_eq']
    split_ifs <;> simp [← h]

theorem makeRequest_suspend_keeps (c : Chan) (x : Channel) (cause) : (makeRequest c x (.suspend cause)).channel.lessee =
    x.lessee ∧ (makeRequest c x (.suspend cause)).notices = [] := by
  unfold makeRequest Channel.record
  split_ifs <;> (try split) <;> (try split_ifs) <;> exact ⟨rfl, rfl⟩

theorem makeRequest_abort_keeps (c : Chan) (x : Channel) (cause) : (makeRequest c x (.abort cause)).channel.lessee =
    x.lessee ∧ (makeRequest c x (.abort cause)).notices = [] := by
  unfold makeRequest Channel.record
  split_ifs <;> (try split) <;> (try split_ifs) <;> exact ⟨rfl, rfl⟩

theorem activate_spec {c : Chan} {x : Channel} {g : Program} {policy : Policy} (h1 : x.state = .armed ∨ x.state = .running)
    (hg : x.program = some g) (hp : g.mode.policy = some policy) :
    (x.overruns policy → activate c x =
        ({ channel := x.activated policy, events := [.channelStopped c .overrun false], notices := [] }, .stopping)) ∧
    (¬ x.overruns policy → activate c x = (Effect.keep (x.activated policy), if x.run.latch =
        false then .latched else if policy = .merge then .merged else .stopping)) := by
  have happ : (Request.abort .overrun).appliesTo x = true := by rcases h1 with h1 | h1 <;> simp [Request.appliesTo, h1]
  unfold Channel.overruns activate Channel.activated
  cases hl : x.run.latch with
  | false => simp [Effect.keep]
  | true =>
    cases policy with
    | merge => simp [hg, hp]
    | stop =>
      cases hf : x.run.unitInFlight with
      | true => simp [hg, hp, makeRequest, happ, hf, Channel.record_eq]
      | false =>
        simp [hg, hp, makeRequest, happ, hf, applyRequest, applyAbort, Channel.stopped, Channel.stoppedWith,
            AbortCause.outcome]

theorem activate_keeps (c : Chan) (x : Channel) : (activate c x).1.channel.lessee = x.lessee ∧ (activate c x).1.notices = []
    := by
  unfold activate
  split_ifs
  · exact ⟨rfl, rfl⟩
  · split
    · exact makeRequest_abort_keeps _ _ _
    · exact ⟨rfl, rfl⟩

theorem Channel.notifiesStop_iff (x : Channel) : x.notifiesStop = true ↔ ∃ g ∈ x.program, g.notify.stop = true := by
  unfold Channel.notifiesStop; cases x.program <;> simp

theorem makeRequest_suspend_now {c : Chan} {x : Channel} {cause : SuspendCause} (h2 : x.state = .armed ∨ x.state = .running)
    (h3 : x.run.unitInFlight = false) : makeRequest c x (.suspend cause) =
      { channel := x.suspendedWith cause, events := if x.notifiesStop then [.channelSuspended c cause] else [], notices := [] } := by
  have happ : (Request.suspend cause).appliesTo x = true := by rcases h2 with h2 | h2 <;> simp [Request.appliesTo, h2]
  unfold makeRequest
  rw [if_neg (by simp [happ]), if_neg (by simp [h3])]
  rfl

theorem makeRequest_suspend_recorded {c : Chan} {x : Channel} {cause : SuspendCause} (h2 : x.state = .armed ∨ x.state =
    .running)
    (h3 : x.run.unitInFlight = true) : makeRequest c x (.suspend cause) = Effect.keep (x.recording (.suspend cause)) := by
  have happ : (Request.suspend cause).appliesTo x = true := by rcases h2 with h2 | h2 <;> simp [Request.appliesTo, h2]
  unfold makeRequest
  rw [if_neg (by simp [happ]), if_pos h3, Channel.record_eq]

theorem makeRequest_discard {c : Chan} {x : Channel} {g : Program} {cause : DiscardCause} (hg : x.program = some g) :
    makeRequest c x (.discard cause) =
      if x.run.unitInFlight then Effect.keep (x.recording (.discard cause))
      else { channel := { x with state := .leased, program := none, run := RunState.clear, recorded := none, suspension := none, outcome := cause.outcome }
             events := [.channelStopped c cause.outcome false]
             notices := [.referenceRelease g.source.handle, .referenceRelease g.dest.handle] } := by
  simp only [makeRequest, Request.appliesTo, hg, Option.isSome_some, Bool.not_true, Bool.false_eq_true, if_false,
      Channel.record_eq, applyRequest, applyDiscard, Channel.releases]

theorem makeRequest_teardown {c : Chan} {x : Channel} (h : x.state ≠ .free) :
    makeRequest c x .teardown =
      if x.run.unitInFlight then Effect.keep (x.recording .teardown) else applyTeardown c x := by
  have : Request.teardown.appliesTo x = true := by simp [Request.appliesTo, h]
  simp only [makeRequest, this, Bool.not_true, Bool.false_eq_true, if_false, Channel.record_eq, applyRequest]

theorem find?_order {c : Chan} {td : Bool} {before after : List Order} {o : Order} (ho : (o.channel ==
    c && o.kind.isTeardown == td) = true)
   (hb : ∀ o ∈ before, ¬ (o.channel == c && o.kind.isTeardown == td) = true) :
   (before ++ o :: after).find? (fun o => o.channel == c && o.kind.isTeardown == td) = some o ∧ (before ++ o ::
       after).erase o = before ++ after := by
  constructor
  · rw [List.find?_append, List.find?_eq_none.2 hb, List.find?_cons, ho]; rfl
  · rw [List.erase_append_right _ (fun hc => hb _ hc ho)]; simp

theorem State.takeOrderOf_eq {s : State} {c : Chan} {td : Bool} {before after : List Order} {later} {o : Order} (ho :
    (o.channel == c && o.kind.isTeardown == td) = true)
   (hb : ∀ o ∈ before, ¬ (o.channel == c && o.kind.isTeardown == td) = true)
   (hq : s.chan.orders = (before ++ o :: after) :: later) :
   s.takeOrderOf c td = (s.setOrders (if before ++ after = [] then later else (before ++ after) :: later)).takeOrder o := by
  unfold State.takeOrderOf
  obtain ⟨h1, h2⟩ := find?_order (after := after) ho hb
  simp only [hq, h1, h2, List.isEmpty_iff]

theorem unitEnd_keeps (c : Chan) (x : Channel) (g : Program) : (unitEnd c x g).channel.recorded = x.recorded ∧
    (unitEnd c x g).channel.lessee = x.lessee ∧ (unitEnd c x g).channel.program = x.program ∧
        (unitEnd c x g).channel.suspension = x.suspension ∧
    (unitEnd c x g).channel.run.unitInFlight = x.run.unitInFlight := by
  unfold unitEnd Channel.rearmed Channel.completed
  cases g.mode with
  | single a b => simp only; split_ifs <;> exact ⟨rfl, rfl, rfl, rfl, rfl⟩
  | cyclic a b => simp only; split_ifs <;> exact ⟨rfl, rfl, rfl, rfl, rfl⟩
  | block a b n s => simp only; split_ifs <;> exact ⟨rfl, rfl, rfl, rfl, rfl⟩
  | sweep p => simp only; split_ifs <;> exact ⟨rfl, rfl, rfl, rfl, rfl⟩

theorem unitEnd_completed (c : Chan) (x : Channel) (g : Program) (h : (unitEnd c x g).completed = true) :
    (unitEnd c x g).channel.state = .programmed := by
  revert h
  unfold unitEnd Channel.rearmed Channel.completed
  cases g.mode with
  | single a b => simp only; split_ifs <;> simp
  | cyclic a b => simp only; split_ifs <;> simp
  | block a b n s => simp only; split_ifs <;> simp
  | sweep p => simp only; split_ifs <;> simp

theorem State.requests_iff (s : State) (c : Chan) : s.requests c = true ↔
    (s.channel c).recorded = none ∧ ∃ g ∈ (s.channel c).program,
      ((s.channel c).state = .armed ∧ ((s.channel c).run.latch = true ∨
        ∃ n, (g.mode.activation = some (.line n .high) ∧ look s.pins.trg n = .high) ∨
          (g.mode.activation = some (.line n .low) ∧ look s.pins.trg n = .low))) ∨
      ((s.channel c).state = .running ∧ (s.channel c).run.unitInFlight = false) := by
  unfold State.requests
  cases hp : (s.channel c).program with
  | none => simp [hp]
  | some g =>
    simp only [hp, Bool.and_eq_true, Bool.or_eq_true, Option.isNone_iff_eq_none, beq_iff_eq, Bool.not_eq_true',
        Option.mem_some, exists_eq_left', State.ready]
    have : s.levelActive g = true ↔ ∃ n, (g.mode.activation = some (.line n .high) ∧ look s.pins.trg n = .high) ∨
          (g.mode.activation = some (.line n .low) ∧ look s.pins.trg n = .low) := by
      unfold State.levelActive
      rcases g.mode.activation with _ | _ | ⟨n, se⟩
      · simp
      · simp
      · cases se <;> simp
    rw [this]

/-- The first in round-robin order is the nearest behind the pointer (R95). -/
theorem roundRobin_find (ptr : Chan) (f : Chan → Bool) (c : Chan) :
    (roundRobin ptr).find? f = some c ↔ f c = true ∧ ∀ d, f d = true → (c - ptr - 1).val ≤ (d - ptr - 1).val := by
  unfold roundRobin
  rw [List.find?_map]
  constructor
  · intro h
    simp only [Option.map_eq_some_iff] at h
    obtain ⟨k, hk, rfl⟩ := h
    rw [List.find?_eq_some_iff_getElem] at hk
    obtain ⟨h1, i, hi, h2, h3⟩ := hk
    refine ⟨h1, fun d hd => ?_⟩
    have e : ptr + 1 + k - ptr - 1 = k := by abel
    rw [e]
    by_contra hlt
    rw [not_le] at hlt
    have hik : i = k.val := by
      have := congrArg Fin.val h2
      simpa [indices] using this
    have hl : (d - ptr - 1).val < (indices 16).length := by simp [indices]
    have := h3 (d - ptr - 1).val (by omega)
    simp [indices] at this
    simp [hd] at this
  · rintro ⟨h1, h2⟩
    simp only [Option.map_eq_some_iff]
    refine ⟨c - ptr - 1, ?_, by abel⟩
    rw [List.find?_eq_some_iff_getElem]
    refine ⟨by simp only [Function.comp_apply]; rw [show ptr + 1 + (c - ptr - 1) = c by abel]; exact h1, (c - ptr - 1).val,
        by simp [indices], by simp [indices], ?_⟩
    intro j hj
    have hj16 : j < 16 := lt_trans hj (c - ptr - 1).isLt
    simp only [Function.comp_apply, Bool.not_eq_true']
    by_contra hf
    have hf : f (ptr + 1 + (indices 16)[j]'(by simpa [indices] using hj16)) = true := by simpa using hf
    have := h2 _ hf
    rw [show ptr + 1 + (indices 16)[j]'(by simpa [indices] using hj16) - ptr - 1 =
        (indices 16)[j]'(by simpa [indices] using hj16) by abel] at this
    simp [indices] at this
    omega

theorem State.unitStartCheck_iff (s : State) (c : Chan) (bs : Nat × Nat) : s.unitStartCheck c = some bs ↔ ∃ g i j,
    s.PassesCheck c g i j ∧ bs = ((s.region i).base, (s.region j).base) := by
  unfold State.unitStartCheck State.PassesCheck
  constructor
  · intro h
    simp only at h
    split at h
    · rename_i p g hl hg
      split at h
      · rename_i i j hi hj
        split_ifs at h with hc
        obtain ⟨h1, h2, h3, h4, h5⟩ := hc
        simp only [Option.some.injEq] at h
        exact ⟨g, i, j, ⟨hg, p, hl, h1, hi, h2, h4, hj, h3, h5⟩, h.symm⟩
      · cases h
    · cases h
  · rintro ⟨g, i, j, ⟨hg, p, hl, h1, hi, h2, h4, hj, h3, h5⟩, rfl⟩
    simp only [hg, hl, hi, hj]
    rw [if_pos ⟨h1, h2, h3, h4, h5⟩]

end Sys2Proof.Machine
end

