-- ==== Sys2Proof/Laws/Granules.lean ====
section
/-! SUPPORT. The granule map, bit by bit: what holding, freeing and searching a run of granules mean for each granule. -/

namespace Sys2Proof.Machine

theorem granuleMask_bit {base length g : Nat} (h : base + length ≤ granuleCount) :
    (granuleMask base length).getLsbD g = decide (base ≤ g ∧ g < base + length) := by
  simp only [granuleCount] at h
  rw [Bool.eq_iff_iff]
  simp only [granuleMask, BitVec.getLsbD_shiftLeft, BitVec.getLsbD_ushiftRight, BitVec.getLsbD_allOnes, Bool.and_eq_true,
    decide_eq_true_eq, Bool.not_eq_true', decide_eq_false_iff_not]
  omega

theorem holdRun_bit {map : BitVec 4096} {base length g : Nat} (h : base + length ≤ granuleCount) :
    (holdRun map base length).getLsbD g = (map.getLsbD g || decide (base ≤ g ∧ g < base + length)) := by
  simp only [holdRun, BitVec.getLsbD_or, granuleMask_bit h]

theorem freeRun_bit {map : BitVec 4096} {base length g : Nat} (h : base + length ≤ granuleCount) (hg : g < granuleCount) :
    (freeRun map base length).getLsbD g = (map.getLsbD g && !decide (base ≤ g ∧ g < base + length)) := by
  have hg' : g < 4096 := hg
  simp only [freeRun, BitVec.getLsbD_and, BitVec.getLsbD_not, granuleMask_bit h, hg', decide_true, Bool.true_and]

theorem runFree_iff {map : BitVec 4096} {base length : Nat} (h : base + length ≤ granuleCount) :
    runFree map base length = true ↔ ∀ k, k < length → map.getLsbD (base + k) = false := by
  simp only [runFree, beq_iff_eq]
  constructor
  · intro e k hk
    have := congrArg (fun v => v.getLsbD (base + k)) e
    simp only [BitVec.getLsbD_and, granuleMask_bit h] at this
    have h2 : decide (base ≤ base + k ∧ base + k < base + length) = true := by simp; omega
    rw [h2] at this
    simpa using this
  · intro e
    apply BitVec.eq_of_getLsbD_eq
    intro i hi
    simp only [BitVec.getLsbD_and, granuleMask_bit h]
    by_cases hb : base ≤ i ∧ i < base + length
    · have := e (i - base) (by omega)
      rw [show base + (i - base) = i by omega] at this
      simp [this]
    · simp [hb]

theorem firstFit_some {map : BitVec 4096} {length fuel g b : Nat} (h : firstFit map length fuel g = some b) :
    g ≤ b ∧ b < g + fuel ∧ runFree map b length = true ∧ ∀ x, g ≤ x → x < b → runFree map x length = false := by
  induction fuel generalizing g with
  | zero => simp [firstFit] at h
  | succ n ih =>
    simp only [firstFit] at h
    split_ifs at h with hf
    · simp only [Option.some.injEq] at h
      subst h
      exact ⟨Nat.le_refl _, by omega, hf, fun x h1 h2 => absurd h1 (by omega)⟩
    · obtain ⟨h1, h2, h3, h4⟩ := ih h
      refine ⟨by omega, by omega, h3, fun x hx hb => ?_⟩
      by_cases hxg : x = g
      · subst hxg; simpa using hf
      · exact h4 x (by omega) hb

theorem firstFit_none {map : BitVec 4096} {length fuel g : Nat} (h : firstFit map length fuel g = none) {x : Nat}
    (h1 : g ≤ x) (h2 : x < g + fuel) : runFree map x length = false := by
  induction fuel generalizing g with
  | zero => omega
  | succ n ih =>
    simp only [firstFit] at h
    split_ifs at h with hf
    by_cases hxg : x = g
    · subst hxg; simpa using hf
    · exact ih h (by omega) (by omega)

end Sys2Proof.Machine
end

