-- ==== Sys2Proof/Laws/Links.lean ====
section
/-! SUPPORT. What the parts of a link frame do: the code byte, bytes that are not taken in, bytes that fill a record, and a
whole frame. -/

namespace Sys2Proof.Machine

theorem windowLength_append (r : List Byte) (b : Byte) (h : 4 ≤ r.length) : windowLength (r ++ [b]) = windowLength r := by
  unfold windowLength; rw [byteAt_append _ _ _ (by omega)]

/-- The frame takes in no more bytes. -/
def Frame.Quiet (f : Frame) : Prop :=
  f.live = false ∨ (f.code ≠ some 0x02 ∧ f.code ≠ some 0x05 ∧ f.code ≠ some 0x06) ∨
    (f.code = some 0x05 ∧ 4 ≤ f.received.length) ∨
    (f.code = some 0x06 ∧ 4 ≤ f.received.length ∧ 4 + windowLength f.received ≤ f.received.length)

theorem Link.clock_quiet (l : Link) (f : Frame) (b : Byte) (hf : l.frame = some f) (hq : Frame.Quiet f) :
    l.clock b = { l with frame := some { f with received := f.received ++ [b], toSend := (l.nextOut f).2 }, out := l.out ++ [(l.nextOut f).1] } := by
  unfold Link.clock
  simp only [hf]
  rcases hq with h | ⟨h1, h2, h3⟩ | ⟨h1, h2⟩ | ⟨h1, h2, h3⟩
  · simp [h]
  · simp only [h1, h2, h3, if_false, ite_self]
  · split_ifs with h4 h5
    · rfl
    · simp [h1] at h5
    · unfold Link.windowReadByte; rw [if_neg]; simp; omega
  · split_ifs with h4 h5 h6 h7
    · rfl
    · simp [h1] at h5
    · simp [h1] at h6
    · unfold Link.windowWriteByte; simp only; rw [if_neg]; 
      rw [windowLength_append _ _ h2]
      simp; omega

theorem Frame.Quiet.more (f : Frame) (b : Byte) (t : List Byte) (hq : Frame.Quiet f) :
    Frame.Quiet { f with received := f.received ++ [b], toSend := t } := by
  rcases hq with h | h | ⟨h1, h2⟩ | ⟨h1, h2, h3⟩
  · exact Or.inl h
  · exact Or.inr (Or.inl h)
  · exact Or.inr (Or.inr (Or.inl ⟨h1, by simp; omega⟩))
  · refine Or.inr (Or.inr (Or.inr ⟨h1, by simp; omega, ?_⟩))
    simp only; rw [windowLength_append _ _ h2]; simp; omega

/-- Bytes after the first that are not taken in: what waits to be sent goes out beside them, then zeros (R151). -/
theorem Link.foldl_clock_quiet (bs : List Byte) : ∀ (l : Link) (f : Frame), l.frame = some f → Frame.Quiet f →
    f.received ≠ [] →
    (∀ w ∈ l.window, w.framed = false) →
    bs.foldl Link.clock l = { l with
      frame := some { f with received := f.received ++ bs, toSend := f.toSend.drop bs.length }
      out := l.out ++ (f.toSend ++ List.replicate bs.length 0).take bs.length } := by
  induction bs with
  | nil => intro l f hf _ _ _; obtain ⟨⟩ := l; simp at hf ⊢; exact hf
  | cons b bs ih =>
    intro l f hf hq hne hw
    have hw' : (l.window.map WindowRequest.framed).getD false = false := by
      cases hl : l.window with
      | none => rfl
      | some w => exact hw w hl
    have hno : l.nextOut f = match f.toSend with | [] => (0, []) | b :: rest => (b, rest) := by
      unfold Link.nextOut
      rw [if_neg (by simpa using hne), if_neg (by simp [hw'])]
      all_goals cases f.toSend <;> rfl
    have hc := Link.clock_quiet l f b hf hq
    have hfr := congrArg Link.frame hc
    rw [List.foldl_cons, ih (l.clock b) _ hfr (Frame.Quiet.more f b _ hq) (by simp) (by rw [hc]; exact hw), hc, hno]
    cases hts : f.toSend with
    | nil => simp [List.replicate_succ]
    | cons x xs =>
      have : (xs ++ List.replicate (bs.length + 1) (0 : Byte)).take bs.length =
          (xs ++ List.replicate bs.length 0).take bs.length := by
        rw [List.replicate_succ', ← List.append_assoc, List.take_append_of_le_length (by simp)]
      simp only [List.length_cons, List.drop_succ_cons, List.cons_append, List.take_succ_cons, this, List.append_assoc,
          List.nil_append]

theorem Link.foldl_clock_wait (bs : List Byte) : ∀ (l : Link) (f : Frame) (w : WindowRequest), l.frame = some f →
    Frame.Quiet f → f.received ≠ [] →
    l.window = some w → w.framed = true →
    bs.foldl Link.clock l = { l with
      frame := some { f with received := f.received ++ bs }
      out := l.out ++ List.replicate bs.length 0xF0 } := by
  induction bs with
  | nil => intro l f w hf _ _ _ _; obtain ⟨⟩ := l; simp at hf ⊢; exact hf
  | cons b bs ih =>
    intro l f w hf hq hne hw hfr
    have hno : l.nextOut f = (waitMark, f.toSend) := by
      unfold Link.nextOut
      rw [if_neg (by simpa using hne), if_pos (by simp [hw, hfr])]
    have hc := Link.clock_quiet l f b hf hq
    have hfr' := congrArg Link.frame hc
    rw [List.foldl_cons, ih (l.clock b) _ w hfr' (Frame.Quiet.more f b _ hq) (by simp) (by rw [hc]; exact hw) hfr, hc, hno]
    simp [List.replicate_succ, waitMark]

/-- The first byte and those after it, none taken in: the link answer, then what waits to be sent (R151). -/
theorem Link.foldl_clock_first (bs : List Byte) (l : Link) (f : Frame) (hf : l.frame = some f) (hq : Frame.Quiet f) (hr :
    f.received = [])
    (hw : ∀ w ∈ l.window, w.framed = false) (a : LinkAnswer) (ha : f.answer = some a) :
    bs.foldl Link.clock l = { l with
      frame := some { f with received := bs, toSend := f.toSend.drop (bs.length - 1) }
      out := l.out ++ bytesBeside a f.toSend bs.length } := by
  cases bs with
  | nil => obtain ⟨⟩ := l; obtain ⟨⟩ := f; simp [bytesBeside] at hf hr ⊢; simp [hf, hr]
  | cons b bs =>
    have hno : l.nextOut f = (a.code, f.toSend) := by
      unfold Link.nextOut; rw [if_pos (by simp [hr])]; simp [ha]
    have hc := Link.clock_quiet l f b hf hq
    have hfr := congrArg Link.frame hc
    rw [List.foldl_cons, Link.foldl_clock_quiet bs (l.clock b) _ hfr (Frame.Quiet.more f b _ hq) (by simp)
        (by rw [hc]; exact hw), hc, hno]
    have : (f.toSend ++ List.replicate (bs.length + 1) (0 : Byte)).take bs.length =
        (f.toSend ++ List.replicate bs.length 0).take bs.length := by
      rw [List.replicate_succ', ← List.append_assoc, List.take_append_of_le_length (by simp)]
    simp only [bytesBeside, hr, List.length_cons, List.take_succ_cons, this, List.append_assoc, List.nil_append,
        List.cons_append, Nat.add_sub_cancel]

/-! whole frames -/

/-- A byte clocked in while the frame takes in more: what every byte does, and then what the frame's transaction makes of it. -/
theorem Link.clock_live (l : Link) (f : Frame) (b : Byte) (hf : l.frame = some f) (hlive : f.live = true) :
    l.clock b =
      let m := l.clocked f b true
      let g := { f with
        received := f.received ++ [b]
        toSend := if f.received = [] ∨ ∃ w ∈ l.window, w.framed = true then f.toSend else f.toSend.tail }
      if f.code = some 0x02 then m.commandByte g
      else if f.code = some 0x05 then m.windowReadByte g
      else if f.code = some 0x06 then m.windowWriteByte g b
      else m := by
  have hw : (l.window.map WindowRequest.framed).getD false = true ↔ ∃ w ∈ l.window, w.framed = true := by
    cases l.window <;> simp
  have hn : l.nextOut f =
      (if f.received = [] then (f.answer.map LinkAnswer.code).getD 0
        else if (∃ w ∈ l.window, w.framed = true) then 0xF0 else f.toSend.headD 0,
        if f.received = [] ∨ (∃ w ∈ l.window, w.framed = true) then f.toSend else f.toSend.tail) := by
    unfold Link.nextOut
    by_cases h1 : f.received = []
    · simp [h1]
    · by_cases h2 : ∃ w ∈ l.window, w.framed = true
      · rw [if_neg (by simp [h1]), if_pos (hw.2 h2), if_neg h1, if_pos h2, if_pos (Or.inr h2)]; rfl
      · rw [if_neg (by simp [h1]), if_neg (mt hw.1 h2), if_neg h1, if_neg h2, if_neg (not_or.2 ⟨h1, h2⟩)]
        cases f.toSend <;> rfl
  unfold Link.clock
  simp only [hf, hn, hlive]
  rfl

theorem State.setLink_setLink_same (s : State) (p : Port) (a b : Link) : (s.setLink p a).setLink p b = s.setLink p b := by
  refine State.ext_pieces rfl (fun _ => rfl) rfl (fun _ => rfl)
      (fun _ => rfl) rfl rfl rfl rfl (fun _ => rfl) rfl rfl rfl rfl rfl (fun q => ?_) rfl rfl
  simp only [State.setLink_link]; split_ifs <;> rfl

theorem State.linkAnswer_out (s : State) (p : Port) (o : List Byte) (f : Option Frame) (b : Bool) (code : Byte) :
    (s.setLink p { s.link p with out := o, frame := f }).linkAnswer p b code = s.linkAnswer p b code := by
  simp [State.linkAnswer, State.heldClosed]

theorem State.statusBlock_out (s : State) (p : Port) (o : List Byte) (f : Option Frame) :
    (s.setLink p { s.link p with out := o, frame := f }).statusBlock p = s.statusBlock p := by
  simp [State.statusBlock, State.heldClosed, State.halted, Link.interrupt]

/-- The link after the code byte of a frame begun now. -/
theorem State.begun_eq (s : State) (p : Port) (code : Byte) :
    (s.selectFrame p).codeByte p code = s.setLink p { (s.answered p code (s.linkAnswer p (s.link p).notReady code)).1 with
      out := [s.summary p]
      frame := some { summary := s.summary p, notReady := (s.link p).notReady, code := some code
                      answer := some (s.linkAnswer p (s.link p).notReady code), received := []
                      toSend := (s.answered p code (s.linkAnswer p (s.link p).notReady code)).2
                      live := (s.linkAnswer p (s.link p).notReady code).takesIn, closed := false } } := by
  unfold State.selectFrame State.codeByte
  simp only [State.setLink_link, if_true, Option.isSome_none, Bool.false_eq_true, if_false]
  rw [State.setLink_setLink_same]
  simp only [State.linkAnswer_out]
  congr 1
  have hl : ∀ (x y : Link × List Byte) (su : Byte) (nr : Bool) (cd : Option Byte) (an : Option LinkAnswer) (lv : Bool), 
      (x.2 = y.2 ∧ { x.1 with out := [], frame := none } =
          { y.1 with out := ([] : List Byte), frame := (none : Option Frame) }) → 
      ({ x.1 with out := [su], frame := some { summary := su, notReady := nr, code := cd, answer := an, received := [], toSend := x.2, live := lv, closed := false } } : Link) =
      { y.1 with out := [su], frame := some { summary := su, notReady := nr, code := cd, answer := an, received := [], toSend := y.2, live := lv, closed := false } } := by
    rintro ⟨x1, x2⟩ ⟨y1, y2⟩ su nr cd an lv ⟨h1, h2⟩
    obtain ⟨⟩ := x1; obtain ⟨⟩ := y1
    simp only [Link.mk.injEq] at h2 ⊢
    simp only at h1
    obtain ⟨a1, a2, a3, a4, a5, a6, a7, a8, a9, a10⟩ := h2
    simp only [a1, a2, a3, a4, a5, a6, a7, a9, h1, and_self]
  apply hl
  unfold State.answered
  simp only [State.setLink_link, if_true, State.statusBlock_out]
  cases s.linkAnswer p (s.link p).notReady code <;> simp only [and_self] <;> split_ifs <;> exact ⟨rfl, rfl⟩

theorem exec_frameOf (p : Port) (code : Byte) (part : FramePart) (s : State) : exec (frameOf p code part) s =
    .next (s.framePart p code part) := by
  unfold frameOf
  split_ifs with h1 h2 h3 h4 h5 h6
  · subst h1; rfl
  · subst h2; rfl
  · subst h3; rfl
  · subst h4; rfl
  · subst h5; rfl
  · subst h6; rfl
  · simp only [exec, execUnknownCodeFrame]
    rw [if_neg]
    revert h1 h2 h3 h4 h5 h6; revert code; decide

/-- The code byte of a frame in progress, in any state (R151, R153, R154, R166). -/
theorem State.framePart_code (s : State) (p : Port) (code : Byte) (f : Frame) (hf : (s.link p).frame = some f)
    (hc : f.code = none) :
    let answer := s.linkAnswer p f.notReady code
    s.framePart p code .code = s.setLink p { (s.answered p code answer).1 with
      out := [f.summary]
      frame := some { f with
        code := some code, answer := some answer, toSend := (s.answered p code answer).2, live := answer.takesIn
        closed := false } } := by
  unfold State.framePart State.codeByte
  rw [hf]
  simp only [hc, if_true, Option.isSome_none, Bool.false_eq_true, if_false]

/-- The bytes of a frame in progress whose code byte has come (R151). -/
theorem State.framePart_bytes (s : State) (p : Port) (code : Byte) (f : Frame) (bs : List Byte)
    (hf : (s.link p).frame = some f) (hc : f.code = some code) :
    s.framePart p code (.bytes bs) = s.setLink p (bs.foldl Link.clock (s.link p)) := by
  unfold State.framePart
  rw [hf]
  simp only [hc, if_true]

/-- A whole frame that takes nothing in. -/
theorem State.framePart_whole_quiet (s : State) (p : Port) (code : Byte) (bs : List Byte) (hf : (s.link p).frame = none)
    (a : LinkAnswer)
    (ha : s.linkAnswer p (s.link p).notReady code = a)
    (hq : a.takesIn = false ∨ (code ≠ 0x02 ∧ code ≠ 0x05 ∧ code ≠ 0x06))
    (hw : ∀ w ∈ (s.link p).window, w.framed = false) :
    s.framePart p code (.whole bs) = s.setLink p { (s.answered p code a).1 with
      frame := none
      out := s.summary p :: bytesBeside a (s.answered p code a).2 bs.length } := by
  have hansw : (s.answered p code a).1.window = (s.link p).window ∧ (s.answered p code a).1.buffer = (s.link p).buffer := by
    unfold State.answered; cases a <;> simp only [and_self] <;> split_ifs <;> exact ⟨rfl, rfl⟩
  unfold State.framePart
  simp only [hf]
  rw [State.begun_eq, ha]
  simp only [State.setLink_link, if_true, State.setLink_setLink_same]
  rw [Link.foldl_clock_first bs _ _ rfl ?_ rfl (by simp only [hansw.1]; exact hw) a rfl]
  · unfold Link.deselect
    simp only
    have hs : ∀ f : Frame, (f.live = false ∨ (f.code ≠ some 0x02 ∧ f.code ≠ some 0x05 ∧ f.code ≠ some 0x06)) → f.short =
        false := by
      rintro f (h | ⟨h1, h2, h3⟩)
      · simp [Frame.short, h]
      · unfold Frame.short
        have g1 : (f.code == some 0x02) = false := by simpa using h1
        have g2 : (f.code == some 0x05) = false := by simpa using h2
        have g3 : (f.code == some 0x06) = false := by simpa using h3
        simp only [g1, g2, g3, Bool.false_and, Bool.or_false, Bool.and_false]
    rw [hs _ (by rcases hq with h | ⟨h1, h2, h3⟩; exact Or.inl h; right; exact ⟨fun h => h1 (Option.some.inj h),
        fun h => h2 (Option.some.inj h), fun h => h3 (Option.some.inj h)⟩)]
    simp only [Bool.or_false, Bool.false_and, Bool.false_eq_true, if_false]
    have hwm : (s.answered p code a).1.window.map (fun w => { w with framed := false }) = (s.answered p code a).1.window :=
        by
      rw [hansw.1]
      cases hwn : (s.link p).window with
      | none => rfl
      | some w => have := hw w hwn; obtain ⟨⟩ := w; simp at this ⊢; exact this
    rw [hwm]
    rfl
  · rcases hq with h | ⟨h1, h2, h3⟩
    · exact Or.inl h
    · right; left; exact ⟨fun h => h1 (Option.some.inj h), fun h => h2 (Option.some.inj h), fun h => h3 (Option.some.inj h)⟩

theorem State.linkAnswer_ready {s : State} {p : Port} (hr : (s.link p).Ready) (code : Byte) :
    s.linkAnswer p (s.link p).notReady code =
    if code = 0x02 then
      if s.session p = .closing then .closing
      else if Config.commandRoom ≤ (s.link p).commands.length then .full
      else if s.heldClosed p then .held
      else .accepted
    else if code = 0x03 then (if (s.link p).results.isEmpty then .empty else .accepted)
    else if code = 0x04 then (if (s.link p).events.isEmpty then .empty else .accepted)
    else if code = 0x01 ∨ code = 0x05 ∨ code = 0x06 then .accepted
    else .malformed := by
  unfold State.linkAnswer
  simp only [hr.notReady, hr.window, Option.isSome_none, Bool.or_false, Bool.false_eq_true, if_false]

theorem bytesBeside_nil (a : LinkAnswer) (n : Nat) : bytesBeside a [] (n + 1) = a.code :: List.replicate n 0 := by
  unfold bytesBeside
  rw [List.nil_append, List.take_succ_cons, List.take_replicate, Nat.min_eq_left (Nat.le_succ n)]

theorem bytesBeside_nil_succ (a : LinkAnswer) (n : Nat) : bytesBeside a [] (n + 1) = bytesBeside a [] n ++ [if n =
    0 then a.code else 0] := by
  cases n with
  | zero => rfl
  | succ n =>
    rw [bytesBeside_nil, bytesBeside_nil, if_neg (Nat.succ_ne_zero n), List.replicate_succ', List.cons_append]

theorem bytesBeside_append (a : LinkAnswer) (n m : Nat) (h : 0 < n) : bytesBeside a [] n ++ ([] ++ List.replicate m (0 :
    Byte)).take m = bytesBeside a [] (n + m) := by
  induction m with
  | zero => simp
  | succ m ih =>
    rw [← Nat.add_assoc, bytesBeside_nil_succ, ← ih, if_neg (by omega), List.append_assoc]
    congr 1
    simp [List.replicate_succ']

/-- A frame's first bytes, none of which completes anything: `idle` holds of the bytes after each. -/
theorem Link.foldl_clock_collect (l : Link) (f : Frame) (a : LinkAnswer) (hf : l.frame = some f) (hr : f.received = [])
    (hs : f.toSend = [])
    (ha : f.answer = some a) (hw : ∀ w ∈ l.window, w.framed = false) (idle : List Byte → Prop)
    (hi : ∀ bs b, idle (bs ++ [b]) → idle bs)
    (hc : ∀ (bs : List Byte) (b : Byte) (_ : Byte) (o : List Byte), idle (bs ++ [b]) →
      (if !f.live then ({ l with frame := some { f with received := bs ++ [b] }, out := o } : Link)
        else if f.code = some 0x02 then ({ l with frame := some { f with received := bs ++ [b] }, out := o } :
            Link).commandByte { f with received := bs ++ [b] }
        else if f.code = some 0x05 then ({ l with frame := some { f with received := bs ++ [b] }, out := o } :
            Link).windowReadByte { f with received := bs ++ [b] }
        else if f.code = some 0x06 then ({ l with frame := some { f with received := bs ++ [b] }, out := o } :
            Link).windowWriteByte { f with received := bs ++ [b] } b
        else { l with frame := some { f with received := bs ++ [b] }, out := o }) =
            { l with frame := some { f with received := bs ++ [b] }, out := o })
    (bs : List Byte) (hb : idle bs) :
    bs.foldl Link.clock l = { l with frame := some { f with received := bs }, out := l.out ++ bytesBeside a [] bs.length }
        := by
  induction bs using List.reverseRecOn with
  | nil => obtain ⟨⟩ := l; obtain ⟨⟩ := f; simp [bytesBeside] at hf hr ⊢; simp [hf, hr]
  | append_singleton bs b ih =>
    rw [List.foldl_append, ih (hi _ _ hb), List.foldl_cons, List.foldl_nil]
    unfold Link.clock
    simp only
    have hno : ({ l with frame := some { f with received := bs }, out := l.out ++ bytesBeside a [] bs.length } :
        Link).nextOut { f with received := bs } = (if bs.length = 0 then a.code else 0, []) := by
      unfold Link.nextOut
      simp only
      by_cases h : bs = []
      · simp [h, ha, hs]
      · have hw' : (l.window.map WindowRequest.framed).getD false = false := by
          cases hl : l.window with
          | none => rfl
          | some w => exact hw w hl
        rw [if_neg (by simpa using h), if_neg (by simp [hw']), hs]
        simp [h]
    rw [hno]
    have := hc bs b 0 (l.out ++ bytesBeside a [] bs.length ++ [if bs.length = 0 then a.code else 0]) hb
    have hs' : ({ f with received := bs ++ [b], toSend := [] } : Frame) = { f with received := bs ++ [b] } := by
      obtain ⟨⟩ := f; simp at hs ⊢; exact hs
    rw [hs']
    rw [this]
    simp only [List.length_append, List.length_cons, List.length_nil, Nat.zero_add, bytesBeside_nil_succ, List.append_assoc]

theorem Link.nextOut_collected (l : Link) (f : Frame) (a : LinkAnswer) (hs : f.toSend = []) 
    (ha : f.answer = some a) (hw : ∀ w ∈ l.window, w.framed = false) (bs : List Byte) (hf : l.frame = some f) (hr :
        f.received = bs) (b : Byte) :
    l.nextOut f = (if bs.length = 0 then a.code else 0, []) := by
  unfold Link.nextOut
  by_cases h : bs = []
  · simp [h, ha, hs, hr]
  · have hw' : (l.window.map WindowRequest.framed).getD false = false := by
      cases hl : l.window with
      | none => rfl
      | some w => exact hw w hl
    rw [if_neg (by simpa [hr] using h), if_neg (by simp [hw']), hs]
    simp [h]

def CommandIncomplete (bs : List Byte) : Prop := bs.length < 3 ∨ ((byteAt bs 2).toNat ≤ 32 ∧
    bs.length < 3 + (byteAt bs 2).toNat)

theorem CommandIncomplete.shorter (bs : List Byte) (b : Byte) (h : CommandIncomplete (bs ++ [b])) : CommandIncomplete bs :=
    by
  unfold CommandIncomplete at *
  simp only [List.length_append, List.length_cons, List.length_nil] at h
  by_cases h3 : bs.length < 3
  · exact Or.inl h3
  · rw [byteAt_append _ _ _ (by omega)] at h
    omega

theorem Link.foldl_clock_command (l : Link) (f : Frame) (a : LinkAnswer) (hf : l.frame = some f) (hr : f.received = [])
    (hs : f.toSend = [])
    (ha : f.answer = some a) (hw : ∀ w ∈ l.window, w.framed = false) (hcode : f.code = some 0x02) (bs : List Byte) (hb :
        CommandIncomplete bs) :
    bs.foldl Link.clock l = { l with frame := some { f with received := bs }, out := l.out ++ bytesBeside a [] bs.length }
        := by
  refine Link.foldl_clock_collect l f a hf hr hs ha hw CommandIncomplete CommandIncomplete.shorter ?_ bs hb
  intro bs b x o hi
  split_ifs with h1
  · rfl
  · unfold Link.commandByte
    simp only
    unfold CommandIncomplete at hi
    rw [if_neg (by omega), if_neg (by omega)]

/-- The byte that completes a command record (R156). -/
theorem Link.clock_command_done (l : Link) (f : Frame) (b : Byte) (hf : l.frame = some f) (hlive : f.live = true) (hcode :
    f.code = some 0x02)
    (h3 : 3 ≤ (f.received ++ [b]).length) (hk : (byteAt (f.received ++ [b]) 2).toNat ≤ 32) (hl :
        (f.received ++ [b]).length = 3 + (byteAt (f.received ++ [b]) 2).toNat) :
    l.clock b = { l with
      frame := some { f with received := f.received ++ [b], toSend := (l.nextOut f).2, live := false }
      out := l.out ++ [(l.nextOut f).1]
      commands := if f.closed then l.commands else l.commands ++ [{ opcode := byteAt (f.received ++ [b]) 0, tag := byteAt (f.received ++ [b]) 1, args := (f.received ++ [b]).drop 3 }] } := by
  unfold Link.clock
  simp only [hf, hlive, hcode, Bool.not_true, Bool.false_eq_true, if_false, if_true]
  unfold Link.commandByte
  simp only
  rw [if_neg (by omega), if_pos ⟨h3, hl⟩]

theorem Link.clock_command_malformed (l : Link) (f : Frame) (b : Byte) (hf : l.frame = some f) (hlive : f.live = true)
    (hcode : f.code = some 0x02)
    (h3 : (f.received ++ [b]).length = 3) (hk : 32 < (byteAt (f.received ++ [b]) 2).toNat) :
    l.clock b = { l with
      frame := some { f with received := f.received ++ [b], toSend := (l.nextOut f).2, live := false }
      out := l.out ++ [(l.nextOut f).1], malformed := true } := by
  unfold Link.clock
  simp only [hf, hlive, hcode, Bool.not_true, Bool.false_eq_true, if_false, if_true]
  unfold Link.commandByte
  simp only
  rw [if_pos ⟨h3, hk⟩]

theorem State.begun_command {s : State} {p : Port} (hr : (s.link p).Ready) (a : LinkAnswer) (ha :
    s.linkAnswer p (s.link p).notReady 0x02 = a) (hin : a = .accepted ∨ a = .held) :
    (s.selectFrame p).codeByte p 0x02 = s.setLink p { s.link p with
      out := [s.summary p]
      frame := some { summary := s.summary p, notReady := (s.link p).notReady, code := some 0x02, answer := some a, received := []
                      toSend := [], live := true, closed := false } } := by
  rw [State.begun_eq, ha]
  rcases hin with rfl | rfl <;> rfl

end Sys2Proof.Machine
end

