-- ==== Sys2Proof/Laws/Memory.lean ====
section
/-! SUPPORT. The buffer memory: every operation keeps its canonical form, a byte reads as it was last written, and an operation
leaves every byte outside its span as it was. -/

namespace Sys2Proof.Machine

/-! ### Cells and addresses -/

theorem cellsWf_mono {low low' bound bound' : Nat} {cs : List Host.Cell} (hl : low' ≤ low) (hb : bound ≤ bound')
    (h : cellsWf low cs bound = true) : cellsWf low' cs bound' = true := by
  cases cs with
  | nil => rfl
  | cons c rest =>
    obtain ⟨a, v⟩ := c
    simp only [cellsWf, Bool.and_eq_true, decide_eq_true_eq] at h ⊢
    obtain ⟨⟨⟨h1, h2⟩, h3⟩, h4⟩ := h
    exact ⟨⟨⟨by omega, by omega⟩, h3⟩, cellsWf_mono (Nat.le_refl _) hb h4⟩

theorem addrsWf_mono {low low' bound bound' : Nat} {xs : List Nat} (hl : low' ≤ low) (hb : bound ≤ bound')
    (h : addrsWf low xs bound = true) : addrsWf low' xs bound' = true := by
  cases xs with
  | nil => rfl
  | cons a rest =>
    simp only [addrsWf, Bool.and_eq_true, decide_eq_true_eq] at h ⊢
    exact ⟨⟨by omega, by omega⟩, addrsWf_mono (Nat.le_refl _) hb h.2⟩

theorem cellValue_below {low bound : Nat} {cs : List Host.Cell} (h : cellsWf low cs bound = true) {a : Nat}
    (ha : a < low) : cellValue cs a = 0 := by
  induction cs generalizing low with
  | nil => rfl
  | cons c rest ih =>
    obtain ⟨b, v⟩ := c
    simp only [cellsWf, Bool.and_eq_true, decide_eq_true_eq] at h
    have : a ≠ b := by omega
    simp only [cellValue, if_neg this]
    exact ih h.2 (by omega)

theorem cellValue_above {low bound : Nat} {cs : List Host.Cell} (h : cellsWf low cs bound = true) {a : Nat}
    (ha : bound ≤ a) : cellValue cs a = 0 := by
  induction cs generalizing low with
  | nil => rfl
  | cons c rest ih =>
    obtain ⟨b, v⟩ := c
    simp only [cellsWf, Bool.and_eq_true, decide_eq_true_eq] at h
    have : a ≠ b := by omega
    simp only [cellValue, if_neg this]
    exact ih h.2

theorem addrsWf_above {low bound : Nat} {xs : List Nat} (h : addrsWf low xs bound = true) {a : Nat} (ha : bound ≤ a) :
    a ∉ xs := by
  induction xs generalizing low with
  | nil => simp
  | cons b rest ih =>
    simp only [addrsWf, Bool.and_eq_true, decide_eq_true_eq] at h
    simp only [List.mem_cons, not_or]
    exact ⟨by omega, ih h.2⟩

theorem cellPut_wf {low bound : Nat} {cs : List Host.Cell} (h : cellsWf low cs bound = true) {a : Nat} (v : Byte)
    (hl : low ≤ a) (hb : a < bound) : cellsWf low (cellPut cs a v) bound = true := by
  induction cs generalizing low with
  | nil => by_cases hv : v = 0#8 <;> simp [cellPut, hv, cellsWf, hl, hb]
  | cons c rest ih =>
    obtain ⟨b, w⟩ := c
    have h' := h
    simp only [cellsWf, Bool.and_eq_true, decide_eq_true_eq] at h
    obtain ⟨⟨⟨h1, h2⟩, h3⟩, h4⟩ := h
    have h5 : w ≠ 0#8 := by simpa using h3
    rcases Nat.lt_trichotomy a b with hab | hab | hab
    · by_cases hv : v = 0#8
      · simp [cellPut, hab, hv, h']
      · simp [cellPut, hab, hv, cellsWf, hl, hb, h2, h5, h4]
    · subst hab
      by_cases hv : v = 0#8
      · simp [cellPut, hv, cellsWf_mono (Nat.le_succ_of_le hl) (Nat.le_refl _) h4]
      · simp [cellPut, hv, cellsWf, hl, hb, h4]
    · have hn : ¬ a < b := by omega
      have hne : a ≠ b := by omega
      simp [cellPut, hn, hne, cellsWf, h1, h2, h5, ih h4 (by omega)]

theorem cellValue_cellPut {low bound : Nat} {cs : List Host.Cell} (h : cellsWf low cs bound = true) (a b : Nat) (v : Byte) :
    cellValue (cellPut cs a v) b = if b = a then v else cellValue cs b := by
  induction cs generalizing low with
  | nil => by_cases hv : v = 0#8 <;> by_cases hba : b = a <;> simp [cellPut, cellValue, hv, hba]
  | cons c rest ih =>
    obtain ⟨d, w⟩ := c
    simp only [cellsWf, Bool.and_eq_true, decide_eq_true_eq] at h
    rcases Nat.lt_trichotomy a d with had | had | had
    · have hz : b = a → cellValue rest b = 0#8 := fun e => cellValue_below h.2 (by omega)
      have hd : b = a → b ≠ d := by omega
      by_cases hv : v = 0#8 <;> by_cases hba : b = a <;> simp_all [cellPut, cellValue]
    · subst had
      have hz : b = a → cellValue rest b = 0#8 := fun e => cellValue_below h.2 (by omega)
      by_cases hv : v = 0#8 <;> by_cases hba : b = a <;> simp_all [cellPut, cellValue]
    · have hn : ¬ a < d := by omega
      have hne : a ≠ d := by omega
      have hd : b = a → b ≠ d := by omega
      simp only [cellPut, if_neg hn, if_neg hne, cellValue, ih h.2]
      by_cases hba : b = a <;> simp_all

theorem addrInsert_wf {low bound : Nat} {xs : List Nat} (h : addrsWf low xs bound = true) {a : Nat} (hl : low ≤ a)
    (hb : a < bound) : addrsWf low (addrInsert xs a) bound = true := by
  induction xs generalizing low with
  | nil => simp [addrInsert, addrsWf, hl, hb]
  | cons b rest ih =>
    have h' := h
    simp only [addrsWf, Bool.and_eq_true, decide_eq_true_eq] at h
    obtain ⟨⟨h1, h2⟩, h3⟩ := h
    rcases Nat.lt_trichotomy a b with hab | hab | hab
    · simp [addrInsert, hab, addrsWf, hl, hb, h2, h3]
    · subst hab
      simp [addrInsert, h']
    · have hn : ¬ a < b := by omega
      have hne : a ≠ b := by omega
      simp [addrInsert, hn, hne, addrsWf, h1, h2, ih h3 (by omega)]

@[simp] theorem addrInsert_mem (xs : List Nat) (a b : Nat) : b ∈ addrInsert xs a ↔ b = a ∨ b ∈ xs := by
  induction xs with
  | nil => simp [addrInsert]
  | cons c rest ih =>
    rcases Nat.lt_trichotomy a c with h | h | h
    · simp [addrInsert, h]
    · subst h
      simp [addrInsert]
    · have hn : ¬ a < c := by omega
      have hne : a ≠ c := by omega
      simp only [addrInsert, if_neg hn, if_neg hne, List.mem_cons, ih]
      tauto

theorem cellsWf_filter {low bound : Nat} {cs : List Host.Cell} (f : Host.Cell → Bool) (h : cellsWf low cs bound = true) :
    cellsWf low (cs.filter f) bound = true := by
  induction cs generalizing low with
  | nil => rfl
  | cons c rest ih =>
    obtain ⟨a, v⟩ := c
    simp only [cellsWf, Bool.and_eq_true, decide_eq_true_eq] at h
    obtain ⟨⟨⟨h1, h2⟩, h3⟩, h4⟩ := h
    have h5 : v ≠ 0#8 := by simpa using h3
    by_cases hf : f (a, v) = true
    · simp [hf, cellsWf, h1, h2, h5, ih h4]
    · simp [hf, cellsWf_mono (low' := low) (Nat.le_succ_of_le h1) (Nat.le_refl _) (ih h4)]

theorem addrsWf_filter {low bound : Nat} {xs : List Nat} (f : Nat → Bool) (h : addrsWf low xs bound = true) :
    addrsWf low (xs.filter f) bound = true := by
  induction xs generalizing low with
  | nil => rfl
  | cons a rest ih =>
    simp only [addrsWf, Bool.and_eq_true, decide_eq_true_eq] at h
    obtain ⟨⟨h1, h2⟩, h3⟩ := h
    by_cases hf : f a = true
    · simp [hf, addrsWf, h1, h2, ih h3]
    · simp [hf, addrsWf_mono (low' := low) (Nat.le_succ_of_le h1) (Nat.le_refl _) (ih h3)]

theorem cellValue_filter (p : Nat → Bool) (cs : List Host.Cell) (a : Nat) :
    cellValue (cs.filter fun c => p c.1) a = if p a then cellValue cs a else 0 := by
  induction cs with
  | nil => by_cases h : p a = true <;> simp [cellValue, h]
  | cons c rest ih =>
    obtain ⟨b, v⟩ := c
    by_cases hab : a = b
    · subst hab
      by_cases h : p a = true <;> simp_all [cellValue]
    · by_cases h : p b = true <;> simp_all [cellValue]

/-! ### The memory's form -/

theorem Memory.wf_iff (m : Memory) :
    m.wf = true ↔ m.definedTo ≤ memoryBytes ∧ cellsWf 0 m.bytes m.definedTo = true ∧ addrsWf 0 m.bad m.definedTo = true := by
  simp [Memory.wf, and_assoc]

/-- The contents after an assertion of RESET are in form. -/
theorem Memory.undefined_wf (n : Nat) : (Memory.undefined n).wf = true := by
  simp [Memory.wf_iff, Memory.undefined, cellsWf, addrsWf]

theorem Memory.write_wf {m : Memory} (h : m.wf = true) (a : Nat) (v : Byte) : (m.write a v).wf = true := by
  rw [Memory.wf_iff] at h
  by_cases ha : a < m.definedTo
  · simp only [Memory.write, if_pos ha, Memory.wf_iff]
    exact ⟨h.1, cellPut_wf h.2.1 v (Nat.zero_le _) ha, addrsWf_filter _ h.2.2⟩
  · simp only [Memory.write, if_neg ha, Memory.wf_iff]
    exact h

theorem Memory.corrupt_wf {m : Memory} (h : m.wf = true) (a : Nat) (v : Byte) : (m.corrupt a v).wf = true := by
  rw [Memory.wf_iff] at h
  by_cases ha : a < m.definedTo
  · simp only [Memory.corrupt, if_pos ha, Memory.wf_iff]
    exact ⟨h.1, cellPut_wf h.2.1 v (Nat.zero_le _) ha, addrInsert_wf h.2.2 (Nat.zero_le _) ha⟩
  · simp only [Memory.corrupt, if_neg ha, Memory.wf_iff]
    exact h

theorem Memory.writeSpan_wf {m : Memory} (h : m.wf = true) (a : Nat) (bs : List Byte) : (m.writeSpan a bs).wf = true := by
  induction bs generalizing m a with
  | nil => exact h
  | cons v rest ih => exact ih (Memory.write_wf h a v) (a + 1)

theorem Memory.clear_wf {m : Memory} (h : m.wf = true) (a b : Nat) : (m.clear a b).wf = true := by
  rw [Memory.wf_iff] at h ⊢
  exact ⟨h.1, cellsWf_filter _ h.2.1, addrsWf_filter _ h.2.2⟩

theorem Memory.define_wf {m : Memory} (h : m.wf = true) {b : Nat} (hb : m.definedTo ≤ b) (hm : b ≤ memoryBytes) :
    (m.define b).wf = true := by
  rw [Memory.wf_iff] at h ⊢
  exact ⟨hm, cellsWf_mono (Nat.le_refl _) hb h.2.1, addrsWf_mono (Nat.le_refl _) hb h.2.2⟩

/-! ### What a byte reads as -/

@[simp] theorem Memory.write_definedTo (m : Memory) (a : Nat) (v : Byte) : (m.write a v).definedTo = m.definedTo := by
  unfold Memory.write; split_ifs <;> rfl

@[simp] theorem Memory.write_resets (m : Memory) (a : Nat) (v : Byte) : (m.write a v).resets = m.resets := by
  unfold Memory.write; split_ifs <;> rfl

@[simp] theorem Memory.writeSpan_definedTo (m : Memory) (a : Nat) (bs : List Byte) :
    (m.writeSpan a bs).definedTo = m.definedTo := by
  induction bs generalizing m a with
  | nil => rfl
  | cons v rest ih => simp [Memory.writeSpan, ih]

@[simp] theorem Memory.corrupt_definedTo (m : Memory) (a : Nat) (v : Byte) : (m.corrupt a v).definedTo = m.definedTo := by
  unfold Memory.corrupt; split_ifs <;> rfl

@[simp] theorem Memory.clear_definedTo (m : Memory) (a b : Nat) : (m.clear a b).definedTo = m.definedTo := rfl

@[simp] theorem Memory.define_definedTo (m : Memory) (b : Nat) : (m.define b).definedTo = b := rfl

/-- A read after a write: the value written there, and every other byte as before. -/
theorem Memory.read_write {m : Memory} (h : m.wf = true) {a : Nat} (ha : a < m.definedTo) (v : Byte) (b : Nat) :
    (m.write a v).read b = if b = a then v else m.read b := by
  rw [Memory.wf_iff] at h
  simp only [Memory.read, Memory.write_definedTo, Memory.background, Memory.write_resets]
  simp only [Memory.write, if_pos ha, cellValue_cellPut h.2.1]
  by_cases hb : b < m.definedTo
  · simp [hb]
  · have : b ≠ a := by omega
    simp [hb, this]

/-- A write stores good parity and leaves the parity of every other byte. -/
theorem Memory.parityError_write {m : Memory} {a : Nat} (ha : a < m.definedTo) (v : Byte) (b : Nat) :
    (m.write a v).parityError b = if b = a then false else m.parityError b := by
  simp only [Memory.parityError, Memory.write_definedTo, Memory.write_resets]
  simp only [Memory.write, if_pos ha]
  by_cases hb : b < m.definedTo
  · by_cases hba : b = a
    · subst hba
      simp [hb]
    · simp [hb, hba]
  · have : b ≠ a := by omega
    simp [hb, this]

/-- A fault of the memory changes one byte, whose parity mismatches from then on (R2). -/
theorem Memory.read_corrupt {m : Memory} (h : m.wf = true) {a : Nat} (ha : a < m.definedTo) (v : Byte) (b : Nat) :
    (m.corrupt a v).read b = if b = a then v else m.read b := by
  rw [Memory.wf_iff] at h
  simp only [Memory.read, Memory.corrupt_definedTo, Memory.background]
  simp only [Memory.corrupt, if_pos ha, cellValue_cellPut h.2.1]
  by_cases hb : b < m.definedTo
  · simp [hb]
  · have : b ≠ a := by omega
    simp [hb, this]

theorem Memory.parityError_corrupt {m : Memory} {a : Nat} (ha : a < m.definedTo) (v : Byte) (b : Nat) :
    (m.corrupt a v).parityError b = if b = a then true else m.parityError b := by
  simp only [Memory.parityError, Memory.corrupt_definedTo]
  simp only [Memory.corrupt, if_pos ha]
  by_cases hb : b < m.definedTo
  · by_cases hba : b = a <;> simp [hb, hba, ha]
  · have : b ≠ a := by omega
    simp [hb, this]

/-- A cleared byte reads 0 with good parity; every other byte is as before. -/
theorem Memory.read_clear (m : Memory) (a b x : Nat) (hx : x < m.definedTo) :
    (m.clear a b).read x = if a ≤ x ∧ x < b then 0 else m.read x := by
  have h := cellValue_filter (fun y => !(decide (a ≤ y) && decide (y < b))) m.bytes x
  have e : (m.clear a b).read x = cellValue (m.bytes.filter fun c => !(decide (a ≤ c.1) && decide (c.1 < b))) x := by
    simp [Memory.read, Memory.clear, hx]
  rw [e, h]
  by_cases hab : a ≤ x ∧ x < b
  · simp [hab]
  · rw [if_neg hab, if_pos (by simp; omega)]
    simp [Memory.read, hx]

theorem Memory.parityError_clear (m : Memory) (a b x : Nat) (hx : x < m.definedTo) :
    (m.clear a b).parityError x = if a ≤ x ∧ x < b then false else m.parityError x := by
  have e : (m.clear a b).parityError x = (m.bad.filter fun y => !(decide (a ≤ y) && decide (y < b))).contains x := by
    simp [Memory.parityError, Memory.clear, hx]
  have e' : m.parityError x = m.bad.contains x := by simp [Memory.parityError, hx]
  rw [e, e', Bool.eq_iff_iff]
  by_cases hab : a ≤ x ∧ x < b
  · simp [hab]
  · simp only [if_neg hab, List.contains_iff_mem, List.mem_filter]
    simp
    omega

/-- The bytes that become defined read 0 with good parity; those defined before are as before. -/
theorem Memory.read_define {m : Memory} (h : m.wf = true) {b x : Nat} (hx : x < b) :
    (m.define b).read x = if x < m.definedTo then m.read x else 0 := by
  have h' := ((Memory.wf_iff m).mp h).2.1
  have e : (m.define b).read x = cellValue m.bytes x := by simp [Memory.read, Memory.define, hx]
  rw [e]
  by_cases hd : x < m.definedTo
  · simp [Memory.read, hd]
  · rw [if_neg hd, cellValue_above h' (by omega)]

theorem Memory.parityError_define {m : Memory} (h : m.wf = true) {b x : Nat} (hx : x < b) :
    (m.define b).parityError x = if x < m.definedTo then m.parityError x else false := by
  have h' := ((Memory.wf_iff m).mp h).2.2
  have e : (m.define b).parityError x = m.bad.contains x := by simp [Memory.parityError, Memory.define, hx]
  rw [e]
  by_cases hd : x < m.definedTo
  · simp [Memory.parityError, hd]
  · simpa [hd] using addrsWf_above h' (a := x) (by omega)

@[simp] theorem Memory.readSpan_length (m : Memory) (a n : Nat) : (m.readSpan a n).length = n := by
  induction n generalizing a with
  | zero => rfl
  | succ n ih => simp [Memory.readSpan, ih]

theorem Memory.readSpan_getElem (m : Memory) (a n k : Nat) (hk : k < n) :
    (m.readSpan a n)[k]'(by simpa using hk) = m.read (a + k) := by
  induction n generalizing a k with
  | zero => omega
  | succ n ih =>
    cases k with
    | zero => simp [Memory.readSpan]
    | succ k =>
      simp only [Memory.readSpan, List.getElem_cons_succ]
      rw [ih (a + 1) k (by omega)]
      congr 1
      omega

theorem Memory.spanError_iff (m : Memory) (a n : Nat) :
    m.spanError a n = true ↔ ∃ k, k < n ∧ m.parityError (a + k) = true := by
  induction n generalizing a with
  | zero => simp [Memory.spanError]
  | succ n ih =>
    simp only [Memory.spanError, Bool.or_eq_true, ih]
    constructor
    · rintro (h | ⟨k, hk, h⟩)
      · exact ⟨0, by omega, by simpa using h⟩
      · exact ⟨k + 1, by omega, by rw [← h]; congr 1; omega⟩
    · rintro ⟨k, hk, h⟩
      cases k with
      | zero => exact .inl (by simpa using h)
      | succ k => exact .inr ⟨k, by omega, by rw [← h]; congr 1; omega⟩

/-- A span write stores its bytes in address order and leaves every other byte as before. -/
theorem Memory.read_writeSpan {m : Memory} (h : m.wf = true) (a : Nat) (bs : List Byte) (hs : a + bs.length ≤ m.definedTo)
    (b : Nat) :
    (m.writeSpan a bs).read b = if a ≤ b ∧ b < a + bs.length then bs.getD (b - a) 0 else m.read b := by
  induction bs generalizing m a with
  | nil =>
    have : ¬ (a ≤ b ∧ b < a) := by omega
    simp [Memory.writeSpan, this]
  | cons v rest ih =>
    simp only [List.length_cons] at hs
    have ha : a < m.definedTo := by omega
    simp only [Memory.writeSpan]
    rw [ih (Memory.write_wf h a v) (a + 1) (by simp; omega), Memory.read_write h ha]
    simp only [List.length_cons]
    by_cases hb : b = a
    · subst hb
      have h1 : ¬ (b + 1 ≤ b ∧ b < b + 1 + rest.length) := by omega
      have h2 : b ≤ b ∧ b < b + (rest.length + 1) := by omega
      rw [if_neg h1, if_pos h2, if_pos rfl]
      simp
    · by_cases h1 : a + 1 ≤ b ∧ b < a + 1 + rest.length
      · have h2 : a ≤ b ∧ b < a + (rest.length + 1) := by omega
        rw [if_pos h1, if_pos h2]
        obtain ⟨k, hk⟩ : ∃ k, b - a = k + 1 := ⟨b - a - 1, by omega⟩
        rw [hk, show b - (a + 1) = k by omega]
        simp
      · have h2 : ¬ (a ≤ b ∧ b < a + (rest.length + 1)) := by omega
        rw [if_neg h1, if_neg h2, if_neg hb]

/-- A span write leaves good parity where it wrote, and every other parity as before. -/
theorem Memory.parityError_writeSpan (m : Memory) (a : Nat) (bs : List Byte) (hs : a + bs.length ≤ m.definedTo) (b : Nat) :
    (m.writeSpan a bs).parityError b = if a ≤ b ∧ b < a + bs.length then false else m.parityError b := by
  induction bs generalizing m a with
  | nil =>
    have : ¬ (a ≤ b ∧ b < a) := by omega
    simp [Memory.writeSpan, this]
  | cons v rest ih =>
    simp only [List.length_cons] at hs
    have ha : a < m.definedTo := by omega
    simp only [Memory.writeSpan]
    rw [ih (m.write a v) (a + 1) (by simp; omega), Memory.parityError_write ha]
    simp only [List.length_cons]
    by_cases h1 : a + 1 ≤ b ∧ b < a + 1 + rest.length
    · have h2 : a ≤ b ∧ b < a + (rest.length + 1) := by omega
      rw [if_pos h1, if_pos h2]
    · by_cases hb : b = a
      · have h2 : a ≤ b ∧ b < a + (rest.length + 1) := by omega
        rw [if_neg h1, if_pos h2, if_pos hb]
      · have h2 : ¬ (a ≤ b ∧ b < a + (rest.length + 1)) := by omega
        rw [if_neg h1, if_neg h2, if_neg hb]

/-- The memory while RESET is asserted for the first time is in form. -/
theorem State.reset_mem_wf : State.reset.mem.wf = true := Memory.undefined_wf 0

end Sys2Proof.Machine
end

