-- ==== Sys2Proof/Laws/Regions.lean ====
section
/-! SUPPORT. What the shared operations of the region and rights commands answer: the handle checks, the searches, the counts
of QUERY_SPACE, the freeing of a region and the setting of a grant entry. -/

namespace Sys2Proof.Machine

theorem Handle.slot?_of_toNat {h : Handle} {i : Slot} (hi : h.slot.toNat = i.val) : h.slot? = some i := by
  unfold Handle.slot?
  rw [dif_pos (by omega)]
  exact congrArg some (Fin.ext hi)

theorem State.current_iff (s : State) (h : Handle) (i : Slot) : s.current h = some i ↔
    h.slot.toNat = i.val ∧ (s.region i).gen = h.gen ∧ ((s.region i).state = .live ∨ (s.region i).state = .retiring) := by
  unfold State.current Handle.slot?
  by_cases hs : h.slot.toNat < 64
  · simp only [hs, dif_pos]
    constructor
    · intro hh
      split_ifs at hh with hc
      injection hh with hh
      subst hh
      exact ⟨rfl, hc⟩
    · rintro ⟨h1, h2, h3⟩
      have : (⟨h.slot.toNat, hs⟩ : Fin 64) = i := Fin.ext h1
      rw [this, if_pos ⟨h2, h3⟩]
  · simp only [hs, dif_neg, not_false_eq_true]
    constructor
    · intro hh; cases hh
    · rintro ⟨h1, -⟩
      exact absurd (h1 ▸ i.isLt) (by omega)

theorem State.handle_of_current {s : State} {h : Handle} {i : Slot} (hc : s.current h = some i) : s.handle i = h := by
  obtain ⟨h1, h2, -⟩ := (State.current_iff s h i).1 hc
  obtain ⟨g, k⟩ := h
  simp only [State.handle, Handle.mk.injEq]
  refine ⟨h2, ?_⟩
  apply BitVec.eq_of_toNat_eq
  simp only at h1
  simp [← h1]

theorem State.ownedLive_of_not_current {s : State} {p : Port} {h : Handle} (hc : s.current h = none) :
    s.ownedLive p h = .error .noRegion := by simp [State.ownedLive, hc]

theorem State.ownedLive_of_not_owner {s : State} {p : Port} {h : Handle} {k : Slot} (hc : s.current h = some k)
    (ho : (s.region k).owner ≠ p) : s.ownedLive p h = .error .notOwner := by simp [State.ownedLive, hc, ho]

theorem State.ownedLive_of_not_live {s : State} {p : Port} {h : Handle} {k : Slot} (hc : s.current h = some k)
    (ho : (s.region k).owner = p) (hl : (s.region k).state ≠ .live) : s.ownedLive p h = .error .retiring := by
  simp [State.ownedLive, hc, ho, hl]

theorem State.ownedLive_of_ownsLive {s : State} {p : Port} {h : Handle} {k : Slot} (hc : s.ownsLive p h k) :
    s.ownedLive p h = .ok k := by
  simp [State.ownedLive, hc.1, hc.2.1, hc.2.2]

theorem find?_indices_eq {n : Nat} (f : Fin n → Bool) (i : Fin n) (hi : f i = true) (hj : ∀ j, j < i → f j = false) :
    (indices n).find? f = some i := by
  rw [List.find?_eq_some_iff_getElem]
  refine ⟨hi, i.val, by simp [indices], by simp [indices], ?_⟩
  intro j hj'
  simp [indices]
  exact hj ⟨j, by omega⟩ hj'

theorem find?_indices_iff {n : Nat} (f : Fin n → Bool) (c : Fin n) :
    (indices n).find? f = some c ↔ f c = true ∧ ∀ d, f d = true → c ≤ d := by
  rw [List.find?_eq_some_iff_getElem]
  constructor
  · rintro ⟨h1, i, hi, h2, h3⟩
    refine ⟨h1, fun d hd => ?_⟩
    by_contra hlt
    rw [not_le] at hlt
    have hic : i = c.val := by have := congrArg Fin.val h2; simpa [indices] using this
    have := h3 d.val (by rw [hic]; exact hlt)
    simp [indices, hd] at this
  · rintro ⟨h1, h2⟩
    refine ⟨h1, c.val, by simp [indices], by simp [indices], ?_⟩
    intro j hj
    have hjn : j < n := lt_trans hj c.isLt
    simp only [Bool.not_eq_true']
    by_contra hf
    have hf : f ⟨j, hjn⟩ = true := by simpa [indices] using hf
    have := h2 _ hf
    rw [Fin.le_def] at this; simp at this; omega

/-- The `n` granules from `g` on are FREE. -/
def RunOfFree (map : BitVec 4096) (g n : Nat) : Prop := ∀ x, g ≤ x → x < g + n → map.getLsbD x = false

theorem countFree_spec (map : BitVec 4096) (n : Nat) : ∀ (g count run best : Nat), run ≤ g → RunOfFree map (g - run) run →
    (run = g ∨ map.getLsbD (g - run - 1) = true) →
    (∃ b, b + best ≤ g ∧ RunOfFree map b best) → (∀ b m, b + m ≤ g → RunOfFree map b m → m ≤ max best run) →
    (countFree map n g count run best).1 = count + ((List.range' g n).filter fun x => !map.getLsbD x).length ∧
    (∃ b, b + (countFree map n g count run best).2 ≤ g + n ∧ RunOfFree map b (countFree map n g count run best).2) ∧
    (∀ b m, b + m ≤ g + n → RunOfFree map b m → m ≤ (countFree map n g count run best).2) := by
  induction n with
  | zero =>
    intro g count run best h1 h2 h3 h4 h5
    simp only [countFree, List.range'_zero, List.filter_nil, List.length_nil, Nat.add_zero, true_and]
    refine ⟨?_, h5⟩
    by_cases h : best ≤ run
    · rw [max_eq_right h]; exact ⟨g - run, by omega, h2⟩
    · rw [max_eq_left (by omega)]; exact h4
  | succ n ih =>
    intro g count run best h1 h2 h3 h4 h5
    rw [List.range'_succ]
    have e : g + (n + 1) = (g + 1) + n := by omega
    rw [e]
    by_cases hb : map.getLsbD g = true
    · simp only [countFree, hb, if_true]
      have := ih (g + 1) count 0 (max best run) (by omega) (fun x a b => by omega) (Or.inr (by simpa using hb)) ?_ ?_
      · simpa [hb] using this
      · by_cases h : best ≤ run
        · rw [max_eq_right h]; exact ⟨g - run, by omega, h2⟩
        · rw [max_eq_left (by omega)]; obtain ⟨b, x, y⟩ := h4; exact ⟨b, by omega, y⟩
      · intro b m hbm hr
        have : b + m ≤ g ∨ m = 0 := by
          by_contra hc
          have := hr g (by omega) (by omega)
          simp [hb] at this
        rcases this with h | h
        · exact le_trans (h5 b m h hr) (le_max_left _ _)
        · omega
    · have hb' : map.getLsbD g = false := by simpa using hb
      simp only [countFree, hb', Bool.false_eq_true, if_false]
      have := ih (g + 1) (count + 1) (run + 1) best (by omega) ?_ ?_ ?_ ?_
      · refine ⟨?_, this.2⟩
        rw [this.1]
        simp [hb']
        omega
      · intro x a b
        by_cases hx : x = g
        · exact hx ▸ hb'
        · exact h2 x (by omega) (by omega)
      · rcases h3 with h | h
        · left; omega
        · right
          have : g + 1 - (run + 1) - 1 = g - run - 1 := by omega
          rw [this]; exact h
      · obtain ⟨b, x, y⟩ := h4; exact ⟨b, by omega, y⟩
      · intro b m hbm hr
        by_cases hc : b + m ≤ g
        · have := h5 b m hc hr; omega
        · by_cases hr' : m ≤ run + 1
          · exact le_trans hr' (le_max_right _ _)
          · exfalso
            rcases h3 with h | h
            · omega
            · have := hr (g - run - 1) (by omega) (by omega)
              simp [h] at this

theorem firstFit_all_some {map : BitVec 4096} {length n g : Nat} (h : firstFit map length (n - length + 1) 0 = some g) :
    (length ≤ n → g + length ≤ n) ∧ runFree map g length = true ∧ ∀ x, x < g → runFree map x length = false := by
  have := firstFit_some h
  refine ⟨fun hl => by omega, this.2.2.1, fun x hx => this.2.2.2 x (by omega) hx⟩

theorem firstFit_all_none {map : BitVec 4096} {length n : Nat} (h : firstFit map length (n - length + 1) 0 = none) {x : Nat}
    (hx : x + length ≤ n) : runFree map x length = false :=
  firstFit_none h (by omega) (by omega)

theorem State.freedEvents_eq (s : State) (i : Slot) : s.freedEvents i =
    ((indices 4).filter fun x => look (s.region i).grants x ≠ .none).map fun x =>
      (x, Event.rightsChanged (s.handle i) .none .freed) := by
  unfold State.freedEvents
  congr 2
  funext x
  cases look (s.region i).grants x <;> rfl

theorem State.channelsNaming_all (s : State) (h : Handle) :
    s.channelsNaming h (fun _ => true) = s.channelsWhere fun x => (x.program.map fun g => g.names h).getD false := by
  simp [State.channelsNaming]

theorem State.freeRegion_unreferenced {s : State} {p : Port} {i : Slot} {h : Handle} (h3 : (s.region i).refs = 0)
    (ow : (s.region i).owner = p) (hh : s.handle i = h) : s.freeRegion i =
      (((s.setRegion i { s.region i with state := .scrubbing, grants := noGrants }).setQuota p
          { s.quota p with granules := (s.quota p).granules - (s.region i).length, regions := (s.quota p).regions - 1 }).setScrub
          { s.scrub with queue := s.scrub.queue ++ [{ slot := i, base := (s.region i).base, length := (s.region i).length }] }).offerEvents
          (((indices 4).filter fun x => look (s.region i).grants x ≠ .none).map fun x => (x, .rightsChanged h .none .freed))
              := by
  subst ow hh
  rw [State.freeRegion, if_pos h3, State.freedEvents_eq]
  congr 1
  simp only [State.enterScrubbing]
  refine State.ext_pieces rfl (fun j => ?_) rfl (fun _ => rfl) (fun q => ?_) rfl rfl rfl rfl (fun _ => rfl) rfl rfl rfl
      rfl ?_ (fun k => rfl) rfl rfl
  · simp; split_ifs <;> simp [h3]
  · simp
  · simp

theorem State.freeRegion_referenced {s : State} {i : Slot} {h : Handle} (h3 : (s.region i).refs ≠ 0)
    (hh : s.handle i = h) : s.freeRegion i =
      ((s.setRegion i { s.region i with state := .retiring, grants := noGrants }).offerEvents
          (((indices 4).filter fun x => look (s.region i).grants x ≠ .none).map fun x => (x,
              .rightsChanged h .none .freed))).discarding
          .retired h (s.channelsNaming h fun _ => true) := by
  subst hh
  rw [State.freeRegion, if_neg h3, State.freedEvents_eq, State.channelsNaming_all]
  unfold State.sendDiscards State.discarding
  congr 2
  unfold State.channelsWhere
  simp

theorem State.channelsWhere_needsRemoved (s : State) (q : Port) (h : Handle) (old new : Rights) :
    (s.channelsWhere fun x => x.needsRemoved q h old new) = s.losing q h old new := by
  unfold State.channelsWhere State.losing
  apply List.filter_congr
  intro c _
  unfold Channel.needsRemoved
  obtain ⟨st, le, pr, ru, re, su, out⟩ := s.channel c
  cases pr with
  | none => simp
  | some g =>
    by_cases hl : le = some q <;> simp [hl, Rights.lostRead, Rights.lostWrite]
    have e : ∀ a b : Handle, (a == b) = decide (a = b) := fun a b => rfl
    cases old <;> cases new <;> simp [Rights.hasRead, Rights.hasWrite, e]

theorem State.setGrant_eq {s : State} {i : Slot} {h : Handle} (hh : s.handle i = h) (q : Port) (new : Rights) :
    s.setGrant i q new = (s.setRegion i { s.region i with grants := put (s.region i).grants q new }).discarding .revoked h
          (s.losing q h (look (s.region i).grants q) new) := by
  subst hh
  unfold State.setGrant State.sendDiscards State.discarding
  rw [← State.channelsWhere_needsRemoved]
  rfl

theorem grantEvents_eq (h : Handle) (q : Port) (old new : Rights) : grantEvents h q old new =
      if new = old then [] else [(q, .rightsChanged h new (if (old.hasRead = true → new.hasRead = true) ∧ (old.hasWrite =
          true → new.hasWrite = true) then .grant else .revoke))] := by
  unfold grantEvents
  cases old <;> cases new <;> rfl

theorem State.discarding_offerEvents (s : State) (k : DiscardCause) (h : Handle) (cs : List Chan) (es : List (Port × Event))
    :
    (s.discarding k h cs).offerEvents es = (s.offerEvents es).discarding k h cs := by
  have key : ∀ (s : State) (x : List (List Order)), (s.setOrders x).offerEvents es = (s.offerEvents es).setOrders x := by
    intro s x
    induction es generalizing s with
    | nil => rfl
    | cons e es ih =>
      simp only [State.offerEvents]
      have : ((s.setOrders x).offerEvent e.1 e.2) = (s.offerEvent e.1 e.2).setOrders x := by
        unfold State.offerEvent
        by_cases hs : s.session e.1 = .opened
        · rw [if_pos (show (s.setOrders x).session e.1 = .opened from hs), if_pos hs]; rfl
        · rw [if_neg (show ¬ (s.setOrders x).session e.1 = .opened from hs), if_neg hs]
      rw [this, ih]
  unfold State.discarding State.sendOrders
  split_ifs
  · rfl
  · rw [key]; simp

theorem State.offerEvents_one (s : State) (p : Port) (e : Event) : s.offerEvents [(p, e)] = s.offerEvent p e := rfl

theorem State.settleClosing_eq (s : State) (p : Port) : s.settleClosing p = s.closingSettled p := by
  unfold State.settleClosing State.closingSettled
  congr 1
  simp [indices]
  intros; simp only [imp_iff_not_or]

end Sys2Proof.Machine
end

