-- ==== Sys2Proof/Laws/Windows.lean ====
section
/-! SUPPORT. The window check: which slot holds a span, under the law of the granule map, and what a denial does. -/

namespace Sys2Proof.Machine

theorem TableController.heldFrom_iff (t : TableController) (n : Nat) : ∀ g, t.heldFrom g n = true ↔ ∀ x, g ≤ x → x ≤ g + n →
    t.held x = true := by
  induction n with
  | zero => intro g; exact ⟨fun h x h1 h2 => by obtain rfl : x = g := by omega
                                                exact h, fun h => h g le_rfl le_rfl⟩
  | succ n ih =>
    intro g
    show (t.held g && t.heldFrom (g+1) n) = true ↔ _
    rw [Bool.and_eq_true, ih]
    constructor
    · rintro ⟨h1, h2⟩ x hx1 hx2
      by_cases hx : x = g
      · rw [hx]; exact h1
      · exact h2 x (by omega) (by omega)
    · intro h
      exact ⟨h g le_rfl (by omega), fun x h1 h2 => h x (by omega) (by omega)⟩

theorem State.holder_covers {s : State} {g : Nat} {i : Slot} (h : s.holder g = some i) : s.covers i g := by
  have := List.find?_some h
  simp only [Bool.and_eq_true, decide_eq_true_eq, bne_iff_ne] at this
  exact ⟨this.1.1, this.1.2, this.2⟩

theorem State.holder_of_covers {s : State} (law : s.GranuleLaw) {g : Nat} {i : Slot} (h : s.covers i g) : s.holder g =
    some i := by
  cases hh : s.holder g with
  | none =>
    have := List.find?_eq_none.1 hh i (by simp [indices])
    simp only [Bool.and_eq_true, decide_eq_true_eq, bne_iff_ne] at this
    exact absurd ⟨⟨h.1, h.2.1⟩, h.2.2⟩ this
  | some j => exact congrArg some (law.once j i g (State.holder_covers hh) h)

theorem State.spanSlot_iff {s : State} (law : s.GranuleLaw) {a n : Nat} (hn : 1 ≤ n) (i : Slot) : s.spanSlot a n = some i ↔
    a + n - 1 < memoryBytes ∧ ∀ g, a / granuleBytes ≤ g → g ≤ (a + n - 1) / granuleBytes → s.table.held g = true ∧
        s.covers i g := by
  have hle : a / granuleBytes ≤ (a + n - 1) / granuleBytes := Nat.div_le_div_right (by omega)
  unfold State.spanSlot
  by_cases hc : memoryBytes ≤ a + n - 1 ∨ (!s.table.heldFrom (a / granuleBytes)
      ((a + n - 1) / granuleBytes - a / granuleBytes)) = true
  · rw [if_pos hc]
    constructor
    · intro h; cases h
    · rintro ⟨h1, h2⟩
      rcases hc with hc | hc
      · omega
      · rw [Bool.not_eq_true', ← Bool.not_eq_true, TableController.heldFrom_iff] at hc
        exact absurd (fun x hx1 hx2 => (h2 x hx1 (by omega)).1) hc
  · rw [if_neg hc]
    rw [not_or, Bool.not_eq_true, Bool.not_eq_false', TableController.heldFrom_iff] at hc
    constructor
    · intro h
      cases hh : s.holder (a / granuleBytes) with
      | none => simp only [hh] at h; cases h
      | some j =>
        simp only [hh] at h
        split_ifs at h with hb
        cases h
        have hcov := State.holder_covers hh
        refine ⟨by omega, fun g hg1 hg2 => ⟨hc.2 g hg1 (by omega), hcov.1, le_trans hcov.2.1 hg1, lt_of_le_of_lt hg2 hb⟩⟩
    · rintro ⟨h1, h2⟩
      simp only [State.holder_of_covers law (h2 _ le_rfl hle).2]
      exact if_pos (h2 _ hle le_rfl).2.2.2

theorem State.denyWindow_eq (s : State) (p : Port) (w : WindowRequest) (cause : DenialCause) : s.denyWindow p w cause =
    s.windowDenied p w cause := by
  unfold State.denyWindow State.windowDenied Link.windowDone deniedBytes
  simp only
  split_ifs <;> cases w.direction <;> rfl

end Sys2Proof.Machine
end

