-- ==== Sys2Proof/WellFormed.lean ====
section
/-! DEFINITION. Which terms of `Instr` name a step of the hub: an order operand names nothing twice, and the frame of an
unknown code does not carry the code of a transaction. -/

namespace Sys2Proof

/-- The six transaction codes of section 11.2. -/
def transactionCodes : List Byte := [0x01, 0x02, 0x03, 0x04, 0x05, 0x06]

/-- A step is well formed when its operands are in range (the ranges of ports, slots, channels and lines are in their types):
an order of slots or channels has no repeats, and the code of UNKNOWN_CODE_FRAME names no transaction (R151). -/
def Instr.wellFormed : Instr → Bool
  | .closeSession _ order => decide order.Nodup
  | .clearNotice order => decide order.Nodup
  | .haltClaim _ order => decide order.Nodup
  | .edgeClaim _ order => decide order.Nodup
  | .unknownCodeFrame _ code _ => !transactionCodes.contains code
  | .openSession _ | .setNotify _ | .allocate _ | .free _ | .pin _ | .unpin _ | .label _ | .find _
  | .queryRegion _ | .querySpace _ | .grant _ | .renounce _ | .offer _ | .withdraw _ | .accept _
  | .decline _ | .lease _ | .release _ | .program _ | .arm _ | .disarm _ | .suspend _ | .resume _
  | .trigger _ | .queryChannel _ | .listChannels _ | .badOpcode _ | .statusRead _ _
  | .commandWrite _ _ | .resultRead _ _ | .eventRead _ _ | .windowRead _ _ | .windowWrite _ _
  | .windowCheck _ | .windowAccess _ | .referenceRelease | .leaseEnd | .scrubDone | .offerExpiry
  | .msTick | .offerTimerExpiry _ | .clrFall _ | .clrRise _ | .haltFall _ | .haltRise _
  | .triggerLevelChange _ | .discardOrder _ | .teardownOrder _ | .unitStart | .unitTransfer _
  | .unitEndReport | .scrubRunStart | .scrubRunEnd | .memoryFault _ _ | .resetAssert
  | .resetRelease _ | .startupClearEnd => true

end Sys2Proof
end

