-- ==== Sys2Proof/Tests/Slice0.lean ====
section
/-! SUPPORT. The model's own tests: terms that `wellFormed` refuses, one step of every row on a small state, and for each
statement with hypotheses a state and operands that meet them. The expected values are taken from the manual's rules and worked
examples, or worked out from them by hand. -/

namespace Sys2Proof.Tests

open Sys2Proof Sys2Proof.Machine

-- One theorem at a time: each is a kernel evaluation.
set_option Elab.async false

/-! ### Small states -/

/-- The hub when the start-up clear has ended: every link ready, every port CLOSED, every granule FREE. -/
def ready : State :=
  { State.reset with
    pins := { State.reset.pins with reset := .high }
    table := { State.reset.table with granules := 0 }
    links := Vector.replicate 4 { Link.empty with notReady := false }
    mem := { definedTo := memoryBytes, resets := 0, bytes := [], bad := [] } }

/-- The handles of slots 0, 1 and 2 in generation 0. -/
def h0 : Handle := { gen := 0, slot := 0 }
def h1 : Handle := { gen := 0, slot := 1 }

/-- A SINGLE program of two units of four bytes, from the first to the second granule of slot 0. -/
def copy : Program :=
  { mode := .single .soft .stop, unit := .four, cls := 1, source := { handle := h0, start := 0, step := .advance }
    dest := { handle := h0, start := 64, step := .advance }, count := 2
    notify := { done := true, wrap := true, stop := true }, chain := none }

/-- Channel 0 with that program. -/
def programmed : Channel :=
  { Channel.empty with state := .programmed, lessee := some 0, program := some copy, run := copy.initialRun false }

/-- The same channel ARMED with its latch set, and RUNNING with a unit in flight. -/
def latched : Channel := { programmed with state := .armed, run := copy.initialRun true }
def flying : Channel :=
  { programmed with state := .running, run := { copy.initialRun false with inService := true, unitInFlight := true } }

/-- Port 0 owns slots 0 and 1, both LIVE, and leases channel 0; port 1 may read slot 0; every port is OPEN. -/
def shop : State :=
  { ready with
    table := { ready.table with
      regions := put (put ready.table.regions 0
        { Region.empty 0 with
          state := .live, base := 0, length := 2, label := 5, grants := put noGrants 1 .read, refs := 2 }) 1
        { Region.empty 0 with state := .live, base := 2, length := 1, label := 9 }
      granules := holdRun 0 0 3
      sessions := Vector.replicate 4 .opened
      quotas := put ready.table.quotas 0 { granules := 3, regions := 2, channels := 1 } }
    chan := { ready.chan with channels := put ready.chan.channels 0 programmed } }

/-- The command record of a port at its turn, tag 7. -/
def asking (s : State) (p : Port) (op : Byte) (args : List Byte) : State :=
  s.setLink p { s.link p with commands := [{ opcode := op, tag := 7, args }] }

/-- A change of slot `i`. -/
def withRegion (s : State) (i : Slot) (f : Region → Region) : State := s.setRegion i (f (s.region i))

/-- A window request of port 0, and a frame of port 0 that is taken in. -/
def window (dir : Direction) (addr : BitVec 24) (n : Nat) (admitted : Bool) : WindowRequest :=
  { direction := dir, addr, length := n, admitted, framed := true }

def frame (code : Byte) (received : List Byte) (live : Bool) : Frame :=
  { summary := 0, notReady := false, code := some code, answer := some .accepted, received, toSend := [], live
    closed := false }

def withLink (s : State) (p : Port) (f : Link → Link) : State := s.setLink p (f (s.link p))

/-- A property of the next state. -/
def after (r : Res) (f : State → Bool) : Bool :=
  match r with
  | .next t => f t
  | .fault _ | .refused _ => false

def stateOf (r : Res) (s : State) : State :=
  match r with
  | .next t => t
  | .fault _ | .refused _ => s

theorem stateOf_next {r : Res} {s : State} (h : after r (fun _ => true) = true) : r = .next (stateOf r s) := by
  cases r <;> simp_all [after, stateOf]

/-- The last result of port `p`: its code and payload. -/
def said (t : State) (p : Port) (code : ResultCode) (payload : List Byte) : Bool :=
  (t.link p).results.getLast?.map (fun x => (x.code, x.payload)) == some (code, payload)

/-! ### Well-formed terms -/

theorem test_order_of_close_repeats : (Instr.closeSession 0 [3, 3]).wellFormed = false := by decide
theorem test_order_of_clear_repeats : (Instr.clearNotice [3, 5, 3]).wellFormed = false := by decide
theorem test_order_of_halt_repeats : (Instr.haltClaim 0 [1, 1]).wellFormed = false := by decide
theorem test_order_of_edge_repeats : (Instr.edgeClaim 0 [0, 2, 0]).wellFormed = false := by decide
theorem test_known_code_is_not_unknown : (Instr.unknownCodeFrame 0 0x06 .select).wellFormed = false := by decide
theorem test_unknown_code_is_wellFormed : (Instr.unknownCodeFrame 0 0x07 .select).wellFormed = true := by decide

/-! ### One step of each row -/

/-- R136: port 1, mode OPEN, revision 1, no pinned region. -/
theorem test_open : after (exec (.openSession 1) (asking ready 1 0x01 [])) (fun t =>
    t.session 1 == .opened && said t 1 .ok [1, 0, 1, 0]) = true := by decide +kernel

/-- R138, R142, R145: the unpinned region without references goes to SCRUBBING, the port stays CLOSING for its channel. -/
theorem test_close : after (exec (.closeSession 0 []) (asking shop 0 0x02 [])) (fun t =>
    t.session 0 == .closing && (t.region 1).state == .scrubbing && (t.region 0).state == .retiring &&
      (t.link 0).results == [] && (t.quota 0).granules == 2) = true := by decide +kernel

theorem test_setNotify : after (exec (.setNotify 2) (asking shop 2 0x03 [0, 1, 0])) (fun t =>
    (t.link 2).settings == { onResult := false, onEvent := true, reportDenials := false } && said t 2 .ok [1, 1, 1]) =
    true := by decide +kernel

/-- R9: the first fit of 60 granules behind the three that are HELD. -/
theorem test_allocate : after (exec (.allocate 2) (asking shop 2 0x04 [0, 60, 0, 7, 0, 0, 0])) (fun t =>
    said t 2 .ok [0, 2, 0, 3] && t.table.held 62 && !t.table.held 63 && (t.quota 2).granules == 60) = true := by
  decide +kernel

/-- The chapter 1 example: a base of 4,090 with length 20 runs past the end. -/
theorem test_allocate_past_end : after (exec (.allocate 2) (asking shop 2 0x04 [0, 20, 0, 0, 1, 0x0F, 0xFA])) (fun t =>
    said t 2 .badArg [] && t.table.granules == shop.table.granules) = true := by decide +kernel

/-- R14, R16: no references, so SCRUBBING at once. -/
theorem test_free : after (exec (.free 0) (asking shop 0 0x05 [0, 1])) (fun t =>
    said t 0 .ok [3] && t.scrub.queue == [{ slot := 1, base := 2, length := 1 }] &&
      t.quota 0 == { granules := 2, regions := 1, channels := 1 }) = true := by decide +kernel

/-- R15: two references, so RETIRING, a DISCARD for channel 0 and RIGHTS_CHANGED for port 1. -/
theorem test_free_referenced : after (exec (.free 0) (asking shop 0 0x05 [0, 0])) (fun t =>
    said t 0 .ok [2] && t.chan.orders == [[{ channel := 0, kind := .discard .retired h0 }]] &&
      (t.link 1).events == [.rightsChanged h0 .none .freed] && (t.quota 0).granules == 3) = true := by decide +kernel

theorem test_pin : after (exec (.pin 0) (asking shop 0 0x06 [0, 1])) (fun t =>
    said t 0 .ok [0] && (t.region 1).pinned) = true := by decide +kernel

theorem test_unpin : after (exec (.unpin 0) (asking (withRegion shop 1 fun r => { r with pinned := true }) 0 0x07 [0, 1]))
    (fun t => said t 0 .ok [1] && !(t.region 1).pinned) = true := by decide +kernel

theorem test_label : after (exec (.label 0) (asking shop 0 0x08 [0, 1, 0x12, 0x34])) (fun t =>
    said t 0 .ok [] && (t.region 1).label == 0x1234) = true := by decide +kernel

/-- R23: slot 1, owner 0, base 2, length 1. -/
theorem test_find : after (exec (.find 3) (asking shop 3 0x09 [0, 9, 0])) (fun t =>
    said t 3 .ok [0, 1, 0, 0, 2, 0, 1]) = true := by decide +kernel

theorem test_queryRegion : after (exec (.queryRegion 1) (asking shop 1 0x0A [0, 0])) (fun t =>
    said t 1 .ok [1, 0, 0, 0, 0, 2, 0, 5, 0, 2, 1, 0xFF, 0, 0]) = true := by decide +kernel

/-- R25: 4,093 granules FREE in one run, none scrubbing; no usage under OPEN. -/
theorem test_querySpace : after (exec (.querySpace 1) (asking shop 1 0x0B [])) (fun t =>
    said t 1 .ok [0x0F, 0xFD, 0x0F, 0xFD, 0, 0, 0, 0, 0, 0]) = true := by decide +kernel

/-- R31: port 1 had READ and gets WRITE: READ is missing, so the reason is REVOKE. -/
theorem test_grant : after (exec (.grant 0) (asking shop 0 0x0C [0, 0, 1, 2])) (fun t =>
    said t 0 .ok [1] && (t.link 1).events == [.rightsChanged h0 .write .revoke]) = true := by decide +kernel

theorem test_renounce : after (exec (.renounce 1) (asking shop 1 0x0D [0, 0])) (fun t =>
    said t 1 .ok [1] && look (t.region 0).grants 1 == .none && (t.link 1).events == []) = true := by decide +kernel

theorem test_offer : after (exec (.offer 0) (asking shop 0 0x0E [0, 1, 2, 0, 250])) (fun t =>
    said t 0 .ok [] && (t.region 1).offer == some { target := 2, remaining := 250 } &&
      (t.link 2).events == [.offerReceived h1 0 1 9 250]) = true := by decide +kernel

/-- Slot 1 stands offered to port 2 with 150 ms left. -/
def offered : State := withRegion shop 1 fun r => { r with offer := some { target := 2, remaining := 150 } }

theorem test_withdraw : after (exec (.withdraw 0) (asking offered 0 0x0F [0, 1])) (fun t =>
    said t 0 .ok [0, 150] && (t.region 1).offer == none && (t.link 2).events == [.offerCancelled h1 0 .withdrawn]) =
    true := by decide +kernel

theorem test_accept : after (exec (.accept 2) (asking offered 2 0x10 [0, 1])) (fun t =>
    said t 2 .ok [0, 2, 0, 1, 0, 9, 0] && (t.region 1).owner == 2 && (t.quota 2).granules == 1 &&
      (t.quota 0).granules == 2 && (t.link 0).events == [.offerResolved h1 2 .accepted]) = true := by decide +kernel

theorem test_decline : after (exec (.decline 2) (asking offered 2 0x11 [0, 1])) (fun t =>
    said t 2 .ok [] && (t.region 1).offer == none && (t.region 1).owner == 0 &&
      (t.link 0).events == [.offerResolved h1 2 .declined]) = true := by decide +kernel

/-- R63: ANY takes the lowest FREE channel. -/
theorem test_lease : after (exec (.lease 2) (asking shop 2 0x12 [0xFF])) (fun t =>
    said t 2 .ok [1] && (t.channel 1).lessee == some 2 && (t.quota 2).channels == 1) = true := by decide +kernel

theorem test_release : after (exec (.release 0) (asking shop 0 0x13 [0])) (fun t =>
    said t 0 .ok [2] && t.channel 0 == Channel.empty &&
      t.table.notices == [.referenceRelease h0, .referenceRelease h0]) = true := by decide +kernel

/-- A program from slot 1 to slot 0 replaces the one from slot 0 to slot 0. -/
theorem test_program : after (exec (.program 0) (asking shop 0 0x14 (0 ::
    { copy with source := { handle := h1, start := 0, step := .advance } }.encode))) (fun t =>
    said t 0 .ok [1] && (t.region 0).refs == 1 && (t.region 1).refs == 1) = true := by decide +kernel

theorem test_arm : after (exec (.arm 0) (asking shop 0 0x15 [0])) (fun t =>
    said t 0 .ok [0] && (t.channel 0).state == .armed && !(t.channel 0).run.latch) = true := by decide +kernel

theorem test_disarm : after (exec (.disarm 0) (asking (shop.setChannel 0 latched) 0 0x16 [0])) (fun t =>
    said t 0 .ok [0] && (t.channel 0).state == .programmed && (t.channel 0).outcome == .aborted &&
      (t.channel 0).run.latch && (t.link 0).events == [.channelStopped 0 .aborted false]) = true := by decide +kernel

theorem test_suspend : after (exec (.suspend 0) (asking (shop.setChannel 0 flying) 0 0x17 [0])) (fun t =>
    said t 0 .ok [1] && (t.channel 0).recorded == some (.suspend .command) && (t.channel 0).state == .running) = true := by
  decide +kernel

theorem test_resume : after (exec (.resume 0) (asking (shop.setChannel 0
    { latched with state := .suspended, suspension := some .halt }) 0 0x18 [0])) (fun t =>
    said t 0 .ok [1] && (t.channel 0).state == .armed && !(t.channel 0).run.latch && (t.channel 0).suspension == none) =
    true := by decide +kernel

/-- R85: an overrun under STOP with no unit in flight stops the channel. -/
theorem test_trigger : after (exec (.trigger 0) (asking (shop.setChannel 0 latched) 0 0x19 [0])) (fun t =>
    said t 0 .ok [2] && (t.channel 0).outcome == .overrun && (t.link 0).events == [.channelStopped 0 .overrun false]) =
    true := by decide +kernel

theorem test_queryChannel : after (exec (.queryChannel 3) (asking shop 3 0x1A [0])) (fun t =>
    said t 3 .ok ([2, 0] ++ [0, 0xFF, 4, 1, 0, 0, 0, 0, 0, 0, 0, 0, 0, 0, 64, 0, 0, 0, 2, 0xFF, 0xFF, 0xFF, 0, 0xFF, 0xFF, 1, 7, 0xFF] ++
      [0, 0, 0, 0, 0, 64, 0, 0, 2, 0, 0, 0, 0, 0, 0, 0xFF, 0, 0xFF])) = true := by decide +kernel

theorem test_listChannels : after (exec (.listChannels 3) (asking shop 3 0x1B [])) (fun t =>
    said t 3 .ok ([2, 0] ++ (List.replicate 15 [0, 0xFF]).flatten)) = true := by decide +kernel

/-- R159: opcode 0x1C names no command; the result echoes it. -/
theorem test_badOpcode : after (exec (.badOpcode 0) (asking ready 0 0x1C [])) (fun t =>
    (t.link 0).results == [{ opcode := 0x1C, tag := 7, code := .badOpcode, payload := [] }] && t.table.pointer == 0) =
    true := by decide +kernel

/-- R155: port 1, CLOSED, OPEN mode, empty queues, all settings on, no line high. The summary says CLOSED with room. -/
theorem test_statusRead : after (exec (.statusRead 1 (.whole (List.replicate 10 0))) ready) (fun t =>
    (t.link 1).out == [0x60, 0x01, 1, 1, 0, 0, 0, 0, 0x0E, 0, 0]) = true := by decide +kernel

theorem test_commandWrite : after (exec (.commandWrite 1 (.whole [0x08, 9, 2, 0xAA, 0xBB])) ready) (fun t =>
    (t.link 1).commands == [{ opcode := 0x08, tag := 9, args := [0xAA, 0xBB] }] && !(t.link 1).malformed) = true := by
  decide +kernel

theorem test_commandWrite_short : after (exec (.commandWrite 1 (.whole [0x08, 9, 2, 0xAA])) ready) (fun t =>
    (t.link 1).commands == [] && (t.link 1).malformed) = true := by decide +kernel

theorem test_resultRead : after (exec (.resultRead 0 (.whole (List.replicate 7 0)))
    (withLink ready 0 fun l => { l with results := [{ opcode := 4, tag := 9, code := .noSpace, payload := [] }] }))
    (fun t => (t.link 0).out == [0x70, 0x01, 4, 9, 7, 0, 0, 0] && (t.link 0).results == []) = true := by decide +kernel

theorem test_eventRead : after (exec (.eventRead 0 (.whole (List.replicate 6 0)))
    (withLink ready 0 fun l => { l with events := [.overrun 258] }))
    (fun t => (t.link 0).out == [0x68, 0x01, 0x0C, 2, 1, 2, 0] && (t.link 0).events == []) = true := by decide +kernel

theorem test_windowRead : after (exec (.windowRead 0 (.opening [0, 1, 2, 3])) ready) (fun t =>
    (t.link 0).window == some (window .read 258 4 false)) = true := by decide +kernel

theorem test_windowWrite : after (exec (.windowWrite 0 (.opening [0, 0, 64, 1, 0xAA, 0xBB])) ready) (fun t =>
    (t.link 0).window == some (window .write 64 2 false) && (t.link 0).buffer == [0xAA, 0xBB]) = true := by decide +kernel

theorem test_unknownCode : after (exec (.unknownCodeFrame 0 0x20 (.whole [1, 2])) ready) (fun t =>
    (t.link 0).malformed && (t.link 0).out == [0x60, 0x07, 0]) = true := by decide +kernel

/-- R36: port 1 may read slot 0 but not write it. -/
theorem test_windowCheck : after (exec (.windowCheck 1)
    (withLink shop 1 fun l => { l with window := some (window .write 64 2 false), buffer := [1, 2] })) (fun t =>
    (t.link 1).window == none && (t.link 1).buffer == [] &&
      (t.link 1).events == [.accessDenied 64 2 .write .noRight]) = true := by decide +kernel

theorem test_windowAccess : after (exec (.windowAccess 0)
    (withLink shop 0 fun l =>
      { l with window := some (window .write 64 2 true), buffer := [1, 2], frame := some (frame 6 [] true) })) (fun t =>
    t.mem.read 64 == 1 && t.mem.read 65 == 2 && (t.link 0).frame.map Frame.toSend == some [0xC1]) = true := by
  decide +kernel

/-- R12: the last reference of a RETIRING region. -/
theorem test_referenceRelease : after (exec .referenceRelease
    ((withRegion shop 1 fun r => { r with state := .retiring, refs := 1 }).setNotices [.referenceRelease h1])) (fun t =>
    (t.region 1).state == .scrubbing && (t.region 1).refs == 0 && (t.link 0).events == [.regionRetired h1] &&
      (t.quota 0).regions == 1) = true := by decide +kernel

/-- R65, R145: the last channel of a CLOSING port. -/
theorem test_leaseEnd : after (exec .leaseEnd
    ((shop.setSession 0 .closing).setNotices [.leaseEnd 0 0])) (fun t =>
    (t.quota 0).channels == 0 && t.session 0 == .closed && t.table.notices == []) = true := by decide +kernel

theorem test_scrubDone : after (exec .scrubDone
    ((withRegion shop 1 fun r => { r with state := .scrubbing, gen := 0xFF }).setNotices [.scrubDone 1])) (fun t =>
    t.region 1 == Region.empty 0 && !t.table.held 2 && t.table.held 1) = true := by decide +kernel

theorem test_offerExpiry : after (exec .offerExpiry
    ((withRegion offered 1 fun r => { r with offer := some { target := 2, remaining := 0 } }).setNotices [.offerExpiry 1]))
    (fun t => (t.region 1).offer == none && (t.link 0).events == [.offerResolved h1 2 .expired] &&
      (t.link 2).events == [.offerCancelled h1 0 .expired]) = true := by decide +kernel

theorem test_clearNotice : after (exec (.clearNotice []) (shop.setNotices [.clear 1])) (fun t =>
    t.session 1 == .closed && look (t.region 0).grants 1 == .none && t.table.notices == []) = true := by decide +kernel

theorem test_msTick : after (exec .msTick (withRegion offered 1 fun r => { r with offer := some { target := 2, remaining := 1 } }))
    (fun t => (t.region 1).offer == some { target := 2, remaining := 0 } && t.table.expiryDue == [1]) = true := by
  decide +kernel

theorem test_offerTimerExpiry : after (exec (.offerTimerExpiry 1) (shop.setExpiryDue [1])) (fun t =>
    t.table.notices == [.offerExpiry 1] && t.table.expiryDue == []) = true := by decide +kernel

theorem test_clrFall : after (exec (.clrFall 3) (shop.setNotices [.clear 3])) (fun t =>
    look t.pins.clr 3 == .low && t.table.notices == [.clear 3]) = true := by decide +kernel

theorem test_clrRise : after (exec (.clrRise 3) (shop.setClr 3 .low)) (fun t =>
    look t.pins.clr 3 == .high && t.table.notices == []) = true := by decide +kernel

theorem test_haltFall : after (exec (.haltFall 2) shop) (fun t =>
    look t.pins.halt 2 == .low && t.chan.haltClaims == [2]) = true := by decide +kernel

theorem test_haltRise : after (exec (.haltRise 2) (shop.setHalt 2 .low)) (fun t =>
    look t.pins.halt 2 == .high && t.chan.haltClaims == []) = true := by decide +kernel

theorem test_haltClaim : after (exec (.haltClaim 0 []) ((shop.setChannel 0 latched).setHaltClaims [0])) (fun t =>
    (t.channel 0).state == .suspended && (t.channel 0).suspension == some .halt && !(t.channel 0).run.latch &&
      (t.link 0).events == [.channelSuspended 0 .halt]) = true := by decide +kernel

theorem test_triggerLevelChange : after (exec (.triggerLevelChange 5) shop) (fun t =>
    look t.pins.trg 5 == .high && t.chan.edgeClaims == [{ line := 5, edge := .rise }]) = true := by decide +kernel

/-- An ARMED channel with activation LINE 5 RISE is latched by the rise of TRG5. -/
def waiting : State :=
  (shop.setChannel 0 { latched with
    run := copy.initialRun false, program := some { copy with mode := .single (.line 5 .rise) .merge } }).setEdgeClaims
    [{ line := 5, edge := .rise }]

theorem test_edgeClaim : after (exec (.edgeClaim 5 []) waiting) (fun t =>
    (t.channel 0).run.latch && t.chan.edgeClaims == []) = true := by decide +kernel

theorem test_discardOrder : after (exec (.discardOrder 0) (shop.setOrders [[{ channel := 0, kind := .discard .revoked h0 }]]))
    (fun t => (t.channel 0).state == .leased && (t.channel 0).outcome == .revoked &&
      t.table.notices == [.referenceRelease h0, .referenceRelease h0] && t.chan.orders == []) = true := by decide +kernel

theorem test_teardownOrder : after (exec (.teardownOrder 0) (shop.setOrders [[{ channel := 0, kind := .teardown }]]))
    (fun t => t.channel 0 == Channel.empty && t.table.notices ==
      [.referenceRelease h0, .referenceRelease h0, .leaseEnd 0 0]) = true := by decide +kernel

/-- R96, R97: channel 0 is granted its unit, and its class pointer moves from C15. -/
theorem test_unitStart : after (exec .unitStart (shop.setChannel 0 latched)) (fun t =>
    (t.channel 0).state == .running && !(t.channel 0).run.latch && look t.engine.pointers 1 == 0 &&
      t.engine.unit.map (fun u => (u.source, u.dest)) == some (0, 64)) = true := by decide +kernel

/-- A unit of channel 0 as it starts. -/
def unit : UnitInFlight :=
  { channel := 0, source := 0, dest := 64, size := .four, buffer := [], dataError := false, phase := .started }

def moving (u : UnitInFlight) : State := (shop.setChannel 0 flying).setEngine { shop.engine with unit := some u }

theorem test_unitTransfer : after (exec (.unitTransfer .both)
    ((moving unit).setMem { ready.mem with bytes := [(1, 0xAB), (65, 0x11), (66, 0x22)], bad := [66] })) (fun t =>
    t.mem.bytes == [(1, 0xAB), (65, 0xAB)] && t.mem.bad == []) = true := by decide +kernel

theorem test_unitTransfer_dataError : after (exec (.unitTransfer .both)
    ((moving unit).setMem { ready.mem with bytes := [(1, 0xAB)], bad := [3] })) (fun t =>
    t.mem.bytes == [(1, 0xAB)] && t.engine.unit.map UnitInFlight.dataError == some true) = true := by decide +kernel

theorem test_unitEndReport : after (exec .unitEndReport (moving { unit with phase := .reported })) (fun t =>
    (t.channel 0).state == .armed && (t.channel 0).run.sourceOffset == 4 && (t.channel 0).run.destOffset == 68 &&
      (t.channel 0).run.remaining == 1 && t.engine.unit == none) = true := by decide +kernel

theorem test_scrubRunStart : after (exec .scrubRunStart (shop.setScrub
    { shop.scrub with queue := [{ slot := 1, base := 2, length := 1 }] })) (fun t => t.scrub.running == some 0) = true := by
  decide +kernel

theorem test_scrubRunEnd : after (exec .scrubRunEnd ((shop.setScrub
    { queue := [{ slot := 1, base := 2, length := 1 }], running := some 0, startup := false }).setMem
    { ready.mem with bytes := [(127, 1), (128, 2), (191, 3), (192, 4)], bad := [128] })) (fun t =>
    t.mem.bytes == [(127, 1), (192, 4)] && t.mem.bad == [] && t.table.notices == [.scrubDone 1] && t.scrub.queue == []) =
    true := by decide +kernel

theorem test_memoryFault : after (exec (.memoryFault 5 0x80) shop) (fun t =>
    t.mem.read 5 == 0x80 && t.mem.parityError 5 && !t.mem.parityError 4) = true := by decide +kernel

theorem test_resetAssert : after (exec .resetAssert shop) (fun t =>
    t.region 0 == Region.empty 0 && t.session 0 == .closed && t.table.held 4095 && (t.link 0).notReady &&
      t.channel 0 == Channel.empty) = true := by decide +kernel

theorem test_resetRelease : after (exec (.resetRelease
    { qsel := .high, trg := Vector.replicate 8 .high, halt := Vector.replicate 4 .low, clr := Vector.replicate 4 .high })
    State.reset) (fun t => t.table.quotaMode == .split && t.scrub.startup && look t.pins.trg 7 == .high &&
      t.chan.edgeClaims == [] && (t.link 0).notReady) = true := by decide +kernel

theorem test_startupClearEnd : after (exec .startupClearEnd (State.reset.setScrub { ScrubUnit.reset with startup := true }))
    (fun t => !t.table.held 0 && !t.table.held 4095 && !(t.link 3).notReady && t.mem.read 262143 == 0 && !t.scrub.startup) =
    true := by decide +kernel

/-- No word spells a step: the table gives no row any bits. -/
theorem test_decodeTableWord : decodeTableWord 32 0xFFFFFFFF = none := rfl

/-! ### Witnesses: a state and operands that meet the hypotheses of a statement -/

/-- StepRunsFrontCommand. -/
theorem witness_step : { shop with pending := [Instr.msTick, .unitStart] }.pending = Instr.msTick :: [.unitStart] := rfl

/-- The start-up clear with its last granule still to come, and with two; a run of two granules with one cleared, and none. -/
def starting (defined : Nat) : State :=
  (shop.setScrub { ScrubUnit.reset with startup := true }).setMem { shop.mem with definedTo := defined }
def scrubbing (k : Nat) : State :=
  shop.setScrub { queue := [{ slot := 1, base := 2, length := 2 }], running := some k, startup := false }

/-- IdleHubClearsGranules, clause by clause. -/
theorem witness_idle :
    (shop.pending = [] ∧ shop.scrub.startup = false ∧ shop.scrub.running = none) ∧
    ((starting 262016).pending = [] ∧ (starting 262016).scrub.startup = true ∧
      (starting 262016).mem.definedTo + 64 < memoryBytes) ∧
    ((starting 262080).scrub.startup = true ∧ memoryBytes ≤ (starting 262080).mem.definedTo + 64) ∧
    ((scrubbing 1).scrub.running = some 1 ∧ 2 ≤ 1 + 1) ∧ (scrubbing 0).scrub.running = some 0 := by decide +kernel

/-- ResetSequence. -/
theorem witness_reset : State.reset.pins.reset = .low ∧ (starting 64).MemoryLaw ∧ (starting 64).scrub.startup = true := by
  unfold State.MemoryLaw; decide +kernel

/-- MemoryFaultEffect: the last byte that is defined, and the first that is not. -/
theorem witness_memoryFault :
    (starting 64).MemoryLaw ∧ (starting 64).mem.definedTo ≤ (64 : BitVec 18).toNat ∧
      (63 : BitVec 18).toNat < (starting 64).mem.definedTo := by
  unfold State.MemoryLaw; decide +kernel

/-- ScrubCycle: the notice is the one of a region at the top of the memory. -/
def atTop : State :=
  (withRegion shop 1 fun r => { r with state := .scrubbing, base := 4095 }).setNotices [.scrubDone 1]

theorem witness_scrub :
    ((scrubbing 0).setScrub { (scrubbing 0).scrub with running := none }).scrub.queue ≠ [] ∧
    ((scrubbing 1).scrub.queue = [{ slot := 1, base := 2, length := 2 }] ∧ (scrubbing 1).scrub.running = some 1) ∧
    (atTop.table.notices = [.scrubDone 1] ∧ atTop.accessPending = false ∧
      (atTop.region 1).base + (atTop.region 1).length ≤ granuleCount) := by decide +kernel

/-- RecordAndSessionChecks: the opcodes next to the named ones, a wrong length, a CLOSED port, an OPEN one. -/
theorem witness_recordChecks :
    (asking shop 0 0x00 []).serves 0 { opcode := 0x00, tag := 7, args := [] } ∧
    (asking shop 0 0x1C []).serves 0 { opcode := 0x1C, tag := 7, args := [] } ∧
    (asking shop 0 0x03 [1, 1]).serves 0 { opcode := 0x03, tag := 7, args := [1, 1] } ∧
    (asking ready 0 0x03 [1, 1, 1]).serves 0 { opcode := 0x03, tag := 7, args := [1, 1, 1] } ∧
    ready.session 0 = .closed ∧
    (asking shop 0 0x01 []).serves 0 { opcode := 0x01, tag := 7, args := [] } ∧ shop.session 0 = .opened := by
  unfold State.serves; decide +kernel

/-- TurnsFollowThePointer: a port with no record. -/
theorem witness_turns : commandRow (.free 0) = some (0, 0x05, 2) ∧
    ∀ r, shop.serves 0 r → r.opcode ≠ 0x05 ∨ shop.session 0 = .closing := by
  have none : (shop.link 0).commands.head? = none := by decide +kernel
  exact ⟨rfl, fun r h => absurd (none.symm.trans h.1) (by simp)⟩

/-- TurnsFollowThePointer, the notice rows: an admitted access beside a notice, and a notice of another kind at the head. -/
def admittedBeside (n : Notice) : State :=
  (withLink shop 1 fun l => { l with window := some { window .read 0 1 true with admitted := true } }).setNotices [n]

theorem witness_noticeTurns : ∀ n ∈ [Notice.leaseEnd 0 0, .scrubDone 0],
    (∃ q, ∃ w ∈ ((admittedBeside n).link q).window, w.admitted = true) ∧ (admittedBeside n).accessPending = true ∧
    ∀ m ∈ (shop.setNotices [n]).table.notices.head?, ¬ ∃ h, m = .referenceRelease h := by
  intro n hn
  simp only [List.mem_cons, List.not_mem_nil, or_false] at hn
  rcases hn with rfl | rfl <;>
    exact ⟨⟨1, { window .read 0 1 true with admitted := true }, by decide +kernel, rfl⟩, by decide +kernel,
      fun m hm => by cases hm; simp⟩

/-- EveryTakingWritesOneResult: a command, a CLOSE, and an opcode that names no command. -/
theorem witness_takings :
    ((∃ t, exec (.free 0) (asking shop 0 0x05 [0, 1]) = .next t) ∧
      (asking shop 0 0x05 [0, 1]).serves 0 { opcode := 0x05, tag := 7, args := [0, 1] }) ∧
    ((∃ t, exec (.closeSession 0 []) (asking shop 0 0x02 []) = .next t) ∧
      (asking shop 0 0x02 []).serves 0 { opcode := 0x02, tag := 7, args := [] }) ∧
    ((∃ t, exec (.badOpcode 0) (asking shop 0 0x1C []) = .next t) ∧
      (asking shop 0 0x1C []).serves 0 { opcode := 0x1C, tag := 7, args := [] }) := by
  refine ⟨⟨⟨_, stateOf_next (s := shop) ?_⟩, ?_⟩, ⟨⟨_, stateOf_next (s := shop) ?_⟩, ?_⟩,
    ⟨⟨_, stateOf_next (s := shop) ?_⟩, ?_⟩⟩ <;> first | decide +kernel | (unfold State.serves; decide +kernel)

/-- RefusedCommandsChangeNothing: a FREE of a pinned region. -/
def refusing : State := asking (withRegion shop 1 fun r => { r with pinned := true }) 0 0x05 [0, 1]

theorem witness_refused : refusing.serves 0 { opcode := 0x05, tag := 7, args := [0, 1] } ∧
    refusing.session 0 ≠ .closing ∧ ∃ t, exec (.free 0) refusing = .next t ∧
      (t.link 0).results = (refusing.link 0).results ++ [{ opcode := 0x05, tag := 7, code := .pinned, payload := [] }] :=
  ⟨by unfold State.serves; decide +kernel, by decide +kernel, _,
    stateOf_next (s := shop) (by decide +kernel), by decide +kernel⟩

/-- OpenEffect, at both levels of CLRk. -/
theorem witness_open :
    (asking ready 0 0x01 []).serves 0 { opcode := 0x01, tag := 7, args := [] } ∧ ready.session 0 = .closed ∧
    look ready.pins.clr 0 = .high ∧
    (asking (ready.setClr 0 .low) 0 0x01 []).serves 0 { opcode := 0x01, tag := 7, args := [] } := by
  unfold State.serves; decide +kernel

/-- SessionCloseEffect: a CLOSE, and a clear notice for an OPEN and for a CLOSED port. -/
theorem witness_close :
    (asking shop 0 0x02 []).servesOpen 0 0x02 7 [] ∧
    ((shop.setNotices [.clear 0]).table.notices = [.clear 0] ∧ (shop.setNotices [.clear 0]).accessPending = false ∧
      shop.session 0 = .opened) ∧ ready.session 0 ≠ .opened := by
  unfold State.servesOpen State.serves; decide +kernel

/-- SetNotifyEffect: the largest setting that is ON, and the smallest that is none. -/
theorem witness_setNotify :
    (asking shop 0 0x03 [1, 0, 1]).servesOpen 0 0x03 7 [1, 0, 1] ∧
    (asking shop 0 0x03 [1, 0, 2]).servesOpen 0 0x03 7 [1, 0, 2] := by
  unfold State.servesOpen State.serves; decide +kernel

/-- HandlesAndOwnerChecks: slot 64, a wrong generation, another owner, a RETIRING region. -/
theorem witness_ownerChecks :
    (asking shop 0 0x05 [0, 64]).servesOpen 0 0x05 7 [0, 64] ∧ shop.current { gen := 0, slot := 64 } = none ∧
    (asking shop 0 0x05 [1, 0]).servesOpen 0 0x05 7 [1, 0] ∧ shop.current { gen := 1, slot := 0 } = none ∧
    (asking shop 1 0x0E [0, 0, 2, 0, 1]).servesOpen 1 0x0E 7 [0, 0, 2, 0, 1] ∧ shop.current h0 = some 0 ∧
    (shop.region 0).owner ≠ 1 ∧
    (asking (withRegion shop 0 fun r => { r with state := .retiring }) 0 0x08 [0, 0, 1, 1]).servesOpen 0 0x08 7 [0, 0, 1, 1] ∧
    (withRegion shop 0 fun r => { r with state := .retiring }).current h0 = some 0 := by
  unfold State.servesOpen State.serves; decide +kernel

/-! ALLOCATE: a hub with every slot LIVE, one with every granule HELD, and one under SPLIT at its limits. -/

def split : State := shop.setQuotaMode .split
def allHeld : State := shop.setGranules (BitVec.allOnes 4096)

theorem witness_allocate_refused :
    (asking shop 0 0x04 [0, 0, 0, 0, 0, 0, 0]).servesOpen 0 0x04 7 [0, 0, 0, 0, 0, 0, 0] ∧
    (asking shop 0 0x04 [0x10, 1, 0, 0, 0, 0, 0]).servesOpen 0 0x04 7 [0x10, 1, 0, 0, 0, 0, 0] ∧
    (asking shop 0 0x04 [0, 1, 0, 0, 2, 0, 0]).servesOpen 0 0x04 7 [0, 1, 0, 0, 2, 0, 0] ∧
    (asking shop 0 0x04 [0, 2, 0, 0, 1, 0x0F, 0xFF]).servesOpen 0 0x04 7 [0, 2, 0, 0, 1, 0x0F, 0xFF] ∧
    (∀ i, ((shop.mapRegions fun r => { r with state := .live }).region i).state ≠ .unused) ∧
    (split.table.quotaMode = .split ∧ 1024 < (split.quota 0).granules + 1022 ∧ (split.region 2).state = .unused) ∧
    16 ≤ ((split.setQuota 0 { granules := 16, regions := 16, channels := 0 }).quota 0).regions := by
  unfold State.servesOpen State.serves; decide +kernel

theorem witness_allocate_noSpace (place : Byte) : ∀ g, ¬ (allHeld.FreeRun g 1 ∧ (place = 1 → g = 0)) := by
  intro g h
  have held : allHeld.table.held g = decide (g < 4096) := BitVec.getLsbD_allOnes
  have lt : g + 1 ≤ 4096 := h.1.1
  rw [h.1.2 g le_rfl (by omega)] at held
  simp at held
  omega

theorem witness_allocate :
    (asking ready 0 0x04 [0x10, 0, 0, 0, 0, 0, 0]).servesOpen 0 0x04 7 [0x10, 0, 0, 0, 0, 0, 0] = False ∧
    (asking (ready.setSession 0 .opened) 0 0x04 [0x10, 0, 0, 0, 1, 0, 0]).servesOpen 0 0x04 7 [0x10, 0, 0, 0, 1, 0, 0] ∧
    (ready.region 0).state = .unused ∧ ready.FreeRun 0 4096 := by
  refine ⟨?_, ?_, by decide +kernel, le_rfl, fun x _ _ => ?_⟩
  · exact eq_false fun h => absurd h.2 (by decide +kernel)
  · unfold State.servesOpen State.serves; decide +kernel
  · simp [ready, TableController.held]

/-- FreeEffect: pinned, offered, without and with references. -/
theorem witness_free :
    (asking shop 0 0x05 [0, 1]).servesOpen 0 0x05 7 [0, 1] ∧ shop.ownsLive 0 h1 1 ∧ shop.ownsLive 0 h0 0 ∧
    (shop.region 1).pinned = false ∧ (shop.region 1).offer = none ∧ (shop.region 1).refs = 0 ∧ (shop.region 0).refs ≠ 0 ∧
    (withRegion shop 1 fun r => { r with pinned := true }).ownsLive 0 h1 1 ∧
    offered.ownsLive 0 h1 1 ∧ (offered.region 1).pinned = false ∧ (offered.region 1).offer ≠ none := by
  unfold State.servesOpen State.serves State.ownsLive; decide +kernel

/-- PinUnpinLabelEffect. -/
theorem witness_pin :
    (asking shop 0 0x06 [0, 0]).servesOpen 0 0x06 7 [0, 0] ∧ (asking shop 0 0x07 [0, 0]).servesOpen 0 0x07 7 [0, 0] ∧
    (asking shop 0 0x08 [0, 0, 1, 2]).servesOpen 0 0x08 7 [0, 0, 1, 2] ∧ (asking shop 0 0x06 [0, 0]).ownsLive 0 h0 0 := by
  unfold State.servesOpen State.serves State.ownsLive; decide +kernel

/-- FindEffect: a label of 0, first slot 64, no hit from slot 2 on, and slot 1 as the lowest hit. -/
theorem witness_find :
    (asking shop 3 0x09 [0, 0, 0]).servesOpen 3 0x09 7 [0, 0, 0] ∧
    (asking shop 3 0x09 [0, 9, 64]).servesOpen 3 0x09 7 [0, 9, 64] ∧
    (asking shop 3 0x09 [0, 9, 63]).servesOpen 3 0x09 7 [0, 9, 63] ∧
    (∀ i : Slot, ¬ (63 ≤ i.val ∧ (shop.region i).state = .live ∧ (shop.region i).label = 9)) ∧
    (asking shop 3 0x09 [0, 9, 1]).servesOpen 3 0x09 7 [0, 9, 1] ∧
    (1 ≤ (1 : Slot).val ∧ (shop.region 1).state = .live ∧ (shop.region 1).label = 9) ∧
    (∀ j : Slot, j < 1 → ¬ (1 ≤ j.val ∧ (shop.region j).state = .live ∧ (shop.region j).label = 9)) := by
  unfold State.servesOpen State.serves; decide +kernel

/-- RegionQueries. -/
theorem witness_queries :
    (asking shop 1 0x0A [0, 2]).servesOpen 1 0x0A 7 [0, 2] ∧ shop.current { gen := 0, slot := 2 } = none ∧
    (asking shop 1 0x0A [0, 0]).servesOpen 1 0x0A 7 [0, 0] ∧ shop.current h0 = some 0 ∧
    (asking shop 1 0x0B []).servesOpen 1 0x0B 7 [] := by
  unfold State.servesOpen State.serves; decide +kernel

/-- GrantEffect: port 4, rights 4, the caller itself, a CLOSED port, and port 3. -/
theorem witness_grant :
    (asking shop 0 0x0C [0, 0, 4, 0]).servesOpen 0 0x0C 7 [0, 0, 4, 0] ∧
    (asking shop 0 0x0C [0, 0, 3, 4]).servesOpen 0 0x0C 7 [0, 0, 3, 4] ∧
    (asking shop 0 0x0C [0, 0, 0, 3]).servesOpen 0 0x0C 7 [0, 0, 0, 3] ∧
    (asking shop 0 0x0C [0, 0, 3, 3]).servesOpen 0 0x0C 7 [0, 0, 3, 3] ∧ shop.ownsLive 0 h0 0 ∧
    shop.session 3 = .opened ∧ Rights.readWrite.code = 3 ∧ (shop.setSession 3 .closed).session 3 ≠ .opened := by
  unfold State.servesOpen State.serves State.ownsLive; decide +kernel

/-- RenounceEffect. -/
theorem witness_renounce :
    (asking shop 1 0x0D [0, 0]).servesOpen 1 0x0D 7 [0, 0] ∧ shop.current h0 = some 0 ∧ (shop.region 0).owner ≠ 1 ∧
    (asking shop 0 0x0D [0, 0]).servesOpen 0 0x0D 7 [0, 0] ∧ (shop.region 0).owner = 0 ∧
    (asking shop 1 0x0D [1, 0]).servesOpen 1 0x0D 7 [1, 0] ∧ shop.current { gen := 1, slot := 0 } = none ∧
    (withRegion shop 0 fun r => { r with state := .retiring }).current h0 = some 0 := by
  unfold State.servesOpen State.serves; decide +kernel

/-- OfferEffect: an offer that stands, port 4, a timeout of 0, the owner itself, and a timeout of 1. -/
theorem witness_offer :
    (asking offered 0 0x0E [0, 1, 3, 0, 1]).servesOpen 0 0x0E 7 [0, 1, 3, 0, 1] ∧ (offered.region 1).offer ≠ none ∧
    (asking shop 0 0x0E [0, 1, 4, 0, 1]).servesOpen 0 0x0E 7 [0, 1, 4, 0, 1] ∧
    (asking shop 0 0x0E [0, 1, 3, 0, 0]).servesOpen 0 0x0E 7 [0, 1, 3, 0, 0] ∧
    (asking shop 0 0x0E [0, 1, 0, 0, 1]).servesOpen 0 0x0E 7 [0, 1, 0, 0, 1] ∧
    (asking shop 0 0x0E [0, 1, 3, 0, 1]).servesOpen 0 0x0E 7 [0, 1, 3, 0, 1] ∧ shop.ownsLive 0 h1 1 ∧
    (shop.region 1).offer = none ∧ shop.session 3 = .opened := by
  unfold State.servesOpen State.serves State.ownsLive; decide +kernel

/-- OfferAnswersRefused. -/
theorem witness_offerAnswers :
    commandRow (.accept 3) = some (3, 0x10, 2) ∧ (asking offered 3 0x10 [0, 1]).servesOpen 3 0x10 7 [0, 1] ∧
    offered.current h1 = some 1 ∧ (offered.region 1).state = .live ∧
    (offered.region 1).offer = some { target := 2, remaining := 150 } ∧
    commandRow (.withdraw 2) = some (2, 0x0F, 2) ∧ (asking offered 2 0x0F [0, 1]).servesOpen 2 0x0F 7 [0, 1] ∧
    (offered.region 1).owner ≠ 2 ∧ (shop.region 1).offer = none ∧ offered.current { gen := 0, slot := 63 } = none ∧
    (withRegion shop 0 fun r => { r with state := .retiring }).current h0 = some 0 := by
  unfold State.servesOpen State.serves; decide +kernel

/-- AcceptEffect: within and over the quota of SPLIT. -/
theorem witness_accept :
    (asking offered 2 0x10 [0, 1]).servesOpen 2 0x10 7 [0, 1] ∧ offered.current h1 = some 1 ∧
    (offered.region 1).state = .live ∧ (offered.region 1).offer = some { target := 2, remaining := 150 } ∧
    (∀ i, ∀ o ∈ (offered.region i).offer, (offered.region i).state = .live ∧ offered.session o.target = .opened ∧
      o.target ≠ (offered.region i).owner ∧ o.remaining ≤ 65535) ∧ offered.table.quotaMode = .openMode ∧
    1024 < ((split.setQuota 2 { granules := 1024, regions := 1, channels := 0 }).quota 2).granules + 1 := by
  unfold State.servesOpen State.serves; decide +kernel

/-- DeclineWithdrawEffect. -/
theorem witness_decline :
    (asking offered 2 0x11 [0, 1]).servesOpen 2 0x11 7 [0, 1] ∧ (asking offered 0 0x0F [0, 1]).servesOpen 0 0x0F 7 [0, 1] ∧
    offered.current h1 = some 1 ∧ (offered.region 1).state = .live ∧
    (offered.region 1).offer = some { target := 2, remaining := 150 } ∧ (offered.region 1).owner = 0 := by
  unfold State.servesOpen State.serves; decide +kernel

/-- OfferTimerEffect: a slot that is due and one that is not, an offer at 0, and one with time left. -/
def runOut : State :=
  (withRegion offered 1 fun r => { r with offer := some { target := 2, remaining := 0 } }).setNotices [.offerExpiry 1]

theorem witness_offerTimer :
    1 ∈ (shop.setExpiryDue [1]).table.expiryDue ∧ 2 ∉ (shop.setExpiryDue [1]).table.expiryDue ∧
    runOut.table.notices = [.offerExpiry 1] ∧ runOut.accessPending = false ∧ (runOut.region 1).state = .live ∧
    (runOut.region 1).offer = some { target := 2, remaining := 0 } ∧
    (∀ o ∈ (offered.region 1).offer, o.remaining ≠ 0) := by decide +kernel

/-- ChannelCommandChecks: channel 16, 0xFF for RELEASE, and a channel of another port. -/
theorem witness_channelChecks :
    commandRow (.arm 0) = some (0, 0x15, 1) ∧ (asking shop 0 0x15 [16]).servesOpen 0 0x15 7 [16] ∧
    (asking shop 0 0x13 [0xFF]).servesOpen 0 0x13 7 [0xFF] ∧
    (asking shop 1 0x15 [0]).servesOpen 1 0x15 7 [0] ∧ ((asking shop 1 0x15 [0]).drainOrders.channel 0).lessee ≠ some 1 := by
  unfold State.servesOpen State.serves; decide +kernel

/-- LeaseAndReleaseEffect, LEASE: channel 15 by number, ANY, a channel that is not FREE, and the limit of SPLIT. -/
theorem witness_lease :
    (asking shop 0 0x12 [15]).servesOpen 0 0x12 7 [15] ∧ (shop.drainOrders.channel 15).state = .free ∧
    (asking shop 0 0x12 [0xFF]).servesOpen 0 0x12 7 [0xFF] ∧
    ((asking shop 0 0x12 [0xFF]).drainOrders.channel 1).state = .free ∧
    (∀ d : Chan, d < 1 → ((asking shop 0 0x12 [0xFF]).drainOrders.channel d).state ≠ .free) ∧
    (asking shop 2 0x12 [0]).servesOpen 2 0x12 7 [0] ∧ (shop.drainOrders.channel 0).state ≠ .free ∧
    4 ≤ ((split.setQuota 0 { granules := 3, regions := 2, channels := 4 }).quota 0).channels := by
  unfold State.servesOpen State.serves; decide +kernel

/-- A lessee's command on channel 0, as the statements of chapters 4 to 7 need it. -/
def lessee (x : Channel) (op : Byte) (rest : List Byte) : State := asking (shop.setChannel 0 x) 0 op (0 :: rest)

theorem servesLessee_of {x : Channel} {op : Byte} {rest : List Byte}
    (h : (lessee x op rest).servesOpen 0 op 7 (0 :: rest))
    (hx : (lessee x op rest).drainOrders.channel 0 = x ∧ x.lessee = some 0) :
    (lessee x op rest).servesLessee 0 op 7 0 rest 0 (lessee x op rest).drainOrders x :=
  ⟨h, rfl, rfl, hx.1.symm, hx.2⟩

/-- LeaseAndReleaseEffect, RELEASE: in PROGRAMMED, in RUNNING with a request recorded, and in ARMED. -/
theorem witness_release :
    (lessee programmed 0x13 []).servesLessee 0 0x13 7 0 [] 0 (lessee programmed 0x13 []).drainOrders programmed ∧
    (lessee { flying with recorded := some .teardown } 0x13 []).servesLessee 0 0x13 7 0 [] 0
      (lessee { flying with recorded := some .teardown } 0x13 []).drainOrders { flying with recorded := some .teardown } ∧
    (lessee latched 0x13 []).servesLessee 0 0x13 7 0 [] 0 (lessee latched 0x13 []).drainOrders latched := by
  refine ⟨servesLessee_of ?_ ?_, servesLessee_of ?_ ?_, servesLessee_of ?_ ?_⟩ <;>
    first | decide +kernel | (unfold State.servesOpen State.serves; decide +kernel)

/-- ProgramRecordChecks and ProgramRecordRoundTrip: the largest block length, start and count. -/
def widest : Program :=
  { copy with
    mode := .block (.line 7 .low) .merge 256 .dest, count := 65536, chain := some 15
    source := { handle := { gen := 255, slot := 255 }, start := 262143, step := .retreat } }

theorem witness_programRecord : widest.encode.length = 28 ∧
    (1 ≤ widest.count ∧ widest.count ≤ 65536 ∧ (256 : Nat) ≤ 256) ∧ widest.source.start ≤ 262143 ∧
    widest.dest.start ≤ 262143 ∧ (∀ a o, widest.mode = .cyclic a o → widest.chain = none) ∧ widest.Ranged :=
  ⟨by decide +kernel, by decide +kernel, by decide +kernel, by decide +kernel, (fun _ _ h => nomatch h),
    ⟨by decide, by decide, (by decide : 1 ≤ 256 ∧ 256 ≤ 256)⟩⟩

/-- ProgramEffect: a program whose span ends with its region, and one that goes a unit further, is not aligned, names a region that
is not current, or is written by a port without the right. -/
def filling (start count : Nat) : Program := { copy with dest := { copy.dest with start }, count }

theorem witness_program :
    (lessee programmed 0x14 (filling 120 2).encode).servesLessee 0 0x14 7 0 (filling 120 2).encode 0
      (lessee programmed 0x14 (filling 120 2).encode).drainOrders programmed ∧
    programOf (filling 120 2).encode = some (filling 120 2) ∧ programOf (filling 120 0).encode = none ∧
    shop.current h0 = some 0 ∧ (shop.region 0).state = .live ∧ (shop.rights 0 0).hasRead = true ∧
    (shop.rights 0 0).hasWrite = true ∧ (filling 120 2).dest.start % 4 = 0 ∧
    64 * (shop.region 0).length = 128 ∧ (filling 120 2).dest.step = .advance ∧ (filling 120 2).dest.start + 2 * 4 ≤ 128 ∧
    (filling 120 2).source.step = .advance ∧ (filling 120 2).source.start + 2 * 4 ≤ 128 ∧
    ¬ (filling 120 3).dest.start + 3 * 4 ≤ 128 ∧ (filling 122 1).dest.start % 4 ≠ 0 ∧
    shop.current { gen := 9, slot := 0 } = none ∧ (shop.rights 1 0).hasWrite = false := by
  refine ⟨servesLessee_of ?_ ?_, ?_⟩
  · unfold State.servesOpen State.serves; decide +kernel
  · decide +kernel
  · decide +kernel

/-- ChannelQueries. -/
theorem witness_channelQueries :
    (asking shop 3 0x1A [15]).servesOpen 3 0x1A 7 [15] ∧ (15 : Byte).toNat = (15 : Chan).val ∧
    (asking shop 3 0x1B []).servesOpen 3 0x1B 7 [] := by
  unfold State.servesOpen State.serves; decide +kernel

/-- ArmEffect: PROGRAMMED, LEASED without a program, ARMED, and under HALT. -/
def leased : Channel := { Channel.empty with state := .leased, lessee := some 0 }

theorem witness_arm :
    (lessee programmed 0x15 []).servesLessee 0 0x15 7 0 [] 0 (lessee programmed 0x15 []).drainOrders programmed ∧
    (lessee leased 0x15 []).servesLessee 0 0x15 7 0 [] 0 (lessee leased 0x15 []).drainOrders leased ∧
    (lessee latched 0x15 []).servesLessee 0 0x15 7 0 [] 0 (lessee latched 0x15 []).drainOrders latched ∧
    programmed.program = some copy ∧ programmed.state = .programmed ∧
    look (lessee programmed 0x15 []).pins.halt 0 = .high ∧
    look ((lessee programmed 0x15 []).setHalt 0 .low).pins.halt 0 = .low := by
  refine ⟨servesLessee_of ?_ ?_, servesLessee_of ?_ ?_, servesLessee_of ?_ ?_, ?_⟩ <;>
    first | decide +kernel | (unfold State.servesOpen State.serves; decide +kernel)

/-- TriggerEffect: an overrun under STOP at once, one behind a unit in flight, and a channel that is not active. -/
def overrunning : Channel := { flying with run := { flying.run with latch := true } }

theorem witness_trigger :
    (lessee latched 0x19 []).servesLessee 0 0x19 7 0 [] 0 (lessee latched 0x19 []).drainOrders latched ∧
    (lessee overrunning 0x19 []).servesLessee 0 0x19 7 0 [] 0 (lessee overrunning 0x19 []).drainOrders overrunning ∧
    (lessee programmed 0x19 []).servesLessee 0 0x19 7 0 [] 0 (lessee programmed 0x19 []).drainOrders programmed ∧
    latched.overruns .stop ∧ ¬ overrunning.overruns .stop ∧ copy.mode.policy = some .stop := by
  refine ⟨servesLessee_of ?_ ?_, servesLessee_of ?_ ?_, servesLessee_of ?_ ?_, ?_⟩ <;>
    first | decide +kernel | (unfold State.servesOpen State.serves; decide +kernel) |
      (unfold Channel.overruns; decide +kernel)

/-- EdgeClaims: a waiting claim behind one of another line, and the ARMED channel that selects it. -/
def edges : State := waiting.setEdgeClaims [{ line := 4, edge := .fall }, { line := 5, edge := .rise }]

theorem witness_edge :
    (shop.pins.reset = .high ∧ shop.scrub.startup = false) ∧ State.reset.pins.reset = .low ∧
    (∀ k ∈ edges.chan.edgeClaims, k.line ≠ 6) ∧
    edges.chan.edgeClaims = [{ line := 4, edge := .fall }] ++ { line := 5, edge := .rise } :: [] ∧
    (∀ k ∈ [({ line := 4, edge := .fall } : EdgeClaim)], k.line ≠ 5) ∧ (edges.channel 0).state = .armed ∧
    (∃ g ∈ (edges.channel 0).program, g.mode.activation = some (.line 5 .rise) ∧ g.mode.policy = some .merge) := by
  decide +kernel

/-- SuspendDisarmResumeEffect: at once, behind a unit in flight, and refused. -/
theorem witness_suspend :
    (lessee latched 0x17 []).servesLessee 0 0x17 7 0 [] 0 (lessee latched 0x17 []).drainOrders latched ∧
    (lessee flying 0x17 []).servesLessee 0 0x17 7 0 [] 0 (lessee flying 0x17 []).drainOrders flying ∧
    (lessee programmed 0x17 []).servesLessee 0 0x17 7 0 [] 0 (lessee programmed 0x17 []).drainOrders programmed := by
  refine ⟨servesLessee_of ?_ ?_, servesLessee_of ?_ ?_, servesLessee_of ?_ ?_⟩ <;>
    first | decide +kernel | (unfold State.servesOpen State.serves; decide +kernel)

def suspended : Channel := { programmed with state := .suspended, suspension := some .halt }
def aborting : Channel := { flying with recorded := some (.abort .disarm) }

theorem witness_disarm_resume :
    (lessee suspended 0x16 []).servesLessee 0 0x16 7 0 [] 0 (lessee suspended 0x16 []).drainOrders suspended ∧
    (lessee flying 0x16 []).servesLessee 0 0x16 7 0 [] 0 (lessee flying 0x16 []).drainOrders flying ∧
    (lessee aborting 0x16 []).servesLessee 0 0x16 7 0 [] 0 (lessee aborting 0x16 []).drainOrders aborting ∧
    (lessee suspended 0x18 []).servesLessee 0 0x18 7 0 [] 0 (lessee suspended 0x18 []).drainOrders suspended ∧
    (lessee latched 0x18 []).servesLessee 0 0x18 7 0 [] 0 (lessee latched 0x18 []).drainOrders latched ∧
    (2 ≤ (Request.abort .disarm).strength ∧ (Request.suspend .halt).strength < 2) := by
  refine ⟨servesLessee_of ?_ ?_, servesLessee_of ?_ ?_, servesLessee_of ?_ ?_, servesLessee_of ?_ ?_,
    servesLessee_of ?_ ?_, by decide⟩ <;>
    first | decide +kernel | (unfold State.servesOpen State.serves; decide +kernel)

/-- HaltAndClrLines. -/
theorem witness_lines :
    (look shop.pins.halt 3 = .high ∧ look shop.pins.clr 3 = .high ∧ shop.pins.reset = .high ∧ shop.scrub.startup = false) ∧
    (.clear 3 ∉ shop.table.notices ∧ .clear 3 ∈ (shop.setNotices [.clear 3]).table.notices) ∧
    (look State.reset.pins.halt 3 = .high ∧ State.reset.pins.reset = .low) ∧
    look (shop.setHalt 3 .low).pins.halt 3 = .low ∧ look (shop.setClr 3 .low).pins.clr 3 = .low := by decide +kernel

/-- HaltClaimEffect. -/
theorem witness_haltClaim : 0 ∈ ((shop.setChannel 0 latched).setHaltClaims [1, 0]).chan.haltClaims ∧
    2 ∉ ((shop.setChannel 0 latched).setHaltClaims [1, 0]).chan.haltClaims := by decide +kernel

/-- StopOrders: an order behind one for another channel, on a channel with a unit in flight and one without. -/
def ordered (x : Channel) (kind : OrderKind) : State :=
  (shop.setChannel 0 x).setOrders [[{ channel := 1, kind := .teardown }, { channel := 0, kind }]]

theorem witness_orders :
    (ordered programmed (.discard .retired h0)).chan.orders =
      ([{ channel := 1, kind := .teardown }] ++ { channel := 0, kind := .discard .retired h0 } :: []) :: [] ∧
    (∀ o ∈ [({ channel := 1, kind := .teardown } : Order)], ¬ (o.channel = 0 ∧ o.kind ≠ .teardown)) ∧
    copy.names h0 = true ∧ copy.names h1 = false ∧ programmed.run.unitInFlight = false ∧
    flying.run.unitInFlight = true ∧
    (ordered flying .teardown).chan.orders =
      ([{ channel := 1, kind := .teardown }] ++ { channel := 0, kind := .teardown } :: []) :: [] ∧
    (∀ o ∈ [({ channel := 1, kind := .teardown } : Order)], ¬ (o.channel = 0 ∧ o.kind = .teardown)) ∧
    (∀ batch rest, shop.chan.orders = batch :: rest → ∀ o ∈ batch, o.channel ≠ 3) := by
  refine ⟨by decide +kernel, by decide +kernel, by decide +kernel, by decide +kernel, by decide +kernel, by decide +kernel,
    by decide +kernel, by decide +kernel, fun batch rest h => ?_⟩
  exact absurd ((by decide +kernel : shop.chan.orders = []).symm.trans h) (by simp)

/-- CommandsFollowOrders: a query of the last channel, a LEASE of ANY and LIST_CHANNELS with two orders on their way, and the first
of the two orders. -/
def following : State :=
  shop.setOrders [[{ channel := 0, kind := .discard .revoked h0 }, { channel := 1, kind := .teardown }]]

theorem witness_commandsFollow : ∃ t, following.chan.orders =
      ({ channel := 0, kind := .discard .revoked h0 } :: [{ channel := 1, kind := .teardown }]) :: [] ∧
    exec (.discardOrder 0) following = .next t :=
  ⟨_, by decide +kernel, stateOf_next (s := shop) (by decide +kernel)⟩

theorem witness_commandsBehindOrders :
    ((asking following 0 0x1A [15]).servesOpen 0 0x1A 7 [15] ∧ commandRow (.queryChannel 0) = some (0, 0x1A, 1) ∧
      ∀ b ∈ ([15] : List Byte).head?, b.toNat < 16 ∨ ((0x1A : Byte) = 0x12 ∧ b = 0xFF)) ∧
    ((asking following 0 0x12 [0xFF]).servesOpen 0 0x12 7 [0xFF] ∧ commandRow (.lease 0) = some (0, 0x12, 1) ∧
      ∀ b ∈ ([0xFF] : List Byte).head?, b.toNat < 16 ∨ ((0x12 : Byte) = 0x12 ∧ b = 0xFF)) ∧
    ((asking following 0 0x1B []).servesOpen 0 0x1B 7 [] ∧ commandRow (.listChannels 0) = some (0, 0x1B, 0) ∧
      ∀ b ∈ ([] : List Byte).head?, b.toNat < 16 ∨ ((0x1B : Byte) = 0x12 ∧ b = 0xFF)) ∧
    (asking following 0 0x1A [15]).chan.orders ≠ [] := by
  unfold State.servesOpen State.serves; decide +kernel

/-- StrengthSettlesRequests. -/
theorem witness_strength :
    ({ flying with recorded := some (.suspend .halt) }).recorded = some (.suspend .halt) ∧
    flying.run.unitInFlight = true ∧ flying.state = .running ∧ flying.program ≠ none := by decide +kernel

/-- UnitStartEffect: a channel that wins and passes, one that wins and fails for want of a right, and a unit in flight. -/
def granting : State := shop.setChannel 0 latched
def failing : State := granting.setSession 0 .closing

theorem witness_unitStart :
    (moving unit).engine.unit ≠ none ∧ granting.engine.unit = none ∧ granting.winner [] = some 0 ∧
    granting.PassesCheck 0 copy 0 0 ∧ granting.requests 0 = true ∧ (∀ d, d ≠ 0 → granting.requests d = false) ∧
    failing.requests 0 = true ∧ failing.winner [0] = none ∧ (∀ g i j, ¬ failing.PassesCheck 0 g i j) := by
  refine ⟨by decide +kernel, by decide +kernel, by decide +kernel, ?_, by decide +kernel, by decide +kernel,
    by decide +kernel, by decide +kernel, fun g i j h => ?_⟩
  · refine ⟨by decide +kernel, 0, ?_⟩
    decide +kernel
  · obtain ⟨_, p, lessee, opened, _⟩ := h
    have owner : (failing.channel 0).lessee = some 0 := by decide +kernel
    have closing : failing.session 0 = .closing := by decide +kernel
    cases owner.symm.trans lessee
    exact absurd (closing.symm.trans opened) (by decide)

/-- UnitTransferEffect: a unit at the last bytes of the memory and one past them, the write of one that is marked, of one that is
not, and a unit that has reported. -/
theorem witness_unitTransfer :
    (moving { unit with source := 262140 }).engine.unit = some { unit with source := 262140 } ∧
    262140 + unit.size.bytes ≤ memoryBytes ∧ memoryBytes < 262141 + unit.size.bytes ∧
    (moving { unit with phase := .readDone, buffer := [1, 2, 3, 4], dest := 262140 }).MemoryLaw ∧
    262140 + 4 ≤ (moving unit).mem.definedTo ∧
    (moving { unit with phase := .readDone, dataError := true }).engine.unit =
      some { unit with phase := .readDone, dataError := true } ∧
    (moving { unit with phase := .reported }).engine.unit = some { unit with phase := .reported } ∧
    ∃ t, exec (.unitTransfer .read) (moving unit) = .next t := by
  refine ⟨by decide +kernel, by decide, by decide, ?_, by decide +kernel, by decide +kernel, by decide +kernel,
    _, stateOf_next (s := shop) (by decide +kernel)⟩
  unfold State.MemoryLaw; decide +kernel

/-- UnitEndReportEffect: with and without a data error, with each kind of recorded request, with and without a chain. -/
def reporting (x : Channel) (err : Bool) : State :=
  (moving { unit with phase := .reported, dataError := err }).setChannel 0 x
def lastUnit (chain : Option Chan) : Channel :=
  { flying with program := some { copy with chain }, run := { flying.run with remaining := 1 } }

theorem witness_unitEnd :
    (reporting flying true).engine.unit.map UnitInFlight.channel = some 0 ∧
    (reporting flying true).engine.unit.map UnitInFlight.phase = some .reported ∧
    (reporting flying true).channel 0 = flying ∧ flying.program = some copy ∧ flying.lessee = some 0 ∧
    (∀ q ∈ flying.recorded, q.strength < 4) ∧
    ({ flying with recorded := some (.discard .retired) }).recorded = some (.discard .retired) ∧
    (unitEnd 0 { flying with run := { flying.run with unitInFlight := false } } copy).completed = false ∧
    (unitEnd 0 { lastUnit none with run := { (lastUnit none).run with unitInFlight := false } } copy).completed = true ∧
    (reporting (lastUnit (some 1)) false).channel 0 = lastUnit (some 1) ∧
    ((reporting (lastUnit (some 1)) false).channel 1).lessee ≠ some 0 := by decide +kernel

/-- UnitEndProcessing: a block with more units, its last unit, its last block; the last unit and an earlier one of a count. -/
theorem witness_unitEndProcessing :
    widest.mode = .block (.line 7 .low) .merge 256 .dest ∧ copy.mode = .single .soft .stop ∧
    1 < flying.run.remaining ∧ (lastUnit none).run.remaining = 1 := by decide +kernel

/-! ### Witnesses for the links -/

/-- FramesAreTheirParts: no frame, a frame before and after its code byte. -/
def framed (f : Frame) : State := withLink shop 0 fun l => { l with frame := some f }

theorem witness_frames :
    (shop.link 0).frame = none ∧ ((framed (frame 0x02 [] true)).link 0).frame = some (frame 0x02 [] true) ∧
    (∃ t u v, exec (frameOf 0 0x03 .select) shop = .next t ∧ exec (frameOf 0 0x03 .code) t = .next u ∧
      exec (frameOf 0 0x03 (.bytes [0])) u = .next v) := by
  refine ⟨by decide +kernel, by decide +kernel, stateOf (exec (frameOf 0 0x03 .select) shop) shop,
    stateOf (exec (frameOf 0 0x03 .code) (stateOf (exec (frameOf 0 0x03 .select) shop) shop)) shop, _, ?_, ?_,
    stateOf_next (s := shop) ?_⟩
  · exact stateOf_next (by decide +kernel)
  · exact stateOf_next (by decide +kernel)
  · decide +kernel

/-- FramesAreTheirParts, the code byte and the bytes after it: a frame whose SELk fell in the NOT_READY period, one before its code
byte, and a status block half sent after the port has closed, its first byte still to come or gone. -/
def fallen (notReady : Bool) : Frame :=
  { frame 0 [] false with code := none, answer := none, notReady }

def halfSent (received : List Byte) : Frame := { frame 0x01 received true with toSend := [1, 2, 3], closed := true }

theorem witness_framesInProgress :
    (∀ b, ((framed (fallen b)).link 0).frame = some (fallen b) ∧ (fallen b).code = none) ∧
    (∀ r ∈ ([[], [9]] : List (List Byte)), ((framed (halfSent r)).link 0).frame = some (halfSent r) ∧
      (halfSent r).code = some 0x01 ∧ (halfSent r).answer = some .accepted) ∧
    (0x01 : Byte) ≠ 0x02 ∧ (0x01 : Byte) ≠ 0x05 ∧ (0x01 : Byte) ≠ 0x06 ∧
    ∀ r, ∀ w ∈ ((framed (halfSent r)).link 0).window, w.framed = false := by
  refine ⟨by decide +kernel, by decide +kernel, by decide, by decide, by decide, fun r w hw => ?_⟩
  have : ((framed (halfSent r)).link 0).window = none := rfl
  simp [this] at hw

theorem ready_of {l : Link} (h : l.frame = none ∧ l.notReady = false ∧ l.window = none) : l.Ready := ⟨h.1, h.2.1, h.2.2⟩

/-- StatusAndQueueReads. -/
theorem witness_reads : (shop.link 0).Ready ∧ (shop.link 0).results = [] ∧ (shop.link 0).events = [] ∧
    ((withLink shop 0 fun l => { l with results := [{ opcode := 1, tag := 2, code := .ok, payload := [] }]
                                        events := [.overrun 1] }).link 0).Ready :=
  ⟨ready_of (by decide +kernel), by decide +kernel, by decide +kernel, ready_of (by decide +kernel)⟩

/-- StatusAndQueueReads, at the code byte of a frame in progress, with a record in each queue and with none. -/
theorem witness_readsAtCodeByte : ∀ full : Bool,
    let s := withLink (framed (fallen false)) 0 fun l => { l with
      results := if full then [{ opcode := 1, tag := 2, code := .ok, payload := [] }] else []
      events := if full then [.overrun 1] else [] }
    (s.link 0).frame = some (fallen false) ∧ (fallen false).code = none ∧ (fallen false).notReady = false ∧
      (s.link 0).window = none ∧ ((s.link 0).results = [] ↔ full = false) ∧ ((s.link 0).events = [] ↔ full = false) := by
  decide +kernel

/-- CommandWriteEffect: CLOSING, a full queue, the longest record, and the last byte of a record in a frame. -/
theorem witness_commandWrite :
    (shop.link 0).Ready ∧ (shop.setSession 0 .closing).session 0 = .closing ∧ (shop.link 0).commands.length < 4 ∧
    4 ≤ ((withLink shop 0 fun l =>
      { l with commands := List.replicate 4 { opcode := 1, tag := 0, args := [] } }).link 0).commands.length ∧
    (3 + 32 ≤ ([1, 2, 32] ++ List.replicate 32 0 : List Byte).length ∧
      ([1, 2, 32] ++ List.replicate 32 (0 : Byte)).getD 2 0 = 32) ∧
    (32 < (([1, 2, 33] : List Byte).getD 2 0).toNat ∧ ([1, 2, 2, 0] : List Byte).length < 3 + 2) ∧
    ((framed (frame 0x02 [1, 2, 1] true)).link 0).frame = some (frame 0x02 [1, 2, 1] true) ∧
    ([1, 2, 1] ++ [9] : List Byte).length = 3 + (([1, 2, 1] ++ [9] : List Byte).getD 2 0).toNat :=
  ⟨ready_of (by decide +kernel), by decide +kernel, by decide +kernel, by decide +kernel, by decide, by decide,
    by decide +kernel, by decide⟩

/-- CommandWriteEffect, byte by byte: the length byte at 33, at 32 and at 0, the last byte after a close, and one before it. -/
theorem witness_commandBytes :
    (∀ closed, ∀ r ∈ [[1], [1, 2], [1, 2, 2], [1, 2, 1]],
      let f := { frame 0x02 r true with closed }
      ((framed f).link 0).frame = some f ∧ f.code = some 0x02 ∧ f.live = true) ∧
    (([1, 2] ++ [33] : List Byte).length = 3 ∧ 32 < (([1, 2] ++ [33] : List Byte).getD 2 0).toNat) ∧
    (([1, 2] ++ [0] : List Byte).length = 3 + (([1, 2] ++ [0] : List Byte).getD 2 0).toNat) ∧
    (([1, 2] ++ [32] : List Byte).getD 2 0).toNat ≤ 32 ∧ ([1, 2] ++ [32] : List Byte).length ≠ 3 + 32 ∧
    ([1] ++ [2] : List Byte).length < 3 := by
  refine ⟨fun closed r hr => ?_, by decide, by decide, by decide, by decide, by decide⟩
  simp only [List.mem_cons, List.not_mem_nil, or_false] at hr
  rcases hr with rfl | rfl | rfl | rfl <;> exact ⟨rfl, rfl, rfl⟩

/-- WindowFrames, byte by byte: the byte before the length byte and the length byte of a read, and the first and the last data byte
of a write of two bytes. -/
theorem witness_windowBytes :
    (∀ code ∈ [(0x05 : Byte), 0x06], ∀ r ∈ [[0, 0], [0, 0, 0], [0, 0, 0, 1], [0, 0, 0, 1, 9]],
      ((framed (frame code r true)).link 0).frame = some (frame code r true) ∧ (frame code r true).live = true ∧
      (frame code r true).code = some code) ∧
    ([0, 0, 0] ++ [1] : List Byte).length = 4 ∧
    (4 < ([0, 0, 0, 1] ++ [9] : List Byte).length ∧ ([0, 0, 0, 1] ++ [9] : List Byte).length < 5 + 1) ∧
    ([0, 0, 0, 1, 9] ++ [9] : List Byte).length = 5 + 1 :=
  ⟨fun _ _ _ _ => ⟨rfl, rfl, rfl⟩, by decide, by decide, by decide⟩

/-- WindowFrames: the longest write, a frame that waits, one whose outcome is there, and short ones. -/
def awaiting (w : Option WindowRequest) (f : Frame) : State :=
  withLink shop 0 fun l => { l with frame := some f, window := w }

theorem witness_windowFrames :
    (shop.link 0).Ready ∧ (shop.link 0).buffer = [] ∧ (List.replicate 256 (7 : Byte)).length = (255 : Byte).toNat + 1 ∧
    ((awaiting (some (window .read 0 1 false)) (frame 0x05 [0, 0, 0, 0] true)).link 0).window =
      some (window .read 0 1 false) ∧ (window .read 0 1 false).framed = true ∧
    ((awaiting (some (window .write 0 1 true)) (frame 0x06 [0, 0, 0, 0, 9] true)).link 0).frame =
      some (frame 0x06 [0, 0, 0, 0, 9] true) ∧ 5 + (([0, 0, 0, 0, 9] : List Byte).getD 3 0).toNat ≤ 5 ∧
    ((awaiting none (frame 0x05 [0, 0, 0, 0] true)).link 0).window = none ∧ ([0, 0, 0] : List Byte).length < 4 ∧
    ([0, 0, 0, 1, 9] : List Byte).length < 5 + (([0, 0, 0, 1, 9] : List Byte).getD 3 0).toNat :=
  ⟨ready_of (by decide +kernel), by decide +kernel, by decide +kernel, by decide +kernel, rfl, by decide +kernel, by decide,
    by decide +kernel, by decide, by decide⟩

/-- RefusedFrames: the NOT_READY period, a window access whose frame has ended, and the codes next to the named ones. -/
theorem witness_refusedFrames :
    (State.reset.link 0).frame = none ∧ (State.reset.link 0).notReady = true ∧ (State.reset.link 0).window = none ∧
    ((withLink shop 0 fun l =>
      { l with window := some { window .read 0 1 true with framed := false } }).link 0).window ≠ none ∧
    (shop.link 0).Ready ∧ (7 ≤ (0x07 : Byte).toNat ∧ 1 ≤ (0x06 : Byte).toNat ∧ (0x06 : Byte).toNat ≤ 6) :=
  ⟨by decide +kernel, by decide +kernel, by decide +kernel, by decide +kernel, ready_of (by decide +kernel), by decide⟩

/-! ### A lawful hub -/

theorem shop_notStarting : ¬ shop.starting := by unfold State.starting; decide +kernel

theorem shop_channel (c : Chan) : shop.channel c = if c = 0 then programmed else Channel.empty := by
  revert c; decide +kernel

theorem shop_link (p : Port) : shop.link p = { Link.empty with notReady := false } := by
  revert p; decide +kernel

theorem shop_unused (i : Slot) (h : (shop.region i).state ≠ .unused) : i = 0 ∨ i = 1 := by
  revert i; decide +kernel

theorem shop_covers {i : Slot} {g : Nat} : shop.covers i g ↔ (i = 0 ∧ g < 2) ∨ (i = 1 ∧ g = 2) := by
  have zero : (shop.region 0).state ≠ .unused ∧ (shop.region 0).base = 0 ∧ (shop.region 0).length = 2 := by decide +kernel
  have one : (shop.region 1).state ≠ .unused ∧ (shop.region 1).base = 2 ∧ (shop.region 1).length = 1 := by decide +kernel
  constructor
  · intro h
    rcases shop_unused i h.1 with rfl | rfl
    · have := h.2; rw [zero.2.1, zero.2.2] at this; exact .inl ⟨rfl, by omega⟩
    · have := h.2; rw [one.2.1, one.2.2] at this; exact .inr ⟨rfl, by omega⟩
  · rintro (⟨rfl, h⟩ | ⟨rfl, rfl⟩)
    · exact ⟨zero.1, by rw [zero.2.1]; exact Nat.zero_le g, by rw [zero.2.1, zero.2.2]; omega⟩
    · exact ⟨one.1, by rw [one.2.1], by rw [one.2.1, one.2.2]; decide⟩

theorem shop_granules : shop.GranuleLaw where
  inside := by decide +kernel
  once i j g hi hj := by
    rw [shop_covers] at hi hj
    rcases hi with ⟨rfl, _⟩ | ⟨rfl, _⟩ <;> rcases hj with ⟨rfl, _⟩ | ⟨rfl, _⟩ <;> first | rfl | omega
  held _ g hg := by
    have : shop.table.held g = _ := holdRun_bit (map := 0) (base := 0) (length := 3) (g := g) (by decide)
    rw [this]
    constructor
    · intro h
      simp at h
      by_cases h2 : g = 2
      · exact ⟨1, shop_covers.2 (.inr ⟨rfl, h2⟩)⟩
      · exact ⟨0, shop_covers.2 (.inl ⟨rfl, by omega⟩)⟩
    · rintro ⟨i, h⟩
      rw [shop_covers] at h
      have : g < 3 := by omega
      simp [this]

theorem emptyLink_law : ({ Link.empty with notReady := false } : Link).Law where
  commands := by decide
  results := by decide
  events := by decide
  marker := by decide
  codeless := by simp [Link.empty]
  room := by simp [Link.empty]
  header := by simp [Link.empty]
  buffer := by decide
  filling := by simp [Link.empty]
  idle _ _ := rfl
  read := by simp [Link.empty]
  write := by simp [Link.empty]
  admitted := by simp [Link.empty]

theorem empty_law : Channel.empty.Law where
  lessee := by decide
  program := by decide
  idle _ := rfl
  outcome _ := rfl
  suspension := by decide
  recorded := by decide
  flight := by decide
  ranged := by simp [Channel.empty]
  counting := by simp [Channel.empty]

theorem programmed_law : programmed.Law where
  lessee := by decide
  program := by decide
  idle := by decide
  outcome := by decide
  suspension := by decide
  recorded := by decide
  flight := by decide
  ranged g h := by cases h; exact ⟨by decide, by decide, trivial⟩
  counting h := by rcases h with h | h | h <;> exact absurd h (by decide)

theorem shop_usesHandle {h : Handle} (u : shop.usesHandle h) : h = h0 := by
  rcases u with ⟨c, g, hg, hn⟩ | h
  · rw [shop_channel] at hg
    split at hg
    · cases hg
      simp only [Program.names, copy, Bool.or_self, beq_iff_eq] at hn
      exact hn.symm
    · cases hg
  · exact absurd h (by have : shop.table.notices = [] := by decide +kernel
                       simp [this])

theorem shop_lawful : shop.Lawful where
  start :=
    { clear := by decide +kernel, regions := fun h => absurd h shop_notStarting
      granules := fun h => absurd h shop_notStarting, sessions := fun h => absurd h shop_notStarting
      quotas := fun h => absurd h shop_notStarting, pointer := fun h => absurd h shop_notStarting
      notices := fun h => absurd h shop_notStarting, timers := fun h => absurd h shop_notStarting
      channels := fun h => absurd h shop_notStarting, claims := fun h => absurd h shop_notStarting
      engine := fun h => absurd h shop_notStarting, runs := fun h => absurd h shop_notStarting
      links := fun h => absurd h shop_notStarting, defined := fun _ => rfl
      ready := fun _ p => by rw [shop_link] }
  link p := by rw [shop_link]; exact emptyLink_law
  channel :=
    { channel := fun c => by rw [shop_channel]; split; exacts [programmed_law, empty_law]
      unit := by decide +kernel }
  offer := by unfold State.OfferLaw; decide +kernel
  granule := shop_granules
  reference :=
    { count := by decide +kernel
      zero := by decide +kernel
      retiring := by decide +kernel
      handles := fun h u => ⟨0, by rw [shop_usesHandle u]; decide +kernel⟩
      leaves := fun i h => absurd h (by revert i; decide +kernel)
      scrubs := by unfold State.ScrubLaw; decide +kernel
      runs := by decide +kernel }
  quota :=
    { granules := by decide +kernel, regions := by decide +kernel, channels := by decide +kernel
      split := fun h => absurd h (by decide +kernel) }
  session :=
    { owner := by decide +kernel, grants := by decide +kernel, live := by decide +kernel, retiring := by decide +kernel
      leases := by decide +kernel }
  memory := by unfold State.MemoryLaw; decide +kernel
  span :=
    { whole := fun c g hg => by
        rw [shop_channel] at hg
        split at hg
        · cases hg
          unfold Side.Within
          decide +kernel
        · cases hg
      left := fun c h => by
        rw [shop_channel] at h
        split at h <;> rcases h with h | h | h <;> exact absurd h (by decide)
      unit := by decide +kernel }

/-- WindowCheckEffect, in the lawful hub: a span of two granules in slot 0 that its owner may use, one that leaves slot 0 for slot
1, one past the end of the memory, and the right that port 1 does not have. -/
def requesting (p : Port) (w : WindowRequest) : State := withLink shop p fun l => { l with window := some w }

theorem witness_windowCheck :
    ((requesting 0 (window .read 60 8 false)).link 0).window = some (window .read 60 8 false) ∧
    shop.GranuleLaw ∧ (∀ g, 60 / 64 ≤ g → g ≤ (60 + 8 - 1) / 64 → shop.table.held g = true ∧ shop.covers 0 g) ∧
    (∀ i, ¬ (shop.covers i (127 / 64) ∧ shop.covers i (128 / 64))) ∧ memoryBytes ≤ 262143 + 2 - 1 ∧
    262143 + 1 - 1 < memoryBytes ∧ (look (shop.region 0).grants 1).hasWrite = false ∧ (shop.region 0).owner = 0 ∧
    (shop.region 0).state = .live ∧ (shop.setSession 0 .closed).session 0 ≠ .opened := by
  refine ⟨by decide +kernel, shop_granules, fun g h1 h2 => ?_, fun i h => ?_, by decide +kernel⟩
  · have : g < 2 := by omega
    exact ⟨(shop_granules.held shop_notStarting g (by simp only [granuleCount]; omega)).2 ⟨0, shop_covers.2 (.inl ⟨rfl, this⟩)⟩,
      shop_covers.2 (.inl ⟨rfl, this⟩)⟩
  · rw [shop_covers, shop_covers] at h
    obtain ⟨⟨rfl, _⟩ | ⟨_, h⟩, ⟨_, h'⟩ | ⟨h', _⟩⟩ := h
    · exact absurd h' (by decide)
    · exact absurd h' (by decide)
    · exact absurd h (by decide)
    · exact absurd h (by decide)

/-- WindowAccessEffect: nothing to serve, the last byte of the memory, and one past it. -/
theorem witness_windowAccess :
    (∀ w ∈ ((requesting 0 (window .read 60 8 false)).link 0).window, w.admitted = false) ∧
    ((requesting 0 (window .read 262143 1 true)).link 0).window = some (window .read 262143 1 true) ∧
    262143 + 1 ≤ memoryBytes ∧ memoryBytes < 262143 + 2 ∧
    ((withLink (requesting 0 (window .write 0 2 true)) 0 fun l => { l with buffer := [1, 2] }).link 0).buffer.length = 2 ∧
    shop.MemoryLaw ∧ shop.mem.definedTo = memoryBytes := by
  unfold State.MemoryLaw; decide +kernel

/-- ReleaseAndLeaseEndNotices: a LIVE region, a RETIRING one with its last reference and with two, and a lease end. -/
def releasing (st : RegionState) (refs : Nat) : State :=
  (withRegion shop 1 fun r => { r with state := st, refs }).setNotices [.referenceRelease h1]

theorem witness_notices :
    ((releasing .retiring 1).table.notices = [.referenceRelease h1] ∧ (releasing .retiring 1).accessPending = false ∧
      h1.slot.toNat = (1 : Slot).val ∧ ((releasing .retiring 1).region 1).refs = 1) ∧
    1 < ((releasing .retiring 2).region 1).refs ∧ ((releasing .live 1).region 1).state ≠ .retiring ∧
    ((shop.setNotices [.leaseEnd 0 0]).table.notices = [.leaseEnd 0 0] ∧
      (shop.setNotices [.leaseEnd 0 0]).accessPending = false) := by decide +kernel

/-- EventPlacement: a CLOSED and an OPEN port; 14 records; a marker behind 14 and behind 15 records; 15 records without one. -/
theorem witness_eventPlacement :
    ready.session 0 ≠ .opened ∧ shop.session 0 = .opened ∧
    (List.replicate 14 (Event.regionRetired h0)).length ≤ 14 ∧ 14 ≤ (List.replicate 15 (Event.regionRetired h0)).length ∧
    (∀ n, Event.regionRetired h0 ≠ .overrun n) :=
  ⟨by decide +kernel, by decide +kernel, by decide, by decide, fun _ => Event.noConfusion⟩

/-- The laws say nothing of the queue. -/
theorem lawful_pending {s : State} (q : List Instr) (h : s.Lawful) : State.Lawful { s with pending := q } where
  start := ⟨h.start.1, h.start.2, h.start.3, h.start.4, h.start.5, h.start.6, h.start.7, h.start.8, h.start.9, h.start.10,
    h.start.11, h.start.12, h.start.13, h.start.14, h.start.15⟩
  link := h.link
  channel := ⟨h.channel.1, h.channel.2⟩
  offer := h.offer
  granule := ⟨h.granule.1, h.granule.2, h.granule.3⟩
  reference := ⟨h.reference.1, h.reference.2, h.reference.3, h.reference.4, h.reference.5, h.reference.6, h.reference.7⟩
  quota := ⟨h.quota.1, h.quota.2, h.quota.3, h.quota.4⟩
  session := ⟨h.session.1, h.session.2, h.session.3, h.session.4, h.session.5⟩
  memory := h.memory
  span := ⟨h.span.1, h.span.2, h.span.3⟩

/-- The statements about the laws: a lawful hub with steps that wait. -/
theorem witness_laws : State.Lawful { shop with pending := [.clrFall 0, .clearNotice []] } ∧
    ∃ t, step { shop with pending := [.clrFall 0, .clearNotice []] } = .next t :=
  ⟨lawful_pending _ shop_lawful, _, stateOf_next (s := shop) (by decide +kernel)⟩

end Sys2Proof.Tests
end

section
/-! PROOF of O17 (FIND, R23): the search answers the lowest matching slot, and each outcome of the command follows from what the search
answers. -/

namespace Sys2Proof.Machine

/-! ### The search -/

/-- The slots FIND looks for: from the first slot on, LIVE and carrying the label (R23). -/
def State.matchesLabel (s : State) (label first : Nat) (i : Slot) : Prop :=
  first ≤ i.val ∧ (s.region i).state = .live ∧ (s.region i).label = label

theorem State.findLabel_eq_none_iff (s : State) (label first : Nat) :
    s.findLabel label first = none ↔ ∀ i, ¬ s.matchesLabel label first i := by
  simp [State.findLabel, State.matchesLabel, indices, and_assoc]

theorem State.findLabel_eq_some_iff (s : State) (label first : Nat) (i : Slot) :
    s.findLabel label first = some i ↔
      s.matchesLabel label first i ∧ ∀ j, s.matchesLabel label first j → i ≤ j := by
  unfold State.findLabel
  rw [find?_indices_iff]
  simp only [Bool.and_eq_true, decide_eq_true_eq, beq_iff_eq, and_assoc, State.matchesLabel]

/-! ### The command, by what its checks and its search answer -/

theorem exec_find (p : Port) (s : State) : exec (.find p) s = execFind p s := rfl

section
variable {s : State} {p : Port} {tag l1 l0 first : Byte}

theorem exec_find_badArg (h : s.servesOpen p 0x09 tag [l1, l0, first])
    (hbad : l1.toNat * 256 + l0.toNat = 0 ∨ 63 < first.toNat) :
    exec (.find p) s = .next (s.served p 0x09 tag .badArg []) :=
  (exec_find p s).trans (State.command_refused h rfl (if_pos hbad))

theorem exec_find_notFound (h : s.servesOpen p 0x09 tag [l1, l0, first])
    (hgood : ¬ (l1.toNat * 256 + l0.toNat = 0 ∨ 63 < first.toNat))
    (hnone : s.findLabel (l1.toNat * 256 + l0.toNat) first.toNat = none) :
    exec (.find p) s = .next (s.served p 0x09 tag .notFound []) := by
  rw [exec_find]
  refine State.command_refused h rfl ((if_neg hgood).trans ?_)
  have hpop : (s.popCommand p).findLabel (wordAt [l1, l0, first] 0) (byteAt [l1, l0, first] 2).toNat = none := hnone
  rw [hpop]

theorem exec_find_ok (h : s.servesOpen p 0x09 tag [l1, l0, first])
    (hgood : ¬ (l1.toNat * 256 + l0.toNat = 0 ∨ 63 < first.toNat)) {i : Slot}
    (hsome : s.findLabel (l1.toNat * 256 + l0.toNat) first.toNat = some i) :
    exec (.find p) s = .next (s.served p 0x09 tag .ok
      (handleBytes (s.handle i) ++ portByte (s.region i).owner ::
        (bytes2 (s.region i).base ++ bytes2 (s.region i).length))) := by
  rw [exec_find]
  refine State.command_accepted h rfl ((if_neg hgood).trans ?_)
  have hpop : (s.popCommand p).findLabel (wordAt [l1, l0, first] 0) (byteAt [l1, l0, first] 2).toNat = some i := hsome
  rw [hpop]
  rfl

end

/-- Settles O17: one case for each outcome of R23, the last two through what the search answers. -/
theorem findEffect : Obligations.FindEffect := by
  unfold Obligations.FindEffect
  intro s p tag l1 l0 first h label hit
  have good (hl : label ≠ 0) (hf : first.toNat < 64) : ¬ (label = 0 ∨ 63 < first.toNat) := by omega
  refine ⟨fun hbad => ?badArg, fun hl hf hno => ?notFound, fun i hl hf hi hlow => ?found⟩
  case badArg => exact exec_find_badArg h hbad
  case notFound => exact exec_find_notFound h (good hl hf) ((s.findLabel_eq_none_iff _ _).2 hno)
  case found =>
    have lowest : ∀ j, s.matchesLabel label first.toNat j → i ≤ j := fun j hj =>
      not_lt.1 fun hji => hlow j hji hj
    exact exec_find_ok h (good hl hf) ((s.findLabel_eq_some_iff _ _ i).2 ⟨hi, lowest⟩)

end Sys2Proof.Machine
end

section
/-! PROOF of O20 (RENOUNCE, R33): each of the three checks refuses with its code, and a RENOUNCE that passes them sets the caller's
entry through the operation that GRANT uses as well. -/

namespace Sys2Proof.Machine

theorem exec_renounce (p : Port) (s : State) : exec (.renounce p) s = execRenounce p s := rfl

section
variable {s : State} {p : Port} {tag g k : Byte}

theorem exec_renounce_noRegion (h : s.servesOpen p 0x0D tag [g, k]) (hnone : s.current { gen := g, slot := k } = none) :
    exec (.renounce p) s = .next (s.served p 0x0D tag .noRegion []) :=
  (exec_renounce p s).trans (State.command_refused h rfl (by simp [handleAt_cons, hnone]))

variable {i : Slot}

theorem exec_renounce_retiring (h : s.servesOpen p 0x0D tag [g, k]) (hcur : s.current { gen := g, slot := k } = some i)
    (hstate : (s.region i).state ≠ .live) :
    exec (.renounce p) s = .next (s.served p 0x0D tag .retiring []) :=
  (exec_renounce p s).trans (State.command_refused h rfl (by simp [handleAt_cons, hcur, hstate]))

theorem exec_renounce_badHost (h : s.servesOpen p 0x0D tag [g, k]) (hcur : s.current { gen := g, slot := k } = some i)
    (hlive : (s.region i).state = .live) (howner : (s.region i).owner = p) :
    exec (.renounce p) s = .next (s.served p 0x0D tag .badHost []) :=
  (exec_renounce p s).trans (State.command_refused h rfl (by simp [handleAt_cons, hcur, hlive, howner]))

theorem exec_renounce_ok (h : s.servesOpen p 0x0D tag [g, k]) (hcur : s.current { gen := g, slot := k } = some i)
    (hlive : (s.region i).state = .live) (howner : (s.region i).owner ≠ p) :
    exec (.renounce p) s =
      .next ((s.setGrant i p .none).served p 0x0D tag .ok [(look (s.region i).grants p).code]) :=
  (exec_renounce p s).trans
    (State.command_accepted h rfl (by simp [handleAt_cons, hcur, hlive, howner, State.accepted]))

end

/-- Settles O20: one case for each outcome of R33; the orders of the accepted case are those of R32, by `State.setGrant_eq`. -/
theorem renounceEffect : Obligations.RenounceEffect := by
  unfold Obligations.RenounceEffect
  intro s p tag g k h hd
  refine ⟨fun hnone => ?noRegion, fun i hcur => ⟨fun hstate => ?retiring, fun hlive howner => ?badHost,
    fun hlive howner => ?accepted⟩⟩
  case noRegion => exact exec_renounce_noRegion h hnone
  case retiring => exact exec_renounce_retiring h hcur hstate
  case badHost => exact exec_renounce_badHost h hcur hlive howner
  case accepted =>
    rw [exec_renounce_ok h hcur hlive howner, State.setGrant_eq (State.handle_of_current hcur)]

end Sys2Proof.Machine
end

section
/-! PROOF of O51 (WINDOW_CHECK, R36): the four tests in their order name the cause of a denial or none, and the step denies the
access with that cause or admits it. -/

namespace Sys2Proof.Machine

/-! ### The four tests -/

/-- Test 4 of R36: the right that an access of a direction needs is among some rights. -/
def Rights.allows (x : Rights) : Direction → Bool
  | .read => x.hasRead
  | .write => x.hasWrite

theorem Rights.allows_eq (x : Rights) (dir : Direction) :
    x.allows dir = if dir = .read then x.hasRead else x.hasWrite := by
  cases dir <;> rfl

/-- The rights of an OPEN port on a LIVE region: the last two rows of R28. -/
theorem State.rights_of_live {s : State} {p : Port} {i : Slot} (hopen : s.session p = .opened)
    (hlive : (s.region i).state = .live) :
    s.rights p i = if (s.region i).owner = p then .readWrite else look (s.region i).grants p :=
  (if_neg (not_not.2 hopen)).trans (if_neg (not_not.2 hlive))

section
variable {s : State} {p : Port} {w : WindowRequest}

theorem State.denial_of_not_opened (hopen : s.session p ≠ .opened) : s.denial p w = some .notOpen :=
  if_pos hopen

theorem State.denial_of_no_slot (hopen : s.session p = .opened) (hspan : s.spanSlot w.addr.toNat w.length = none) :
    s.denial p w = some .unmapped := by
  simp only [State.denial, hopen, hspan, ne_eq, not_true_eq_false, if_false]

/-- Tests 3 and 4, once one slot holds the whole span. -/
theorem State.denial_of_slot {i : Slot} (hopen : s.session p = .opened)
    (hspan : s.spanSlot w.addr.toNat w.length = some i) :
    s.denial p w =
      if (s.region i).state ≠ .live then some .retiring
      else if (s.rights p i).allows w.direction = true then none else some .noRight := by
  simp only [State.denial, hopen, hspan, ne_eq, not_true_eq_false, if_false]
  cases w.direction <;> rfl

/-- Test 2 fails when the span runs past the memory or no one slot holds every granule it touches. -/
theorem State.spanSlot_eq_none_iff (law : s.GranuleLaw) {a n : Nat} (hn : 1 ≤ n) :
    s.spanSlot a n = none ↔ memoryBytes ≤ a + n - 1 ∨ ∀ i, ¬ ∀ g, a / granuleBytes ≤ g →
      g ≤ (a + n - 1) / granuleBytes → s.table.held g = true ∧ s.covers i g := by
  rw [Option.eq_none_iff_forall_ne_some, ← not_lt (a := a + n - 1), ← imp_iff_not_or]
  simp only [ne_eq, State.spanSlot_iff law hn, not_and]
  exact forall_comm

/-! ### The step, by what the tests answer -/

theorem exec_windowCheck (p : Port) (s : State) : exec (.windowCheck p) s = execWindowCheck p s := rfl

theorem exec_windowCheck_denied (hw : (s.link p).window = some w) (hnew : w.admitted = false) {cause : DenialCause}
    (hden : s.denial p w = some cause) : exec (.windowCheck p) s = .next (s.windowDenied p w cause) := by
  simp only [exec_windowCheck, execWindowCheck, hw, hnew, hden, Bool.false_eq_true, if_false, State.denyWindow_eq]

theorem exec_windowCheck_admitted (hw : (s.link p).window = some w) (hnew : w.admitted = false)
    (hden : s.denial p w = none) : exec (.windowCheck p) s =
      .next (s.setLink p { s.link p with window := some { w with admitted := true } }) := by
  simp only [exec_windowCheck, execWindowCheck, hw, hnew, hden, Bool.false_eq_true, if_false]

end

/-- Settles O51: one case for each test of R36, and one for an access that passes all four. The granule law makes the slot that the
check looks up the one slot that holds the span. -/
theorem windowCheckEffect : Obligations.WindowCheckEffect := by
  unfold Obligations.WindowCheckEffect
  intro s p w hw hnew hlen law first last inside denied
  have deny {cause : DenialCause} (hden : s.denial p w = some cause) : denied cause :=
    exec_windowCheck_denied hw hnew hden
  refine ⟨fun hclosed => ?notOpen, fun hopen hout => ?unmapped, fun i hopen hlast hin => ?_⟩
  case notOpen => exact deny (State.denial_of_not_opened hclosed)
  case unmapped => exact deny (State.denial_of_no_slot hopen ((State.spanSlot_eq_none_iff law hlen).2 hout))
  have tests := State.denial_of_slot hopen ((State.spanSlot_iff law hlen i).2 ⟨hlast, hin⟩)
  intro rights allowed
  have right (hlive : (s.region i).state = .live) : (s.rights p i).allows w.direction = allowed := by
    rw [Rights.allows_eq, State.rights_of_live hopen hlive]
  refine ⟨fun hstate => ?retiring, fun hlive hno => ?noRight, fun hlive hyes => ?admitted⟩
  case retiring => exact deny (tests.trans (if_pos hstate))
  case noRight =>
    exact deny (tests.trans ((if_neg (not_not.2 hlive)).trans (if_neg (by rw [right hlive, hno]; exact Bool.false_ne_true))))
  case admitted =>
    exact exec_windowCheck_admitted hw hnew
      (tests.trans ((if_neg (not_not.2 hlive)).trans (if_pos ((right hlive).trans hyes))))

end Sys2Proof.Machine
end

section
/-! PROOF of O41 (the arbiter, R94, R95): the lowest class among the asking channels is found first, and within it one number, the
place in the class, orders RUNNING channels before ARMED ones and each kind round-robin. -/

namespace Sys2Proof.Machine

section

variable {s : State} {passed : List Chan} {k : PriorityClass} {c : Chan}

/-! ### The place in a class -/

theorem State.placeInClass_of_running (h : (s.channel c).state = .running) :
    s.placeInClass k c = (c - look s.engine.pointers k - 1).val := by
  rw [State.placeInClass, if_pos h, Nat.zero_add]

theorem State.placeInClass_of_not_running (h : (s.channel c).state ≠ .running) :
    s.placeInClass k c = 16 + (c - look s.engine.pointers k - 1).val := by
  rw [State.placeInClass, if_neg h]

theorem State.placeInClass_running_lt {d : Chan} (hc : (s.channel c).state = .running)
    (hd : (s.channel d).state ≠ .running) : s.placeInClass k c < s.placeInClass k d := by
  rw [State.placeInClass_of_running hc, State.placeInClass_of_not_running hd]
  omega

/-! ### The choice within a class -/

theorem mem_roundRobin (pointer d : Chan) : d ∈ roundRobin pointer :=
  List.mem_map.2 ⟨d - pointer - 1, List.mem_finRange _, by abel⟩

theorem roundRobin_find_none {pointer : Chan} {f : Chan → Bool} :
    (roundRobin pointer).find? f = none ↔ ∀ d, ¬ f d = true := by
  simp only [List.find?_eq_none, mem_roundRobin, true_imp_iff]

/-- Steps 2 and 3 of R95 over the channels `mine`: the first RUNNING one, or else the first. -/
def State.firstInClass (s : State) (k : PriorityClass) (mine : Chan → Bool) : Option Chan :=
  let order := roundRobin (look s.engine.pointers k)
  (order.find? fun c => mine c && (s.channel c).state == .running).or (order.find? mine)

theorem State.firstInClass_eq_some_iff (mine : Chan → Bool) :
    s.firstInClass k mine = some c ↔
      mine c = true ∧ ∀ d, mine d = true → s.placeInClass k c ≤ s.placeInClass k d := by
  simp only [State.firstInClass, Option.or_eq_some_iff, roundRobin_find, roundRobin_find_none, Bool.and_eq_true, beq_iff_eq,
    not_and]
  constructor
  · rintro (⟨⟨hc, hrun⟩, hfirst⟩ | ⟨hnone, hc, hfirst⟩)
    · refine ⟨hc, fun d hd => ?_⟩
      by_cases hdrun : (s.channel d).state = .running
      · simpa only [State.placeInClass_of_running hrun, State.placeInClass_of_running hdrun] using hfirst d ⟨hd, hdrun⟩
      · exact (State.placeInClass_running_lt hrun hdrun).le
    · refine ⟨hc, fun d hd => ?_⟩
      rw [State.placeInClass_of_not_running (hnone c hc), State.placeInClass_of_not_running (hnone d hd)]
      exact Nat.add_le_add_left (hfirst d hd) 16
  · rintro ⟨hc, hleast⟩
    by_cases hrun : (s.channel c).state = .running
    · refine .inl ⟨⟨hc, hrun⟩, fun d ⟨hd, hdrun⟩ => ?_⟩
      simpa only [State.placeInClass_of_running hrun, State.placeInClass_of_running hdrun] using hleast d hd
    · have hnone : ∀ d, mine d = true → (s.channel d).state ≠ .running := fun d hd hdrun =>
        absurd (hleast d hd) (State.placeInClass_running_lt hdrun hrun).not_ge
      refine .inr ⟨hnone, hc, fun d hd => ?_⟩
      have := hleast d hd
      rw [State.placeInClass_of_not_running hrun, State.placeInClass_of_not_running (hnone d hd)] at this
      exact Nat.le_of_add_le_add_left this

/-! ### The choice of the class, and the winner -/

/-- Channel `c` requests service, is not passed over, and its program is of class `k`. -/
def State.asksInClass (s : State) (passed : List Chan) (k : PriorityClass) (c : Chan) : Bool :=
  (s.requests c && !passed.contains c) && s.classOf c == some k

theorem State.asksInClass_iff : s.asksInClass passed k c = true ↔
    (s.requests c = true ∧ c ∉ passed) ∧ ∃ g ∈ (s.channel c).program, g.cls = k := by
  simp [State.asksInClass, State.classOf]

/-- R95 in two choices: the class (step 1), then the channel within it (steps 2 and 3). -/
theorem State.winner_eq_bind : s.winner passed =
    ((indices 4).find? fun k => (indices 16).any (s.asksInClass passed k)).bind fun k =>
      s.firstInClass k (s.asksInClass passed k) := by
  unfold State.winner State.firstInClass State.asksInClass
  dsimp only
  split
  · next hclass => rw [hclass, Option.bind_none]
  · next k hclass =>
    rw [hclass, Option.bind_some]
    split
    · next c hrun => rw [hrun, Option.some_or]
    · next hrun => rw [hrun, Option.none_or]

theorem State.lowestClass_eq_some_iff :
    ((indices 4).find? fun k => (indices 16).any (s.asksInClass passed k)) = some k ↔
      (∃ d, s.asksInClass passed k d = true) ∧ ∀ j d, s.asksInClass passed j d = true → k ≤ j := by
  rw [find?_indices_iff]
  simp only [indices, List.any_eq_true, List.mem_finRange, true_and, forall_exists_index]

theorem State.winner_eq_some_iff : s.winner passed = some c ↔ ∃ k, s.asksInClass passed k c = true ∧
    (∀ j d, s.asksInClass passed j d = true → k ≤ j) ∧
    ∀ d, s.asksInClass passed k d = true → s.placeInClass k c ≤ s.placeInClass k d := by
  simp only [State.winner_eq_bind, Option.bind_eq_some_iff, State.lowestClass_eq_some_iff, State.firstInClass_eq_some_iff]
  constructor
  · rintro ⟨k, ⟨-, hlow⟩, hc, hfirst⟩
    exact ⟨k, hc, hlow, hfirst⟩
  · rintro ⟨k, hc, hlow, hfirst⟩
    exact ⟨k, ⟨⟨c, hc⟩, hlow⟩, hc, hfirst⟩

end

/-- Settles O41: R94 is the law of the requests; for R95 the class of the winner's own program is the lowest class found. -/
theorem arbiterWinner : Obligations.ArbiterWinner := by
  unfold Obligations.ArbiterWinner
  refine ⟨State.requests_iff, fun s passed c => ?_⟩
  simp only [State.winner_eq_some_iff, State.asksInClass_iff]
  constructor
  · rintro ⟨k, ⟨hask, g, hg, rfl⟩, hlow, hfirst⟩
    exact ⟨hask, g, hg, fun d hd h hh => ⟨hlow h.cls d ⟨hd, h, hh, rfl⟩, fun hcls => hfirst d ⟨hd, h, hh, hcls⟩⟩⟩
  · rintro ⟨hask, g, hg, hbest⟩
    refine ⟨g.cls, ⟨hask, g, hg, rfl⟩, ?_, ?_⟩
    · rintro j d ⟨hd, h, hh, rfl⟩
      exact (hbest d hd h hh).1
    · rintro d ⟨hd, h, hh, hcls⟩
      exact (hbest d hd h hh).2 hcls

end Sys2Proof.Machine
end

section
/-! PROOF of O40 (settling by strength, R117, R120): every request applies at a RUNNING channel with a program, so behind a unit in
flight it is recorded, and of the recorded request and a new one the record keeps the old one unless the new one is stronger. -/

namespace Sys2Proof.Machine

section
variable {c : Chan} {x : Channel} {q old : Request}

/-- Every row of R118 admits a RUNNING channel that has a program. -/
theorem Request.appliesTo_of_running (hrun : x.state = .running) (hprog : x.program ≠ none) : q.appliesTo x = true := by
  cases q with
  | suspend cause => simp only [Request.appliesTo, hrun]
  | abort cause => simp only [Request.appliesTo, hrun]
  | discard cause => exact Option.isSome_iff_ne_none.2 hprog
  | teardown => simp [Request.appliesTo, hrun]

/-- R119: a request that applies while a unit is in flight is recorded and does nothing else. -/
theorem makeRequest_of_unitInFlight (happ : q.appliesTo x = true) (hunit : x.run.unitInFlight = true) :
    makeRequest c x q = Effect.keep (x.recording q) := by
  rw [makeRequest, if_neg (by rw [happ]; decide), if_pos hunit, Channel.record_eq]

/-- R120: one request stands recorded already. -/
theorem Channel.recording_of_recorded (hold : x.recorded = some old) :
    x.recording q = { x with recorded := some (if old.strength < q.strength then q else old) } := by
  by_cases hlt : old.strength < q.strength
  · simp [Channel.recording, hold, hlt]
  · simp [Channel.recording, hold, hlt]

end

/-- Settles O40: one strength for each kind of request; at the channel, the new request applies, so it is recorded beside the old
one by strength. -/
theorem strengthSettlesRequests : Obligations.StrengthSettlesRequests := by
  unfold Obligations.StrengthSettlesRequests
  refine ⟨fun q => by cases q <;> rfl, fun c x old new hold hunit hrun hprog => ?_⟩
  calc makeRequest c x new
    _ = Effect.keep (x.recording new) := makeRequest_of_unitInFlight (Request.appliesTo_of_running hrun hprog) hunit
    _ = Effect.keep { x with recorded := some (if old.strength < new.strength then new else old) } := by
      rw [Channel.recording_of_recorded hold]

end Sys2Proof.Machine
end

section
/-! PROOF of O12 (SET_NOTIFY, R173): the command is answered by what its three argument bytes read as, each ON, OFF or neither. -/

namespace Sys2Proof.Machine

theorem byteAt_one (a b : Byte) (rest : List Byte) : byteAt (a :: b :: rest) 1 = b := rfl

theorem byteAt_two (a b c : Byte) (rest : List Byte) : byteAt (a :: b :: c :: rest) 2 = c := rfl

theorem exec_setNotify (p : Port) (s : State) : exec (.setNotify p) s = execSetNotify p s := rfl

/-- A link written after the taking of its head record, with the rest of its command queue, is one written before the taking. -/
theorem State.popCommand_setLink_same (s : State) (p : Port) (x : Link) :
    (s.popCommand p).setLink p { x with commands := x.commands.tail } = (s.setLink p x).popCommand p := by
  have hcommute : (s.setLink p x).setPointer p = (s.setPointer p).setLink p x := rfl
  simp only [State.popCommand, hcommute, State.setLink_link, if_true, State.setLink_setLink_same]

section
variable {s : State} {p : Port} {tag a b c : Byte}

theorem exec_setNotify_badArg (h : s.servesOpen p 0x03 tag [a, b, c])
    (hbad : settingOf a = none ∨ settingOf b = none ∨ settingOf c = none) :
    exec (.setNotify p) s = .next (s.served p 0x03 tag .badArg []) := by
  rw [exec_setNotify]
  refine State.command_refused h rfl ?_
  dsimp only [byteAt_zero, byteAt_one, byteAt_two]
  split
  · next ha hb hc => simp [ha, hb, hc] at hbad
  · rfl

/-- One taking replaces the three settings and answers the three that stood before. -/
theorem exec_setNotify_ok (h : s.servesOpen p 0x03 tag [a, b, c]) {onResult onEvent reportDenials : Bool}
    (ha : settingOf a = some onResult) (hb : settingOf b = some onEvent) (hc : settingOf c = some reportDenials) :
    let old := (s.link p).settings
    exec (.setNotify p) s = .next
      ((s.setLink p { s.link p with settings := { onResult, onEvent, reportDenials } }).served p 0x03 tag .ok
        [yesNo old.onResult, yesNo old.onEvent, yesNo old.reportDenials]) := by
  intro old
  rw [exec_setNotify]
  refine State.command_accepted h rfl ?_
  simp only [byteAt_zero, byteAt_one, byteAt_two, ha, hb, hc, State.popCommand_link, if_true, State.accepted,
    ← State.popCommand_setLink_same, old]

end

/-- Settles O12: one case for each outcome of R173, by what the bytes read as. -/
theorem setNotifyEffect : Obligations.SetNotifyEffect := by
  unfold Obligations.SetNotifyEffect
  intro s p tag a b c h
  refine ⟨fun hbad => ?badArg, fun ha hb hc => ?accepted⟩
  case badArg =>
    exact exec_setNotify_badArg h (hbad.imp (settingOf_none a) (Or.imp (settingOf_none b) (settingOf_none c)))
  case accepted =>
    exact exec_setNotify_ok h (settingOf_some a ha) (settingOf_some b hb) (settingOf_some c hc)

end Sys2Proof.Machine
end

section
/-! PROOF of O54 (placement in an event queue, R168, R170, R171): placement looks at the queue's length and at its tail record, so each
case reads the queue as its records before the tail, with the tail. -/

namespace Sys2Proof.Machine

theorem markerAtTail_append (q : List Event) (e : Event) : markerAtTail (q ++ [e]) = e.isMarker := by
  simp [markerAtTail]

theorem Event.isMarker_eq_false {e : Event} (h : ∀ n, e ≠ .overrun n) : e.isMarker = false := by
  cases e with
  | overrun n => exact absurd rfl (h n)
  | _ => rfl

/-- A record before the tail stays as it is, a marker too (R171: its count is fixed once a record joins behind it). -/
theorem countDropped_cons (e : Event) {q : List Event} (h : q ≠ []) : countDropped (e :: q) = e :: countDropped q := by
  cases q with
  | nil => exact absurd rfl h
  | cons _ _ => cases e <;> rfl

theorem countDropped_append_marker (q : List Event) (n : Nat) :
    countDropped (q ++ [.overrun n]) = q ++ [.overrun (min (n + 1) 65535)] := by
  induction q with
  | nil => rfl
  | cons e q ih => rw [List.cons_append, countDropped_cons e (by simp), ih, List.cons_append]

/-! ### The rows of R170 -/

section
variable {q : List Event}

theorem placeEvent_join (e : Event) (h : q.length ≤ 14) : placeEvent q e = q ++ [e] := if_pos h

theorem placeEvent_counted (e : Event) (n : Nat) (h : 14 ≤ q.length) :
    placeEvent (q ++ [.overrun n]) e = q ++ [.overrun (min (n + 1) 65535)] := by
  have hlong : ¬ (q ++ [Event.overrun n]).length ≤ 14 := by rw [List.length_append, List.length_singleton]; omega
  have hmarker : markerAtTail (q ++ [.overrun n]) = true := markerAtTail_append q (.overrun n)
  rw [placeEvent, if_neg hlong, if_pos hmarker, countDropped_append_marker]

theorem placeEvent_newMarker {last : Event} (e : Event) (h : q.length = 14) (hlast : ∀ n, last ≠ .overrun n) :
    placeEvent (q ++ [last]) e = q ++ [last, .overrun 1] := by
  have hlen : (q ++ [last]).length = 15 := by rw [List.length_append, h, List.length_singleton]
  have htail : ¬ markerAtTail (q ++ [last]) = true := by
    rw [markerAtTail_append, Event.isMarker_eq_false hlast]; exact Bool.false_ne_true
  rw [placeEvent, if_neg (by omega), if_neg htail, if_pos hlen, List.append_assoc, List.singleton_append]

end

/-- Settles O54: the two cases of R168, then one case for each row of R170 that the lengths name. -/
theorem eventPlacement : Obligations.EventPlacement := by
  unfold Obligations.EventPlacement
  refine ⟨fun s p e hclosed => ?dropped, fun s p e hopen => ?offered, fun q e hlen => ?joins,
    fun q e n hlen => ?counted, fun q last e hlen hlast => ?newMarker⟩
  case dropped => exact (s.offerEvents_one p e).trans (if_neg hclosed)
  case offered => exact (s.offerEvents_one p e).trans (if_pos hopen)
  case joins => exact placeEvent_join e hlen
  case counted =>
    have hcount : min (n + 1) 65535 = if n < 65535 then n + 1 else 65535 := by split_ifs <;> omega
    rw [placeEvent_counted e n hlen, hcount]
  case newMarker => exact placeEvent_newMarker e hlen hlast

end Sys2Proof.Machine
end

section
/-! SUPPORT. What a step of the hub is made of. `Link.Change` lists what can become of one link unit, `State.Act` the changes of the
state that the rows share, each with the condition under which a row makes it; every step is a sequence of such acts, a taking with
its record and its result around them, or a row of device reset. The laws of the hub are proved act by act. -/

set_option Elab.async false

namespace Sys2Proof.Machine

open Relation (ReflTransGen)

/-! ### Link units -/

/-- What a frame makes of its link unit: the fall of SELk, the code byte with its answer, a byte clocked in, the rise of SELk. A
frame that fell in the NOT_READY period takes nothing in (R154). -/
inductive Link.Heard (l : Link) : Link → Prop
  | select (summary : Byte) (h : l.frame = none) : Link.Heard l { l with
      out := []
      frame := some { summary, notReady := l.notReady, code := none, answer := none, received := [], toSend := []
                      live := false, closed := false } }
  | code (f : Frame) (code : Byte) (answer : LinkAnswer) (malformed : Bool) (results : List ResultRecord) (events : List Event)
      (sent : List Byte) (hf : l.frame = some f) (hc : f.code = none)
      (hresults : results = l.results ∨ results = l.results.tail) (hevents : events = l.events ∨ events = l.events.tail)
      (hin : answer.takesIn = true → f.notReady = false ∧ l.window = none ∧ (code = 0x02 → l.commands.length < 4)) :
      Link.Heard l { l with
        malformed, results, events, out := [f.summary]
        frame := some { f with
          code := some code, answer := some answer, toSend := sent, live := answer.takesIn, closed := false } }
  | clock (b : Byte) (h : ∀ f ∈ l.frame, f.code ≠ none) : Link.Heard l (l.clock b)
  | deselect : Link.Heard l l.deselect

/-- What can become of a link unit outside the taking of a command. -/
inductive Link.Change (l : Link) : Link → Prop
  | event (e : Event) : Link.Change l { l with events := placeEvent l.events e }
  | settings (x : NotifySettings) : Link.Change l { l with settings := x }
  | heard {m : Link} (h : l.Heard m) : Link.Change l m
  | admission (w : WindowRequest) (hw : l.window = some w) (h : w.addr.toNat + w.length ≤ memoryBytes) :
      Link.Change l { l with window := some { w with admitted := true } }
  | done (w : WindowRequest) (bytes : List Byte) (hw : l.window = some w) : Link.Change l (l.windowDone w bytes)
  | emptied : Link.Change l l.emptied

/-- Any number of changes of a link unit. -/
def Link.Changes : Link → Link → Prop := ReflTransGen Link.Change

theorem Link.Changes.refl (l : Link) : l.Changes l := ReflTransGen.refl

theorem Link.Change.changes {l m : Link} (h : l.Change m) : l.Changes m := ReflTransGen.single h

theorem Link.Changes.trans {l m n : Link} (h : l.Changes m) (h' : m.Changes n) : l.Changes n := ReflTransGen.trans h h'

/-- A property that every change of a link unit keeps. -/
theorem Link.Changes.keeps {P : Link → Prop} (h : ∀ {l m : Link}, l.Change m → P l → P m) {l m : Link} (hs : l.Changes m)
    (hl : P l) : P m := by
  induction hs with
  | refl => exact hl
  | tail _ hstep ih => exact h hstep ih

/-! ### The state -/

/-- The changes of the state that the rows share. -/
inductive State.Act (s : State) : State → Prop
  -- lines, claims and timers
  | pins (x : Pins) (h : x.reset = s.pins.reset) : State.Act s (s.setPins x)
  | haltClaims (x : List Port) : State.Act s (s.setHaltClaims x)
  | edgeClaims (x : List EdgeClaim) : State.Act s (s.setEdgeClaims x)
  | expiryDue (x : List Slot) : State.Act s (s.setExpiryDue x)
  | tick : State.Act s (s.mapRegions tickedRegion)
  -- links and sessions
  | link (p : Port) (l : Link) (h : (s.link p).Changes l) : State.Act s (s.setLink p l)
  | openPort (p : Port) (h : s.session p = .closed) : State.Act s (s.setSession p .opened)
  | close (p : Port) (order : List Slot) (h : s.session p = .opened) : State.Act s (s.closeSession p order)
  -- regions
  | place (p : Port) (i : Slot) (base length label : Nat) (hopen : s.session p = .opened)
      (hslot : (s.region i).state = .unused) (hlen : 1 ≤ length) (hin : base + length ≤ granuleCount)
      (hfree : runFree s.table.granules base length = true) (hquota : s.quotaAllows p length = true) :
      State.Act s (s.placeRegion p i base length label)
  | free (i : Slot) (hlive : (s.region i).state = .live) (hoffer : (s.region i).offer = none)
      (hopen : s.session (s.region i).owner = .opened) : State.Act s (s.freeRegion i)
  | mark (i : Slot) (pinned : Bool) (label : Nat) (hlive : (s.region i).state = .live)
      (hopen : s.session (s.region i).owner = .opened) : State.Act s (s.setRegion i { s.region i with pinned, label })
  | grant (i : Slot) (q : Port) (new : Rights) (hlive : (s.region i).state = .live) (howner : (s.region i).owner ≠ q)
      (hopen : s.session q = .opened) : State.Act s (s.setGrant i q new)
  | offer (i : Slot) (o : Offer) (hlive : (s.region i).state = .live) (htarget : o.target ≠ (s.region i).owner)
      (hopen : s.session o.target = .opened) (htime : o.remaining ≤ 65535) :
      State.Act s (s.setRegion i { s.region i with offer := some o })
  | clearOffer (i : Slot) : State.Act s (s.clearOffer i)
  | accept (p : Port) (i : Slot) (o : Offer) (e : Event) (hlive : (s.region i).state = .live)
      (hoffer : (s.region i).offer = some o) (htarget : o.target = p) (hopen : s.session p = .opened)
      (hquota : s.quotaAllows p (s.region i).length = true) :
      State.Act s ((((s.setRegion i ((s.region i).handedTo p)).moveQuota (s.region i).owner p (s.region i).length).offerEvent
        (s.region i).owner e).sendDiscards .revoked (s.handle i)
          fun x => x.lessee == some (s.region i).owner && (x.program.map fun g => g.names (s.handle i)).getD false)
  -- channels
  | lease (p : Port) (c : Chan) (hopen : s.session p = .opened) (hfree : (s.channel c).state = .free)
      (hquota : s.table.quotaMode = .split → (s.quota p).channels < Config.splitChannels) :
      State.Act s ((s.setChannel c (Channel.leasedTo p)).setLeases p ((s.quota p).channels + 1))
  | release (p : Port) (c : Chan) (hlessee : (s.channel c).lessee = some p) (hrec : (s.channel c).recorded = none)
      (hstate : (s.channel c).state = .leased ∨ (s.channel c).state = .programmed) :
      State.Act s (((s.setChannel c Channel.empty).notify (s.channel c).releases).setLeases p ((s.quota p).channels - 1))
  | install (p : Port) (c : Chan) (g : Program) (i j : Slot) (r : List Byte) (hlessee : (s.channel c).lessee = some p)
      (hrec : (s.channel c).recorded = none)
      (hstate : (s.channel c).state = .leased ∨ (s.channel c).state = .programmed) (horders : s.chan.orders = [])
      (hprog : programOf r = some g) (hcheck : s.checkProgram p g = .ok (i, j)) : State.Act s (s.install c g i j)
  | arm (c : Chan) (g : Program) (hprog : (s.channel c).program = some g) (hstate : (s.channel c).state = .programmed) :
      State.Act s (s.setChannel c ((s.channel c).armed g))
  | resume (c : Chan) (hstate : (s.channel c).state = .suspended) : State.Act s (s.setChannel c (s.channel c).resumed)
  | suspend (c : Chan) (cause : SuspendCause) : State.Act s (s.commit c (makeRequest c (s.channel c) (.suspend cause)))
  | abort (c : Chan) (cause : AbortCause) : State.Act s (s.commit c (makeRequest c (s.channel c) (.abort cause)))
  | activate (c : Chan) (h : (s.channel c).takesActivations = true) : State.Act s (s.commit c (activate c (s.channel c)).1)
  | order (o : Order) (left : List (List Order)) (h : ∀ x ∈ s.chan.orders.flatten, x = o ∨ x ∈ left.flatten) :
      State.Act s ((s.setOrders left).takeOrder o)
  | orders (left : List (List Order)) (h : ∀ x ∈ s.chan.orders.flatten, x ∈ left.flatten) : State.Act s (s.setOrders left)
  -- notices
  | raise (n : Notice) (h : (∃ p, n = .clear p) ∨ ∃ i, n = .offerExpiry i) : State.Act s (s.notify [n])
  | drop (n : Notice) (rest : List Notice) (hn : s.table.notices = n :: rest)
      (h : (∃ p, n = .clear p) ∨ (∃ i, n = .offerExpiry i) ∨ ∃ h, n = .referenceRelease h ∧ h.slot? = none) :
      State.Act s (s.setNotices rest)
  | referenceRelease (h : Handle) (i : Slot) (rest : List Notice) (hn : s.table.notices = .referenceRelease h :: rest)
      (hi : h.slot? = some i) : State.Act s ((s.setNotices rest).releaseReference i)
  | leaseEnd (c : Chan) (p : Port) (rest : List Notice) (hn : s.table.notices = .leaseEnd c p :: rest) :
      State.Act s (((s.setNotices rest).setQuota p { s.quota p with channels := (s.quota p).channels - 1 }).settleClosing p)
  | scrubDone (i : Slot) (rest : List Notice) (hn : s.table.notices = .scrubDone i :: rest) :
      State.Act s ((s.setNotices rest).finishScrub i)
  -- the engine
  | startUnit (c : Chan) (g : Program) (bases : Nat × Nat) (hidle : s.engine.unit = none) (hreq : s.requests c = true)
      (hcheck : s.unitStartCheck c = some bases) (hprog : (s.channel c).program = some g) :
      State.Act s (s.startUnit c g bases.1 bases.2)
  | unit (u v : UnitInFlight) (hu : s.engine.unit = some u)
      (hsame : v.channel = u.channel ∧ v.source = u.source ∧ v.dest = u.dest ∧ v.size = u.size)
      (hbuffer : v.buffer = u.buffer ∨ v.buffer.length = u.size.bytes) : State.Act s (s.setUnit v)
  | endReport (u : UnitInFlight) (hu : s.engine.unit = some u) : State.Act s (s.takeEndReport u)
  -- the scrub unit and the memory
  | mem (m : Memory) (hwf : s.mem.wf = true → m.wf = true) (hdef : m.definedTo = s.mem.definedTo) : State.Act s (s.setMem m)
  | running (x : Option Nat) : State.Act s (s.setScrub { s.scrub with running := x })
  | scrubRunEnd (e : ScrubRun) (later : List ScrubRun) (hq : s.scrub.queue = e :: later) :
      State.Act s ((s.setScrub { s.scrub with queue := later, running := none }).notify [.scrubDone e.slot])

/-- Any number of acts. -/
def State.Acts : State → State → Prop := ReflTransGen State.Act

theorem State.Acts.refl (s : State) : s.Acts s := ReflTransGen.refl

theorem State.Act.acts {s t : State} (h : s.Act t) : s.Acts t := ReflTransGen.single h

theorem State.Acts.trans {s t u : State} (h : s.Acts t) (h' : t.Acts u) : s.Acts u := ReflTransGen.trans h h'

theorem State.Acts.act {s t u : State} (h : s.Acts t) (h' : t.Act u) : s.Acts u := ReflTransGen.tail h h'

/-- A property that every act keeps. -/
theorem State.Acts.keeps {P : State → Prop} (h : ∀ {s t : State}, s.Act t → P s → P t) {s t : State} (hs : s.Acts t)
    (hp : P s) : P t := by
  induction hs with
  | refl => exact hp
  | tail _ hstep ih => exact h hstep ih

end Sys2Proof.Machine
end

section
/-! SUPPORT (acts and links). -/

set_option Elab.async false

namespace Sys2Proof.Machine

open Relation (ReflTransGen)

/-! ### What an act makes of the links -/

theorem Link.Changes.foldl_placeEvent (l : Link) (es : List Event) :
    l.Changes { l with events := es.foldl placeEvent l.events } := by
  induction es generalizing l with
  | nil => exact .refl l
  | cons e es ih => exact (Link.Change.event e).changes.trans (ih { l with events := placeEvent l.events e })

theorem State.eventsAfter_changes (s : State) (q : Port) (es : List Event) :
    (s.link q).Changes { s.link q with events := s.eventsAfter q es } := by
  unfold State.eventsAfter
  split_ifs
  · exact Link.Changes.foldl_placeEvent _ es
  · exact .refl _

section
variable {s t : State} {q : Port}

/-! The state `t` in which events are offered may differ from `s`, as long as it has the link unit of `s`. -/

theorem State.offerEvents_changes (es : List (Port × Event)) (h : t.link q = s.link q := by rfl) :
    (s.link q).Changes ((t.offerEvents es).link q) := by
  rw [State.offerEvents_link_eq, ← h]
  exact t.eventsAfter_changes q _

theorem State.offerEvent_changes (p : Port) (e : Event) (h : t.link q = s.link q := by rfl) :
    (s.link q).Changes ((t.offerEvent p e).link q) := State.offerEvents_changes [(p, e)] h

theorem State.commit_changes (c : Chan) (e : Effect) (h : t.link q = s.link q := by rfl) :
    (s.link q).Changes ((t.commit c e).link q) := by
  rw [State.commit_link_eq, ← h]
  exact t.eventsAfter_changes q _

theorem State.freeRegion_changes (i : Slot) : (s.link q).Changes ((s.freeRegion i).link q) := by
  unfold State.freeRegion
  dsimp only
  split_ifs
  · exact State.offerEvents_changes _
  · rw [State.sendDiscards_link]
    exact State.offerEvents_changes _

theorem State.foldl_freeRegion_changes (is : List Slot) :
    (s.link q).Changes ((is.foldl State.freeRegion s).link q) := by
  induction is generalizing s with
  | nil => exact .refl _
  | cons i is ih => exact (State.freeRegion_changes i).trans ih

theorem State.closeSession_changes (p : Port) (order : List Slot) :
    (s.link q).Changes ((s.closeSession p order).link q) := by
  have emptied : (s.link q).Changes (((s.setSession p .closing).setLink p (s.link p).emptied).link q) := by
    rw [State.setLink_link]
    split_ifs with h
    · exact h ▸ Link.Change.emptied.changes
    · exact .refl _
  unfold State.closeSession
  dsimp only
  rw [State.settleClosing_link]
  refine .trans ?_ (State.foldl_freeRegion_changes _)
  rw [State.sendOrders_link, State.mapRegions_link]
  exact emptied.trans (State.offerEvents_changes _)

theorem State.followChain_changes (c : Chan) (lessee : Option Port) (chain : Option Chan) :
    (s.link q).Changes ((s.followChain c lessee chain).link q) := by
  cases chain with
  | none => exact .refl _
  | some target =>
    unfold State.followChain
    dsimp only
    split
    · split
      · exact .refl _
      · exact State.offerEvent_changes _ _
    · split
      · exact .refl _
      · exact .refl _

theorem State.takeEndReport_changes (u : UnitInFlight) : (s.link q).Changes ((s.takeEndReport u).link q) := by
  unfold State.takeEndReport
  dsimp only
  split
  · exact .refl _
  · split_ifs
    · exact State.commit_changes _ _
    · exact .trans (State.commit_changes _ _) (State.followChain_changes _ _ _)
    · exact State.commit_changes _ _
    · exact State.commit_changes _ _

theorem State.releaseReference_changes (i : Slot) (h : t.link q = s.link q := by rfl) :
    (s.link q).Changes ((t.releaseReference i).link q) := by
  unfold State.releaseReference
  dsimp only
  rw [State.settleClosing_link, ← h]
  split_ifs
  · exact State.offerEvent_changes _ _
  · exact .refl _

end

/-- PROGRAM touches no link unit. -/
theorem State.install_links (s : State) (c : Chan) (g : Program) (i j : Slot) : (s.install c g i j).links = s.links := by
  cases hx : (s.channel c).program with
  | none => simp only [State.install, hx]; rfl
  | some old =>
    simp only [State.install, hx, State.dropProgram, State.dropReference]
    cases old.source.handle.slot? <;> cases old.dest.handle.slot? <;> rfl

theorem State.install_link (s : State) (c : Chan) (g : Program) (i j : Slot) (q : Port) :
    (s.install c g i j).link q = s.link q := congrArg (look · q) (s.install_links c g i j)

/-- Every act changes each link unit by changes of a link unit. -/
theorem State.Act.links {s t : State} (h : s.Act t) (q : Port) : (s.link q).Changes (t.link q) := by
  cases h with
  | link p l h =>
    rw [State.setLink_link]
    split_ifs with hpq
    · exact hpq ▸ h
    · exact .refl _
  | close p order h => exact State.closeSession_changes p order
  | free i => exact State.freeRegion_changes i
  | accept p i o e =>
    rw [State.sendDiscards_link]
    exact State.offerEvent_changes _ _
  | suspend c cause => exact State.commit_changes _ _
  | abort c cause => exact State.commit_changes _ _
  | activate c h => exact State.commit_changes _ _
  | order o left h =>
    rw [State.takeOrder]
    exact State.commit_changes _ _
  | referenceRelease h i rest => exact State.releaseReference_changes i
  | endReport u => exact State.takeEndReport_changes u
  | leaseEnd c p rest => rw [State.settleClosing_link]; exact .refl _
  | tick => rw [State.mapRegions_link]; exact .refl _
  | grant i p new => rw [State.setGrant, State.sendDiscards_link]; exact .refl _
  | install p c g i j r => rw [State.install_link]; exact .refl _
  | _ => exact .refl _

theorem State.Acts.links {s t : State} (h : s.Acts t) (q : Port) : (s.link q).Changes (t.link q) := by
  induction h with
  | refl => exact .refl _
  | tail _ hstep ih => exact ih.trans (hstep.links q)

/-! ### What no change of a link unit does -/

theorem Link.clock_results (l : Link) (b : Byte) : (l.clock b).results = l.results := by
  unfold Link.clock Link.commandByte Link.windowReadByte Link.windowWriteByte Link.askWindow
  dsimp only
  split
  · rfl
  · split_ifs <;> rfl

theorem Link.clock_notReady (l : Link) (b : Byte) : (l.clock b).notReady = l.notReady := by
  unfold Link.clock Link.commandByte Link.windowReadByte Link.windowWriteByte Link.askWindow
  dsimp only
  split
  · rfl
  · split_ifs <;> rfl

theorem Link.deselect_results (l : Link) : l.deselect.results = l.results := by
  unfold Link.deselect; split <;> rfl

theorem Link.deselect_notReady (l : Link) : l.deselect.notReady = l.notReady := by
  unfold Link.deselect; split <;> rfl

theorem Link.Heard.results_length {l m : Link} (h : l.Heard m) : m.results.length ≤ l.results.length := by
  cases h with
  | code f code answer malformed results events sent hf hc hresults =>
    rcases hresults with rfl | rfl
    · exact le_rfl
    · simp
  | clock b => rw [Link.clock_results]
  | deselect => rw [Link.deselect_results]
  | select => exact le_rfl

/-- No change of a link unit adds a result record: a taking alone does. -/
theorem Link.Change.results_length {l m : Link} (h : l.Change m) : m.results.length ≤ l.results.length := by
  cases h with
  | heard h => exact h.results_length
  | emptied => exact Nat.zero_le _
  | _ => exact le_rfl

theorem Link.Change.notReady {l m : Link} (h : l.Change m) : m.notReady = l.notReady := by
  cases h with
  | heard h =>
    cases h with
    | clock b => exact l.clock_notReady b
    | deselect => exact l.deselect_notReady
    | select => rfl
    | code => rfl
  | _ => rfl

theorem State.Acts.results_length {s t : State} (h : s.Acts t) (q : Port) :
    (t.link q).results.length ≤ (s.link q).results.length :=
  (h.links q).keeps (P := fun m => m.results.length ≤ (s.link q).results.length)
    (fun hc hm => hc.results_length.trans hm) le_rfl

theorem State.Acts.notReady {s t : State} (h : s.Acts t) (q : Port) : (t.link q).notReady = (s.link q).notReady :=
  (h.links q).keeps (P := fun m => m.notReady = (s.link q).notReady) (fun hc hm => hc.notReady.trans hm) rfl

end Sys2Proof.Machine
end

section
/-! SUPPORT: every step is a sequence of acts. -/

set_option Elab.async false

namespace Sys2Proof.Machine

open Relation (ReflTransGen)

/-- What a row of the table, other than those of device reset, makes of the state: a sequence of acts, or the taking of a command,
whose record goes first and whose result, if there is one, comes last. -/
inductive State.Moves (s : State) : State → Prop
  | acts {t : State} (h : s.Acts t) : State.Moves s t
  | taken {u : State} (p : Port) (r : CommandRecord) (hserves : s.serves p r) (h : (s.popCommand p).Acts u) : State.Moves s u
  | answered {u : State} (p : Port) (r : CommandRecord) (y : Reply) (hserves : s.serves p r) (h : (s.popCommand p).Acts u) :
      State.Moves s (u.answer p r y)

theorem State.Moves.refl (s : State) : s.Moves s := .acts (.refl s)

/-! ### Takings -/

/-- A taking whose body acts moves the state. -/
theorem State.taking_moves {s t : State} {p : Port} {mine : CommandRecord → Bool}
    {body : CommandRecord → State → State × Option Reply} (h : s.taking p mine body = .next t)
    (hbody : ∀ r, s.serves p r → (s.popCommand p).Acts (body r (s.popCommand p)).1) : s.Moves t := by
  by_cases hdue : ∃ r, s.serves p r ∧ mine r = true
  · obtain ⟨r, hserves, hmine⟩ := hdue
    have hacts := hbody r hserves
    rw [State.taking_of_serves hserves hmine] at h
    split at h
    · next u hb =>
      rw [hb] at hacts
      cases h
      exact .taken p r hserves hacts
    · next u y hb =>
      rw [hb] at hacts
      cases h
      exact .answered p r y hserves hacts
  · rw [State.taking_of_not fun r hr => Bool.eq_false_iff.2 fun hm => hdue ⟨r, hr, hm⟩] at h
    cases h
    exact .refl s

theorem State.command_moves {s t : State} {p : Port} {op : Byte} {n : Nat}
    {body : List Byte → State → State × Option Reply} (h : s.command p op n body = .next t)
    (hbody : ∀ args (u : State), u.session p = .opened → u.Acts (body args u).1) : s.Moves t := by
  refine State.taking_moves h fun r _ => ?_
  split_ifs with hlen hopen
  · exact .refl _
  · exact .refl _
  · exact hbody r.args _ (not_not.1 hopen)

/-! ### Orders on their way -/

/-- The orders taken by a channel command are acts, one for each order. -/
theorem State.foldl_takeOrder_acts (s : State) (os : List Order) (left : List (List Order))
    (h : ∀ x ∈ s.chan.orders.flatten, x ∈ os ∨ x ∈ left.flatten) :
    s.Acts (os.foldl State.takeOrder (s.setOrders left)) := by
  induction os generalizing s with
  | nil => exact (State.Act.orders left (by simpa using h)).acts
  | cons o os ih =>
    have hfirst : s.Act ((s.setOrders (os :: left)).takeOrder o) := by
      refine .order o (os :: left) fun x hx => ?_
      simpa [or_assoc] using h x hx
    have hrest := ih ((s.setOrders (os :: left)).takeOrder o) (by simp)
    have hsame : ((s.setOrders (os :: left)).takeOrder o).setOrders left = (s.setOrders left).takeOrder o :=
      State.setOrders_commit _ _ _ _
    rw [hsame] at hrest
    exact hfirst.acts.trans hrest

theorem State.drainOrders_acts (s : State) : s.Acts s.drainOrders :=
  s.foldl_takeOrder_acts s.chan.orders.flatten [] fun _ hx => .inl hx

theorem State.foldl_takeOrder_orders (s : State) (os : List Order) :
    (os.foldl State.takeOrder s).chan.orders = s.chan.orders := by
  induction os generalizing s with
  | nil => rfl
  | cons o os ih => rw [List.foldl_cons, ih, State.takeOrder_chan_orders]

@[simp] theorem State.drainOrders_orders (s : State) : s.drainOrders.chan.orders = [] := by
  rw [State.drainOrders, State.foldl_takeOrder_orders]; rfl

theorem State.lesseeCommand_moves {s t : State} {p : Port} {op : Byte} {n : Nat}
    {body : List Byte → Chan → State → State × Option Reply} (h : s.lesseeCommand p op n body = .next t)
    (hbody : ∀ args c (u : State), (u.channel c).lessee = some p → u.chan.orders = [] → u.Acts (body args c u).1) : s.Moves t := by
  refine State.command_moves h fun args u _ => ?_
  dsimp only
  split
  · exact .refl _
  · split_ifs with hlessee
    · exact u.drainOrders_acts
    · exact u.drainOrders_acts.trans (hbody args _ _ (not_not.1 hlessee) u.drainOrders_orders)

end Sys2Proof.Machine
end

section
/-! SUPPORT: rows. -/

set_option Elab.async false

namespace Sys2Proof.Machine

/-! ### The rows of commands -/

section
variable {s t : State} {p : Port}

theorem wordAt_le (bs : List Byte) (k : Nat) : wordAt bs k ≤ 65535 := by
  have h1 := (byteAt bs k).isLt
  have h2 := (byteAt bs (k + 1)).isLt
  simp only [wordAt]
  omega

theorem State.ownedLive_ok {h : Handle} {i : Slot} (hok : s.ownedLive p h = .ok i) :
    s.current h = some i ∧ (s.region i).owner = p ∧ (s.region i).state = .live := by
  unfold State.ownedLive at hok
  split at hok
  · cases hok
  · next k hk =>
    split_ifs at hok with howner hlive
    cases hok
    exact ⟨hk, not_not.1 howner, not_not.1 hlive⟩

theorem State.offeredTo_ok {h : Handle} {i : Slot} (hok : s.offeredTo p h = .ok i) :
    s.current h = some i ∧ (s.region i).state = .live ∧ ∃ o, (s.region i).offer = some o ∧ o.target = p := by
  unfold State.offeredTo at hok
  split at hok
  · cases hok
  · next k hk =>
    split_ifs at hok with hlive
    split at hok
    · cases hok
    · next o ho =>
      split_ifs at hok with htarget
      cases hok
      exact ⟨hk, not_not.1 hlive, o, ho, htarget⟩

theorem State.settingsChanged_acts (s : State) (p : Port) (x : NotifySettings) :
    s.Acts (s.setLink p { s.link p with settings := x }) := (State.Act.link p _ (Link.Change.settings x).changes).acts

theorem State.offerEvents_acts (s : State) (es : List (Port × Event)) : s.Acts (s.offerEvents es) := by
  induction es generalizing s with
  | nil => exact .refl s
  | cons e es ih =>
    refine .trans ?_ (ih _)
    unfold State.offerEvent
    split_ifs
    · exact (State.Act.link _ _ (Link.Change.event _).changes).acts
    · exact .refl s

theorem State.offerEvent_acts (s : State) (q : Port) (e : Event) : s.Acts (s.offerEvent q e) := s.offerEvents_acts [(q, e)]

theorem execOpenSession_moves (h : execOpenSession p s = .next t) : s.Moves t := by
  refine State.taking_moves h fun r _ => ?_
  dsimp only
  split_ifs with h1 h2 h3
  · exact .refl _
  · exact .refl _
  · exact .refl _
  · exact (State.Act.openPort p (not_not.1 h2)).acts.trans (State.settingsChanged_acts _ _ _)

theorem execCloseSession_moves {order : List Slot} (h : execCloseSession p order s = .next t) : s.Moves t := by
  unfold execCloseSession at h
  refine State.command_moves h fun args u hopen => ?_
  dsimp only
  exact (State.Act.close p order hopen).acts

theorem execSetNotify_moves (h : execSetNotify p s = .next t) : s.Moves t := by
  refine State.command_moves h fun args u hopen => ?_
  dsimp only
  split
  · exact u.settingsChanged_acts p _
  · exact .refl _

theorem execBadOpcode_moves (h : execBadOpcode p s = .next t) : s.Moves t :=
  State.taking_moves h fun _ _ => .refl _

theorem State.place_some {atBase : Bool} {base length g : Nat} (h : s.place atBase base length = some g)
    (hin : if atBase then base + length ≤ granuleCount else length ≤ granuleCount) :
    runFree s.table.granules g length = true ∧ g + length ≤ granuleCount := by
  unfold State.place at h
  split_ifs at h with hat hfree
  · cases h
    exact ⟨hfree, by simpa [hat] using hin⟩
  · obtain ⟨hfit, hfree, -⟩ := firstFit_all_some h
    exact ⟨hfree, hfit (by simpa [hat] using hin)⟩

theorem execAllocate_moves (h : execAllocate p s = .next t) : s.Moves t := by
  refine State.command_moves h fun args u hopen => ?_
  dsimp only
  split
  · exact .refl _
  · next hbad =>
    simp only [not_or, not_and_or, not_lt, not_le, not_not] at hbad
    obtain ⟨hlen, hmax, hplacement, hbase⟩ := hbad
    split
    · exact .refl _
    · next i hi =>
      have hslot : (u.region i).state = .unused := by simpa using List.find?_some hi
      split
      · exact .refl _
      · next hquota =>
        split
        · exact .refl _
        · next g hg =>
          have hplace := State.place_some hg <| by
            split_ifs with hat
            · rcases hbase with hne | ⟨-, hle⟩
              · exact absurd (beq_iff_eq.1 hat) hne
              · exact hle
            · exact hmax
          exact (State.Act.place p i g _ _ hopen hslot (Nat.one_le_iff_ne_zero.2 hlen) hplace.2 hplace.1
            (by simpa using hquota)).acts

theorem execFree_moves (h : execFree p s = .next t) : s.Moves t := by
  refine State.command_moves h fun args u hopen => ?_
  dsimp only
  split
  · exact .refl _
  · next i hi =>
    obtain ⟨-, howner, hlive⟩ := State.ownedLive_ok hi
    split_ifs with hpin hoffer
    · exact .refl _
    · exact .refl _
    · exact (State.Act.free i hlive (by simpa using hoffer) (howner ▸ hopen)).acts

theorem State.setPinned_acts {h : Handle} {pinned : Bool} (hopen : s.session p = .opened) :
    s.Acts (s.setPinned p h pinned).1 := by
  unfold State.setPinned
  split
  · exact .refl _
  · next i hi =>
    obtain ⟨-, howner, hlive⟩ := State.ownedLive_ok hi
    exact (State.Act.mark i pinned (s.region i).label hlive (howner ▸ hopen)).acts

theorem execPin_moves (h : execPin p s = .next t) : s.Moves t :=
  State.command_moves h fun _ _ hopen => State.setPinned_acts hopen

theorem execUnpin_moves (h : execUnpin p s = .next t) : s.Moves t :=
  State.command_moves h fun _ _ hopen => State.setPinned_acts hopen

theorem execLabel_moves (h : execLabel p s = .next t) : s.Moves t := by
  refine State.command_moves h fun args u hopen => ?_
  dsimp only
  split
  · exact .refl _
  · next i hi =>
    obtain ⟨-, howner, hlive⟩ := State.ownedLive_ok hi
    exact (State.Act.mark i (u.region i).pinned (wordAt args 2) hlive (howner ▸ hopen)).acts

theorem execFind_moves (h : execFind p s = .next t) : s.Moves t := by
  refine State.command_moves h fun args u _ => ?_
  dsimp only
  split_ifs
  · exact .refl _
  · split <;> exact .refl _

theorem execQueryRegion_moves (h : execQueryRegion p s = .next t) : s.Moves t := by
  refine State.command_moves h fun args u _ => ?_
  dsimp only
  split <;> exact .refl _

theorem execQuerySpace_moves (h : execQuerySpace p s = .next t) : s.Moves t :=
  State.command_moves h fun _ _ _ => .refl _

theorem execGrant_moves (h : execGrant p s = .next t) : s.Moves t := by
  refine State.command_moves h fun args u hopen => ?_
  dsimp only
  split
  · exact .refl _
  · next i hi =>
    obtain ⟨-, howner, hlive⟩ := State.ownedLive_ok hi
    split
    · next q new hq hnew =>
      split_ifs with hbad
      · exact .refl _
      · rw [not_or, not_not] at hbad
        exact (State.Act.grant i q new hlive (fun he => hbad.1 (he.symm.trans howner)) hbad.2).acts.trans
          (State.offerEvents_acts _ _)
    · exact .refl _

theorem execRenounce_moves (h : execRenounce p s = .next t) : s.Moves t := by
  refine State.command_moves h fun args u hopen => ?_
  split
  · exact .refl _
  · next i hi =>
    split_ifs with hlive howner
    · exact .refl _
    · exact .refl _
    · exact (State.Act.grant i p .none (not_not.1 hlive) howner hopen).acts

theorem execOffer_moves (h : execOffer p s = .next t) : s.Moves t := by
  refine State.command_moves h fun args u hopen => ?_
  dsimp only
  split
  · exact .refl _
  · next i hi =>
    obtain ⟨-, howner, hlive⟩ := State.ownedLive_ok hi
    split
    · exact .refl _
    · split
      · exact .refl _
      · next q hq =>
        split_ifs with htime hbad
        · exact .refl _
        · exact .refl _
        · rw [not_or, not_not] at hbad
          exact (State.Act.offer i { target := q, remaining := wordAt args 3 } hlive
            (fun he => hbad.1 (he.trans howner)) hbad.2 (wordAt_le args 3)).acts.trans (State.offerEvent_acts _ _ _)

theorem execWithdraw_moves (h : execWithdraw p s = .next t) : s.Moves t := by
  refine State.command_moves h fun args u _ => ?_
  split
  · exact .refl _
  · next i hi =>
    split
    · exact .refl _
    · split
      · exact .refl _
      · split
        · exact .refl _
        · exact (State.Act.clearOffer i).acts.trans (State.offerEvent_acts _ _ _)

theorem execDecline_moves (h : execDecline p s = .next t) : s.Moves t := by
  refine State.command_moves h fun args u _ => ?_
  split
  · exact .refl _
  · next i hi => exact (State.Act.clearOffer i).acts.trans (State.offerEvent_acts _ _ _)

theorem execAccept_moves (h : execAccept p s = .next t) : s.Moves t := by
  refine State.command_moves h fun args u hopen => ?_
  dsimp only
  split
  · exact .refl _
  · next i hi =>
    obtain ⟨-, hlive, o, hoffer, htarget⟩ := State.offeredTo_ok hi
    split_ifs with hquota
    · exact .refl _
    · exact (State.Act.accept p i o _ hlive hoffer htarget hopen (by simpa using hquota)).acts

theorem State.leaseChannel_acts {wanted : Option Chan} (hopen : s.session p = .opened) :
    s.Acts (s.leaseChannel p wanted).1 := by
  unfold State.leaseChannel
  split
  · exact .refl _
  · next c hc =>
    have hfree : (s.channel c).state = .free := by
      unfold State.leasable at hc
      split at hc
      · split_ifs at hc with hfree
        cases hc
        exact hfree
      · simpa using List.find?_some hc
    split_ifs with hquota
    · exact .refl _
    · exact (State.Act.lease p c hopen hfree fun hsplit => not_le.1 fun hle => hquota ⟨hsplit, hle⟩).acts

theorem execLease_moves (h : execLease p s = .next t) : s.Moves t := by
  refine State.command_moves h fun args u hopen => ?_
  have hopen' : u.drainOrders.session p = .opened := by simpa using hopen
  split_ifs
  · exact u.drainOrders_acts.trans (State.leaseChannel_acts hopen')
  · split
    · exact .refl _
    · exact u.drainOrders_acts.trans (State.leaseChannel_acts hopen')

theorem execRelease_moves (h : execRelease p s = .next t) : s.Moves t := by
  refine State.lesseeCommand_moves h fun args c u hlessee horders => ?_
  dsimp only
  split_ifs with hrec hstate
  · exact .refl _
  · exact .refl _
  · rw [not_and_or, not_not, not_not] at hstate
    exact (State.Act.release p c hlessee (by simpa using hrec) hstate).acts

theorem execProgram_moves (h : execProgram p s = .next t) : s.Moves t := by
  refine State.lesseeCommand_moves h fun args c u hlessee horders => ?_
  dsimp only
  split_ifs with hrec hstate
  · exact .refl _
  · exact .refl _
  · rw [not_and_or, not_not, not_not] at hstate
    split
    · exact .refl _
    · next g hg =>
      split
      · exact .refl _
      · next i j hcheck =>
        exact (State.Act.install p c g i j _ hlessee (by simpa using hrec) hstate horders hg hcheck).acts

theorem execArm_moves (h : execArm p s = .next t) : s.Moves t := by
  refine State.lesseeCommand_moves h fun args c u hlessee horders => ?_
  dsimp only
  split
  · exact .refl _
  · next g hg =>
    split_ifs with hstate
    · exact .refl _
    · exact .refl _
    · exact (State.Act.arm c g hg (not_not.1 hstate)).acts

theorem execDisarm_moves (h : execDisarm p s = .next t) : s.Moves t := by
  refine State.lesseeCommand_moves h fun args c u hlessee horders => ?_
  dsimp only
  split_ifs
  · exact .refl _
  · exact .refl _
  · exact (State.Act.abort c .disarm).acts

theorem execSuspend_moves (h : execSuspend p s = .next t) : s.Moves t := by
  refine State.lesseeCommand_moves h fun args c u hlessee horders => ?_
  dsimp only
  split_ifs
  · exact .refl _
  · exact .refl _
  · exact (State.Act.suspend c .command).acts

theorem execResume_moves (h : execResume p s = .next t) : s.Moves t := by
  refine State.lesseeCommand_moves h fun args c u hlessee horders => ?_
  dsimp only
  split_ifs with hstate
  · exact .refl _
  · exact .refl _
  · exact (State.Act.resume c (not_not.1 hstate)).acts

theorem execTrigger_moves (h : execTrigger p s = .next t) : s.Moves t := by
  refine State.lesseeCommand_moves h fun args c u hlessee horders => ?_
  dsimp only
  split_ifs with hbad
  · exact .refl _
  · simp only [Bool.or_eq_true, Bool.not_eq_true', not_or, Bool.not_eq_false] at hbad
    exact (State.Act.activate c hbad.1).acts

theorem execQueryChannel_moves (h : execQueryChannel p s = .next t) : s.Moves t := by
  refine State.command_moves h fun args u _ => ?_
  dsimp only
  split
  · exact .refl _
  · exact u.drainOrders_acts

theorem execListChannels_moves (h : execListChannels p s = .next t) : s.Moves t :=
  State.command_moves h fun _ u _ => u.drainOrders_acts

end

end Sys2Proof.Machine
end

section
/-! SUPPORT: rows that take no command. -/

set_option Elab.async false

namespace Sys2Proof.Machine

/-! ### The rows that take no command -/

section
variable {s t : State} {p : Port}

theorem State.setLink_acts {l : Link} (h : (s.link p).Changes l) : s.Acts (s.setLink p l) := (State.Act.link p l h).acts

/-! Frames -/

/-- The code byte of a frame stands once it has come. -/
theorem Link.clock_code (l : Link) (b : Byte) (h : ∀ f ∈ l.frame, f.code ≠ none) : ∀ f ∈ (l.clock b).frame, f.code ≠ none := by
  cases hf : l.frame with
  | none => simp [Link.clock, hf]
  | some f =>
    have hcode := h f hf
    unfold Link.clock Link.commandByte Link.windowReadByte Link.windowWriteByte Link.askWindow
    dsimp only
    rw [hf]
    dsimp only
    split_ifs
    all_goals rintro _ ⟨⟩; exact hcode

/-- Where an answer takes the rest of the frame in, SELk fell with the link ready, no window access is pending, and a command
record has its place (R153, R154). -/
theorem State.linkAnswer_takesIn {b : Bool} {code : Byte} (h : (s.linkAnswer p b code).takesIn = true) :
    b = false ∧ (s.link p).window = none ∧ (code = 0x02 → (s.link p).commands.length < 4) := by
  unfold State.linkAnswer at h
  dsimp only at h
  split at h
  · exact absurd h (by decide)
  · next hready =>
    rw [Bool.or_eq_true, not_or, Bool.not_eq_true, Bool.not_eq_true, Option.isSome_eq_false_iff, Option.isNone_iff_eq_none]
      at hready
    refine ⟨hready.1, hready.2, fun hcode => ?_⟩
    rw [if_pos hcode] at h
    split_ifs at h with hclosing hfull
    · exact absurd h (by decide)
    · exact absurd h (by decide)
    · exact not_le.1 hfull
    · exact not_le.1 hfull

/-- What an answered transaction makes of the link: the malformed flag and the heads of its queues alone. -/
theorem State.answered_eq (code : Byte) (a : LinkAnswer) : ∃ malformed results events,
    (s.answered p code a).1 = { s.link p with malformed, results, events } ∧
      (results = (s.link p).results ∨ results = (s.link p).results.tail) ∧
      (events = (s.link p).events ∨ events = (s.link p).events.tail) := by
  unfold State.answered
  cases a with
  | malformed => exact ⟨true, _, _, rfl, .inl rfl, .inl rfl⟩
  | accepted =>
    dsimp only
    split_ifs
    · exact ⟨false, _, _, rfl, .inl rfl, .inl rfl⟩
    · exact ⟨_, _, _, rfl, .inr rfl, .inl rfl⟩
    · exact ⟨_, _, _, rfl, .inl rfl, .inr rfl⟩
    · exact ⟨_, _, _, rfl, .inl rfl, .inl rfl⟩
  | _ => exact ⟨_, _, _, rfl, .inl rfl, .inl rfl⟩

/-- What the parts of a frame make of the hub: its link unit goes from one to the next. -/
def State.Hears (p : Port) : State → State → Prop :=
  Relation.ReflTransGen fun s t => ∃ l, (s.link p).Heard l ∧ t = s.setLink p l

theorem State.Hears.one {l : Link} (h : (s.link p).Heard l) : State.Hears p s (s.setLink p l) := .single ⟨l, h, rfl⟩

theorem State.Hears.acts (h : State.Hears p s t) : s.Acts t := by
  induction h with
  | refl => exact .refl s
  | tail _ hstep ih =>
    obtain ⟨l, hl, rfl⟩ := hstep
    exact ih.act (.link p l (Link.Change.heard hl).changes)

theorem State.clocked_hears (bs : List Byte) (h : ∀ f ∈ (s.link p).frame, f.code ≠ none) :
    State.Hears p s (s.setLink p (bs.foldl Link.clock (s.link p))) := by
  induction bs generalizing s with
  | nil =>
    have hsame : s.setLink p (s.link p) = s := by unfold State.setLink State.link; rw [put_look]
    rw [List.foldl_nil, hsame]
    exact .refl
  | cons b bs ih =>
    have hnext : (s.setLink p ((s.link p).clock b)).link p = (s.link p).clock b := by rw [State.setLink_link, if_pos rfl]
    have hrest := ih (s := s.setLink p ((s.link p).clock b)) (by rw [hnext]; exact (s.link p).clock_code b h)
    rw [hnext, State.setLink_setLink_same] at hrest
    exact Relation.ReflTransGen.trans (State.Hears.one (.clock b h)) hrest

theorem State.codeByte_hears (code : Byte) : State.Hears p s (s.codeByte p code) := by
  unfold State.codeByte
  split
  · exact .refl
  · next f hf =>
    split_ifs with hc
    · exact .refl
    · refine .one ?_
      obtain ⟨malformed, results, events, heq, hresults, hevents⟩ :=
        State.answered_eq (s := s) (p := p) code (s.linkAnswer p f.notReady code)
      dsimp only
      rw [heq]
      exact .code f code _ malformed results events _ hf (by simpa using hc) hresults hevents State.linkAnswer_takesIn

theorem State.selectFrame_hears (h : (s.link p).frame = none) : State.Hears p s (s.selectFrame p) :=
  .one (.select (s.summary p) h)

theorem State.framePart_hears (code : Byte) (part : FramePart) : State.Hears p s (s.framePart p code part) := by
  have ended (u : State) : State.Hears p u (u.setLink p (u.link p).deselect) := .one .deselect
  have begun (h : (s.link p).frame = none) (bs : List Byte) :
      let u := (s.selectFrame p).codeByte p code
      State.Hears p s (u.setLink p (bs.foldl Link.clock (u.link p))) :=
    .trans (.trans (State.selectFrame_hears h) (State.codeByte_hears code)) <| State.clocked_hears bs <| by
      rw [State.begun_eq, State.setLink_link, if_pos rfl]
      rintro _ ⟨⟩
      exact Option.some_ne_none _
  unfold State.framePart
  dsimp only
  split
  · next h => exact State.selectFrame_hears h
  · next h => exact begun h _
  · next h => exact .trans (begun h _) (ended _)
  · split_ifs
    · exact State.codeByte_hears code
    · exact .refl
  · next f hf =>
    split_ifs with hcode
    · exact State.clocked_hears _ fun g hg => by
        obtain rfl : f = g := Option.some.inj (hf.symm.trans hg)
        rw [hcode]
        exact Option.some_ne_none _
    · exact .refl
  · split_ifs
    · exact ended s
    · exact .refl
  all_goals exact .refl

theorem State.framePart_acts (code : Byte) (part : FramePart) : s.Acts (s.framePart p code part) :=
  (State.framePart_hears code part).acts

theorem execUnknownCodeFrame_moves {code : Byte} {part : FramePart} (h : execUnknownCodeFrame p code part s = .next t) :
    s.Moves t := by
  unfold execUnknownCodeFrame at h
  split_ifs at h
  · cases h; exact .refl s
  · cases h; exact .acts (State.framePart_acts code part)

/-! Windows -/

theorem State.spanSlot_inside {a n : Nat} {i : Slot} (h : s.spanSlot a n = some i) : a + n ≤ memoryBytes := by
  unfold State.spanSlot at h
  dsimp only at h
  split at h
  · cases h
  · next hbad =>
    rw [not_or] at hbad
    omega

theorem execWindowCheck_moves (h : execWindowCheck p s = .next t) : s.Moves t := by
  unfold execWindowCheck at h
  split at h
  · cases h; exact .refl s
  · next w hw =>
    split_ifs at h
    · cases h; exact .refl s
    · split at h
      · next hden =>
        cases h
        refine .acts (State.setLink_acts (Link.Change.admission w hw ?_).changes)
        unfold State.denial at hden
        split_ifs at hden
        split at hden
        · cases hden
        · next i hi => exact State.spanSlot_inside hi
      · cases h
        refine .acts ?_
        have done := State.setLink_acts (Link.Change.done w (deniedBytes w) hw).changes
        unfold State.denyWindow
        split_ifs
        · exact done.trans (State.offerEvent_acts _ _ _)
        · exact done

theorem State.writeSpan_acts (a : Nat) (bs : List Byte) : s.Acts (s.setMem (s.mem.writeSpan a bs)) :=
  (State.Act.mem _ (fun hwf => Memory.writeSpan_wf hwf a bs) (by simp)).acts

theorem execWindowAccess_moves (h : execWindowAccess p s = .next t) : s.Moves t := by
  unfold execWindowAccess at h
  split at h
  · cases h; exact .refl s
  · next w hw =>
    split at h
    · cases h; exact .refl s
    · split at h
      · cases h
      · split at h
        · cases h
          exact .acts (State.setLink_acts (Link.Change.done w _ hw).changes)
        · split at h
          · cases h
          · cases h
            refine .acts ((State.writeSpan_acts w.addr.toNat (s.link p).buffer).trans ?_)
            exact State.setLink_acts (Link.Change.done w _ hw).changes

/-! Notices -/

/-- A notice row takes the oldest notice, or finds nothing to take. -/
theorem State.nextNotice_some {n : Notice} (h : s.nextNotice = some (n, t)) :
    ∃ rest, s.table.notices = n :: rest ∧ t = s.setNotices rest := by
  unfold State.nextNotice at h
  split at h
  · cases h
  · next m rest hrest =>
    split_ifs at h
    cases h
    exact ⟨rest, hrest, rfl⟩

theorem execReferenceRelease_moves (h : execReferenceRelease s = .next t) : s.Moves t := by
  unfold execReferenceRelease at h
  split at h
  · next hd u hn =>
    obtain ⟨rest, hrest, rfl⟩ := State.nextNotice_some hn
    split at h
    · next hslot => cases h; exact .acts (State.Act.drop _ rest hrest (.inr (.inr ⟨hd, rfl, hslot⟩))).acts
    · next i hi => cases h; exact .acts (State.Act.referenceRelease hd i rest hrest hi).acts
  · cases h; exact .refl s

theorem execLeaseEnd_moves (h : execLeaseEnd s = .next t) : s.Moves t := by
  unfold execLeaseEnd at h
  split at h
  · next c q u hn =>
    obtain ⟨rest, hrest, rfl⟩ := State.nextNotice_some hn
    cases h
    exact .acts (State.Act.leaseEnd c q rest hrest).acts
  · cases h; exact .refl s

theorem execScrubDone_moves (h : execScrubDone s = .next t) : s.Moves t := by
  unfold execScrubDone at h
  split at h
  · next i u hn =>
    obtain ⟨rest, hrest, rfl⟩ := State.nextNotice_some hn
    cases h
    exact .acts (State.Act.scrubDone i rest hrest).acts
  · cases h; exact .refl s

theorem State.expireOffer_acts (i : Slot) : s.Acts (s.expireOffer i) := by
  unfold State.expireOffer
  dsimp only
  split
  · exact .refl _
  · split_ifs
    · exact (State.Act.clearOffer i).acts.trans (State.offerEvents_acts _ _)
    · exact .refl _

theorem execOfferExpiry_moves (h : execOfferExpiry s = .next t) : s.Moves t := by
  unfold execOfferExpiry at h
  split at h
  · next i u hn =>
    obtain ⟨rest, hrest, rfl⟩ := State.nextNotice_some hn
    cases h
    exact .acts ((State.Act.drop _ rest hrest (.inr (.inl ⟨i, rfl⟩))).acts.trans (State.expireOffer_acts i))
  · cases h; exact .refl s

theorem execClearNotice_moves {order : List Slot} (h : execClearNotice order s = .next t) : s.Moves t := by
  unfold execClearNotice at h
  split at h
  · next q u hn =>
    obtain ⟨rest, hrest, rfl⟩ := State.nextNotice_some hn
    have taken : s.Acts (s.setNotices rest) := (State.Act.drop _ rest hrest (.inl ⟨q, rfl⟩)).acts
    split at h
    · next hopen =>
      obtain rfl := Host.Outcome.next.inj h
      exact .acts (taken.act (.close q order hopen))
    · cases h; exact .acts taken
  · cases h; exact .refl s

/-! Lines, timers and claims -/

theorem State.setHalt_acts (x : Level) : s.Acts (s.setHalt p x) :=
  (State.Act.pins { s.pins with halt := put s.pins.halt p x } rfl).acts

theorem State.setClr_acts (x : Level) : s.Acts (s.setClr p x) :=
  (State.Act.pins { s.pins with clr := put s.pins.clr p x } rfl).acts

theorem execMsTick_moves (h : execMsTick s = .next t) : s.Moves t := by
  cases h
  exact .acts (State.Act.tick.acts.act (.expiryDue _))

theorem execOfferTimerExpiry_moves {i : Slot} (h : execOfferTimerExpiry i s = .next t) : s.Moves t := by
  unfold execOfferTimerExpiry at h
  split_ifs at h
  · cases h
    exact .acts ((State.Act.expiryDue _).acts.act (.raise _ (.inr ⟨i, rfl⟩)))
  · cases h; exact .refl s

theorem execClrFall_moves (h : execClrFall p s = .next t) : s.Moves t := by
  unfold execClrFall at h
  split at h
  · cases h; exact .refl s
  · dsimp only at h
    split_ifs at h
    · cases h; exact .acts (State.setClr_acts _)
    · cases h; exact .acts ((State.setClr_acts _).act (.raise _ (.inl ⟨p, rfl⟩)))

theorem execHaltFall_moves (h : execHaltFall p s = .next t) : s.Moves t := by
  unfold execHaltFall at h
  split at h
  · cases h; exact .refl s
  · dsimp only at h
    split_ifs at h
    · cases h; exact .acts ((State.setHalt_acts _).act (.haltClaims _))
    · cases h; exact .acts (State.setHalt_acts _)

theorem State.takeHalt_acts (p : Port) (order : List Chan) : s.Acts (s.takeHalt p order) := by
  unfold State.takeHalt
  generalize arrange order _ = cs
  induction cs generalizing s with
  | nil => exact .refl s
  | cons c cs ih => exact (State.Act.suspend c .halt).acts.trans ih

theorem execHaltClaim_moves {order : List Chan} (h : execHaltClaim p order s = .next t) : s.Moves t := by
  unfold execHaltClaim at h
  split_ifs at h
  · cases h
    exact .acts ((State.Act.haltClaims _).acts.trans (State.takeHalt_acts p order))
  · cases h; exact .refl s

theorem execTriggerLevelChange_moves {n : Line} (h : execTriggerLevelChange n s = .next t) : s.Moves t := by
  have level (x : Level) : s.Acts (s.setTrg n x) :=
    (State.Act.pins { s.pins with trg := put s.pins.trg n x } rfl).acts
  unfold execTriggerLevelChange at h
  dsimp only at h
  split at h
  · cases h; exact .acts ((level _).act (.edgeClaims _))
  · cases h; exact .acts (level _)

/-- Activations at distinct channels that take activations are acts: each channel stands as it was when its turn comes. -/
theorem State.foldl_activate_acts (cs : List Chan) (hcs : cs.Nodup) (h : ∀ c ∈ cs, (s.channel c).takesActivations = true) :
    s.Acts (cs.foldl (fun t c => t.commit c (activate c (t.channel c)).1) s) := by
  induction cs generalizing s with
  | nil => exact .refl s
  | cons c cs ih =>
    rw [List.nodup_cons] at hcs
    refine (State.Act.activate c (h c (by simp))).acts.trans (ih hcs.2 fun d hd => ?_)
    have hne : c ≠ d := fun hcd => hcs.1 (hcd ▸ hd)
    rw [State.commit_channel_eq, if_neg hne]
    exact h d (by simp [hd])

theorem State.takeEdge_acts (claim : EdgeClaim) (order : List Chan) : s.Acts (s.takeEdge claim order) := by
  refine State.foldl_activate_acts _ (arrange_nodup _ _ (s.channelsWhere_nodup _)) fun c hc => ?_
  rw [arrange_mem, State.channelsWhere_mem, Channel.selects, Bool.and_eq_true] at hc
  exact hc.1

theorem execEdgeClaim_moves {n : Line} {order : List Chan} (h : execEdgeClaim n order s = .next t) : s.Moves t := by
  unfold execEdgeClaim at h
  split at h
  · cases h; exact .refl s
  · cases h
    exact .acts ((State.Act.edgeClaims _).acts.trans (State.takeEdge_acts _ order))

/-- The order rows take one order out of the oldest batch. -/
theorem State.takeOrderOf_acts (c : Chan) (teardown : Bool) : s.Acts (s.takeOrderOf c teardown) := by
  unfold State.takeOrderOf
  split
  · exact .refl _
  · next batch later hbatch =>
    split
    · exact .refl _
    · next o ho =>
      refine (State.Act.order o _ fun x hx => ?_).acts
      rw [hbatch, List.flatten_cons, List.mem_append] at hx
      by_cases hxo : x = o
      · exact .inl hxo
      · refine .inr ?_
        have herase : x ∈ batch → x ∈ batch.erase o := (List.mem_erase_of_ne hxo).2
        split_ifs with hempty
        · rcases hx with hx | hx
          · rw [List.isEmpty_iff] at hempty
            exact absurd (herase hx) (by simp [hempty])
          · exact hx
        · rw [List.flatten_cons, List.mem_append]
          exact hx.imp_left herase

/-! The engine -/

theorem State.grantFrom_some {fuel : Nat} {passed : List Chan} {c : Chan} {bases : Nat × Nat}
    (h : s.grantFrom fuel passed = some (c, bases)) :
    (∃ passed, s.winner passed = some c) ∧ s.unitStartCheck c = some bases := by
  induction fuel generalizing passed with
  | zero => cases h
  | succ fuel ih =>
    unfold State.grantFrom at h
    split at h
    · cases h
    · next d hd =>
      split at h
      · next b hb =>
        cases h
        exact ⟨⟨passed, hd⟩, hb⟩
      · exact ih h

theorem execUnitStart_moves (h : execUnitStart s = .next t) : s.Moves t := by
  unfold execUnitStart at h
  split_ifs at h with hidle
  · cases h; exact .refl s
  · split at h
    · cases h; exact .refl s
    · next c a b hgranted =>
      obtain ⟨⟨passed, hwin⟩, hcheck⟩ := State.grantFrom_some hgranted
      obtain ⟨k, hk, -⟩ := State.winner_eq_some_iff.1 hwin
      have hreq : s.requests c = true := (State.asksInClass_iff.1 hk).1.1
      split at h
      · cases h; exact .refl s
      · next g hg =>
        cases h
        exact .acts (State.Act.startUnit c g (a, b) (by simpa using hidle) hreq hcheck hg).acts

theorem State.unitRead_acts {u : UnitInFlight} (hu : s.engine.unit = some u) (h : s.unitRead u = .next t) :
    ∃ v, s.Acts t ∧ t.engine.unit = some v := by
  unfold State.unitRead at h
  dsimp only at h
  split_ifs at h
  cases h
  have hact := State.Act.unit u { u with
    buffer := s.mem.readSpan u.source u.size.bytes, dataError := s.mem.spanError u.source u.size.bytes
    phase := .readDone } hu ⟨rfl, rfl, rfl, rfl⟩ (.inr (by simp))
  exact ⟨_, hact.acts, rfl⟩

theorem State.unitWrite_acts {u : UnitInFlight} (hu : s.engine.unit = some u) (h : s.unitWrite u = .next t) : s.Acts t := by
  have reported : s.Acts (s.setUnit { u with phase := .reported }) :=
    (State.Act.unit u { u with phase := .reported } hu ⟨rfl, rfl, rfl, rfl⟩ (.inl rfl)).acts
  unfold State.unitWrite at h
  dsimp only at h
  split_ifs at h
  · cases h; exact reported
  · cases h
    exact reported.act (.mem _ (fun hwf => Memory.writeSpan_wf hwf _ _) (by simp [State.setUnit]))

theorem execUnitTransfer_moves {part : UnitPart} (h : execUnitTransfer part s = .next t) : s.Moves t := by
  unfold execUnitTransfer at h
  split at h
  · cases h; exact .refl s
  · next u hu =>
    split at h
    · obtain ⟨-, hacts, -⟩ := State.unitRead_acts hu h
      exact .acts hacts
    · exact .acts (State.unitWrite_acts hu h)
    · exact .acts (State.unitWrite_acts hu h)
    · split at h
      · next r hr =>
        obtain ⟨v, hacts, hv⟩ := State.unitRead_acts hu hr
        rw [hv] at h
        exact .acts (hacts.trans (State.unitWrite_acts hv h))
      · next hstop => exact absurd h (hstop t)
    all_goals cases h; exact .refl s

theorem execUnitEndReport_moves (h : execUnitEndReport s = .next t) : s.Moves t := by
  unfold execUnitEndReport at h
  split at h
  · cases h; exact .refl s
  · next u hu =>
    split_ifs at h
    · cases h; exact .acts (State.Act.endReport u hu).acts
    · cases h; exact .refl s

/-! The scrub unit -/

theorem execScrubRunStart_moves (h : execScrubRunStart s = .next t) : s.Moves t := by
  unfold execScrubRunStart at h
  split_ifs at h
  · cases h; exact .refl s
  · cases h; exact .acts (State.Act.running _).acts

theorem State.clearGranules_acts (base k n : Nat) : s.Acts (s.setMem (s.mem.clearGranules base k n)) :=
  (State.Act.mem _ (fun hwf => Memory.clear_wf hwf _ _) rfl).acts

theorem execScrubRunEnd_moves (h : execScrubRunEnd s = .next t) : s.Moves t := by
  unfold execScrubRunEnd at h
  split at h
  · next e later k hq hk =>
    cases h
    exact .acts ((State.clearGranules_acts _ _ _).act (.scrubRunEnd e later hq))
  · cases h; exact .refl s

end

/-! ### Every row -/

/-- The rows of device reset. -/
def Instr.resets : Instr → Bool
  | .resetAssert | .resetRelease _ | .startupClearEnd => true
  | _ => false

/-- Every row but those of device reset moves the state. -/
theorem exec_moves {c : Instr} (hc : Instr.resets c = false) {s t : State} (h : exec c s = .next t) : s.Moves t := by
  cases c with
  | resetAssert => cases hc
  | resetRelease levels => cases hc
  | startupClearEnd => cases hc
  | openSession p => exact execOpenSession_moves h
  | closeSession p order => exact execCloseSession_moves h
  | setNotify p => exact execSetNotify_moves h
  | allocate p => exact execAllocate_moves h
  | free p => exact execFree_moves h
  | pin p => exact execPin_moves h
  | unpin p => exact execUnpin_moves h
  | label p => exact execLabel_moves h
  | find p => exact execFind_moves h
  | queryRegion p => exact execQueryRegion_moves h
  | querySpace p => exact execQuerySpace_moves h
  | grant p => exact execGrant_moves h
  | renounce p => exact execRenounce_moves h
  | offer p => exact execOffer_moves h
  | withdraw p => exact execWithdraw_moves h
  | accept p => exact execAccept_moves h
  | decline p => exact execDecline_moves h
  | lease p => exact execLease_moves h
  | release p => exact execRelease_moves h
  | program p => exact execProgram_moves h
  | arm p => exact execArm_moves h
  | disarm p => exact execDisarm_moves h
  | suspend p => exact execSuspend_moves h
  | resume p => exact execResume_moves h
  | trigger p => exact execTrigger_moves h
  | queryChannel p => exact execQueryChannel_moves h
  | listChannels p => exact execListChannels_moves h
  | badOpcode p => exact execBadOpcode_moves h
  | statusRead p part => cases h; exact .acts (State.framePart_acts _ part)
  | commandWrite p part => cases h; exact .acts (State.framePart_acts _ part)
  | resultRead p part => cases h; exact .acts (State.framePart_acts _ part)
  | eventRead p part => cases h; exact .acts (State.framePart_acts _ part)
  | windowRead p part => cases h; exact .acts (State.framePart_acts _ part)
  | windowWrite p part => cases h; exact .acts (State.framePart_acts _ part)
  | unknownCodeFrame p code part => exact execUnknownCodeFrame_moves h
  | windowCheck p => exact execWindowCheck_moves h
  | windowAccess p => exact execWindowAccess_moves h
  | referenceRelease => exact execReferenceRelease_moves h
  | leaseEnd => exact execLeaseEnd_moves h
  | scrubDone => exact execScrubDone_moves h
  | offerExpiry => exact execOfferExpiry_moves h
  | clearNotice order => exact execClearNotice_moves h
  | msTick => exact execMsTick_moves h
  | offerTimerExpiry slot => exact execOfferTimerExpiry_moves h
  | clrFall p => exact execClrFall_moves h
  | clrRise p => cases h; exact .acts (State.setClr_acts _)
  | haltFall p => exact execHaltFall_moves h
  | haltRise p => cases h; exact .acts (State.setHalt_acts _)
  | haltClaim p order => exact execHaltClaim_moves h
  | triggerLevelChange line => exact execTriggerLevelChange_moves h
  | edgeClaim line order => exact execEdgeClaim_moves h
  | discardOrder c => cases h; exact .acts (State.takeOrderOf_acts c false)
  | teardownOrder c => cases h; exact .acts (State.takeOrderOf_acts c true)
  | unitStart => exact execUnitStart_moves h
  | unitTransfer part => exact execUnitTransfer_moves h
  | unitEndReport => exact execUnitEndReport_moves h
  | scrubRunStart => exact execScrubRunStart_moves h
  | scrubRunEnd => exact execScrubRunEnd_moves h
  | memoryFault addr value =>
    cases h
    exact .acts (State.Act.mem _ (fun hwf => Memory.corrupt_wf hwf _ _) (by simp)).acts

end Sys2Proof.Machine
end

section
/-! SUPPORT: in the start-up time no row finds anything to do but to record levels, to take clear notices and to answer frames. -/

set_option Elab.async false

namespace Sys2Proof.Machine

/-! ### A link unit in the NOT_READY period -/

/-- The frame that has clocked in one byte more. -/
def Frame.clocked (f : Frame) (l : Link) (b : Byte) : Frame :=
  { f with received := f.received ++ [b], toSend := (l.nextOut f).2 }

theorem Link.clock_of_not_live {l : Link} {b : Byte} (h : ∀ f ∈ l.frame, f.live = false) :
    l.clock b = { l with
      frame := l.frame.map fun f => f.clocked l b
      out := match l.frame with | none => l.out | some f => l.out ++ [(l.nextOut f).1] } := by
  cases hf : l.frame with
  | none => rw [Link.clock, hf]; exact (congrArg (fun x => ({ l with frame := x } : Link)) hf)
  | some f =>
    have hlive := h f hf
    rw [Link.clock, hf]
    dsimp only
    rw [if_pos (by rw [hlive]; rfl)]
    rfl

/-- No part of a frame leaves the NOT_READY period. -/
theorem Link.Heard.idle {l m : Link} (h : l.Heard m) (hl : l.Idle) : m.Idle := by
  cases h with
  | select summary hf => exact { hl with frame := by rintro _ ⟨⟩; exact ⟨hl.notReady, rfl⟩ }
  | code f code answer malformed results events sent hf hc hresults hevents hin =>
    have hanswer : answer.takesIn = false := by
      rw [← Bool.not_eq_true]
      intro htakes
      exact Bool.false_ne_true ((hin htakes).1.symm.trans (hl.frame f hf).1)
    refine { hl with results := ?_, events := ?_, frame := by rintro _ ⟨⟩; exact ⟨(hl.frame f hf).1, hanswer⟩ }
    · rcases hresults with rfl | rfl
      · exact hl.results
      · simp [hl.results]
    · rcases hevents with rfl | rfl
      · exact hl.events
      · simp [hl.events]
  | clock b hcode =>
    rw [Link.clock_of_not_live fun f hf => (hl.frame f hf).2]
    refine { hl with frame := fun f hf => ?_ }
    obtain ⟨g, hg, rfl⟩ := Option.map_eq_some_iff.1 hf
    exact hl.frame g hg
  | deselect =>
    cases hf : l.frame with
    | none => rw [Link.deselect, hf]; exact hl
    | some f =>
      simp only [Link.deselect, hf]
      exact { hl with window := by simp [hl.window], frame := by rintro _ ⟨⟩ }

/-! ### What a row makes of the hub in the start-up time -/

/-- The hub goes on in the start-up time: levels and the memory apart, only clear notices and idle link units have changed. -/
structure State.Waits (s t : State) : Prop where
  reset : t.pins.reset = s.pins.reset
  table : t.table = { s.table with notices := t.table.notices }
  chan : t.chan = s.chan
  engine : t.engine = s.engine
  scrub : t.scrub = s.scrub
  links : ∀ p, (t.link p).Idle
  notices : ∀ n ∈ t.table.notices, ∃ p, n = .clear p

section
variable {s t : State} {p : Port}

theorem State.StartLaw.waits_refl (law : s.StartLaw) (hs : s.starting) : s.Waits s where
  reset := rfl
  table := rfl
  chan := rfl
  engine := rfl
  scrub := rfl
  links := law.links hs
  notices := law.notices hs

/-- What the start-up time leaves, it leaves lawful. -/
theorem State.Waits.startLaw (h : s.Waits t) (law : s.StartLaw) (hs : s.starting) : t.StartLaw := by
  have hregion (i : Slot) : t.region i = s.region i := by rw [State.region, h.table]; rfl
  have hsession (q : Port) : t.session q = s.session q := by rw [State.session, h.table]; rfl
  have hquota (q : Port) : t.quota q = s.quota q := by rw [State.quota, h.table]; rfl
  have hchannel (c : Chan) : t.channel c = s.channel c := by rw [State.channel, h.chan]; rfl
  have hstarting : t.starting := by rwa [State.starting, h.reset, h.scrub]
  exact {
    clear := by rw [h.reset, h.scrub]; exact law.clear
    regions := fun _ i => (hregion i).trans (law.regions hs i)
    granules := fun _ => by rw [h.table]; exact law.granules hs
    sessions := fun _ q => (hsession q).trans (law.sessions hs q)
    quotas := fun _ q => (hquota q).trans (law.quotas hs q)
    pointer := fun _ => by rw [h.table]; exact law.pointer hs
    notices := fun _ => h.notices
    timers := fun _ => by rw [h.table]; exact law.timers hs
    channels := fun _ c => (hchannel c).trans (law.channels hs c)
    claims := fun _ => by rw [h.chan]; exact law.claims hs
    engine := fun _ => h.engine.trans (law.engine hs)
    runs := fun _ => by rw [h.scrub]; exact law.runs hs
    links := fun _ => h.links
    defined := fun hn => absurd hstarting hn
    ready := fun hn => absurd hstarting hn }

theorem State.starting.not_sendsClaims (hs : s.starting) : s.sendsClaims = false := by
  rw [State.sendsClaims, Bool.and_eq_false_iff]
  rcases hs with hlow | hstartup
  · exact .inl (by rw [hlow]; rfl)
  · exact .inr (by rw [hstartup]; rfl)

section
variable (law : s.StartLaw) (hs : s.starting)
include law hs

/-- No command waits, so no command row takes one. -/
theorem State.StartLaw.not_serves (r : CommandRecord) : ¬ s.serves p r := by
  rintro ⟨hhead, -⟩
  rw [(law.links hs p).commands] at hhead
  cases hhead

theorem State.StartLaw.taking (mine : CommandRecord → Bool) (body : CommandRecord → State → State × Option Reply) :
    s.taking p mine body = .next s := State.taking_of_not (fun r h => absurd h (law.not_serves hs r)) body

theorem State.StartLaw.hears (h : State.Hears p s t) : s.Waits t := by
  induction h with
  | refl => exact law.waits_refl hs
  | tail _ hstep ih =>
    obtain ⟨l, hl, rfl⟩ := hstep
    refine { ih with links := fun q => ?_ }
    rw [State.setLink_link]
    split_ifs with hq
    · exact hl.idle (ih.links p)
    · exact ih.links q

/-- A notice taken in the start-up time is a clear notice. -/
theorem State.StartLaw.nextNotice {n : Notice} (h : s.nextNotice = some (n, t)) : (∃ q, n = .clear q) ∧ s.Waits t := by
  obtain ⟨rest, hn, rfl⟩ := State.nextNotice_some h
  have hclear := law.notices hs
  rw [hn] at hclear
  refine ⟨hclear n (List.mem_cons_self ..), { law.waits_refl hs with table := rfl, notices := ?_ }⟩
  exact fun m hm => hclear m (List.mem_cons_of_mem n hm)

/-! The rows, one by one -/

theorem State.StartLaw.commandRow_waits {c : Instr} {row : Port × Byte × Nat} (hrow : commandRow c = some row)
    (h : exec c s = .next t) : s.Waits t := by
  obtain ⟨body, hbody⟩ := exec_commandRow_taking (s := s) hrow
  rw [hbody, law.taking hs] at h
  obtain rfl := Host.Outcome.next.inj h
  exact law.waits_refl hs

/-- Every notice row finds a clear notice or none, and the port of a clear notice is CLOSED. -/
theorem State.StartLaw.clearNotice_waits {order : List Slot} (h : execClearNotice order s = .next t) : s.Waits t := by
  unfold execClearNotice at h
  split at h
  · next q u hnext =>
    have hwaits := (law.nextNotice hs hnext).2
    have hclosed : u.session q ≠ .opened := by
      rw [State.session, hwaits.table]
      exact fun hopen => by
        have := (law.sessions hs q).symm.trans hopen
        cases this
    rw [if_neg hclosed] at h
    cases h
    exact hwaits
  · cases h; exact law.waits_refl hs

theorem State.StartLaw.tick_waits (h : execMsTick s = .next t) : s.Waits t := by
  have hticked (i : Slot) : tickedRegion (s.region i) = s.region i := by rw [law.regions hs i]; rfl
  have hsame : s.mapRegions tickedRegion = s := by
    refine State.ext_pieces ?_ ?_ ?_ ?_ ?_ ?_ ?_ ?_ ?_ ?_ ?_ ?_ ?_ ?_ ?_ ?_ ?_ ?_ <;> simp [hticked]
  have hdue : ((indices 64).filter fun i => ((s.region i).offer.map Offer.remaining) == some 1) = [] :=
    List.filter_eq_nil_iff.2 fun i _ => by rw [law.regions hs i]; decide
  unfold execMsTick at h
  dsimp only at h
  rw [hdue, hsame, List.append_nil] at h
  cases h
  exact law.waits_refl hs

theorem State.StartLaw.clrFall_waits (h : execClrFall p s = .next t) : s.Waits t := by
  unfold execClrFall at h
  dsimp only at h
  split_ifs at h
  · cases h; exact law.waits_refl hs
  · cases h; exact { law.waits_refl hs with reset := rfl, table := rfl }
  · cases h
    refine { law.waits_refl hs with reset := rfl, table := rfl, notices := fun n hn => ?_ }
    rcases List.mem_append.1 hn with hold | hnew
    · exact law.notices hs n hold
    · exact ⟨p, List.mem_singleton.1 hnew⟩

/-- No channel requests service. -/
theorem State.StartLaw.not_granted : s.granted = none := by
  have hrequests (c : Chan) : s.requests c = false := by rw [State.requests, law.channels hs c]; rfl
  cases hg : s.granted with
  | none => rfl
  | some x =>
    obtain ⟨⟨passed, hwins⟩, -⟩ := State.grantFrom_some hg
    obtain ⟨k, hask, -⟩ := State.winner_eq_some_iff.1 hwins
    have hasks := (State.asksInClass_iff.1 hask).1.1
    exact absurd ((hrequests _).symm.trans hasks) Bool.false_ne_true

/-- Every row but those of device reset leaves the hub waiting. -/
theorem State.StartLaw.exec_waits {c : Instr} (hc : Instr.resets c = false) (h : exec c s = .next t) : s.Waits t := by
  have same {u : State} (hu : (Host.Outcome.next s : Res) = .next u) : s.Waits u := by
    obtain rfl := Host.Outcome.next.inj hu
    exact law.waits_refl hs
  have levels (x : Pins) (hx : x.reset = s.pins.reset) : s.Waits (s.setPins x) :=
    { law.waits_refl hs with reset := hx, table := rfl }
  have framed (q : Port) (code : Byte) (part : FramePart) : s.Waits (s.framePart q code part) :=
    law.hears hs (State.framePart_hears code part)
  have noOrder (k : Chan) (teardown : Bool) : s.takeOrderOf k teardown = s := by
    rw [State.takeOrderOf, (law.claims hs).1]
  have noUnit : s.engine.unit = none := by rw [law.engine hs]; rfl
  cases hrow : commandRow c with
  | some row => exact law.commandRow_waits hs hrow h
  | none =>
    cases c with
    | badOpcode p => rw [exec, execBadOpcode, law.taking hs] at h; exact same h
    | statusRead p part => cases h; exact framed p _ part
    | commandWrite p part => cases h; exact framed p _ part
    | resultRead p part => cases h; exact framed p _ part
    | eventRead p part => cases h; exact framed p _ part
    | windowRead p part => cases h; exact framed p _ part
    | windowWrite p part => cases h; exact framed p _ part
    | unknownCodeFrame p code part =>
      simp only [exec, execUnknownCodeFrame] at h
      split_ifs at h
      · exact same h
      · cases h; exact framed p _ part
    | windowCheck p => rw [exec, execWindowCheck, (law.links hs p).window] at h; exact same h
    | windowAccess p => rw [exec, execWindowAccess, (law.links hs p).window] at h; exact same h
    | referenceRelease =>
      simp only [exec, execReferenceRelease] at h
      split at h
      · next hnext => obtain ⟨⟨_, ⟨⟩⟩, -⟩ := law.nextNotice hs hnext
      · exact same h
    | leaseEnd =>
      simp only [exec, execLeaseEnd] at h
      split at h
      · next hnext => obtain ⟨⟨_, ⟨⟩⟩, -⟩ := law.nextNotice hs hnext
      · exact same h
    | scrubDone =>
      simp only [exec, execScrubDone] at h
      split at h
      · next hnext => obtain ⟨⟨_, ⟨⟩⟩, -⟩ := law.nextNotice hs hnext
      · exact same h
    | offerExpiry =>
      simp only [exec, execOfferExpiry] at h
      split at h
      · next hnext => obtain ⟨⟨_, ⟨⟩⟩, -⟩ := law.nextNotice hs hnext
      · exact same h
    | clearNotice order => exact law.clearNotice_waits hs h
    | msTick => exact law.tick_waits hs h
    | offerTimerExpiry i => rw [exec, execOfferTimerExpiry, law.timers hs] at h; exact same h
    | clrFall p => exact law.clrFall_waits hs h
    | clrRise p => cases h; exact levels _ rfl
    | haltFall p =>
      rw [exec, execHaltFall] at h
      dsimp only at h
      rw [hs.not_sendsClaims, if_neg Bool.false_ne_true] at h
      split_ifs at h
      · exact same h
      · cases h; exact levels _ rfl
    | haltRise p => cases h; exact levels _ rfl
    | haltClaim p order => rw [exec, execHaltClaim, (law.claims hs).2.1] at h; exact same h
    | triggerLevelChange n =>
      simp only [exec, execTriggerLevelChange, hs.not_sendsClaims] at h
      cases h
      exact levels _ rfl
    | edgeClaim n order => rw [exec, execEdgeClaim, (law.claims hs).2.2] at h; exact same h
    | discardOrder k => rw [exec, execDiscardOrder, noOrder] at h; exact same h
    | teardownOrder k => rw [exec, execTeardownOrder, noOrder] at h; exact same h
    | unitStart => rw [exec, execUnitStart, noUnit, law.not_granted hs] at h; exact same h
    | unitTransfer part => rw [exec, execUnitTransfer, noUnit] at h; exact same h
    | unitEndReport => rw [exec, execUnitEndReport, noUnit] at h; exact same h
    | scrubRunStart => rw [exec, execScrubRunStart, (law.runs hs).1] at h; exact same h
    | scrubRunEnd => rw [exec, execScrubRunEnd, (law.runs hs).1] at h; exact same h
    | memoryFault addr value => cases h; exact { law.waits_refl hs with reset := rfl, table := rfl }
    | resetAssert => cases hc
    | resetRelease levels => cases hc
    | startupClearEnd => cases hc
    | _ => cases hrow

end
end

end Sys2Proof.Machine
end

section
/-! SUPPORT: what a step can be. -/

set_option Elab.async false

namespace Sys2Proof.Machine

/-- What a step makes of the state: what a row of the table makes of it, a granule of the start-up clear, or device reset. -/
inductive State.StepsTo (s : State) : State → Prop
  | moves {t : State} (h : s.Moves t) (hwaits : s.StartLaw → s.starting → s.Waits t) : State.StepsTo s t
  | clears (n : Nat) (hstartup : s.scrub.startup = true) (hmore : s.mem.definedTo ≤ n) (hless : n ≤ memoryBytes) : State.StepsTo s (s.setMem (s.mem.define n))
  | asserts : State.StepsTo s
      { pins := { s.pins with reset := .low }, table := TableController.reset s.table.quotaMode, chan := ChannelController.reset
        engine := Engine.reset, scrub := ScrubUnit.reset, links := Vector.replicate 4 Link.empty
        mem := Memory.undefined (s.mem.resets + 1), pending := s.pending }
  | releases (x : Pins) (mode : QuotaMode) (hlow : s.pins.reset = .low) (hx : x.reset = .high) :
      State.StepsTo s (((s.setPins x).setQuotaMode mode).setScrub { s.scrub with startup := true })
  | ends (hstartup : s.scrub.startup = true) :
      State.StepsTo s ((((s.setMem (s.mem.define memoryBytes)).setGranules 0).setScrub
        { s.scrub with startup := false }).mapLinks fun l => { l with notReady := false })

theorem State.StepsTo.same (s : State) : s.StepsTo s := .moves (.refl s) fun law hs => law.waits_refl hs

theorem State.clearNextGranule_stepsTo (s : State) : s.StepsTo s.clearNextGranule := by
  unfold State.clearNextGranule
  split
  · next hstartup =>
    split
    · exact .clears _ hstartup (Nat.le_add_right _ _) (by omega)
    · exact .same s
  · split
    · next run later k hqueue hrunning =>
      split
      · refine .moves (.acts ((State.clearGranules_acts _ _ _).act (State.Act.running _))) fun law hs => ?_
        have hidle := (law.runs hs).1
        rw [hqueue] at hidle
        cases hidle
      · exact .same s
    · exact .same s

theorem exec_stepsTo {c : Instr} {s t : State} (h : exec c s = .next t) : s.StepsTo t := by
  cases hc : Instr.resets c with
  | false => exact .moves (exec_moves hc h) fun law hs => law.exec_waits hs hc h
  | true =>
    cases c with
    | resetAssert =>
      obtain rfl := Host.Outcome.next.inj h
      exact .asserts
    | resetRelease levels =>
      simp only [exec, execResetRelease] at h
      split at h
      · cases h; exact .same s
      · next hhigh =>
        cases h
        exact .releases _ _ (by cases hr : s.pins.reset <;> simp_all) rfl
    | startupClearEnd =>
      simp only [exec, execStartupClearEnd] at h
      split at h
      · next hstartup => cases h; exact .ends hstartup
      · cases h; exact .same s
    | _ => cases hc

/-- A step is a row's, or the scrub unit's, on the state with some other queue; no law reads the queue. -/
theorem step_stepsTo {s t : State} (h : step s = .next t) : ∃ rest, ({ s with pending := rest } : State).StepsTo t := by
  unfold step at h
  split at h
  · next hp =>
    cases h
    exact ⟨s.pending, s.clearNextGranule_stepsTo⟩
  · exact ⟨_, exec_stepsTo h⟩

/-! ### What every act leaves as it is -/

/-- RESET, the start-up clear and the extent of the defined memory stand as they are, and the memory stays in canonical form. -/
structure State.Still (s t : State) : Prop where
  reset : t.pins.reset = s.pins.reset
  startup : t.scrub.startup = s.scrub.startup
  definedTo : t.mem.definedTo = s.mem.definedTo
  wf : s.mem.wf = true → t.mem.wf = true

theorem State.Still.refl (s : State) : s.Still s := ⟨rfl, rfl, rfl, id⟩

theorem State.Still.trans {s t u : State} (h : s.Still t) (h' : t.Still u) : s.Still u :=
  ⟨h'.reset.trans h.reset, h'.startup.trans h.startup, h'.definedTo.trans h.definedTo, h'.wf ∘ h.wf⟩

theorem State.Still.of_eq {s t : State} (hpins : t.pins = s.pins) (hscrub : t.scrub.startup = s.scrub.startup)
    (hmem : t.mem = s.mem) : s.Still t := ⟨congrArg Pins.reset hpins, hscrub, congrArg Memory.definedTo hmem, hmem ▸ id⟩

theorem State.setNotices_still (s : State) (x : List Notice) : s.Still (s.setNotices x) := .of_eq rfl rfl rfl

theorem State.setQuota_still (s : State) (p : Port) (x : Quota) : s.Still (s.setQuota p x) := .of_eq rfl rfl rfl

theorem State.popCommand_still (s : State) (p : Port) : s.Still (s.popCommand p) := .of_eq rfl rfl rfl

theorem State.answer_still (s : State) (p : Port) (r : CommandRecord) (y : Reply) : s.Still (s.answer p r y) :=
  .of_eq rfl rfl rfl

theorem State.freeRegion_still (s : State) (i : Slot) : s.Still (s.freeRegion i) := by
  refine .of_eq (by simp) ?_ (by simp)
  unfold State.freeRegion
  dsimp only
  split_ifs <;> simp [State.enterScrubbing]

theorem State.foldl_freeRegion_still (s : State) (is : List Slot) : s.Still (is.foldl State.freeRegion s) := by
  induction is generalizing s with
  | nil => exact .refl s
  | cons i is ih => exact (s.freeRegion_still i).trans (ih _)

theorem State.settleClosing_still (s : State) (p : Port) : s.Still (s.settleClosing p) := .of_eq (by simp) (by simp) (by simp)

theorem State.commit_still (s : State) (c : Chan) (e : Effect) : s.Still (s.commit c e) := .of_eq (by simp) (by simp) (by simp)

theorem State.closeSession_still (s : State) (p : Port) (order : List Slot) : s.Still (s.closeSession p order) := by
  unfold State.closeSession
  dsimp only
  refine .trans (.trans ?_ (State.foldl_freeRegion_still _ _)) (State.settleClosing_still _ _)
  exact .of_eq (by simp) (by simp) (by simp)

theorem State.install_still (s : State) (c : Chan) (g : Program) (i j : Slot) : s.Still (s.install c g i j) := by
  cases hx : (s.channel c).program with
  | none => simp only [State.install, hx]; exact .of_eq rfl rfl rfl
  | some old =>
    simp only [State.install, hx, State.dropProgram, State.dropReference]
    cases old.source.handle.slot? <;> cases old.dest.handle.slot? <;> exact .of_eq rfl rfl rfl

theorem State.followChain_still (s : State) (c : Chan) (lessee : Option Port) (chain : Option Chan) :
    s.Still (s.followChain c lessee chain) := by
  cases chain with
  | none => exact .of_eq rfl rfl rfl
  | some target =>
    unfold State.followChain
    dsimp only
    split
    · split
      · exact .of_eq rfl rfl rfl
      · exact .of_eq (by simp) (by simp) (by simp)
    · split <;> exact .of_eq rfl rfl rfl

theorem State.takeEndReport_still (s : State) (u : UnitInFlight) : s.Still (s.takeEndReport u) := by
  unfold State.takeEndReport
  dsimp only
  split
  · exact .of_eq rfl rfl rfl
  · have idle : s.Still (s.setEngine { s.engine with unit := none }) := .of_eq rfl rfl rfl
    split_ifs
    · exact idle.trans (State.commit_still _ _ _)
    · exact (idle.trans (State.commit_still _ _ _)).trans (State.followChain_still _ _ _ _)
    · exact idle.trans (State.commit_still _ _ _)
    · exact idle.trans (State.commit_still _ _ _)

theorem State.releaseReference_still (s : State) (i : Slot) : s.Still (s.releaseReference i) := by
  unfold State.releaseReference
  dsimp only
  refine .trans ?_ (State.settleClosing_still _ _)
  split_ifs
  · exact .of_eq (by simp) (by simp [State.enterScrubbing]) (by simp)
  · exact .of_eq rfl rfl rfl

/-- Every act leaves device reset and the extent of the memory alone. -/
theorem State.Act.still {s t : State} (h : s.Act t) : s.Still t := by
  cases h with
  | pins x h => exact ⟨h, rfl, rfl, id⟩
  | tick => exact .of_eq (by simp) (by simp) (by simp)
  | close p order h => exact s.closeSession_still p order
  | free i => exact s.freeRegion_still i
  | grant i p new => exact .of_eq (by simp [State.setGrant]) (by simp [State.setGrant]) (by simp [State.setGrant])
  | accept p i o e =>
    exact .of_eq (by simp [State.moveQuota]) (by simp [State.moveQuota]) (by simp [State.moveQuota])
  | install p c g i j r => exact s.install_still c g i j
  | suspend c cause => exact s.commit_still _ _
  | abort c cause => exact s.commit_still _ _
  | activate c h => exact s.commit_still _ _
  | order o left h => exact .of_eq (by simp) (by simp) (by simp)
  | referenceRelease h i rest => exact (s.setNotices_still rest).trans (State.releaseReference_still _ i)
  | leaseEnd c p rest =>
    exact ((s.setNotices_still rest).trans (State.setQuota_still _ p _)).trans (State.settleClosing_still _ p)
  | endReport u => exact s.takeEndReport_still u
  | mem m hwf hdef => exact ⟨rfl, rfl, hdef, hwf⟩
  | _ => exact .of_eq rfl rfl rfl

theorem State.Acts.still {s t : State} (h : s.Acts t) : s.Still t := by
  induction h with
  | refl => exact .refl _
  | tail _ hstep ih => exact ih.trans hstep.still

theorem State.Moves.still {s t : State} (h : s.Moves t) : s.Still t := by
  cases h with
  | acts h => exact h.still
  | taken p r hserves h => exact (s.popCommand_still p).trans h.still
  | answered p r y hserves h => exact ((s.popCommand_still p).trans h.still).trans (State.answer_still _ p r y)

end Sys2Proof.Machine
end

section
/-! PROOF of O57 (the laws of the links and the form of the memory): every change of a link unit keeps its law, and every step
changes a link unit by such changes, a command record taken and a result written where there is room. -/

set_option Elab.async false

namespace Sys2Proof.Machine

/-! ### The law of a link unit, change by change -/

theorem markerAtTail_countDropped {q : List Event} (h : markerAtTail q = true) :
    markerAtTail (countDropped q) = true ∧ (countDropped q).length = q.length := by
  obtain ⟨init, last, rfl⟩ : ∃ init last, q = init ++ [last] := by
    cases q using List.reverseRecOn with
    | nil => cases h
    | append_singleton init last => exact ⟨init, last, rfl⟩
  rw [markerAtTail_append] at h
  cases last with
  | overrun n => rw [countDropped_append_marker, markerAtTail_append]; simp [Event.isMarker]
  | _ => cases h

/-- R170 keeps a queue within 16 records, the 16th a marker. -/
theorem placeEvent_bounded {q : List Event} (e : Event) (hlen : q.length ≤ 16)
    (hmark : q.length = 16 → markerAtTail q = true) :
    (placeEvent q e).length ≤ 16 ∧ ((placeEvent q e).length = 16 → markerAtTail (placeEvent q e) = true) := by
  unfold placeEvent
  split_ifs with hshort htail hfull
  · rw [List.length_append, List.length_singleton]
    exact ⟨by omega, by omega⟩
  · obtain ⟨hmarker, hsame⟩ := markerAtTail_countDropped htail
    exact ⟨hsame ▸ hlen, fun _ => hmarker⟩
  · rw [List.length_append, List.length_singleton, markerAtTail_append]
    exact ⟨by omega, fun _ => rfl⟩
  · exact ⟨hlen, hmark⟩

section
variable {l : Link}

theorem Link.Law.buffer_nil_of_not_live (law : l.Law) (hw : l.window = none) {f : Frame} (hf : l.frame = some f)
    (hlive : f.live = false) : l.buffer = [] :=
  law.idle hw fun g hg => by
    obtain rfl : f = g := Option.some.inj (hf.symm.trans hg)
    simp [Frame.filling, hlive]

theorem Link.Law.event (law : l.Law) (e : Event) : ({ l with events := placeEvent l.events e } : Link).Law := by
  obtain ⟨hlen, hmark⟩ := placeEvent_bounded e law.events law.marker
  exact { law with events := hlen, marker := hmark }

theorem Link.Law.settings (law : l.Law) (x : NotifySettings) : ({ l with settings := x } : Link).Law := { law with }

theorem Link.Law.select (law : l.Law) (summary : Byte) (hf : l.frame = none) : ({ l with
    out := []
    frame := some { summary, notReady := l.notReady, code := none, answer := none, received := [], toSend := []
                    live := false, closed := false } } : Link).Law := by
  refine { law with codeless := ?_, room := ?_, header := ?_, filling := ?_, idle := ?_ }
  · rintro _ ⟨⟩ -; exact ⟨rfl, rfl⟩
  · rintro _ ⟨⟩ ⟨⟩
  · rintro _ ⟨⟩ ⟨⟩
  · rintro _ ⟨⟩ ⟨⟩
  · exact fun hw _ => law.idle hw fun f h => by simp [hf] at h

/-- The code byte decides whether the rest of the frame is taken in; where it is, no window access is pending, so the window write
buffer is empty. -/
theorem Link.Law.code (law : l.Law) {f : Frame} {code : Byte} {answer : LinkAnswer} {malformed : Bool}
    {results : List ResultRecord} {events : List Event} {sent : List Byte} (hf : l.frame = some f) (hc : f.code = none)
    (hresults : results = l.results ∨ results = l.results.tail) (hevents : events = l.events ∨ events = l.events.tail)
    (hin : answer.takesIn = true → l.window = none ∧ (code = 0x02 → l.commands.length < 4)) : ({ l with
      malformed, results, events, out := [f.summary]
      frame := some { f with
        code := some code, answer := some answer, toSend := sent, live := answer.takesIn, closed := false } } : Link).Law := by
  obtain ⟨hreceived, hlive⟩ := law.codeless f hf hc
  have hbuffer (hw : l.window = none) : l.buffer = [] := law.buffer_nil_of_not_live hw hf hlive
  refine { law with results := ?_, events := ?_, marker := ?_, codeless := ?_, room := ?_, header := ?_, filling := ?_,
                    idle := fun hw _ => hbuffer hw }
  · rcases hresults with rfl | rfl
    · exact law.results
    · exact (by simp : l.results.tail.length ≤ l.results.length).trans law.results
  · rcases hevents with rfl | rfl
    · exact law.events
    · exact (by simp : l.events.tail.length ≤ l.events.length).trans law.events
  · rcases hevents with rfl | rfl
    · exact law.marker
    · intro h
      have := law.events
      rw [List.length_tail] at h
      omega
  · rintro _ ⟨⟩ ⟨⟩
  · rintro _ ⟨⟩ htakes hcode
    exact (hin htakes).2 (Option.some.inj hcode)
  · rintro _ ⟨⟩ htakes - -
    exact (hin htakes).1
  · rintro _ ⟨⟩ hfill
    have htakes : answer.takesIn = true := by
      simp only [Frame.filling, Bool.and_eq_true] at hfill
      exact hfill.1.1
    have hw := (hin htakes).1
    exact ⟨hw, by simp [hbuffer hw, hreceived]⟩

theorem Link.Law.emptied (law : l.Law) : l.emptied.Law := by
  have frames : ∀ f ∈ l.emptied.frame, ∃ g ∈ l.frame, f = { g with closed := g.code.isSome } := by
    intro f hf
    obtain ⟨g, hg, heq⟩ := Option.map_eq_some_iff.1 hf
    exact ⟨g, hg, heq.symm⟩
  refine { law with
    commands := Nat.zero_le _, results := Nat.zero_le _, events := Nat.zero_le _, marker := ?_, codeless := ?_, room := ?_
    header := ?_, filling := ?_, idle := ?_ }
  · rintro ⟨⟩
  · intro f hf
    obtain ⟨g, hg, rfl⟩ := frames f hf
    exact law.codeless g hg
  · intro f _ _ _
    exact Nat.zero_lt_succ _
  · intro f hf
    obtain ⟨g, hg, rfl⟩ := frames f hf
    exact law.header g hg
  · intro f hf
    obtain ⟨g, hg, rfl⟩ := frames f hf
    exact law.filling g hg
  · intro hw hfill
    refine law.idle hw fun g hg => ?_
    exact hfill { g with closed := g.code.isSome } (Option.map_eq_some_iff.2 ⟨g, hg, rfl⟩)

theorem Link.Law.admission (law : l.Law) {w : WindowRequest} (hw : l.window = some w)
    (h : w.addr.toNat + w.length ≤ memoryBytes) : ({ l with window := some { w with admitted := true } } : Link).Law := by
  have pending {α : Prop} (hnone : l.window = none) : α := by rw [hw] at hnone; cases hnone
  refine { law with header := ?_, filling := ?_, idle := ?_, read := ?_, write := ?_, admitted := ?_ }
  · exact fun f hf hlive hcode hlen => pending (law.header f hf hlive hcode hlen)
  · exact fun f hf hfill => pending (law.filling f hf hfill).1
  · rintro ⟨⟩
  · rintro _ ⟨⟩ hdir; exact law.read w hw hdir
  · rintro _ ⟨⟩ hdir; exact law.write w hw hdir
  · rintro _ ⟨⟩ -; exact h

/-- The outcome of a window access ends it, and a write's bytes leave the buffer (R38, R39). -/
theorem Link.Law.done (law : l.Law) {w : WindowRequest} (hw : l.window = some w) (bytes : List Byte) :
    (l.windowDone w bytes).Law := by
  have hbuffer : (l.windowDone w bytes).buffer = [] := by
    cases hdir : w.direction with
    | read => simp [Link.windowDone, hdir, law.read w hw hdir]
    | write => simp [Link.windowDone, hdir]
  have frames : ∀ f ∈ (l.windowDone w bytes).frame, ∃ g ∈ l.frame, ∃ sent, f = { g with toSend := sent } := by
    intro f hf
    unfold Link.windowDone at hf
    dsimp only at hf
    split_ifs at hf
    · obtain ⟨g, hg, rfl⟩ := Option.map_eq_some_iff.1 hf
      exact ⟨g, hg, _, rfl⟩
    · exact ⟨f, hf, f.toSend, rfl⟩
  have notFilling (g : Frame) (hg : g ∈ l.frame) : g.filling = false := by
    rw [← Bool.not_eq_true]
    intro hfill
    have := (law.filling g hg hfill).1
    rw [hw] at this
    cases this
  refine { law with
    buffer := by rw [hbuffer]; exact Nat.zero_le _
    codeless := ?_, room := ?_, header := fun _ _ _ _ _ => rfl, filling := ?_, idle := fun _ _ => hbuffer
    read := ?_, write := ?_, admitted := ?_ }
  · intro f hf
    obtain ⟨g, hg, sent, rfl⟩ := frames f hf
    exact law.codeless g hg
  · intro f hf
    obtain ⟨g, hg, sent, rfl⟩ := frames f hf
    exact law.room g hg
  · intro f hf hfill
    obtain ⟨g, hg, sent, rfl⟩ := frames f hf
    exact absurd ((notFilling g hg).symm.trans hfill) Bool.false_ne_true
  · rintro _ ⟨⟩
  · rintro _ ⟨⟩
  · rintro _ ⟨⟩

/-- The frames whose bytes leave the window write buffer at the rise of SELk are those that are still filling it (R39). -/
theorem Frame.short_write (f : Frame) : (f.short && f.code == some 0x06) = f.filling := by
  unfold Frame.short Frame.filling
  by_cases hcode : f.code = some 0x06
  · simp [hcode]
  · have hother : (f.code == some 0x06) = false := by simpa using hcode
    simp only [hother, Bool.and_false, Bool.false_and]

theorem Link.Law.deselect (law : l.Law) : l.deselect.Law := by
  cases hf : l.frame with
  | none => rw [Link.deselect, hf]; exact law
  | some f =>
    have hdeselect : l.deselect = { l with
        frame := none, malformed := l.malformed || f.short, buffer := if f.filling then [] else l.buffer
        window := l.window.map fun w => { w with framed := false } } := by
      simp only [Link.deselect, hf, Frame.short_write]
    have notFilling {w : WindowRequest} (hw : l.window = some w) : ¬ f.filling = true := fun hfill => by
      have := (law.filling f hf hfill).1
      rw [hw] at this
      cases this
    have noFrame {α : Prop} {g : Frame} (hg : g ∈ (none : Option Frame)) : α := by cases hg
    rw [hdeselect]
    refine { law with
      codeless := fun _ hg => noFrame hg, room := fun _ hg => noFrame hg, buffer := ?_, header := fun _ hg => noFrame hg
      filling := fun _ hg => noFrame hg, idle := ?_, read := ?_, write := ?_, admitted := ?_ }
    · split_ifs
      · exact Nat.zero_le _
      · exact law.buffer
    · intro hw _
      split_ifs with hfill
      · rfl
      · refine law.idle (Option.map_eq_none_iff.1 hw) fun g hg => ?_
        obtain rfl : f = g := Option.some.inj (hf.symm.trans hg)
        exact Bool.eq_false_iff.2 hfill
    · intro _ hv hdir
      obtain ⟨w, hw, rfl⟩ := Option.map_eq_some_iff.1 hv
      rw [if_neg (notFilling hw)]
      exact law.read w hw hdir
    · intro _ hv hdir
      obtain ⟨w, hw, rfl⟩ := Option.map_eq_some_iff.1 hv
      rw [if_neg (notFilling hw)]
      exact law.write w hw hdir
    · intro _ hv hadm
      obtain ⟨w, hw, rfl⟩ := Option.map_eq_some_iff.1 hv
      exact law.admitted w hw hadm

/-! A byte clocked in -/

section
variable {f g : Frame}

/-- A byte that neither fills the window write buffer nor completes a window frame's part: the frame moves on, with the command
queue and the malformed flag it leaves. -/
theorem Link.Law.heard (law : l.Law) (hf : l.frame = some f) (hfill : f.filling = false) (hcode : g.code ≠ none)
    (hgfill : g.filling = false)
    (hheader : g.live = true → g.code = some 0x05 → g.received.length < 4 → l.window = none) {commands : List CommandRecord}
    (hcommands : commands.length ≤ 4) (hroom : g.live = true → g.code = some 0x02 → commands.length < 4) (malformed : Bool)
    (out : List Byte) : ({ l with commands, malformed, frame := some g, out } : Link).Law := by
  refine { law with
    commands := hcommands, codeless := ?_, room := ?_, header := ?_, filling := ?_, idle := fun hw _ => ?_ }
  · rintro _ ⟨⟩ hnone; exact absurd hnone hcode
  · rintro _ ⟨⟩; exact hroom
  · rintro _ ⟨⟩; exact hheader
  · rintro _ ⟨⟩ hfilling; exact absurd (hgfill.symm.trans hfilling) Bool.false_ne_true
  · refine law.idle hw fun h hh => ?_
    obtain rfl : f = h := Option.some.inj (hf.symm.trans hh)
    exact hfill

theorem Frame.filling_of_code (h : f.code ≠ some 0x06) : f.filling = false := by
  have : (f.code == some 0x06) = false := by simpa using h
  simp only [Frame.filling, this, Bool.and_false, Bool.false_and]

/-- A byte of a COMMAND_WRITE frame: its record has a place in the queue (R156). -/
theorem Link.Law.commandByte (law : l.Law) (hf : l.frame = some f) (hlive : f.live = true) (hcode : f.code = some 0x02)
    (hg : g.code = f.code) (out : List Byte) :
    (({ l with frame := some g, out } : Link).commandByte g).Law := by
  have hother : ∀ {x : Frame}, x.code = f.code → x.filling = false := fun hx =>
    Frame.filling_of_code (by rw [hx, hcode]; decide)
  have hnone : g.code ≠ none := by rw [hg, hcode]; exact Option.some_ne_none _
  have hroom := law.room f hf hlive hcode
  have hheader {x : Frame} (hx : x.code = f.code) : x.live = true → x.code = some 0x05 → x.received.length < 4 →
      l.window = none := fun _ h5 _ => by rw [hx, hcode] at h5; exact absurd h5 (by decide)
  unfold Link.commandByte
  dsimp only
  split_ifs with hlong hdone hclosed
  · exact law.heard (g := { g with live := false }) hf (hother rfl) hnone (hother hg) (hheader hg) law.commands
      (by rintro ⟨⟩) true out
  · exact law.heard (g := { g with live := false }) hf (hother rfl) hnone (hother hg) (hheader hg) law.commands
      (by rintro ⟨⟩) _ out
  · refine law.heard (g := { g with live := false }) hf (hother rfl) hnone (hother hg) (hheader hg) ?_ (by rintro ⟨⟩) _ out
    rw [List.length_append, List.length_singleton]
    exact hroom
  · exact law.heard hf (hother rfl) hnone (hother hg) (hheader hg) law.commands (fun _ _ => hroom) _ out

/-- A byte of a WINDOW_READ frame: the check is asked for while none is pending (R38). -/
theorem Link.Law.windowReadByte (law : l.Law) (hf : l.frame = some f) (hlive : f.live = true) (hcode : f.code = some 0x05)
    (hg : g.code = f.code) {b : Byte} (hreceived : g.received = f.received ++ [b]) (out : List Byte) :
    (({ l with frame := some g, out } : Link).windowReadByte g).Law := by
  have hother : ∀ {x : Frame}, x.code = f.code → x.filling = false := fun hx =>
    Frame.filling_of_code (by rw [hx, hcode]; decide)
  have hnone : g.code ≠ none := by rw [hg, hcode]; exact Option.some_ne_none _
  have hlen : g.received.length = f.received.length + 1 := by simp [hreceived]
  have hheader (h : f.received.length < 4) := law.header f hf hlive hcode h
  have heard := law.heard hf (hother rfl) hnone (hother hg) (fun _ _ h => hheader (by omega)) law.commands
    (fun _ h2 => by rw [hg, hcode] at h2; exact absurd h2 (by decide)) l.malformed out
  unfold Link.windowReadByte Link.askWindow
  split_ifs with hfour
  · have hw := hheader (by omega)
    have hbuffer : l.buffer = [] := law.idle hw fun h hh => by
      obtain rfl : f = h := Option.some.inj (hf.symm.trans hh)
      exact hother rfl
    refine { heard with header := ?_, filling := ?_, idle := fun _ _ => hbuffer, read := fun _ _ _ => hbuffer
                        write := ?_, admitted := ?_ }
    · rintro _ ⟨⟩ _ _ h; omega
    · rintro _ ⟨⟩ h; exact absurd ((hother hg).symm.trans h) Bool.false_ne_true
    · rintro _ ⟨⟩ ⟨⟩
    · rintro _ ⟨⟩ ⟨⟩
  · exact heard

theorem windowLength_le (r : List Byte) : 1 ≤ windowLength r ∧ windowLength r ≤ 256 := by
  have := (byteAt r 3).isLt
  unfold windowLength
  omega

theorem Frame.filling_iff (hlive : f.live = true) (hcode : f.code = some 0x06) :
    f.filling = true ↔ f.received.length < 4 ∨ f.received.length < 4 + windowLength f.received := by
  simp [Frame.filling, hlive, hcode]

/-- A byte of a WINDOW_WRITE frame: behind the header it joins the buffer, and the last declared one asks for the check (R39). -/
theorem Link.Law.windowWriteByte (law : l.Law) (hf : l.frame = some f) (hlive : f.live = true) (hcode : f.code = some 0x06)
    (hglive : g.live = true) (hg : g.code = f.code) {b : Byte} (hreceived : g.received = f.received ++ [b])
    (out : List Byte) : (({ l with frame := some g, out } : Link).windowWriteByte g b).Law := by
  have hgcode : g.code = some 0x06 := hg.trans hcode
  have hlen : g.received.length = f.received.length + 1 := by simp [hreceived]
  have hdeclared (h : 4 ≤ f.received.length) : windowLength g.received = windowLength f.received := by
    rw [hreceived, windowLength_append _ _ h]
  have hfilling := law.filling f hf
  rw [Frame.filling_iff hlive hcode] at hfilling
  have hgfilling := Frame.filling_iff hglive hgcode
  have hnot5 : ¬ g.code = some 0x05 := by rw [hgcode]; decide
  have hnot2 : ¬ g.code = some 0x02 := by rw [hgcode]; decide
  obtain ⟨hmin, hmax⟩ := windowLength_le g.received
  unfold Link.windowWriteByte Link.askWindow
  dsimp only
  split_ifs with hdata hlast
  · obtain ⟨hw, hbuffer⟩ := hfilling (by rw [← hdeclared (by omega)]; omega)
    have hfull : (l.buffer ++ [b]).length = windowLength g.received := by
      rw [List.length_append, List.length_singleton]; omega
    refine { law with codeless := ?_, room := ?_, buffer := hfull ▸ hmax, header := ?_, filling := ?_, idle := ?_, read := ?_
                      write := ?_, admitted := ?_ }
    · rintro _ ⟨⟩ hnone; rw [hgcode] at hnone; cases hnone
    · rintro _ ⟨⟩ _ h2; exact absurd h2 hnot2
    · rintro _ ⟨⟩ _ h5; exact absurd h5 hnot5
    · rintro _ ⟨⟩ h; have := hgfilling.1 h; omega
    · rintro ⟨⟩
    · rintro _ ⟨⟩ ⟨⟩
    · rintro _ ⟨⟩ _; exact hfull
    · rintro _ ⟨⟩ ⟨⟩
  · obtain ⟨hw, hbuffer⟩ := hfilling (by rw [← hdeclared (by omega)]; omega)
    have hmore : (l.buffer ++ [b]).length = g.received.length - 4 := by
      rw [List.length_append, List.length_singleton]; omega
    refine { law with codeless := ?_, room := ?_, buffer := by rw [hmore]; omega, header := ?_, filling := ?_
                      idle := ?_, read := ?_, write := ?_ }
    · rintro _ ⟨⟩ hnone; rw [hgcode] at hnone; cases hnone
    · rintro _ ⟨⟩ _ h2; exact absurd h2 hnot2
    · rintro _ ⟨⟩ _ h5; exact absurd h5 hnot5
    · rintro _ ⟨⟩ _; exact ⟨hw, hmore⟩
    · intro _ h
      exact absurd (hgfilling.2 (by omega)) (Bool.eq_false_iff.1 (h g rfl))
    · intro w h _; rw [hw] at h; cases h
    · intro w h _; rw [hw] at h; cases h
  · by_cases hshort : f.received.length < 4
    · obtain ⟨hw, hbuffer⟩ := hfilling (.inl hshort)
      refine { law with codeless := ?_, room := ?_, header := ?_, filling := ?_, idle := ?_ }
      · rintro _ ⟨⟩ hnone; rw [hgcode] at hnone; cases hnone
      · rintro _ ⟨⟩ _ h2; exact absurd h2 hnot2
      · rintro _ ⟨⟩ _ h5; exact absurd h5 hnot5
      · rintro _ ⟨⟩ _; exact ⟨hw, by dsimp only; omega⟩
      · intro _ _
        have hempty : l.buffer.length = 0 := by omega
        exact List.length_eq_zero_iff.1 hempty
    · have hdone := hdeclared (not_lt.1 hshort)
      refine law.heard hf ?_ (by rw [hgcode]; exact Option.some_ne_none _) ?_ (fun _ h5 => absurd h5 hnot5) law.commands
        (fun _ h2 => absurd h2 hnot2) _ out
      · rw [← Bool.not_eq_true, Frame.filling_iff hlive hcode]; omega
      · rw [← Bool.not_eq_true, hgfilling]; omega

end

theorem Link.Law.clock (law : l.Law) (b : Byte) (hcode : ∀ f ∈ l.frame, f.code ≠ none) : (l.clock b).Law := by
  cases hf : l.frame with
  | none => rw [Link.clock, hf]; exact law
  | some f =>
    unfold Link.clock
    rw [hf]
    dsimp only
    split_ifs with hlive h2 h5 h6
    · rw [Bool.not_eq_true'] at hlive
      have quiet {x : Frame} (hx : x.live = false) : x.filling = false := by simp [Frame.filling, hx]
      have notLive {α : Prop} (h : f.live = true) : α := by rw [hlive] at h; cases h
      exact law.heard (g := f.clocked l b) hf (quiet hlive) (hcode f hf) (quiet hlive)
        (fun h => notLive h) law.commands (fun h => notLive h) _ _
    · exact law.commandByte (g := f.clocked l b) hf (by simpa using hlive) h2 rfl _
    · exact law.windowReadByte (g := f.clocked l b) hf (by simpa using hlive) h5 rfl rfl _
    · exact law.windowWriteByte (g := f.clocked l b) hf (by simpa using hlive) h6 (by simpa [Frame.clocked] using hlive) rfl rfl _
    · exact law.heard (g := f.clocked l b) hf (Frame.filling_of_code h6) (hcode f hf) (Frame.filling_of_code h6)
        (fun _ h => absurd h h5) law.commands (fun _ h => absurd h h2) _ _

theorem Link.Heard.law {m : Link} (h : l.Heard m) (law : l.Law) : m.Law := by
  cases h with
  | select summary hf => exact law.select summary hf
  | code f code answer malformed results events sent hf hc hresults hevents hin =>
    exact law.code hf hc hresults hevents fun h => (hin h).2
  | clock b hcode => exact law.clock b hcode
  | deselect => exact law.deselect

/-- Every change of a link unit keeps its law. -/
theorem Link.Change.law {m : Link} (h : l.Change m) (law : l.Law) : m.Law := by
  cases h with
  | event e => exact law.event e
  | settings x => exact law.settings x
  | heard h => exact h.law law
  | admission w hw h => exact law.admission hw h
  | done w bytes hw => exact law.done hw bytes
  | emptied => exact law.emptied

end

theorem Link.Changes.law {l m : Link} (h : l.Changes m) (law : l.Law) : m.Law := h.keeps (P := Link.Law) Link.Change.law law

/-! ### The taking of a command -/

theorem State.serves.results_length {s : State} {p : Port} {r : CommandRecord} (h : s.serves p r) :
    (s.link p).results.length < 8 := by
  obtain ⟨-, hturn⟩ := h
  unfold State.commandTurn at hturn
  split_ifs at hturn
  have heligible := List.find?_some hturn
  unfold State.eligible at heligible
  rw [Bool.and_eq_true, decide_eq_true_eq] at heligible
  exact heligible.2

theorem Link.Law.popped {l : Link} (law : l.Law) : ({ l with commands := l.commands.tail } : Link).Law := by
  have hless : l.commands.tail.length ≤ l.commands.length := by simp
  exact { law with
    commands := hless.trans law.commands
    room := fun f hf hlive hcode => lt_of_le_of_lt hless (law.room f hf hlive hcode) }

theorem State.popCommand_linkLaw {s : State} (law : ∀ q, (s.link q).Law) (p q : Port) : ((s.popCommand p).link q).Law := by
  rw [State.popCommand_link]
  split_ifs with h
  · exact h ▸ (law p).popped
  · exact law q

theorem State.Acts.linkLaw {s t : State} (h : s.Acts t) (law : ∀ q, (s.link q).Law) (q : Port) : (t.link q).Law :=
  (h.links q).law (law q)

theorem State.Moves.linkLaw {s t : State} (h : s.Moves t) (law : ∀ q, (s.link q).Law) (q : Port) : (t.link q).Law := by
  cases h with
  | acts h => exact h.linkLaw law q
  | taken p r hserves h => exact h.linkLaw (s.popCommand_linkLaw law p) q
  | @answered u p r y hserves h =>
    have hlaw := h.linkLaw (s.popCommand_linkLaw law p)
    have hroom : (u.link p).results.length < 8 := by
      have hless := h.results_length p
      rw [State.popCommand_link, if_pos rfl] at hless
      exact lt_of_le_of_lt hless hserves.results_length
    rw [State.answer_link]
    split_ifs with hq
    · refine { hlaw p with results := ?_ }
      rw [List.length_append, List.length_singleton]
      exact hroom
    · exact hlaw q

/-! ### Device reset -/

theorem Link.empty_law : Link.empty.Law where
  commands := Nat.zero_le _
  results := Nat.zero_le _
  events := Nat.zero_le _
  marker := by rintro ⟨⟩
  codeless := by rintro _ ⟨⟩
  room := by rintro _ ⟨⟩
  buffer := Nat.zero_le _
  header := by rintro _ ⟨⟩
  filling := by rintro _ ⟨⟩
  idle := fun _ _ => rfl
  read := by rintro _ ⟨⟩
  write := by rintro _ ⟨⟩
  admitted := by rintro _ ⟨⟩

theorem State.StepsTo.linkLaw {s t : State} (h : s.StepsTo t) (law : ∀ q, (s.link q).Law) (q : Port) : (t.link q).Law := by
  cases h with
  | moves h => exact h.linkLaw law q
  | clears n => exact law q
  | asserts => rw [State.link, look_replicate]; exact Link.empty_law
  | releases x mode => exact law q
  | ends hstartup => rw [State.mapLinks_link]; exact { law q with }

theorem State.StepsTo.memoryLaw {s t : State} (h : s.StepsTo t) (law : s.MemoryLaw) : t.MemoryLaw := by
  cases h with
  | moves h => exact h.still.wf law
  | clears n hstartup hmore hless => exact Memory.define_wf law hmore hless
  | asserts => exact Memory.undefined_wf _
  | releases x mode => exact law
  | ends hstartup =>
    rw [State.MemoryLaw, State.mapLinks_mem]
    exact Memory.define_wf law ((Memory.wf_iff _).1 law).1 le_rfl

/-- Settles O57: the law of each link unit goes through the changes of link units, the form of the memory through the acts. -/
theorem stepKeepsLinkAndMemoryLaw : Obligations.StepKeepsLinkAndMemoryLaw := by
  unfold Obligations.StepKeepsLinkAndMemoryLaw
  rintro s t ⟨hlinks, hmemory⟩ hstep
  obtain ⟨rest, h⟩ := step_stepsTo hstep
  exact ⟨h.linkLaw hlinks, h.memoryLaw hmemory⟩

end Sys2Proof.Machine
end

section
/-! PROOF of O56 (reset and the start-up clear): in the start-up time the hub waits or is reset; outside it the acts leave RESET,
the start-up clear and the link units' readiness alone. -/

set_option Elab.async false

namespace Sys2Proof.Machine

/-! ### Every step -/

section
variable {s t : State}

theorem State.Still.starting (h : s.Still t) : t.starting ↔ s.starting := by
  rw [State.starting, State.starting, h.reset, h.startup]

/-- A law that speaks of the start-up time alone holds outside it. -/
theorem State.StartLaw.of_not_starting (hs : ¬ t.starting) (hdefined : t.mem.definedTo = memoryBytes)
    (hready : ∀ p, (t.link p).notReady = false) : t.StartLaw where
  clear := fun hlow => absurd (.inl hlow) hs
  regions := fun h => absurd h hs
  granules := fun h => absurd h hs
  sessions := fun h => absurd h hs
  quotas := fun h => absurd h hs
  pointer := fun h => absurd h hs
  notices := fun h => absurd h hs
  timers := fun h => absurd h hs
  channels := fun h => absurd h hs
  claims := fun h => absurd h hs
  engine := fun h => absurd h hs
  runs := fun h => absurd h hs
  links := fun h => absurd h hs
  defined := fun _ => hdefined
  ready := fun _ => hready

theorem State.Moves.notReady (h : s.Moves t) (p : Port) : (t.link p).notReady = (s.link p).notReady := by
  have popped (q : Port) : ((s.popCommand q).link p).notReady = (s.link p).notReady := by
    rw [State.popCommand_link]; split_ifs with hq
    · subst hq; rfl
    · rfl
  cases h with
  | acts h => exact h.notReady p
  | taken q r hserves h => exact (h.notReady p).trans (popped q)
  | answered q r y hserves h =>
    have hbody := (h.notReady p).trans (popped q)
    rw [State.answer_link]; split_ifs with hq
    · subst hq; exact hbody
    · exact hbody

theorem State.Moves.startLaw (h : s.Moves t) (law : s.StartLaw) (hs : ¬ s.starting) : t.StartLaw :=
  .of_not_starting (fun ht => hs (h.still.starting.1 ht)) (h.still.definedTo.trans (law.defined hs))
    fun p => (h.notReady p).trans (law.ready hs p)

end

/-- The hub while RESET is asserted, whatever the levels, the quota mode and the memory. -/
theorem State.StartLaw.of_reset {t : State} (hreset : t.pins.reset = .low) (mode : QuotaMode)
    (htable : t.table = TableController.reset mode) (hchan : t.chan = ChannelController.reset) (hengine : t.engine = Engine.reset)
    (hscrub : t.scrub = ScrubUnit.reset) (hlinks : t.links = Vector.replicate 4 Link.empty) : t.StartLaw := by
  have hstarting : t.starting := .inl hreset
  exact {
    clear := fun _ => by rw [hscrub]; rfl
    regions := fun _ i => by rw [State.region, htable]; exact look_replicate _ _
    granules := fun _ => by rw [htable]; rfl
    sessions := fun _ q => by rw [State.session, htable]; exact look_replicate _ _
    quotas := fun _ q => by rw [State.quota, htable]; exact look_replicate _ _
    pointer := fun _ => by rw [htable]; rfl
    notices := fun _ n hn => by rw [htable] at hn; cases hn
    timers := fun _ => by rw [htable]; rfl
    channels := fun _ c => by rw [State.channel, hchan]; exact look_replicate _ _
    claims := fun _ => by rw [hchan]; exact ⟨rfl, rfl, rfl⟩
    engine := fun _ => hengine
    runs := fun _ => by rw [hscrub]; exact ⟨rfl, rfl⟩
    links := fun _ p => by
      rw [State.link, hlinks, look_replicate]
      exact ⟨rfl, rfl, rfl, rfl, rfl, by rintro _ ⟨⟩⟩
    defined := fun hn => absurd hstarting hn
    ready := fun hn => absurd hstarting hn }

/-- The start-up time goes on, or ends with every byte defined and every link ready, and from then on both stay so. -/
theorem State.StepsTo.startLaw {s t : State} (h : s.StepsTo t) (law : s.StartLaw) : t.StartLaw := by
  cases h with
  | moves h hwaits =>
    by_cases hs : s.starting
    · exact (hwaits law hs).startLaw law hs
    · exact h.startLaw law hs
  | clears n hstartup =>
    exact { law with defined := fun hn => absurd (.inr hstartup) hn }
  | asserts => exact .of_reset rfl _ rfl rfl rfl rfl rfl
  | releases x mode hlow hx =>
    have hs : s.starting := .inl hlow
    exact {
      clear := fun h => by rw [show (x.reset = .low) from h] at hx; cases hx
      regions := fun _ => law.regions hs
      granules := fun _ => law.granules hs
      sessions := fun _ => law.sessions hs
      quotas := fun _ => law.quotas hs
      pointer := fun _ => law.pointer hs
      notices := fun _ => law.notices hs
      timers := fun _ => law.timers hs
      channels := fun _ => law.channels hs
      claims := fun _ => law.claims hs
      engine := fun _ => law.engine hs
      runs := fun _ => law.runs hs
      links := fun _ => law.links hs
      defined := fun hn => absurd (.inr rfl) hn
      ready := fun hn => absurd (.inr rfl) hn }
  | ends hstartup =>
    refine .of_not_starting ?_ ?_ ?_
    · rintro (hlow | hclear)
      · rw [State.mapLinks_pins] at hlow
        exact Bool.false_ne_true ((law.clear hlow).symm.trans hstartup)
      · rw [State.mapLinks_scrub] at hclear
        cases hclear
    · rw [State.mapLinks_mem]; rfl
    · intro p; rw [State.mapLinks_link]

/-- Settles O56, by what a step can be. -/
theorem stepKeepsStartLaw : Obligations.StepKeepsStartLaw := by
  unfold Obligations.StepKeepsStartLaw
  intro s t law hstep
  obtain ⟨rest, h⟩ := step_stepsTo hstep
  exact h.startLaw { law with }

end Sys2Proof.Machine
end

section
/-! PROOF of O58 (channel records and the unit in flight): each claim of the channel controller leaves a record that keeps its laws,
and only the start and the end of a unit move the unit-in-flight field. -/

set_option Elab.async false

namespace Sys2Proof.Machine

/-! ### Records that keep the laws -/

section
variable {x : Channel} {g : Program}

/-- A record in the middle of a run. -/
theorem Channel.Law.of_run (hstate : x.state.hasRun) (hlessee : x.lessee ≠ none) (hprogram : x.program = some g)
    (hranged : g.Ranged) (hcounting : g.Counting x.run) (hsuspension : x.suspension.isSome ↔ x.state = .suspended)
    (hrecorded : x.recorded.isSome → x.run.unitInFlight = true) (hflight : x.run.unitInFlight = true → x.state = .running) :
    x.Law := by
  have hfree : x.state ≠ .free := by rcases hstate with h | h | h <;> simp [h]
  have hleased : x.state ≠ .leased := by rcases hstate with h | h | h <;> simp [h]
  exact {
    lessee := iff_of_false hlessee hfree
    program := iff_of_false (by simp [hprogram]) (by simp [hfree, hleased])
    idle := fun h => (h.elim hfree hleased).elim
    outcome := fun h => absurd h hfree
    suspension := hsuspension
    recorded := hrecorded
    flight := hflight
    ranged := fun h hh => by rw [hprogram] at hh; cases hh; exact hranged
    counting := fun _ h hh => by rw [hprogram] at hh; cases hh; exact hcounting }

/-- A record whose run has not begun or has ended. -/
theorem Channel.Law.of_programmed (hstate : x.state = .programmed) (hlessee : x.lessee ≠ none) (hprogram : x.program = some g)
    (hranged : g.Ranged) (hsuspension : x.suspension = none) (hrecorded : x.recorded = none)
    (hflight : x.run.unitInFlight = false) : x.Law where
  lessee := iff_of_false hlessee (by simp [hstate])
  program := iff_of_false (by simp [hprogram]) (by simp [hstate])
  idle := by simp [hstate]
  outcome := by simp [hstate]
  suspension := by simp [hsuspension, hstate]
  recorded := by simp [hrecorded]
  flight := by simp [hflight]
  ranged := fun h hh => by rw [hprogram] at hh; cases hh; exact hranged
  counting := by simp [hstate, ChannelState.hasRun]

theorem Channel.Law.of_leased (hstate : x.state = .leased) (hlessee : x.lessee ≠ none) (hprogram : x.program = none)
    (hrun : x.run = RunState.clear) (hsuspension : x.suspension = none) (hrecorded : x.recorded = none) : x.Law where
  lessee := iff_of_false hlessee (by simp [hstate])
  program := iff_of_true hprogram (.inr hstate)
  idle := fun _ => hrun
  outcome := by simp [hstate]
  suspension := by simp [hsuspension, hstate]
  recorded := by simp [hrecorded]
  flight := by simp [hrun, RunState.clear]
  ranged := by simp [hprogram]
  counting := by simp [hstate, ChannelState.hasRun]

theorem Channel.empty_law : Channel.empty.Law where
  lessee := by decide
  program := by decide
  idle := fun _ => rfl
  outcome := fun _ => rfl
  suspension := by decide
  recorded := by decide
  flight := by decide
  ranged := by rintro _ ⟨⟩
  counting := by rintro _ _ ⟨⟩

/-! What a record that keeps the laws holds -/

theorem ChannelState.hasRun.ne (h : x.state.hasRun) : x.state ≠ .free ∧ x.state ≠ .leased ∧ x.state ≠ .programmed := by
  rcases h with h | h | h <;> simp [h]

theorem Channel.hasRun_of_takesActivations (h : x.takesActivations = true) : x.state.hasRun := by
  rw [Channel.takesActivations, Bool.or_eq_true, beq_iff_eq, beq_iff_eq] at h
  exact h.imp id .inl

theorem Channel.Law.lessee_ne (law : x.Law) (h : x.state ≠ .free) : x.lessee ≠ none := mt law.lessee.1 h

theorem Channel.Law.program_some (law : x.Law) (hfree : x.state ≠ .free) (hleased : x.state ≠ .leased) :
    ∃ g, x.program = some g ∧ g.Ranged := by
  obtain ⟨g, hg⟩ := Option.ne_none_iff_exists'.1 (mt law.program.1 (by simp [hfree, hleased]))
  exact ⟨g, hg, law.ranged g hg⟩

/-- A run with its program, and what is left of it. -/
theorem Channel.Law.run_some (law : x.Law) (h : x.state.hasRun) :
    ∃ g, x.program = some g ∧ g.Ranged ∧ g.Counting x.run := by
  obtain ⟨hfree, hleased, -⟩ := h.ne
  obtain ⟨g, hg, hranged⟩ := law.program_some hfree hleased
  exact ⟨g, hg, hranged, law.counting h g hg⟩

theorem Channel.Law.not_flight (law : x.Law) (h : x.state ≠ .running) : x.run.unitInFlight = false :=
  Bool.eq_false_iff.2 fun hflight => h (law.flight hflight)

theorem Channel.Law.not_recorded (law : x.Law) (h : x.run.unitInFlight = false) : x.recorded = none := by
  cases hrec : x.recorded with
  | none => rfl
  | some q => exact absurd (h.symm.trans (law.recorded (by simp [hrec]))) Bool.false_ne_true

theorem Program.Counting.of_eq {a b : RunState} (h : g.Counting a) (hr : b.remaining = a.remaining)
    (hb : b.blockRemaining = a.blockRemaining) : g.Counting b := by
  unfold Program.Counting at *
  rw [hr, hb]
  exact h

theorem Program.Ranged.counting_initial (h : g.Ranged) (latch : Bool) : g.Counting (g.initialRun latch) := by
  obtain ⟨hmin, -, hmode⟩ := h
  refine ⟨hmin, le_rfl, ?_⟩
  cases hm : g.mode with
  | block a p b side =>
    rw [hm] at hmode
    simp only [Program.initialRun, Program.blockUnits, hm]
    exact ⟨hmode.1, le_rfl⟩
  | _ => trivial

/-- What PROGRAM reads is within the ranges it checks (R66, R67). -/
theorem modeOf_block {r : List Byte} {a : Activation} {p : Policy} {b : Nat} {side : BlockSide}
    (h : modeOf r = some (.block a p b side)) : 1 ≤ b ∧ b ≤ 256 := by
  unfold modeOf at h
  dsimp only at h
  split at h
  · obtain ⟨x, -, hx⟩ := Option.map_eq_some_iff.1 h
    cases hx
  · split at h
    · obtain ⟨x, -, hx⟩ := Option.map_eq_some_iff.1 h
      cases hx
    · split at h
      · split at h
        · split at h
          · next hb => cases h; exact hb
          · cases h
        · cases h
      · split at h
        · obtain ⟨x, -, hx⟩ := Option.map_eq_some_iff.1 h
          cases hx
        · cases h

theorem programOf_ranged {r : List Byte} (h : programOf r = some g) : g.Ranged := by
  unfold programOf at h
  split at h
  · next mode unit source dest chain hmode _ _ _ _ =>
    split_ifs at h with hcls hrange
    cases h
    refine ⟨hrange.1, hrange.2.1, ?_⟩
    cases mode with
    | block a p b side => exact modeOf_block hmode
    | _ => trivial
  · cases h

/-! ### The claims -/

/-- The record of a channel with no unit in flight, its recorded request left out of account: at the end of a unit it may still be
there, and every claim clears it. -/
structure Channel.Settled (x : Channel) : Prop where
  law : ({ x with recorded := none } : Channel).Law
  flight : x.run.unitInFlight = false

theorem Channel.Law.settled (law : x.Law) (hflight : x.run.unitInFlight = false) : x.Settled :=
  ⟨by rw [← law.not_recorded hflight]; exact law, hflight⟩

theorem Channel.Settled.stopped (h : x.Settled) (hrun : x.state ≠ .free ∧ x.state ≠ .leased) (outcome : LastOutcome) :
    (x.stopped outcome).Law := by
  obtain ⟨g, hg, hranged⟩ := h.law.program_some hrun.1 hrun.2
  exact .of_programmed rfl (h.law.lessee_ne hrun.1) hg hranged rfl rfl h.flight

theorem Channel.Settled.suspend (h : x.Settled) (hrun : x.state.hasRun) (c : Chan) (cause : SuspendCause) :
    (applySuspend c x cause).channel.Law := by
  obtain ⟨g, hg, hranged, hcounting⟩ := h.law.run_some hrun
  exact .of_run (.inr (.inr rfl)) (h.law.lessee_ne hrun.ne.1) hg hranged (hcounting.of_eq rfl rfl)
    (by simp [applySuspend]) (by rintro ⟨⟩) (fun hf => absurd (h.flight.symm.trans hf) Bool.false_ne_true)

theorem Channel.Settled.discard (h : x.Settled) (hstate : x.state ≠ .free) (c : Chan) (cause : DiscardCause) (d : Bool) :
    (applyDiscard c x cause d).channel.Law := .of_leased rfl (h.law.lessee_ne hstate) rfl rfl rfl rfl

/-- Applying a request that applies leaves a record that keeps the laws. -/
theorem Channel.Settled.applyRequest (h : x.Settled) (c : Chan) (d : Bool) {q : Request} (hq : q.appliesTo x = true) :
    (Machine.applyRequest c x d q).channel.Law := by
  cases q with
  | suspend cause =>
    refine h.suspend ?_ c cause
    cases hs : x.state <;> simp [Request.appliesTo, hs] at hq <;> simp [ChannelState.hasRun]
  | abort cause =>
    refine h.stopped ?_ cause.outcome
    cases hs : x.state <;> simp [Request.appliesTo, hs] at hq <;> simp
  | discard cause =>
    refine h.discard (fun hfree => ?_) c cause d
    have hprogram : x.program.isSome = true := hq
    rw [h.law.program.2 (.inl hfree)] at hprogram
    cases hprogram
  | teardown => exact Channel.empty_law

theorem Channel.Law.record (law : x.Law) (hflight : x.run.unitInFlight = true) (q : Request) : (x.record q).Law := by
  have hset : ({ x with recorded := some q } : Channel).Law := { law with recorded := fun _ => hflight }
  unfold Channel.record
  split
  · exact hset
  · split_ifs
    · exact hset
    · exact law

/-- A request at a channel, dropped, recorded or applied. -/
theorem Channel.Law.makeRequest (law : x.Law) (c : Chan) (q : Request) : (Machine.makeRequest c x q).channel.Law := by
  unfold Machine.makeRequest
  split_ifs with hq hflight
  · exact law
  · exact law.record hflight q
  · rw [Bool.not_eq_true] at hflight
    exact (law.settled hflight).applyRequest c false (by simpa using hq)

theorem Channel.Law.effect (law : x.Law) (o : Order) : (o.effect x).channel.Law := by
  unfold Order.effect
  split
  · split_ifs
    · exact law.makeRequest _ _
    · exact law
  · exact law.makeRequest _ _

/-- A record whose latch and overrun flag alone have changed. -/
theorem Channel.Law.relatch (law : x.Law) (h : x.state.hasRun) (latch overrunSeen : Bool) :
    ({ x with run := { x.run with latch, overrunSeen } } : Channel).Law := by
  obtain ⟨g, hg, hranged, hcounting⟩ := law.run_some h
  exact .of_run h (law.lessee_ne h.ne.1) hg hranged (hcounting.of_eq rfl rfl) law.suspension law.recorded law.flight

theorem Channel.Law.activate (law : x.Law) (h : x.state.hasRun) (c : Chan) : (Machine.activate c x).1.channel.Law := by
  unfold Machine.activate
  split_ifs
  · exact law.relatch h true x.run.overrunSeen
  · split
    · exact law.makeRequest _ _
    · exact law.relatch h x.run.latch true

theorem Channel.Law.armed (law : x.Law) (hprogram : x.program = some g) (hstate : x.state = .programmed) : (x.armed g).Law := by
  have hranged := law.ranged g hprogram
  refine .of_run (.inl rfl) (law.lessee_ne (by simp [hstate])) hprogram hranged (hranged.counting_initial _) ?_ ?_ (by rintro ⟨⟩)
  · have hnone := law.suspension
    simp only [hstate, reduceCtorEq, iff_false] at hnone
    simpa [Channel.armed] using hnone
  · intro hrec
    have hnone := law.not_recorded (law.not_flight (by simp [hstate]))
    rw [Channel.armed] at hrec
    dsimp only at hrec
    rw [hnone] at hrec
    cases hrec

theorem Channel.Law.resumed (law : x.Law) (hstate : x.state = .suspended) : x.resumed.Law := by
  have hrun : x.state.hasRun := .inr (.inr hstate)
  obtain ⟨g, hg, hranged, hcounting⟩ := law.run_some hrun
  have hflight := law.not_flight (by simp [hstate])
  refine .of_run (.inl rfl) (law.lessee_ne hrun.ne.1) hg hranged (hcounting.of_eq rfl rfl) (by simp [Channel.resumed]) ?_ ?_
  · intro hrec
    have hrec : x.recorded.isSome = true := hrec
    rw [law.not_recorded hflight] at hrec
    cases hrec
  · exact fun hf => absurd (hflight.symm.trans hf) Bool.false_ne_true

/-- The record of a channel that is granted a unit (R97). -/
theorem Channel.Law.started (law : x.Law) (hprogram : x.program = some g) (h : x.state = .armed ∨ x.state = .running) :
    (x.started g).Law ∧ (x.started g).run.unitInFlight = true := by
  have hrun : x.state.hasRun := h.imp id .inl
  have hcounting := law.counting hrun g hprogram
  have hranged := law.ranged g hprogram
  have hlessee := law.lessee_ne hrun.ne.1
  have hsuspension : x.suspension.isSome ↔ False := by
    rw [law.suspension]
    rcases h with h | h <;> simp [h]
  unfold Channel.started
  split_ifs with harmed
  · exact ⟨.of_run (.inr (.inl rfl)) hlessee hprogram hranged (hcounting.of_eq rfl rfl) (by simpa using hsuspension) (fun _ => rfl)
      (fun _ => rfl), rfl⟩
  · have hrunning : x.state = .running := h.resolve_left harmed
    exact ⟨.of_run hrun hlessee hprogram hranged (hcounting.of_eq rfl rfl) law.suspension (fun _ => rfl) (fun _ => hrunning), rfl⟩

/-! The end of a unit -/

/-- A running record goes on, ARMED or RUNNING, with the run given. -/
theorem Channel.Settled.goesOn (h : x.Settled) (hstate : x.state = .running) (hprogram : x.program = some g)
    {state : ChannelState} (hnext : state = .armed ∨ state = .running) {run : RunState} (hcounting : g.Counting run)
    (hflight : run.unitInFlight = x.run.unitInFlight) : ({ x with state, run } : Channel).Settled := by
  have hidle : run.unitInFlight = false := hflight.trans h.flight
  have hsuspension : x.suspension.isSome = true ↔ x.state = .suspended := h.law.suspension
  refine ⟨.of_run (hnext.imp id .inl) (h.law.lessee_ne (by simp [hstate])) hprogram (h.law.ranged g hprogram) hcounting ?_
    (by rintro ⟨⟩) (fun hf => absurd (hidle.symm.trans hf) Bool.false_ne_true), hidle⟩
  rw [hstate] at hsuspension
  rcases hnext with rfl | rfl <;> simpa using hsuspension

theorem Channel.Settled.rearmed (h : x.Settled) (hstate : x.state = .running) (hprogram : x.program = some g)
    {run : RunState} (hcounting : g.Counting run) (hflight : run.unitInFlight = x.run.unitInFlight) :
    (x.rearmed run).channel.Settled := h.goesOn hstate hprogram (.inl rfl) (hcounting.of_eq rfl rfl) hflight

theorem Channel.Settled.completed (h : x.Settled) (hstate : x.state = .running) (hprogram : x.program = some g) (c : Chan)
    {run : RunState} (hflight : run.unitInFlight = x.run.unitInFlight) : (x.completed c g run).channel.Settled := by
  have hsuspension : x.suspension.isSome = true ↔ x.state = .suspended := h.law.suspension
  rw [hstate] at hsuspension
  exact ⟨.of_programmed rfl (h.law.lessee_ne (by simp [hstate])) hprogram (h.law.ranged g hprogram)
    (by simpa [Channel.completed] using hsuspension) rfl (hflight.trans h.flight), hflight.trans h.flight⟩

/-- R101 to R106 leave a record that keeps the laws, in its run unless the run completed. -/
theorem unitEnd_settled (h : x.Settled) (hstate : x.state = .running) (hprogram : x.program = some g) (c : Chan) :
    (unitEnd c x g).channel.Settled ∧ ((unitEnd c x g).completed = false → 
      ((unitEnd c x g).channel.state = .armed ∨ (unitEnd c x g).channel.state = .running)) := by
  obtain ⟨hlow, hhigh, hmode⟩ := h.law.counting (.inr (.inl hstate)) g hprogram
  obtain ⟨hcount, -, hblock⟩ := h.law.ranged g hprogram
  dsimp only at hlow hhigh hmode
  have again {run : RunState} (hcounting : g.Counting run) (hflight : run.unitInFlight = x.run.unitInFlight) :
      (x.rearmed run).channel.Settled ∧ ((x.rearmed run).completed = false →
        (x.rearmed run).channel.state = .armed ∨ (x.rearmed run).channel.state = .running) :=
    ⟨h.rearmed hstate hprogram hcounting hflight, fun _ => .inl rfl⟩
  have done {run : RunState} (hflight : run.unitInFlight = x.run.unitInFlight) :
      (x.completed c g run).channel.Settled ∧ ((x.completed c g run).completed = false →
        (x.completed c g run).channel.state = .armed ∨ (x.completed c g run).channel.state = .running) :=
    ⟨h.completed hstate hprogram c hflight, by rintro ⟨⟩⟩
  have onward {run : RunState} (hcounting : g.Counting run) (hflight : run.unitInFlight = x.run.unitInFlight) :
      ({ x with run } : Channel).Settled ∧ (false = false → x.state = .armed ∨ x.state = .running) :=
    ⟨h.goesOn hstate hprogram (.inr hstate) hcounting hflight, fun _ => .inr hstate⟩
  unfold unitEnd
  cases hm : g.mode with
  | block a p b side =>
    rw [hm] at hmode hblock
    have counting {run : RunState} (hone : 1 ≤ run.remaining) (hmax : run.remaining ≤ g.count)
        (hleft : 1 ≤ run.blockRemaining ∧ run.blockRemaining ≤ b) : g.Counting run := ⟨hone, hmax, by rw [hm]; exact hleft⟩
    dsimp only at hmode ⊢
    by_cases hmore : 1 < x.run.blockRemaining
    · rw [if_pos hmore]
      refine onward (counting ?_ ?_ ⟨?_, ?_⟩) rfl <;> dsimp only <;> omega
    · rw [if_neg hmore]
      by_cases hlast : x.run.remaining - 1 = 0
      · rw [if_pos hlast]
        exact done rfl
      · rw [if_neg hlast]
        refine again (counting ?_ ?_ ⟨?_, ?_⟩) rfl <;> dsimp only <;> omega
  | single a p =>
    have counting {run : RunState} (hone : 1 ≤ run.remaining) (hmax : run.remaining ≤ g.count) : g.Counting run :=
      ⟨hone, hmax, by rw [hm]; trivial⟩
    dsimp only
    split_ifs with hlast
    · exact done rfl
    · refine again (counting ?_ ?_) rfl <;> dsimp only <;> omega
  | cyclic a p =>
    have counting {run : RunState} (hone : 1 ≤ run.remaining) (hmax : run.remaining ≤ g.count) : g.Counting run :=
      ⟨hone, hmax, by rw [hm]; trivial⟩
    dsimp only
    by_cases hlast : x.run.remaining - 1 = 0
    · rw [if_pos hlast]
      refine again (counting ?_ ?_) rfl <;> dsimp only <;> omega
    · rw [if_neg hlast]
      refine again (counting ?_ ?_) rfl <;> dsimp only <;> omega
  | sweep pacing =>
    have counting {run : RunState} (hone : 1 ≤ run.remaining) (hmax : run.remaining ≤ g.count) : g.Counting run :=
      ⟨hone, hmax, by rw [hm]; trivial⟩
    dsimp only
    split_ifs with hlast
    · exact done rfl
    · refine again (counting ?_ ?_) rfl <;> dsimp only <;> omega
    · refine onward (counting ?_ ?_) rfl <;> dsimp only <;> omega

/-- What is left of a recorded request at the end of a unit applies (R119, R125). -/
theorem Channel.Settled.recordedEnd (h : x.Settled) (hactive : x.state = .armed ∨ x.state = .running) (c : Chan) :
    (Machine.recordedEnd c x).channel.Law := by
  have hrun : x.state.hasRun := hactive.imp id .inl
  have hclear : ({ x with recorded := none } : Channel).Settled := ⟨h.law, h.flight⟩
  unfold Machine.recordedEnd
  split
  · next hrec =>
    have hlaw := h.law
    rw [← hrec] at hlaw
    exact hlaw
  · next q hrec =>
    refine hclear.applyRequest c false ?_
    obtain ⟨g, hg, -⟩ := h.law.run_some hrun
    have hprogram : x.program = some g := hg
    cases q with
    | suspend cause => rcases hactive with hs | hs <;> simp [Request.appliesTo, hs]
    | abort cause => rcases hactive with hs | hs <;> simp [Request.appliesTo, hs]
    | discard cause => simp [Request.appliesTo, hprogram]
    | teardown => simp [Request.appliesTo, hrun.ne.1]

theorem Channel.Settled.completedEnd (h : x.Settled) (hstate : x.state ≠ .free) (c : Chan) :
    (Machine.completedEnd c x).channel.Law := by
  unfold Machine.completedEnd
  split
  · exact h.discard hstate c _ _
  · exact Channel.empty_law
  all_goals exact h.law

theorem Channel.Settled.dataErrorEnd (h : x.Settled) (hrun : x.state.hasRun) (c : Chan) :
    (Machine.dataErrorEnd c x).channel.Law := by
  unfold Machine.dataErrorEnd
  split
  · exact h.discard hrun.ne.1 c _ _
  · exact Channel.empty_law
  all_goals exact h.stopped ⟨hrun.ne.1, hrun.ne.2.1⟩ _

end

/-! ### No claim moves the unit-in-flight field -/

theorem applyRequest_flight {c : Chan} {x : Channel} {d : Bool} {q : Request} (h : x.run.unitInFlight = false) :
    (applyRequest c x d q).channel.run.unitInFlight = false := by
  cases q with
  | suspend cause => exact h
  | abort cause => exact h
  | discard cause => rfl
  | teardown => rfl

theorem Channel.record_flight (x : Channel) (q : Request) : (x.record q).run = x.run := by
  unfold Channel.record; split
  · rfl
  · split_ifs <;> rfl

theorem makeRequest_flight (c : Chan) (x : Channel) (q : Request) :
    (makeRequest c x q).channel.run.unitInFlight = x.run.unitInFlight := by
  unfold makeRequest
  split_ifs with hq hflight
  · rfl
  · exact congrArg RunState.unitInFlight (x.record_flight q)
  · rw [Bool.not_eq_true] at hflight
    exact (applyRequest_flight hflight).trans hflight.symm

theorem Order.effect_flight (o : Order) (x : Channel) : (o.effect x).channel.run.unitInFlight = x.run.unitInFlight := by
  unfold Order.effect
  split
  · split_ifs
    · exact makeRequest_flight _ _ _
    · rfl
  · exact makeRequest_flight _ _ _

theorem activate_flight (c : Chan) (x : Channel) : (activate c x).1.channel.run.unitInFlight = x.run.unitInFlight := by
  unfold activate
  split_ifs
  · rfl
  · split
    · exact makeRequest_flight _ _ _
    · rfl

theorem Channel.Settled.dataErrorEnd_flight {x : Channel} (h : x.Settled) (c : Chan) :
    (Machine.dataErrorEnd c x).channel.run.unitInFlight = false := by
  unfold Machine.dataErrorEnd
  split
  · rfl
  · rfl
  all_goals exact h.flight

theorem Channel.Settled.completedEnd_flight {x : Channel} (h : x.Settled) (c : Chan) :
    (Machine.completedEnd c x).channel.run.unitInFlight = false := by
  unfold Machine.completedEnd
  split
  · rfl
  · rfl
  all_goals exact h.flight

theorem Channel.Settled.recordedEnd_flight {x : Channel} (h : x.Settled) (c : Chan) :
    (Machine.recordedEnd c x).channel.run.unitInFlight = false := by
  unfold Machine.recordedEnd
  split
  · exact h.flight
  · exact applyRequest_flight h.flight

/-! ### The acts -/

section
variable {s t : State}

theorem State.ChannelLaw.of_eq (law : s.ChannelLaw) (hchannels : t.chan.channels = s.chan.channels) (hengine : t.engine = s.engine) :
    t.ChannelLaw where
  channel := fun c => by rw [State.channel, hchannels]; exact law.channel c
  unit := fun c => by rw [State.channel, hchannels, hengine]; exact law.unit c

/-- One record replaced, the unit-in-flight field as it was. -/
theorem State.ChannelLaw.replaced (law : s.ChannelLaw) {c : Chan} {x : Channel} (hx : x.Law)
    (hflight : x.run.unitInFlight = (s.channel c).run.unitInFlight)
    (hchannel : ∀ d, t.channel d = if c = d then x else s.channel d) (hengine : t.engine = s.engine) : t.ChannelLaw where
  channel := fun d => by
    rw [hchannel]
    split_ifs
    · exact hx
    · exact law.channel d
  unit := fun d => by
    rw [hchannel, hengine]
    split_ifs with hd
    · rw [hflight, ← hd]; exact law.unit c
    · exact law.unit d

theorem State.ChannelLaw.setChannel (law : s.ChannelLaw) {c : Chan} {x : Channel} (hx : x.Law)
    (hflight : x.run.unitInFlight = (s.channel c).run.unitInFlight) : (s.setChannel c x).ChannelLaw :=
  law.replaced hx hflight (fun d => s.setChannel_channel c x d) rfl

theorem State.ChannelLaw.commit (law : s.ChannelLaw) {c : Chan} {e : Effect} (he : e.channel.Law)
    (hflight : e.channel.run.unitInFlight = (s.channel c).run.unitInFlight) : (s.commit c e).ChannelLaw :=
  law.replaced he hflight (fun d => s.commit_channel_eq c d e) (s.commit_engine c e)

theorem State.closeSession_channels (s : State) (p : Port) (order : List Slot) :
    (s.closeSession p order).chan.channels = s.chan.channels ∧ (s.closeSession p order).engine = s.engine := by
  have freed (u : State) (is : List Slot) : (is.foldl State.freeRegion u).chan.channels = u.chan.channels ∧
      (is.foldl State.freeRegion u).engine = u.engine := by
    induction is generalizing u with
    | nil => exact ⟨rfl, rfl⟩
    | cons i is ih => rw [List.foldl_cons]; exact ⟨(ih _).1.trans (by simp), (ih _).2.trans (by simp)⟩
  unfold State.closeSession
  dsimp only
  rw [State.settleClosing_chan_channels, State.settleClosing_engine, (freed _ _).1, (freed _ _).2]
  simp

theorem State.install_channel (s : State) (c : Chan) (g : Program) (i j : Slot) (d : Chan) :
    (s.install c g i j).channel d =
      if c = d then { s.channel c with state := .programmed, program := some g, run := g.initialRun false } else s.channel d := by
  have dropped (u : State) (x : Option Program) : (u.dropProgram x).channel d = u.channel d := by
    cases x with
    | none => rfl
    | some old =>
      rw [State.dropProgram, State.dropReference, State.dropReference]
      cases old.source.handle.slot? <;> cases old.dest.handle.slot? <;> rfl
  unfold State.install
  dsimp only
  rw [State.setChannel_channel, dropped]
  rfl

theorem State.install_engine (s : State) (c : Chan) (g : Program) (i j : Slot) : (s.install c g i j).engine = s.engine := by
  cases hx : (s.channel c).program with
  | none => simp only [State.install, hx]; rfl
  | some old =>
    simp only [State.install, hx, State.dropProgram, State.dropReference]
    cases old.source.handle.slot? <;> cases old.dest.handle.slot? <;> rfl

theorem State.releaseReference_chan (s : State) (i : Slot) :
    (s.releaseReference i).chan.channels = s.chan.channels ∧ (s.releaseReference i).engine = s.engine := by
  unfold State.releaseReference
  dsimp only
  split_ifs <;> simp

/-- The chain of a completed channel arms its target, or tells its lessee why not. -/
theorem State.ChannelLaw.followChain (law : s.ChannelLaw) (c : Chan) (lessee : Option Port) (chain : Option Chan) :
    (s.followChain c lessee chain).ChannelLaw := by
  cases chain with
  | none => exact law
  | some target =>
    unfold State.followChain
    dsimp only
    split
    · split
      · exact law
      · exact law.of_eq (by simp) (by simp)
    · next hfails =>
      split
      · exact law
      · next g hg =>
        have hstate : (s.channel target).state = .programmed := by
          unfold State.chainFailure at hfails
          dsimp only at hfails
          split_ifs at hfails with h1 h2 h3
          exact not_not.1 h2
        refine law.setChannel ((law.channel target).armed hg hstate) ?_
        exact ((law.channel target).not_flight (by simp [hstate])).symm

/-- The end report of the unit in flight (R100): its channel's record, settled. -/
theorem State.ChannelLaw.takeEndReport (law : s.ChannelLaw) {u : UnitInFlight} (hu : s.engine.unit = some u) :
    (s.takeEndReport u).ChannelLaw := by
  have hflight : (s.channel u.channel).run.unitInFlight = true := (law.unit u.channel).2 (by rw [hu]; rfl)
  have hstate := (law.channel u.channel).flight hflight
  obtain ⟨g, hprogram, -⟩ := (law.channel u.channel).run_some (.inr (.inl hstate))
  have others {d : Chan} (hd : u.channel ≠ d) : (s.channel d).run.unitInFlight = false := by
    rw [← Bool.not_eq_true, law.unit, hu]
    exact fun h => hd (Option.some.inj h)
  have landed {x : Channel} (hx : x.Law) (hidle : x.run.unitInFlight = false) {t : State}
      (hchannel : ∀ d, t.channel d = if u.channel = d then x else s.channel d) (hengine : t.engine.unit = none) : t.ChannelLaw := {
    channel := fun d => by
      rw [hchannel]
      split_ifs
      · exact hx
      · exact law.channel d
    unit := fun d => by
      rw [hchannel, hengine]
      split_ifs with hd
      · simp [hidle]
      · simp [others hd] }
  have settled : ({ s.channel u.channel with run := { (s.channel u.channel).run with unitInFlight := false } } : Channel).Settled := by
    have hlaw := law.channel u.channel
    refine ⟨.of_run (.inr (.inl hstate)) (hlaw.lessee_ne (by simp [hstate])) hprogram (hlaw.ranged g hprogram)
      ((hlaw.counting (.inr (.inl hstate)) g hprogram).of_eq rfl rfl) hlaw.suspension (by rintro ⟨⟩) (by rintro ⟨⟩), rfl⟩
  have committed {e : Effect} (he : e.channel.Law) (hidle : e.channel.run.unitInFlight = false) :
      ((s.setEngine { s.engine with unit := none }).commit u.channel e).ChannelLaw :=
    landed he hidle (fun d => State.commit_channel_eq _ u.channel d e) (by rw [State.commit_engine]; rfl)
  unfold State.takeEndReport
  dsimp only
  rw [State.setEngine_channel]
  generalize hy : ({ s.channel u.channel with run := { (s.channel u.channel).run with unitInFlight := false } } : Channel) = y
    at settled
  have hystate : y.state = .running := by rw [← hy]; exact hstate
  have hyprogram : y.program = some g := by rw [← hy]; exact hprogram
  have hyrun : y.state.hasRun := .inr (.inl hystate)
  obtain ⟨hend, hactive⟩ := unitEnd_settled settled hystate hyprogram u.channel
  rw [hprogram]
  dsimp only
  by_cases herror : u.dataError = true
  · rw [if_pos herror]
    exact committed (settled.dataErrorEnd hyrun u.channel) (settled.dataErrorEnd_flight u.channel)
  · rw [if_neg herror]
    by_cases hdone : (unitEnd u.channel y g).completed = true
    · rw [if_pos hdone]
      have hfree : (unitEnd u.channel y g).channel.state ≠ .free := by rw [unitEnd_completed _ _ _ hdone]; decide
      have hcommitted := committed (e := (completedEnd u.channel (unitEnd u.channel y g).channel).after (unitEnd u.channel y g).events)
        (hend.completedEnd hfree u.channel) (hend.completedEnd_flight u.channel)
      split_ifs
      · exact hcommitted.followChain _ _ _
      · exact hcommitted
    · rw [if_neg hdone]
      exact committed (e := (recordedEnd u.channel (unitEnd u.channel y g).channel).after (unitEnd u.channel y g).events)
        (hend.recordedEnd (hactive (by simpa using hdone)) u.channel) (hend.recordedEnd_flight u.channel)

/-- Every act keeps the laws of the channels. -/
theorem State.Act.channelLaw (h : s.Act t) (law : s.ChannelLaw) : t.ChannelLaw := by
  cases h with
  | close p order => exact law.of_eq (s.closeSession_channels p order).1 (s.closeSession_channels p order).2
  | lease p c hopen hfree hquota =>
    refine (law.setChannel (c := c) (x := Channel.leasedTo p) ?_ ?_).of_eq rfl rfl
    · exact .of_leased rfl (Option.some_ne_none p) rfl rfl rfl rfl
    · exact ((law.channel c).not_flight (by simp [hfree])).symm
  | release p c hlessee hrec hstate =>
    refine (law.setChannel (c := c) (x := Channel.empty) Channel.empty_law ?_).of_eq rfl rfl
    exact ((law.channel c).not_flight (by rcases hstate with h | h <;> simp [h])).symm
  | install p c g i j r hlessee hrec hstate horders hprog hcheck =>
    have hflight := (law.channel c).not_flight (by rcases hstate with h | h <;> simp [h])
    have hsuspension := (law.channel c).suspension
    refine law.replaced (c := c)
      (x := { s.channel c with state := .programmed, program := some g, run := g.initialRun false })
      (.of_programmed rfl (by simp [hlessee]) rfl (programOf_ranged hprog) ?_ hrec rfl) hflight.symm
      (fun d => s.install_channel c g i j d) (s.install_engine c g i j)
    rcases hstate with h | h <;> simpa [h] using hsuspension
  | arm c g hprog hstate =>
    exact law.setChannel ((law.channel c).armed hprog hstate) ((law.channel c).not_flight (by simp [hstate])).symm
  | resume c hstate => exact law.setChannel ((law.channel c).resumed hstate) rfl
  | suspend c cause => exact law.commit ((law.channel c).makeRequest _ _) (makeRequest_flight _ _ _)
  | abort c cause => exact law.commit ((law.channel c).makeRequest _ _) (makeRequest_flight _ _ _)
  | activate c h =>
    exact law.commit ((law.channel c).activate (Channel.hasRun_of_takesActivations h) c) (activate_flight _ _)
  | order o left h =>
    exact State.ChannelLaw.commit (s := s.setOrders left) (law.of_eq rfl rfl) ((law.channel o.channel).effect o) (o.effect_flight _)
  | startUnit c g bases hidle hreq hcheck hprog =>
    obtain ⟨hrec, h, hh, hstate⟩ := (s.requests_iff c).1 hreq
    have hactive : (s.channel c).state = .armed ∨ (s.channel c).state = .running := hstate.imp And.left And.left
    obtain ⟨hlaw, hflight⟩ := (law.channel c).started hprog hactive
    have others (d : Chan) : (s.channel d).run.unitInFlight = false := by
      rw [← Bool.not_eq_true, law.unit, hidle]
      rintro ⟨⟩
    have hchannel (d : Chan) : (s.startUnit c g bases.1 bases.2).channel d =
        if c = d then (s.channel c).started g else s.channel d := s.setChannel_channel c _ d
    exact {
      channel := fun d => by
        rw [hchannel]
        split_ifs
        · exact hlaw
        · exact law.channel d
      unit := fun d => by
        rw [hchannel]
        split_ifs with hd
        · exact iff_of_true hflight (congrArg some hd)
        · exact iff_of_false (by simp [others]) fun h => hd (Option.some.inj h) }
  | unit u v hu hsame =>
    exact {
      channel := law.channel
      unit := fun d => by
        have hunit := law.unit d
        rw [hu] at hunit
        rw [State.setUnit, State.setEngine_engine, Option.map_some, hsame.1]
        exact hunit }
  | endReport u hu => exact law.takeEndReport hu
  | tick => exact law.of_eq (by simp) (by simp)
  | free i => exact law.of_eq (by simp) (by simp)
  | grant i p new => exact law.of_eq (by simp [State.setGrant]) (by simp [State.setGrant])
  | accept p i o e => exact law.of_eq (by simp [State.moveQuota]) (by simp [State.moveQuota])
  | referenceRelease h i rest =>
    exact law.of_eq ((s.setNotices rest).releaseReference_chan i).1 ((s.setNotices rest).releaseReference_chan i).2
  | leaseEnd c p rest => exact law.of_eq (by simp) (by simp)
  | _ => exact law.of_eq rfl rfl

theorem State.Acts.channelLaw (h : s.Acts t) (law : s.ChannelLaw) : t.ChannelLaw :=
  h.keeps (P := State.ChannelLaw) State.Act.channelLaw law

theorem State.Moves.channelLaw (h : s.Moves t) (law : s.ChannelLaw) : t.ChannelLaw := by
  cases h with
  | acts h => exact h.channelLaw law
  | taken p r hserves h => exact h.channelLaw (law.of_eq rfl rfl)
  | answered p r y hserves h => exact (h.channelLaw (law.of_eq rfl rfl)).of_eq rfl rfl

end

/-- Every channel FREE and no unit in flight (R60, R92). -/
theorem State.ChannelLaw.of_reset {t : State} (hchannels : ∀ c, t.channel c = Channel.empty) (hunit : t.engine.unit = none) :
    t.ChannelLaw where
  channel := fun c => by rw [hchannels]; exact Channel.empty_law
  unit := fun c => by rw [hchannels, hunit]; simp [Channel.empty, RunState.clear]

theorem State.StepsTo.channelLaw {s t : State} (h : s.StepsTo t) (law : s.ChannelLaw) : t.ChannelLaw := by
  cases h with
  | moves h => exact h.channelLaw law
  | clears n => exact law.of_eq rfl rfl
  | asserts => exact .of_reset (fun c => look_replicate _ _) rfl
  | releases x mode => exact law.of_eq rfl rfl
  | ends hstartup => exact law.of_eq (by simp) (by simp)

/-- Settles O58, by what a step can be. -/
theorem stepKeepsChannelLaw : Obligations.StepKeepsChannelLaw := by
  unfold Obligations.StepKeepsChannelLaw
  intro s t law hstep
  obtain ⟨rest, h⟩ := step_stepsTo hstep
  exact h.channelLaw (law.of_eq rfl rfl)

end Sys2Proof.Machine
end

section
/-! SUPPORT: what freeing a region, releasing a reference, closing a session and the claims of the channel controller make of the
tables, piece by piece. -/

set_option Elab.async false

namespace Sys2Proof.Machine

/-! ### Freeing a region (R14, R15) -/

/-- The record of a region that is freed. -/
def Region.freed (r : Region) : Region :=
  { r with state := if r.refs = 0 then .scrubbing else .retiring, grants := noGrants }

section
variable (s : State) (i : Slot)

theorem State.enterScrubbing_region (j : Slot) : (s.enterScrubbing i).region j =
    if i = j then { s.region i with state := .scrubbing, refs := 0 } else s.region j := by
  unfold State.enterScrubbing
  simp

theorem State.enterScrubbing_quota (q : Port) : (s.enterScrubbing i).quota q =
    if (s.region i).owner = q then
      { s.quota q with
        granules := (s.quota q).granules - (s.region i).length, regions := (s.quota q).regions - 1 }
    else s.quota q := by
  unfold State.enterScrubbing
  simp only [State.setScrub_quota, State.setQuota_quota]
  split_ifs with h
  · rw [h]
  · rfl

theorem State.enterScrubbing_queue : (s.enterScrubbing i).scrub.queue =
    s.scrub.queue ++ [{ slot := i, base := (s.region i).base, length := (s.region i).length }] := rfl

theorem State.freeRegion_region (j : Slot) : (s.freeRegion i).region j = if i = j then (s.region i).freed else s.region j := by
  unfold State.freeRegion Region.freed
  dsimp only
  split_ifs with hrefs hj
  · simp [State.enterScrubbing_region, hj, hj ▸ hrefs]
  · simp [State.enterScrubbing_region, hj]
  · simp [‹i = j›]
  · simp [‹¬ i = j›]

theorem State.freeRegion_quota (q : Port) : (s.freeRegion i).quota q =
    if (s.region i).refs = 0 ∧ (s.region i).owner = q then
      { s.quota q with
        granules := (s.quota q).granules - (s.region i).length, regions := (s.quota q).regions - 1 }
    else s.quota q := by
  unfold State.freeRegion
  dsimp only
  by_cases hrefs : (s.region i).refs = 0
  · simp [hrefs, State.enterScrubbing_quota]
  · simp [hrefs]

theorem State.freeRegion_queue : (s.freeRegion i).scrub.queue =
    s.scrub.queue ++
      if (s.region i).refs = 0 then [{ slot := i, base := (s.region i).base, length := (s.region i).length }] else [] := by
  unfold State.freeRegion
  dsimp only
  split_ifs with hrefs
  · simp [State.enterScrubbing_queue]
  · simp

theorem State.freeRegion_orders : (s.freeRegion i).chan.orders =
    if (s.region i).refs = 0 then s.chan.orders
    else (s.sendDiscards .retired (s.handle i) fun x => (x.program.map fun g => g.names (s.handle i)).getD false).chan.orders := by
  unfold State.freeRegion State.sendDiscards State.sendOrders State.channelsWhere
  dsimp only
  split_ifs with hrefs <;> simp_all

end

/-! ### A reference released (R12) -/

/-- The record of a region that one reference fewer is on. -/
def Region.released (r : Region) : Region :=
  { r with refs := r.refs - 1, state := if r.state = .retiring ∧ r.refs - 1 = 0 then .scrubbing else r.state }

section
variable (s : State) (i : Slot)

theorem State.releaseReference_region (j : Slot) :
    (s.releaseReference i).region j = if i = j then (s.region i).released else s.region j := by
  unfold State.releaseReference Region.released
  dsimp only
  rw [State.settleClosing_region]
  by_cases hlast : (s.region i).state = .retiring ∧ (s.region i).refs - 1 = 0
  · rw [if_pos hlast, if_pos hlast]
    by_cases hj : i = j
    · simp [State.enterScrubbing_region, hj, hj ▸ hlast.2]
    · simp [State.enterScrubbing_region, hj]
  · rw [if_neg hlast, if_neg hlast]
    simp

theorem State.releaseReference_quota (q : Port) : (s.releaseReference i).quota q =
    if ((s.region i).state = .retiring ∧ (s.region i).refs - 1 = 0) ∧ (s.region i).owner = q then
      { s.quota q with
        granules := (s.quota q).granules - (s.region i).length, regions := (s.quota q).regions - 1 }
    else s.quota q := by
  unfold State.releaseReference
  dsimp only
  rw [State.settleClosing_quota]
  by_cases hlast : (s.region i).state = .retiring ∧ (s.region i).refs - 1 = 0
  · simp [hlast, State.enterScrubbing_quota]
  · rw [if_neg hlast, if_neg (fun h => hlast h.1)]
    simp

theorem State.releaseReference_queue : (s.releaseReference i).scrub.queue =
    s.scrub.queue ++
      if (s.region i).state = .retiring ∧ (s.region i).refs - 1 = 0 then
        [{ slot := i, base := (s.region i).base, length := (s.region i).length }] else [] := by
  unfold State.releaseReference
  dsimp only
  rw [State.settleClosing_scrub]
  split_ifs with hlast
  · simp [State.enterScrubbing_queue]
  · simp

theorem State.releaseReference_granules : (s.releaseReference i).table.granules = s.table.granules := by
  unfold State.releaseReference; dsimp only; split_ifs <;> simp

theorem State.releaseReference_notices : (s.releaseReference i).table.notices = s.table.notices := by
  unfold State.releaseReference; dsimp only; split_ifs <;> simp

theorem State.releaseReference_quotaMode : (s.releaseReference i).table.quotaMode = s.table.quotaMode := by
  unfold State.releaseReference; dsimp only; split_ifs <;> simp

theorem State.releaseReference_orders : (s.releaseReference i).chan.orders = s.chan.orders := by
  unfold State.releaseReference; dsimp only; split_ifs <;> simp

theorem State.releaseReference_channel (c : Chan) : (s.releaseReference i).channel c = s.channel c :=
  congrArg (look · c) (s.releaseReference_chan i).1

end

/-! ### The end of CLOSING (R145) -/

/-- Only a CLOSING port is closed, and only when it has no lease and no RETIRING region left. -/
theorem State.settleClosing_session (s : State) (p q : Port) : (s.settleClosing p).session q = s.session q ∨
    (s.settleClosing p).session q = .closed ∧ q = p ∧ s.session p = .closing ∧ (s.quota p).channels = 0 ∧
      ∀ i, (s.region i).state = .retiring → (s.region i).owner ≠ p := by
  unfold State.settleClosing
  split_ifs with h
  · rw [State.setSession_session]
    by_cases hq : p = q
    · obtain ⟨hclosing, hleases, hretiring⟩ := h
      refine .inr ⟨if_pos hq, hq.symm, hclosing, hleases, fun i hi ho => ?_⟩
      have := List.all_eq_true.1 hretiring i (List.mem_finRange i)
      simp [hi, ho] at this
    · exact .inl (if_neg hq)
  · exact .inl rfl

theorem State.releaseReference_session (s : State) (i : Slot) (q : Port) :
    (s.releaseReference i).session q = s.session q ∨
      (s.releaseReference i).session q = .closed ∧ q = (s.region i).owner ∧ s.session q = .closing ∧
        (s.quota q).channels = 0 ∧ ∀ j, ((s.releaseReference i).region j).state = .retiring → ((s.releaseReference i).region j).owner ≠ q := by
  have hregion := s.releaseReference_region i
  unfold State.releaseReference at hregion ⊢
  dsimp only at hregion ⊢
  rcases State.settleClosing_session _ (s.region i).owner q with h | ⟨hclosed, hq, hclosing, hleases, hretiring⟩
  · left
    rw [h]
    split_ifs <;> simp
  · refine .inr ⟨hclosed, hq, ?_, ?_, fun j hj => ?_⟩
    · rw [hq, ← hclosing]
      split_ifs <;> simp
    · rw [hq, ← hleases]
      split_ifs
      · simp only [State.offerEvent_quota, State.enterScrubbing_quota]
        split_ifs <;> simp
      · simp
    · rw [State.settleClosing_region] at hj ⊢
      rw [hq]
      exact hretiring j hj

/-! ### A session close (R139 to R142) -/

/-- The first steps of a close: the port is CLOSING, its queues are empty, its offers and grants are gone, and a TEARDOWN order is
on its way to each channel it leases. -/
def State.closeBegun (s : State) (p : Port) (order : List Slot) : State :=
  let t := (s.setSession p .closing).setLink p (s.link p).emptied
  let t := (t.offerEvents (t.closeOfferEvents p order)).mapRegions (closedRegion p)
  t.sendOrders ((t.channelsWhere fun x => x.lessee == some p).map fun c => { channel := c, kind := .teardown })

theorem State.closeSession_eq (s : State) (p : Port) (order : List Slot) : s.closeSession p order =
    (((s.closeBegun p order).closeFrees p).foldl State.freeRegion (s.closeBegun p order)).settleClosing p := rfl

section
variable (s : State) (p : Port) (order : List Slot)

theorem State.closeBegun_region (i : Slot) : (s.closeBegun p order).region i = closedRegion p (s.region i) := by
  simp [State.closeBegun]

theorem State.closeBegun_session (q : Port) : (s.closeBegun p order).session q = if p = q then .closing else s.session q := by
  simp [State.closeBegun]

theorem State.closeBegun_quota (q : Port) : (s.closeBegun p order).quota q = s.quota q := by simp [State.closeBegun]

theorem State.closeBegun_quotaMode : (s.closeBegun p order).table.quotaMode = s.table.quotaMode := by simp [State.closeBegun]

theorem State.closeBegun_notices : (s.closeBegun p order).table.notices = s.table.notices := by simp [State.closeBegun]

theorem State.closeBegun_granules : (s.closeBegun p order).table.granules = s.table.granules := by simp [State.closeBegun]

theorem State.closeBegun_scrub : (s.closeBegun p order).scrub = s.scrub := by simp [State.closeBegun]

theorem State.closeBegun_pins : (s.closeBegun p order).pins = s.pins := by simp [State.closeBegun]

theorem State.closeBegun_engine : (s.closeBegun p order).engine = s.engine := by simp [State.closeBegun]

theorem State.closeBegun_channel (c : Chan) : (s.closeBegun p order).channel c = s.channel c := by simp [State.closeBegun]

theorem State.sendOrders_orders (t : State) (batch : List Order) : t.chan.orders ⊆ (t.sendOrders batch).chan.orders := by
  unfold State.sendOrders
  split_ifs
  · exact fun _ h => h
  · exact fun _ h => List.mem_append_left _ h

theorem State.closeBegun_orders : s.chan.orders ⊆ (s.closeBegun p order).chan.orders := by
  refine fun b hb => State.sendOrders_orders _ _ ?_
  simpa using hb

theorem State.mem_closeFrees (i : Slot) : i ∈ s.closeFrees p ↔
    (s.region i).state = .live ∧ (s.region i).owner = p ∧ (s.region i).pinned = false := by
  simp [State.closeFrees, indices, and_assoc]

theorem State.closeFrees_nodup : (s.closeFrees p).Nodup := (List.nodup_finRange 64).filter _

end

end Sys2Proof.Machine
end

section
/-! SUPPORT: what a claim of the channel controller can do to a channel's program and lease. -/

set_option Elab.async false

namespace Sys2Proof.Machine

/-- The lease-end notice of a channel that is torn down (R124). -/
def Channel.leaseEnds (c : Chan) (x : Channel) : List Notice :=
  match x.lessee with
  | none => []
  | some p => [.leaseEnd c p]

/-- What a claim leaves of a program and a lease, and the notices it raises: both stand; the program goes with one release notice
for each side (R123); the lease goes with it (R124). -/
inductive Effect.Shape (c : Chan) (x : Channel) (e : Effect) : Prop
  | keeps (hprogram : e.channel.program = x.program) (hlessee : e.channel.lessee = x.lessee) (hnotices : e.notices = [])
  | discards (hprogram : e.channel.program = none) (hlessee : e.channel.lessee = x.lessee) (hnotices : e.notices = x.releases)
  | tears (hprogram : e.channel.program = none) (hlessee : e.channel.lessee = none)
      (hnotices : e.notices = x.releases ++ x.leaseEnds c)

/-- Only the program, the lessee of a record and the notices count. -/
theorem Effect.Shape.of_eq {c : Chan} {x y : Channel} {e : Effect} (h : e.Shape c x) (hprogram : y.program = x.program)
    (hlessee : y.lessee = x.lessee) : e.Shape c y := by
  have hreleases : y.releases = x.releases := by unfold Channel.releases; rw [hprogram]
  have hends : y.leaseEnds c = x.leaseEnds c := by unfold Channel.leaseEnds; rw [hlessee]
  cases h with
  | keeps h1 h2 h3 => exact .keeps (h1.trans hprogram.symm) (h2.trans hlessee.symm) h3
  | discards h1 h2 h3 => exact .discards h1 (h2.trans hlessee.symm) (h3.trans hreleases.symm)
  | tears h1 h2 h3 => exact .tears h1 h2 (by rw [h3, hreleases, hends])

theorem Effect.Shape.after {c : Chan} {x : Channel} {e : Effect} (h : e.Shape c x) (es : List Event) : (e.after es).Shape c x := by
  cases h with
  | keeps h1 h2 h3 => exact .keeps h1 h2 h3
  | discards h1 h2 h3 => exact .discards h1 h2 h3
  | tears h1 h2 h3 => exact .tears h1 h2 h3

section
variable (c : Chan) (x : Channel)

theorem applyRequest_shape (d : Bool) (q : Request) : (applyRequest c x d q).Shape c x := by
  cases q with
  | suspend cause => exact .keeps rfl rfl rfl
  | abort cause => exact .keeps rfl rfl rfl
  | discard cause => exact .discards rfl rfl rfl
  | teardown => exact .tears rfl rfl rfl

theorem makeRequest_shape (q : Request) : (makeRequest c x q).Shape c x := by
  have hrecord : (x.record q).program = x.program ∧ (x.record q).lessee = x.lessee := by
    unfold Channel.record
    split
    · exact ⟨rfl, rfl⟩
    · split_ifs <;> exact ⟨rfl, rfl⟩
  unfold makeRequest
  split_ifs
  · exact .keeps rfl rfl rfl
  · exact .keeps hrecord.1 hrecord.2 rfl
  · exact applyRequest_shape c x false q

theorem activate_shape : (activate c x).1.Shape c x := by
  unfold activate
  split_ifs
  · exact .keeps rfl rfl rfl
  · split
    · exact makeRequest_shape c x _
    · exact .keeps rfl rfl rfl

theorem Order.effect_shape (o : Order) : (o.effect x).Shape o.channel x := by
  unfold Order.effect
  split
  · split_ifs
    · exact makeRequest_shape _ x _
    · exact .keeps rfl rfl rfl
  · exact makeRequest_shape _ x _

theorem dataErrorEnd_shape : (dataErrorEnd c x).Shape c x := by
  unfold dataErrorEnd
  split
  · exact .discards rfl rfl rfl
  · exact .tears rfl rfl rfl
  all_goals exact .keeps rfl rfl rfl

theorem completedEnd_shape : (completedEnd c x).Shape c x := by
  unfold completedEnd
  split
  · exact .discards rfl rfl rfl
  · exact .tears rfl rfl rfl
  all_goals exact .keeps rfl rfl rfl

theorem recordedEnd_shape : (recordedEnd c x).Shape c x := by
  unfold recordedEnd
  split
  · exact .keeps rfl rfl rfl
  · exact (applyRequest_shape c { x with recorded := none } false _).of_eq rfl rfl

end

/-! ### The notices a claim raises -/

theorem Channel.mem_releases {x : Channel} {n : Notice} (h : n ∈ x.releases) :
    ∃ g, x.program = some g ∧ (n = .referenceRelease g.source.handle ∨ n = .referenceRelease g.dest.handle) := by
  unfold Channel.releases at h
  split at h
  · cases h
  · next g hg => exact ⟨g, hg, by simpa using h⟩

theorem Channel.mem_leaseEnds {c : Chan} {x : Channel} {n : Notice} (h : n ∈ x.leaseEnds c) : ∃ p, n = .leaseEnd c p := by
  unfold Channel.leaseEnds at h
  split at h
  · cases h
  · next p hp => exact ⟨p, List.mem_singleton.1 h⟩

/-- A claim raises release and lease-end notices only. -/
theorem Effect.Shape.notice {c : Chan} {x : Channel} {e : Effect} (h : e.Shape c x) {n : Notice} (hn : n ∈ e.notices) :
    (∃ k, n = .referenceRelease k) ∨ ∃ p, n = .leaseEnd c p := by
  have released (hrel : n ∈ x.releases) : ∃ k, n = .referenceRelease k := by
    obtain ⟨g, -, h | h⟩ := Channel.mem_releases hrel
    · exact ⟨_, h⟩
    · exact ⟨_, h⟩
  cases h with
  | keeps h1 h2 h3 => rw [h3] at hn; cases hn
  | discards h1 h2 h3 => rw [h3] at hn; exact .inl (released hn)
  | tears h1 h2 h3 =>
    rw [h3] at hn
    rcases List.mem_append.1 hn with hrel | hend
    · exact .inl (released hrel)
    · exact .inr (Channel.mem_leaseEnds hend)

theorem Effect.Shape.no_scrubDone {c : Chan} {x : Channel} {e : Effect} (h : e.Shape c x) (i : Slot) :
    (e.notices.filter fun n => n == .scrubDone i) = [] := by
  refine List.filter_eq_nil_iff.2 fun n hn => ?_
  rcases h.notice hn with ⟨k, rfl⟩ | ⟨p, rfl⟩ <;> simp

/-! ### The end of a unit as two claims

The end report is one claim at the channel whose unit it is, and behind a completion that claim may be followed by the arming of
another channel. -/

/-- What the taking of an end report makes of the hub: the unit is gone, a claim is carried out at its channel, and the chain is
followed or not. -/
inductive State.EndTaken (s : State) (u : UnitInFlight) : State → Prop
  | noProgram (h : (s.channel u.channel).program = none) :
      State.EndTaken s u ((s.setEngine { s.engine with unit := none }).setChannel u.channel
        { s.channel u.channel with run := { (s.channel u.channel).run with unitInFlight := false } })
  | claim (e : Effect) (h : e.Shape u.channel (s.channel u.channel)) :
      State.EndTaken s u ((s.setEngine { s.engine with unit := none }).commit u.channel e)
  | chained (e : Effect) (lessee : Option Port) (chain : Option Chan) (h : e.Shape u.channel (s.channel u.channel)) :
      State.EndTaken s u (((s.setEngine { s.engine with unit := none }).commit u.channel e).followChain u.channel lessee chain)

theorem State.takeEndReport_taken (s : State) (u : UnitInFlight) : s.EndTaken u (s.takeEndReport u) := by
  unfold State.takeEndReport
  dsimp only
  split
  · next h => exact .noProgram h
  · next g hg =>
    have ended : (unitEnd u.channel
        { s.channel u.channel with run := { (s.channel u.channel).run with unitInFlight := false } } g).channel.program =
          (s.channel u.channel).program ∧ (unitEnd u.channel
        { s.channel u.channel with run := { (s.channel u.channel).run with unitInFlight := false } } g).channel.lessee =
          (s.channel u.channel).lessee := by
      obtain ⟨-, hlessee, hprogram, -, -⟩ := unitEnd_keeps u.channel
        { s.channel u.channel with run := { (s.channel u.channel).run with unitInFlight := false } } g
      exact ⟨hprogram, hlessee⟩
    split_ifs
    · exact .claim _ ((dataErrorEnd_shape u.channel _).of_eq rfl rfl)
    · exact .chained _ _ _ (((completedEnd_shape u.channel _).after _).of_eq ended.1.symm ended.2.symm)
    · exact .claim _ (((completedEnd_shape u.channel _).after _).of_eq ended.1.symm ended.2.symm)
    · exact .claim _ (((recordedEnd_shape u.channel _).after _).of_eq ended.1.symm ended.2.symm)

/-- A followed chain changes no program and no lessee, and raises no notice. -/
theorem State.followChain_channel (s : State) (c : Chan) (lessee : Option Port) (chain : Option Chan) (d : Chan) :
    ((s.followChain c lessee chain).channel d).program = (s.channel d).program ∧
      ((s.followChain c lessee chain).channel d).lessee = (s.channel d).lessee := by
  cases chain with
  | none => exact ⟨rfl, rfl⟩
  | some target =>
    unfold State.followChain
    dsimp only
    split
    · split
      · exact ⟨rfl, rfl⟩
      · simp
    · split
      · exact ⟨rfl, rfl⟩
      · rw [State.setChannel_channel]
        split_ifs with hd
        · rw [hd]; exact ⟨rfl, rfl⟩
        · exact ⟨rfl, rfl⟩

end Sys2Proof.Machine
end

section
/-! PROOF of O59 (offers, the granule map and scrubbing). -/

set_option Elab.async false

namespace Sys2Proof.Machine

/-! ### The acts that leave every region where it is -/

/-- A region record that has kept its generation, its place in the memory and its use. -/
structure Region.SameRun (a b : Region) : Prop where
  unused : b.state = .unused ↔ a.state = .unused
  gen : b.gen = a.gen
  base : b.base = a.base
  length : b.length = a.length

theorem Region.SameRun.refl (r : Region) : r.SameRun r := ⟨Iff.rfl, rfl, rfl, rfl⟩

theorem Region.SameRun.trans {a b c : Region} (h : a.SameRun b) (h' : b.SameRun c) : a.SameRun c :=
  ⟨h'.unused.trans h.unused, h'.gen.trans h.gen, h'.base.trans h.base, h'.length.trans h.length⟩

theorem Region.freed_sameRun {r : Region} (h : r.state ≠ .unused) : r.SameRun r.freed :=
  ⟨iff_of_false (by unfold Region.freed; dsimp only; split_ifs <;> simp) h, rfl, rfl, rfl⟩

theorem Region.released_sameRun (r : Region) : r.SameRun r.released := by
  refine ⟨?_, rfl, rfl, rfl⟩
  unfold Region.released
  dsimp only
  split_ifs with h
  · simp [h.1]
  · exact Iff.rfl

/-- Every region record has kept its place, and the granule map with them. -/
structure State.SameRuns (s t : State) : Prop where
  region : ∀ i, (s.region i).SameRun (t.region i)
  granules : t.table.granules = s.table.granules

theorem State.SameRuns.refl (s : State) : s.SameRuns s := ⟨fun _ => .refl _, rfl⟩

theorem State.SameRuns.trans {s t u : State} (h : s.SameRuns t) (h' : t.SameRuns u) : s.SameRuns u :=
  ⟨fun i => (h.region i).trans (h'.region i), h'.granules.trans h.granules⟩

section
variable {s t : State}

theorem State.SameRuns.of_eq (hregions : t.table.regions = s.table.regions) (hgranules : t.table.granules = s.table.granules) :
    s.SameRuns t := ⟨fun i => by rw [State.region, State.region, hregions]; exact .refl _, hgranules⟩

/-- One record replaced by one that has kept its place. -/
theorem State.SameRuns.replaced {i : Slot} {r : Region} (hregion : ∀ j, t.region j = if i = j then r else s.region j)
    (hr : (s.region i).SameRun r) (hgranules : t.table.granules = s.table.granules) :
    s.SameRuns t := by
  refine ⟨fun j => ?_, hgranules⟩
  rw [hregion]
  split_ifs with hj
  · exact hj ▸ hr
  · exact .refl _

theorem State.SameRuns.setRegion {i : Slot} {r : Region} (hr : (s.region i).SameRun r) : s.SameRuns (s.setRegion i r) :=
  .replaced (s.setRegion_region i r) hr rfl

theorem State.freeRegion_sameRuns {i : Slot} (hlive : (s.region i).state = .live) : s.SameRuns (s.freeRegion i) :=
  .replaced (s.freeRegion_region i) (Region.freed_sameRun (by simp [hlive])) (by simp)

/-- The slots a close frees are freed one after the other: each is still as the close found it. -/
theorem State.foldl_freeRegion_keeps {P : State → Prop} {Q : Region → Prop}
    (hfree : ∀ {u : State} {i : Slot}, P u → Q (u.region i) → P (u.freeRegion i)) {is : List Slot} (hnodup : is.Nodup)
    (his : ∀ i ∈ is, Q (s.region i)) (h : P s) : P (is.foldl State.freeRegion s) := by
  induction is generalizing s with
  | nil => exact h
  | cons i is ih =>
    obtain ⟨hnot, hnodup⟩ := List.nodup_cons.1 hnodup
    refine ih hnodup (fun j hj => ?_) (hfree h (his i (List.mem_cons_self ..)))
    have hne : i ≠ j := fun he => hnot (he ▸ hj)
    rw [State.freeRegion_region, if_neg hne]
    exact his j (List.mem_cons_of_mem i hj)

/-- What a close frees: LIVE, not pinned, its owner the port, and its offer gone (R52, R142). -/
structure Region.ClosedBy (p : Port) (r : Region) : Prop where
  live : r.state = .live
  owner : r.owner = p
  pinned : r.pinned = false
  offer : r.offer = none

theorem State.closeFrees_closedBy (s : State) (p : Port) (order : List Slot) (i : Slot)
    (hi : i ∈ (s.closeBegun p order).closeFrees p) : ((s.closeBegun p order).region i).ClosedBy p := by
  obtain ⟨hlive, howner, hpinned⟩ := (State.mem_closeFrees _ p i).1 hi
  refine ⟨hlive, howner, hpinned, ?_⟩
  rw [State.closeBegun_region] at hlive howner ⊢
  have hlive : (s.region i).state = .live := hlive
  have howner : (s.region i).owner = p := howner
  simp [closedRegion, hlive, howner]

/-- A law that every step of a session close keeps. -/
theorem State.closeSession_keeps {P : State → Prop} {p : Port} {order : List Slot} (hbegun : P (s.closeBegun p order))
    (hfree : ∀ {u : State} {i : Slot}, P u → (u.region i).ClosedBy p → P (u.freeRegion i))
    (hsettle : ∀ {u : State}, P u → P (u.settleClosing p)) : P (s.closeSession p order) := by
  rw [State.closeSession_eq]
  exact hsettle (State.foldl_freeRegion_keeps (Q := Region.ClosedBy p) hfree (State.closeFrees_nodup _ p)
    (s.closeFrees_closedBy p order) hbegun)

theorem State.closeSession_sameRuns (s : State) (p : Port) (order : List Slot) : s.SameRuns (s.closeSession p order) := by
  refine State.closeSession_keeps (P := fun u => s.SameRuns u) ?_ (fun h hq => h.trans (State.freeRegion_sameRuns hq.live))
    (fun h => h.trans (.of_eq (by simp) (by simp)))
  refine ⟨fun i => ?_, s.closeBegun_granules p order⟩
  rw [State.closeBegun_region]
  exact ⟨Iff.rfl, rfl, rfl, rfl⟩

theorem State.dropReference_region (s : State) (h : Handle) (j : Slot) :
    (s.dropReference h).region j = { s.region j with refs := (s.region j).refs - if h.slot? = some j then 1 else 0 } := by
  unfold State.dropReference
  cases hs : h.slot? with
  | none => rfl
  | some i =>
    simp only [State.setRegion_region, Option.some.injEq]
    split_ifs with hj
    · rw [hj]
    · rfl

theorem State.addReference_region (s : State) (i j : Slot) :
    (s.addReference i).region j = { s.region j with refs := (s.region j).refs + if i = j then 1 else 0 } := by
  rw [State.addReference, State.setRegion_region]
  split_ifs with hj
  · rw [hj]
  · rfl

/-- PROGRAM changes no more of a region than its count of references. -/
theorem State.install_region (s : State) (c : Chan) (g : Program) (i j k : Slot) :
    ∃ n, (s.install c g i j).region k = { s.region k with refs := n } := by
  unfold State.install
  dsimp only
  rw [State.setChannel_region]
  cases (s.channel c).program with
  | none => rw [State.dropProgram, State.addReference_region, State.addReference_region]; exact ⟨_, rfl⟩
  | some old =>
    rw [State.dropProgram, State.dropReference_region, State.dropReference_region, State.addReference_region,
      State.addReference_region]
    exact ⟨_, rfl⟩

theorem State.install_table (s : State) (c : Chan) (g : Program) (i j : Slot) :
    (s.install c g i j).table = { s.table with regions := (s.install c g i j).table.regions } := by
  unfold State.install State.dropProgram State.dropReference
  dsimp only
  cases (s.channel c).program with
  | none => rfl
  | some old => dsimp only; cases old.source.handle.slot? <;> cases old.dest.handle.slot? <;> rfl

theorem State.offerEvent_table (s : State) (p : Port) (e : Event) : (s.offerEvent p e).table = s.table := by
  unfold State.offerEvent; split_ifs <;> rfl

theorem State.offerEvents_table (s : State) (es : List (Port × Event)) : (s.offerEvents es).table = s.table := by
  induction es generalizing s with
  | nil => rfl
  | cons e es ih => exact (ih _).trans (s.offerEvent_table e.1 e.2)

theorem State.followChain_table (s : State) (c : Chan) (lessee : Option Port) (chain : Option Chan) :
    (s.followChain c lessee chain).table = s.table := by
  cases chain with
  | none => rfl
  | some target =>
    unfold State.followChain
    dsimp only
    split
    · split
      · rfl
      · exact State.offerEvent_table _ _ _
    · split <;> rfl

theorem State.followChain_rest (s : State) (c : Chan) (lessee : Option Port) (chain : Option Chan) :
    (s.followChain c lessee chain).scrub = s.scrub ∧ (s.followChain c lessee chain).engine = s.engine ∧
      (s.followChain c lessee chain).chan.orders = s.chan.orders := by
  cases chain with
  | none => exact ⟨rfl, rfl, rfl⟩
  | some target =>
    unfold State.followChain
    dsimp only
    split
    · split
      · exact ⟨rfl, rfl, rfl⟩
      · simp
    · split <;> exact ⟨rfl, rfl, rfl⟩

theorem State.commit_table (s : State) (c : Chan) (e : Effect) :
    (s.commit c e).table = { s.table with notices := s.table.notices ++ e.notices } := by
  unfold State.commit
  dsimp only
  split
  · rfl
  · exact State.offerEvents_table _ _

/-- The taking of an end report leaves the tables of the table controller as they are, but for the notices it raises. -/
theorem State.takeEndReport_table (s : State) (u : UnitInFlight) :
    ∃ notices, (s.takeEndReport u).table = { s.table with notices } := by
  unfold State.takeEndReport
  dsimp only
  split
  · exact ⟨_, rfl⟩
  · split_ifs
    · exact ⟨_, State.commit_table _ _ _⟩
    · exact ⟨_, (State.followChain_table _ _ _ _).trans (State.commit_table _ _ _)⟩
    · exact ⟨_, State.commit_table _ _ _⟩
    · exact ⟨_, State.commit_table _ _ _⟩

theorem State.install_scrub (s : State) (c : Chan) (g : Program) (i j : Slot) : (s.install c g i j).scrub = s.scrub := by
  unfold State.install State.dropProgram State.dropReference
  dsimp only
  cases (s.channel c).program with
  | none => rfl
  | some old => dsimp only; cases old.source.handle.slot? <;> cases old.dest.handle.slot? <;> rfl

/-- The acts by what they do to the granule map: ALLOCATE holds a run, the taking of a scrub-done notice frees one, and every other
act leaves each region its run. -/
theorem State.Act.runs (h : s.Act t) : s.SameRuns t ∨
    (∃ p i base length label, (s.region i).state = .unused ∧ 1 ≤ length ∧ base + length ≤ granuleCount ∧
      runFree s.table.granules base length = true ∧ t = s.placeRegion p i base length label) ∨
    ∃ i rest, s.table.notices = .scrubDone i :: rest ∧ t = (s.setNotices rest).finishScrub i := by
  cases h with
  | place p i base length label hopen hslot hlen hin hfree =>
    exact .inr (.inl ⟨p, i, base, length, label, hslot, hlen, hin, hfree, rfl⟩)
  | scrubDone i rest hn => exact .inr (.inr ⟨i, rest, hn, rfl⟩)
  | tick => exact .inl ⟨fun i => by rw [State.mapRegions_region]; exact ⟨Iff.rfl, rfl, rfl, rfl⟩, by simp⟩
  | close p order => exact .inl (s.closeSession_sameRuns p order)
  | free i hlive => exact .inl (State.freeRegion_sameRuns hlive)
  | mark i pinned label hlive => exact .inl (.setRegion ⟨Iff.rfl, rfl, rfl, rfl⟩)
  | grant i q new =>
    refine .inl (.replaced (i := i) (r := { s.region i with grants := put (s.region i).grants q new })
      (fun j => ?_) ⟨Iff.rfl, rfl, rfl, rfl⟩ (by simp [State.setGrant]))
    simp [State.setGrant]
  | offer i o => exact .inl (.setRegion ⟨Iff.rfl, rfl, rfl, rfl⟩)
  | clearOffer i => exact .inl (.setRegion ⟨Iff.rfl, rfl, rfl, rfl⟩)
  | accept p i o e =>
    refine .inl (.replaced (i := i) (r := (s.region i).handedTo p) (fun j => ?_) ⟨Iff.rfl, rfl, rfl, rfl⟩
      (by simp [State.moveQuota]))
    simp [State.moveQuota]
  | install p c g i j r =>
    refine .inl ⟨fun k => ?_, by rw [s.install_table c g i j]⟩
    obtain ⟨n, hn⟩ := s.install_region c g i j k
    rw [hn]
    exact ⟨Iff.rfl, rfl, rfl, rfl⟩
  | referenceRelease h i rest =>
    exact .inl (.replaced (s := s) ((s.setNotices rest).releaseReference_region i) (Region.released_sameRun _)
      ((s.setNotices rest).releaseReference_granules i))
  | suspend c cause => exact .inl (.of_eq (by simp) (by simp))
  | abort c cause => exact .inl (.of_eq (by simp) (by simp))
  | activate c => exact .inl (.of_eq (by simp) (by simp))
  | order o left => exact .inl (.of_eq (by simp) (by simp))
  | leaseEnd c p rest => exact .inl (.of_eq (by simp) (by simp))
  | endReport u =>
    obtain ⟨notices, htable⟩ := s.takeEndReport_table u
    exact .inl (.of_eq (by rw [htable]) (by rw [htable]))
  | _ => exact .inl (.of_eq rfl rfl)

/-! ### The law of offers -/

/-- What a record still offers was offered before, to the same port by the same owner. -/
def Region.OfferKept (a b : Region) : Prop := ∀ o ∈ b.offer, ∃ o' ∈ a.offer,
  o'.target = o.target ∧ o.remaining ≤ o'.remaining ∧ (a.state = .live → b.state = .live) ∧ b.owner = a.owner

theorem Region.OfferKept.of_none {a b : Region} (h : b.offer = none) : a.OfferKept b := by
  intro o ho; rw [h] at ho; cases ho

theorem Region.OfferKept.of_eq {a b : Region} (h : b.offer = a.offer) (hstate : a.state = .live → b.state = .live)
    (howner : b.owner = a.owner) : a.OfferKept b :=
  fun o ho => ⟨o, h ▸ ho, rfl, le_rfl, hstate, howner⟩

theorem Region.OfferKept.refl (r : Region) : r.OfferKept r := .of_eq rfl id rfl

theorem State.OfferLaw.of_kept (law : s.OfferLaw) (hregion : ∀ i, (s.region i).OfferKept (t.region i))
    (hsession : ∀ p, s.session p = .opened → t.session p = .opened) : t.OfferLaw := by
  intro i o ho
  obtain ⟨o', ho', htarget, hremaining, hstate, howner⟩ := hregion i o ho
  obtain ⟨hlive, hopen, hother, htime⟩ := law i o' ho'
  exact ⟨hstate hlive, hsession _ (htarget ▸ hopen), by rw [← htarget, howner]; exact hother, hremaining.trans htime⟩

theorem State.OfferLaw.of_eq (law : s.OfferLaw) (hregions : t.table.regions = s.table.regions)
    (hsessions : t.table.sessions = s.table.sessions) : t.OfferLaw :=
  law.of_kept (fun i => by rw [State.region, State.region, hregions]; exact .refl _)
    fun p h => by rw [State.session, hsessions]; exact h

theorem State.OfferLaw.replaced (law : s.OfferLaw) {i : Slot} {r : Region}
    (hregion : ∀ j, t.region j = if i = j then r else s.region j) (hr : (s.region i).OfferKept r)
    (hsession : ∀ p, s.session p = .opened → t.session p = .opened) : t.OfferLaw := by
  refine law.of_kept (fun j => ?_) hsession
  rw [hregion]
  split_ifs with hj
  · exact hj ▸ hr
  · exact .refl _

theorem State.settleClosing_opened (s : State) (p : Port) {q : Port} (h : s.session q = .opened) :
    (s.settleClosing p).session q = .opened := by
  rcases s.settleClosing_session p q with he | ⟨-, hq, hclosing, -⟩
  · exact he.trans h
  · rw [hq, hclosing] at h; cases h

theorem State.releaseReference_opened (s : State) (i : Slot) {q : Port} (h : s.session q = .opened) :
    (s.releaseReference i).session q = .opened := by
  rcases s.releaseReference_session i q with he | ⟨-, -, hclosing, -⟩
  · exact he.trans h
  · rw [hclosing] at h; cases h

theorem State.OfferLaw.freeRegion (law : s.OfferLaw) {i : Slot} (h : (s.region i).offer = none) : (s.freeRegion i).OfferLaw :=
  law.replaced (s.freeRegion_region i) (.of_none h) fun p hp => by simpa using hp

/-- A close ends every offer by or to its port (R52, R53). -/
theorem State.OfferLaw.closeBegun (law : s.OfferLaw) (p : Port) (order : List Slot) : (s.closeBegun p order).OfferLaw := by
  intro i o ho
  rw [State.closeBegun_region] at ho ⊢
  unfold closedRegion at ho
  dsimp only at ho
  split_ifs at ho with hgone
  · cases ho
  · obtain ⟨hlive, hopen, hother, htime⟩ := law i o ho
    have hnot : o.target ≠ p := by
      rintro rfl
      rw [Option.mem_def.1 ho] at hgone
      simp at hgone
    exact ⟨hlive, by rw [State.closeBegun_session, if_neg hnot.symm]; exact hopen, hother, htime⟩

theorem State.OfferLaw.closeSession (law : s.OfferLaw) (p : Port) (order : List Slot) : (s.closeSession p order).OfferLaw :=
  State.closeSession_keeps (P := State.OfferLaw) (law.closeBegun p order) (fun h hq => h.freeRegion hq.offer)
    fun h => h.of_kept (fun i => by rw [State.settleClosing_region]; exact .refl _) fun _ => State.settleClosing_opened _ p

theorem State.Act.offerLaw (h : s.Act t) (law : s.OfferLaw) : t.OfferLaw := by
  cases h with
  | tick =>
    refine law.of_kept (fun i => ?_) fun p h => by simpa using h
    rw [State.mapRegions_region]
    intro o ho
    obtain ⟨o', ho', rfl⟩ := Option.map_eq_some_iff.1 ho
    exact ⟨o', ho', rfl, Nat.sub_le _ _, id, rfl⟩
  | openPort p h =>
    refine law.of_kept (fun i => .refl _) fun q hq => ?_
    rw [State.setSession_session]
    split_ifs
    · rfl
    · exact hq
  | close p order => exact law.closeSession p order
  | place p i base length label =>
    exact law.replaced (s := s) (s.setRegion_region i _) (.of_none rfl) fun q hq => hq
  | free i hlive hoffer => exact law.freeRegion hoffer
  | mark i pinned label => exact law.replaced (s.setRegion_region i _) (.of_eq rfl id rfl) fun q hq => hq
  | grant i q new =>
    exact law.replaced (i := i) (r := { s.region i with grants := put (s.region i).grants q new })
      (fun j => by simp [State.setGrant]) (.of_eq rfl id rfl) fun q hq => by simpa [State.setGrant] using hq
  | offer i o hlive htarget hopen htime =>
    intro j o' ho'
    rw [State.setRegion_region] at ho' ⊢
    split_ifs at ho' ⊢ with hj
    · obtain rfl : o = o' := Option.some.inj ho'
      exact ⟨hlive, hopen, htarget, htime⟩
    · exact law j o' ho'
  | clearOffer i => exact law.replaced (s.setRegion_region i _) (.of_none rfl) fun q hq => hq
  | accept p i o e =>
    exact law.replaced (i := i) (r := (s.region i).handedTo p) (fun j => by simp [State.moveQuota]) (.of_none rfl)
      fun q hq => by simpa [State.moveQuota] using hq
  | install p c g i j r =>
    refine law.of_kept (fun k => ?_) fun q hq => by rw [State.session, s.install_table c g i j]; exact hq
    obtain ⟨n, hn⟩ := s.install_region c g i j k
    rw [hn]
    exact .of_eq rfl id rfl
  | referenceRelease h i rest =>
    refine law.replaced (s := s) ((s.setNotices rest).releaseReference_region i) (.of_eq rfl (fun hlive => ?_) rfl)
      fun q hq => State.releaseReference_opened _ i hq
    have hlive : (s.region i).state = .live := hlive
    show (s.region i).released.state = .live
    rw [Region.released, hlive]
    simp
  | scrubDone i rest hn => exact law.replaced (s := s) (s.setRegion_region i _) (.of_none rfl) fun q hq => hq
  | leaseEnd c p rest =>
    refine law.of_kept (fun i => ?_) fun q hq => State.settleClosing_opened _ p hq
    rw [State.settleClosing_region]
    exact .refl _
  | suspend c cause => exact law.of_eq (by simp) (by simp)
  | abort c cause => exact law.of_eq (by simp) (by simp)
  | activate c => exact law.of_eq (by simp) (by simp)
  | order o left => exact law.of_eq (by simp) (by simp)
  | endReport u =>
    obtain ⟨notices, htable⟩ := s.takeEndReport_table u
    exact law.of_eq (by rw [htable]) (by rw [htable])
  | _ => exact law.of_eq rfl rfl

/-! ### The law of the granule map -/

theorem State.SameRuns.covers (h : s.SameRuns t) (i : Slot) (g : Nat) : t.covers i g ↔ s.covers i g := by
  unfold State.covers
  rw [(h.region i).base, (h.region i).length, Ne, Ne, (h.region i).unused]

theorem State.GranuleLaw.of_sameRuns (law : s.GranuleLaw) (h : s.SameRuns t) (hstart : t.starting ↔ s.starting) :
    t.GranuleLaw where
  inside := fun i hi => by
    rw [(h.region i).base, (h.region i).length]
    exact law.inside i (mt (h.region i).unused.2 hi)
  once := fun i j g hi hj => law.once i j g ((h.covers i g).1 hi) ((h.covers j g).1 hj)
  held := fun hs g hg => by
    rw [TableController.held, h.granules]
    simp only [h.covers]
    exact law.held (mt hstart.2 hs) g hg

/-- ALLOCATE places a region where every granule was FREE. -/
theorem State.GranuleLaw.place (law : s.GranuleLaw) (hs : ¬ s.starting) {p : Port} {i : Slot} {base length label : Nat}
    (hslot : (s.region i).state = .unused) (hlen : 1 ≤ length) (hin : base + length ≤ granuleCount)
    (hfree : runFree s.table.granules base length = true) : (s.placeRegion p i base length label).GranuleLaw := by
  have hfree := (runFree_iff hin).1 hfree
  have held (g : Nat) : (s.placeRegion p i base length label).table.held g =
      (s.table.held g || decide (base ≤ g ∧ g < base + length)) := holdRun_bit hin
  have covers (j : Slot) (g : Nat) : (s.placeRegion p i base length label).covers j g ↔
      (i = j ∧ base ≤ g ∧ g < base + length) ∨ (i ≠ j ∧ s.covers j g) := by
    unfold State.covers State.placeRegion
    simp only [State.setGranules_region, State.setQuota_region, State.setRegion_region]
    by_cases hj : i = j
    · simp [hj]
    · simp [hj]
  have fresh (j : Slot) (g : Nat) (hlow : base ≤ g) (hhigh : g < base + length) : ¬ s.covers j g := by
    intro hcov
    have hheld := (law.held hs g (by omega)).2 ⟨j, hcov⟩
    have := hfree (g - base) (by omega)
    rw [Nat.add_sub_cancel' hlow] at this
    exact Bool.false_ne_true (this.symm.trans hheld)
  exact {
    inside := fun j hj => by
      unfold State.placeRegion at hj ⊢
      simp only [State.setGranules_region, State.setQuota_region, State.setRegion_region] at hj ⊢
      split_ifs at hj ⊢
      · exact ⟨hlen, hin⟩
      · exact law.inside j hj
    once := fun j k g hj hk => by
      rw [covers] at hj hk
      rcases hj with ⟨rfl, hj⟩ | ⟨hne, hj⟩ <;> rcases hk with ⟨rfl, hk⟩ | ⟨hne', hk⟩
      · rfl
      · exact absurd hk (fresh k g hj.1 hj.2)
      · exact absurd hj (fresh j g hk.1 hk.2)
      · exact law.once j k g hj hk
    held := fun _ g hg => by
      rw [held, Bool.or_eq_true, decide_eq_true_eq, law.held hs g hg]
      constructor
      · rintro (⟨j, hj⟩ | hnew)
        · refine ⟨j, (covers j g).2 (.inr ⟨?_, hj⟩)⟩
          rintro rfl
          exact hj.1 hslot
        · exact ⟨i, (covers i g).2 (.inl ⟨rfl, hnew⟩)⟩
      · rintro ⟨j, hj⟩
        rcases (covers j g).1 hj with ⟨-, hnew⟩ | ⟨-, hold⟩
        · exact .inr hnew
        · exact .inl ⟨j, hold⟩ }

/-- The taking of a scrub-done notice frees what the region covered. -/
theorem State.GranuleLaw.finishScrub (law : s.GranuleLaw) (hs : ¬ s.starting) {i : Slot} (hused : (s.region i).state ≠ .unused) :
    (s.finishScrub i).GranuleLaw := by
  obtain ⟨-, hin⟩ := law.inside i hused
  have covers (j : Slot) (g : Nat) : (s.finishScrub i).covers j g ↔ i ≠ j ∧ s.covers j g := by
    unfold State.covers State.finishScrub
    simp only [State.setGranules_region, State.setRegion_region]
    by_cases hj : i = j
    · simp [hj, Region.empty]
    · simp [hj]
  exact {
    inside := fun j hj => by
      unfold State.finishScrub at hj ⊢
      simp only [State.setGranules_region, State.setRegion_region] at hj ⊢
      split_ifs at hj ⊢
      · exact absurd rfl hj
      · exact law.inside j hj
    once := fun j k g hj hk => law.once j k g ((covers j g).1 hj).2 ((covers k g).1 hk).2
    held := fun _ g hg => by
      have hheld : (s.finishScrub i).table.held g =
          (s.table.held g && !decide ((s.region i).base ≤ g ∧ g < (s.region i).base + (s.region i).length)) := freeRun_bit hin hg
      rw [hheld, Bool.and_eq_true, law.held hs g hg, Bool.not_eq_true', decide_eq_false_iff_not]
      constructor
      · rintro ⟨⟨j, hj⟩, hout⟩
        refine ⟨j, (covers j g).2 ⟨?_, hj⟩⟩
        rintro rfl
        exact hout hj.2
      · rintro ⟨j, hj⟩
        obtain ⟨hne, hj⟩ := (covers j g).1 hj
        exact ⟨⟨j, hj⟩, fun hin' => hne (law.once i j g ⟨hused, hin'⟩ hj)⟩ }

/-! ### The law of scrubbing -/

theorem State.ScrubLaw.of_same (law : s.ScrubLaw) (hqueue : t.scrub.queue = s.scrub.queue)
    (hnotices : ∀ i, (t.table.notices.filter fun n => n == .scrubDone i) = s.table.notices.filter fun n => n == .scrubDone i)
    (hstate : ∀ i, (t.region i).state = .scrubbing ↔ (s.region i).state = .scrubbing) : t.ScrubLaw := by
  intro i
  rw [State.scrubsOf, hqueue, hnotices]
  simp only [hstate]
  exact law i

theorem State.ScrubLaw.of_eq (law : s.ScrubLaw) (hscrub : t.scrub.queue = s.scrub.queue)
    (hnotices : t.table.notices = s.table.notices) (hregions : t.table.regions = s.table.regions) : t.ScrubLaw :=
  law.of_same hscrub (fun i => by rw [hnotices]) fun i => by rw [State.region, hregions]; exact Iff.rfl

/-- The claims raise no scrub-done notice. -/
theorem State.ScrubLaw.appended (law : s.ScrubLaw) {ns : List Notice} (hscrub : t.scrub = s.scrub)
    (hregions : t.table.regions = s.table.regions) (hnotices : t.table.notices = s.table.notices ++ ns)
    (hns : ∀ i, (ns.filter fun n => n == .scrubDone i) = []) : t.ScrubLaw :=
  law.of_same (by rw [hscrub]) (fun i => by rw [hnotices, List.filter_append, hns, List.append_nil])
    fun i => by rw [State.region, hregions]; exact Iff.rfl

/-- A notice other than a scrub-done notice is taken. -/
theorem filter_scrubDone_cons {n : Notice} {rest : List Notice} (h : ∀ i, n ≠ .scrubDone i) (i : Slot) :
    (rest.filter fun m => m == .scrubDone i) = (n :: rest).filter fun m => m == .scrubDone i := by
  rw [List.filter_cons_of_neg]
  simpa using h i

/-- One region at most enters SCRUBBING, and its run joins the queue. -/
theorem State.ScrubLaw.entered (law : s.ScrubLaw) {i : Slot} {r : Region} {b n : Nat} {enters : Prop} [Decidable enters]
    (hregion : ∀ j, t.region j = if i = j then r else s.region j) (hnotices : t.table.notices = s.table.notices)
    (hqueue : t.scrub.queue = s.scrub.queue ++ if enters then [{ slot := i, base := b, length := n }] else [])
    (hold : (s.region i).state ≠ .scrubbing) (hnew : r.state = .scrubbing ↔ enters) : t.ScrubLaw := by
  intro j
  have hj := law j
  rw [State.scrubsOf] at hj ⊢
  rw [hregion, hnotices, hqueue, List.filter_append, List.length_append]
  by_cases hij : i = j
  · subst hij
    rw [if_neg hold] at hj
    simp only [if_true, hnew]
    by_cases h : enters
    · simp only [if_pos h, List.filter_cons, beq_self_eq_true, if_true, List.filter_nil, List.length_singleton]
      omega
    · simp only [if_neg h, List.filter_nil, List.length_nil]
      omega
  · rw [if_neg hij]
    by_cases h : enters
    · simp only [if_pos h, List.filter_cons, beq_iff_eq, hij, if_false, List.filter_nil, List.length_nil]
      omega
    · simp only [if_neg h, List.filter_nil, List.length_nil]
      omega

theorem State.ScrubLaw.freeRegion (law : s.ScrubLaw) {i : Slot} (hlive : (s.region i).state = .live) :
    (s.freeRegion i).ScrubLaw :=
  law.entered (s.freeRegion_region i) (by simp) (s.freeRegion_queue i) (by simp [hlive])
    (by unfold Region.freed; dsimp only; split_ifs with h <;> simp [h])

theorem State.ScrubLaw.releaseReference (law : s.ScrubLaw) (i : Slot) : (s.releaseReference i).ScrubLaw := by
  by_cases hscrubbing : (s.region i).state = .scrubbing
  · have hnot : ¬ ((s.region i).state = .retiring ∧ (s.region i).refs - 1 = 0) := by simp [hscrubbing]
    refine law.of_same ?_ (fun j => by rw [State.releaseReference_notices]) fun j => ?_
    · rw [State.releaseReference_queue, if_neg hnot, List.append_nil]
    · rw [State.releaseReference_region]
      split_ifs with hj
      · rw [Region.released, if_neg hnot, hj]
      · exact Iff.rfl
  · refine law.entered (s.releaseReference_region i) (s.releaseReference_notices i) (s.releaseReference_queue i) hscrubbing ?_
    unfold Region.released
    dsimp only
    split_ifs with h
    · simp [h]
    · simp [h, hscrubbing]

theorem State.ScrubLaw.closeSession (law : s.ScrubLaw) (p : Port) (order : List Slot) : (s.closeSession p order).ScrubLaw := by
  refine State.closeSession_keeps (P := State.ScrubLaw) ?_ (fun h hq => h.freeRegion hq.live) fun h => ?_
  · refine law.of_same (by rw [State.closeBegun_scrub]) (fun i => by rw [State.closeBegun_notices]) fun i => ?_
    rw [State.closeBegun_region]
    exact Iff.rfl
  · exact h.of_eq (by simp) (by simp) (by simp)

/-- The region a scrub-done notice waits for is SCRUBBING, and the notice is its only scrub work. -/
theorem State.ScrubLaw.scrubbing_of_notice (law : s.ScrubLaw) {i : Slot} (h : .scrubDone i ∈ s.table.notices) :
    (s.region i).state = .scrubbing ∧ s.scrubsOf i = 1 := by
  have hi := law i
  have hpos : 0 < (s.table.notices.filter fun n => n == .scrubDone i).length :=
    List.length_pos_of_mem (List.mem_filter.2 ⟨h, beq_self_eq_true _⟩)
  by_cases hstate : (s.region i).state = .scrubbing
  · rw [if_pos hstate] at hi
    exact ⟨hstate, hi⟩
  · rw [if_neg hstate] at hi
    unfold State.scrubsOf at hi
    omega

theorem State.ScrubLaw.finishScrub (law : s.ScrubLaw) {i : Slot} {rest : List Notice} (hn : s.table.notices = .scrubDone i :: rest) :
    ((s.setNotices rest).finishScrub i).ScrubLaw := by
  obtain ⟨-, hone⟩ := law.scrubbing_of_notice (i := i) (by rw [hn]; exact List.mem_cons_self ..)
  intro j
  have hj := law j
  unfold State.scrubsOf at hj hone ⊢
  rw [hn] at hj hone
  show (s.scrub.queue.filter fun e => e.slot == j).length + (rest.filter fun n => n == .scrubDone j).length =
    if (((s.setNotices rest).finishScrub i).region j).state = .scrubbing then 1 else 0
  have hregion : ((s.setNotices rest).finishScrub i).region j = if i = j then Region.empty ((s.region i).gen + 1) else s.region j :=
    s.setRegion_region i _ j
  rw [hregion]
  by_cases hij : i = j
  · subst hij
    rw [List.filter_cons_of_pos (by simp), List.length_cons] at hone
    simp only [if_true, Region.empty, reduceCtorEq, if_false]
    omega
  · rw [List.filter_cons_of_neg (by simpa using hij)] at hj
    rw [if_neg hij]
    exact hj

/-- A run that ends leaves the queue as its notice joins the notice queue (R17). -/
theorem State.ScrubLaw.runEnded (law : s.ScrubLaw) {e : ScrubRun} {later : List ScrubRun} {running : Option Nat}
    (hq : s.scrub.queue = e :: later) :
    ((s.setScrub { s.scrub with queue := later, running }).notify [.scrubDone e.slot]).ScrubLaw := by
  intro i
  have hi := law i
  unfold State.scrubsOf at hi
  rw [hq] at hi
  show (later.filter fun e => e.slot == i).length +
    ((s.table.notices ++ [Notice.scrubDone e.slot]).filter fun n => n == .scrubDone i).length = _
  refine Eq.trans ?_ hi
  rw [List.filter_append, List.length_append, List.filter_cons, List.filter_cons, List.filter_nil]
  by_cases he : e.slot = i
  · rw [if_pos (by simpa using he), if_pos (by simpa using he)]
    simp only [List.length_cons, List.length_nil]
    omega
  · rw [if_neg (by simpa using he), if_neg (by simpa using he)]
    rfl

theorem State.Act.scrubLaw (h : s.Act t) (law : s.ScrubLaw) : t.ScrubLaw := by
  have claimed {u : State} {c : Chan} {e : Effect} (hu : u.ScrubLaw) (he : e.Shape c (u.channel c)) : (u.commit c e).ScrubLaw :=
    hu.appended (by simp) (by simp) (u.commit_notices_eq c e) he.no_scrubDone
  cases h with
  | tick => exact law.of_same (by simp) (by simp) fun i => by rw [State.mapRegions_region]; exact Iff.rfl
  | close p order => exact law.closeSession p order
  | place p i base length label hopen hslot =>
    refine law.of_same rfl (fun _ => rfl) fun j => ?_
    have hregion : (s.placeRegion p i base length label).region j = if i = j then _ else s.region j := s.setRegion_region i _ j
    rw [hregion]
    split_ifs with hj
    · simp [← hj, hslot]
    · exact Iff.rfl
  | free i hlive => exact law.freeRegion hlive
  | mark i pinned label =>
    refine law.of_same rfl (fun _ => rfl) fun j => ?_
    rw [State.setRegion_region]
    split_ifs with hj
    · rw [hj]
    · exact Iff.rfl
  | grant i q new =>
    refine law.of_same (by simp [State.setGrant]) (fun j => by simp [State.setGrant]) fun j => ?_
    simp only [State.setGrant, State.sendDiscards_region, State.setRegion_region]
    split_ifs with hj
    · rw [hj]
    · exact Iff.rfl
  | offer i o =>
    refine law.of_same rfl (fun _ => rfl) fun j => ?_
    rw [State.setRegion_region]
    split_ifs with hj
    · rw [hj]
    · exact Iff.rfl
  | clearOffer i =>
    refine law.of_same rfl (fun _ => rfl) fun j => ?_
    rw [State.clearOffer, State.setRegion_region]
    split_ifs with hj
    · rw [hj]
    · exact Iff.rfl
  | accept p i o e =>
    refine law.of_same (by simp [State.moveQuota]) (fun j => by simp [State.moveQuota]) fun j => ?_
    simp only [State.moveQuota, State.sendDiscards_region, State.offerEvent_region, State.setQuota_region, State.setRegion_region]
    split_ifs with hj
    · rw [hj]; rfl
    · exact Iff.rfl
  | release p c hlessee =>
    refine law.appended (ns := (s.channel c).releases) rfl rfl rfl fun i => List.filter_eq_nil_iff.2 fun n hn => ?_
    obtain ⟨g, -, rfl | rfl⟩ := Channel.mem_releases hn <;> simp
  | install p c g i j r =>
    refine law.of_same (by rw [s.install_scrub]) (fun k => by rw [s.install_table c g i j]) fun k => ?_
    obtain ⟨n, hn⟩ := s.install_region c g i j k
    rw [hn]
  | suspend c cause => exact claimed law (makeRequest_shape c _ _)
  | abort c cause => exact claimed law (makeRequest_shape c _ _)
  | activate c h => exact claimed law (activate_shape c _)
  | order o left => exact claimed (u := s.setOrders left) (law.of_eq rfl rfl rfl) (Order.effect_shape _ o)
  | raise n h =>
    refine law.appended (ns := [n]) rfl rfl rfl fun i => List.filter_eq_nil_iff.2 fun m hm => ?_
    rw [List.mem_singleton.1 hm]
    rcases h with ⟨p, rfl⟩ | ⟨j, rfl⟩ <;> simp
  | drop n rest hn h =>
    refine law.of_same rfl (fun i => ?_) fun _ => Iff.rfl
    rw [hn]
    refine filter_scrubDone_cons ?_ i
    rcases h with ⟨p, rfl⟩ | ⟨j, rfl⟩ | ⟨k, rfl, -⟩ <;> simp
  | referenceRelease h i rest hn =>
    refine State.ScrubLaw.releaseReference (s := s.setNotices rest) (law.of_same rfl (fun j => ?_) fun _ => Iff.rfl) i
    rw [hn]
    exact filter_scrubDone_cons (by simp) j
  | leaseEnd c p rest hn =>
    refine law.of_same (by simp) (fun j => ?_) fun i => by simp
    rw [hn, ← filter_scrubDone_cons (by simp) j]
    simp
  | scrubDone i rest hn => exact law.finishScrub hn
  | endReport u =>
    have idle : (s.setEngine { s.engine with unit := none }).ScrubLaw := law.of_eq rfl rfl rfl
    have htaken := s.takeEndReport_taken u
    generalize s.takeEndReport u = t at htaken
    cases htaken with
    | noProgram => exact idle.of_eq rfl rfl rfl
    | claim e he => exact claimed idle he
    | chained e lessee chain he =>
      refine (claimed idle he).of_eq ?_ ?_ ?_
      · rw [(State.followChain_rest _ _ _ _).1]
      · rw [State.followChain_table]
      · rw [State.followChain_table]
  | scrubRunEnd e later hq => exact law.runEnded hq
  | _ => exact law.of_eq rfl rfl rfl

/-- Outside the start-up time an act keeps the law of the granule map: a scrub-done notice waits for a region in use. -/
theorem State.Act.granuleLaw (h : s.Act t) (law : s.GranuleLaw) (hscrub : s.ScrubLaw) (hs : ¬ s.starting) : t.GranuleLaw := by
  rcases h.runs with hsame | ⟨p, i, base, length, label, hslot, hlen, hin, hfree, rfl⟩ | ⟨i, rest, hn, rfl⟩
  · exact law.of_sameRuns hsame h.still.starting
  · exact law.place hs hslot hlen hin hfree
  · have hscrubbing := (hscrub.scrubbing_of_notice (i := i) (by rw [hn]; exact List.mem_cons_self ..)).1
    have hlaw : (s.setNotices rest).GranuleLaw := law.of_sameRuns (.of_eq rfl rfl) Iff.rfl
    exact hlaw.finishScrub hs (by rw [State.setNotices_region, hscrubbing]; decide)

/-! ### Every step -/

/-- What acts keep, the moves of the hub keep, if it says nothing of command and result queues. -/
theorem State.Moves.keeps {P : State → Prop} (hact : ∀ {s t : State}, s.Act t → P s → P t)
    (hpop : ∀ {s : State} {p : Port}, P s → P (s.popCommand p))
    (hanswer : ∀ {s : State} {p : Port} {r : CommandRecord} {y : Reply}, P s → P (s.answer p r y))
    (h : s.Moves t) (hs : P s) : P t := by
  cases h with
  | acts h => exact h.keeps hact hs
  | taken p r hserves h => exact h.keeps hact (hpop hs)
  | answered p r y hserves h => exact hanswer (h.keeps hact (hpop hs))

/-- The tables at their reset values: no region, lease, session, unit or run, and no notice but clear notices. -/
structure State.Bare (s : State) : Prop where
  regions : ∀ i, s.region i = Region.empty 0
  granules : ¬ s.starting → s.table.granules = 0
  sessions : ∀ p, s.session p = .closed
  quotas : ∀ p, s.quota p = { granules := 0, regions := 0, channels := 0 }
  notices : ∀ n ∈ s.table.notices, ∃ p, n = .clear p
  channels : ∀ c, s.channel c = Channel.empty
  unit : s.engine.unit = none
  queue : s.scrub.queue = []

theorem State.StartLaw.bare (law : s.StartLaw) (hs : s.starting) : s.Bare where
  regions := law.regions hs
  granules := fun hn => absurd hs hn
  sessions := law.sessions hs
  quotas := law.quotas hs
  notices := law.notices hs
  channels := law.channels hs
  unit := by rw [law.engine hs]; rfl
  queue := (law.runs hs).1

/-- A step out of the start-up time leaves the tables bare; any other step that ends outside it moves the hub there. -/
theorem State.StepsTo.bare_or_moves (h : s.StepsTo t) (law : s.StartLaw) : t.Bare ∨ ¬ s.starting ∧ s.Moves t := by
  by_cases ht : t.starting
  · exact .inl ((h.startLaw law).bare ht)
  · cases h with
    | moves h hwaits => exact .inr ⟨mt h.still.starting.2 ht, h⟩
    | clears n hstartup => exact absurd (.inr hstartup) ht
    | asserts => exact absurd (.inl rfl) ht
    | releases x mode hlow hx => exact absurd (.inr rfl) ht
    | ends hstartup =>
      have hs : s.starting := .inr hstartup
      have hb := law.bare hs
      exact .inl {
        regions := fun i => by simpa using hb.regions i
        granules := fun _ => by simp
        sessions := fun p => by simpa using hb.sessions p
        quotas := fun p => by simpa using hb.quotas p
        notices := by simpa using hb.notices
        channels := fun c => by simpa using hb.channels c
        unit := by simpa using hb.unit
        queue := by simpa using hb.queue }

theorem State.Bare.offerLaw (h : s.Bare) : s.OfferLaw := fun i o ho => by rw [h.regions] at ho; cases ho

theorem State.Bare.granuleLaw (h : s.Bare) : s.GranuleLaw := by
  have none {α : Prop} {i : Slot} (hi : (s.region i).state ≠ .unused) : α := absurd (by rw [h.regions]; rfl) hi
  exact {
    inside := fun i hi => none hi
    once := fun i j g hi => none hi.1
    held := fun hs g hg => by
      rw [TableController.held, h.granules hs]
      exact iff_of_false (by simp) fun ⟨i, hi⟩ => none hi.1 }

theorem State.Bare.scrubLaw (h : s.Bare) : s.ScrubLaw := by
  intro i
  have hnotices : (s.table.notices.filter fun n => n == .scrubDone i) = [] := List.filter_eq_nil_iff.2 fun n hn => by
    obtain ⟨p, rfl⟩ := h.notices n hn
    simp
  rw [State.scrubsOf, h.queue, hnotices, h.regions]
  rfl

/-- The laws of offers, granules and scrubbing of a hub that has left the start-up time. -/
structure State.Tabled (s : State) : Prop where
  running : ¬ s.starting
  offer : s.OfferLaw
  granule : s.GranuleLaw
  scrub : s.ScrubLaw

theorem State.Act.tabled (h : s.Act t) (law : s.Tabled) : t.Tabled where
  running := mt h.still.starting.1 law.running
  offer := h.offerLaw law.offer
  granule := h.granuleLaw law.granule law.scrub law.running
  scrub := h.scrubLaw law.scrub

theorem State.Moves.tabled (h : s.Moves t) (law : s.Tabled) : t.Tabled := by
  refine h.keeps State.Act.tabled (fun law => ?_) (fun law => ?_) law
  · exact ⟨law.running, law.offer.of_eq rfl rfl, law.granule.of_sameRuns (.of_eq rfl rfl) Iff.rfl, law.scrub.of_eq rfl rfl rfl⟩
  · exact ⟨law.running, law.offer.of_eq rfl rfl, law.granule.of_sameRuns (.of_eq rfl rfl) Iff.rfl, law.scrub.of_eq rfl rfl rfl⟩

theorem State.StepsTo.tableLaws (h : s.StepsTo t) (start : s.StartLaw) (offer : s.OfferLaw) (granule : s.GranuleLaw)
    (scrub : s.ScrubLaw) : t.OfferLaw ∧ t.GranuleLaw ∧ t.ScrubLaw := by
  rcases h.bare_or_moves start with hbare | ⟨hs, hmoves⟩
  · exact ⟨hbare.offerLaw, hbare.granuleLaw, hbare.scrubLaw⟩
  · obtain ⟨-, hoffer, hgranule, hscrub⟩ := hmoves.tabled ⟨hs, offer, granule, scrub⟩
    exact ⟨hoffer, hgranule, hscrub⟩

/-- Settles O59, by what a step can be. -/
theorem stepKeepsOfferAndGranuleLaw : Obligations.StepKeepsOfferAndGranuleLaw := by
  unfold Obligations.StepKeepsOfferAndGranuleLaw
  intro s t start offer granule scrub hstep
  obtain ⟨rest, h⟩ := step_stepsTo hstep
  exact h.tableLaws { start with } (offer.of_eq rfl rfl) (granule.of_sameRuns (.of_eq rfl rfl) Iff.rfl) (scrub.of_eq rfl rfl rfl)

end

end Sys2Proof.Machine
end

section
/-! SUPPORT for O60: the quota counts (R26, R27). -/

set_option Elab.async false

namespace Sys2Proof.Machine

/-! ### Sums over a table -/

/-- A sum in which one entry has changed. -/
theorem sum_replaced {n : Nat} {f g : Fin n → Nat} (i : Fin n) (h : ∀ j, i ≠ j → g j = f j) :
    (∑ j, g j) + f i = (∑ j, f j) + g i := by
  rw [← Finset.add_sum_erase _ g (Finset.mem_univ i), ← Finset.add_sum_erase _ f (Finset.mem_univ i)]
  have hrest : ∑ j ∈ Finset.univ.erase i, g j = ∑ j ∈ Finset.univ.erase i, f j :=
    Finset.sum_congr rfl fun j hj => h j (Finset.ne_of_mem_erase hj).symm
  omega

theorem sum_indices {n : Nat} (f : Fin n → Nat) : ((indices n).map f).sum = ∑ j, f j := by
  rw [indices, ← List.ofFn_eq_map, List.sum_ofFn]

theorem sum_filter_indices {n : Nat} (p : Fin n → Bool) (f : Fin n → Nat) :
    (((indices n).filter p).map f).sum = ∑ j, if p j = true then f j else 0 := by
  rw [← sum_indices]
  induction indices n with
  | nil => rfl
  | cons j l ih =>
    rw [List.filter_cons, List.map_cons, List.sum_cons]
    split_ifs with h
    · rw [List.map_cons, List.sum_cons, ih]
    · rw [ih, Nat.zero_add]

theorem length_filter_indices {n : Nat} (p : Fin n → Bool) :
    ((indices n).filter p).length = ∑ j, if p j = true then 1 else 0 := by
  rw [← sum_filter_indices p fun _ => 1, List.map_const', List.sum_replicate, smul_eq_mul, Nat.mul_one]

/-! ### What a port owns and leases -/

/-- Whether a record counts in a port's quota: LIVE or RETIRING under its name (R27). -/
def Region.countsFor (r : Region) (p : Port) : Bool := (r.state == .live || r.state == .retiring) && r.owner == p

/-- What a region record adds to a port's granule count (R27). -/
def Region.weight (r : Region) (p : Port) : Nat := if r.countsFor p = true then r.length else 0

/-- What a region record adds to a port's region count (R27). -/
def Region.one (r : Region) (p : Port) : Nat := if r.countsFor p = true then 1 else 0

/-- What a channel record adds to a port's channel count (R27). -/
def Channel.leasedBy (x : Channel) (p : Port) : Nat := if x.lessee = some p then 1 else 0

/-- The lease-end notices of a port in a queue. -/
def leaseEndsFor (ns : List Notice) (p : Port) : Nat :=
  (ns.filter fun n => match n with
    | .leaseEnd _ q => q == p
    | .referenceRelease _ | .scrubDone _ | .offerExpiry _ | .clear _ => false).length

/-- The law of the quota counts over sums. -/
structure State.Quotas (s : State) : Prop where
  granules : ∀ p, (s.quota p).granules = ∑ i, (s.region i).weight p
  regions : ∀ p, (s.quota p).regions = ∑ i, (s.region i).one p
  channels : ∀ p, (s.quota p).channels = (∑ c, (s.channel c).leasedBy p) + leaseEndsFor s.table.notices p
  split : s.table.quotaMode = .split → ∀ p,
    (s.quota p).granules ≤ Config.splitGranules ∧ (s.quota p).regions ≤ Config.splitRegions ∧
      (s.quota p).channels ≤ Config.splitChannels

section
variable {s t : State}

theorem State.leasesOf_eq (s : State) (p : Port) :
    s.leasesOf p = (∑ c, (s.channel c).leasedBy p) + leaseEndsFor s.table.notices p := by
  have hleases : (s.channelsWhere fun x => x.lessee == some p).length = ∑ c, (s.channel c).leasedBy p := by
    rw [State.channelsWhere, length_filter_indices]
    exact Finset.sum_congr rfl fun c _ => by simp [Channel.leasedBy]
  exact congrArg (· + leaseEndsFor s.table.notices p) hleases

theorem State.quotaLaw_iff (s : State) : s.QuotaLaw ↔ s.Quotas := by
  have hgranules (p : Port) : ((s.ownedSlots p).map fun i => (s.region i).length).sum = ∑ i, (s.region i).weight p :=
    sum_filter_indices _ _
  have hregions (p : Port) : (s.ownedSlots p).length = ∑ i, (s.region i).one p := length_filter_indices _
  constructor
  · rintro ⟨h1, h2, h3, h4⟩
    exact ⟨fun p => (h1 p).trans (hgranules p), fun p => (h2 p).trans (hregions p), fun p => (h3 p).trans (s.leasesOf_eq p), h4⟩
  · rintro ⟨h1, h2, h3, h4⟩
    exact ⟨fun p => (h1 p).trans (hgranules p).symm, fun p => (h2 p).trans (hregions p).symm,
      fun p => (h3 p).trans (s.leasesOf_eq p).symm, h4⟩

/-! ### The counts of regions -/

theorem State.Quotas.weight_le (law : s.Quotas) (i : Slot) (p : Port) : (s.region i).weight p ≤ (s.quota p).granules := by
  rw [law.granules]
  exact Finset.single_le_sum (f := fun j => (s.region j).weight p) (fun _ _ => Nat.zero_le _) (Finset.mem_univ i)

theorem State.Quotas.one_le (law : s.Quotas) (i : Slot) (p : Port) : (s.region i).one p ≤ (s.quota p).regions := by
  rw [law.regions]
  exact Finset.single_le_sum (f := fun j => (s.region j).one p) (fun _ _ => Nat.zero_le _) (Finset.mem_univ i)

/-- A region record that counts for the same port as before. -/
structure Region.SameCount (a b : Region) : Prop where
  counts : ∀ p, b.countsFor p = a.countsFor p
  length : b.length = a.length

theorem Region.SameCount.of_eq {a b : Region} (hstate : b.state = a.state) (howner : b.owner = a.owner)
    (hlength : b.length = a.length) : a.SameCount b :=
  ⟨fun p => by rw [Region.countsFor, Region.countsFor, hstate, howner], hlength⟩

theorem Region.SameCount.refl (r : Region) : r.SameCount r := .of_eq rfl rfl rfl

theorem Region.SameCount.replaced {i : Slot} {r : Region} (hregion : ∀ j, t.region j = if i = j then r else s.region j)
    (hr : (s.region i).SameCount r) (j : Slot) : (s.region j).SameCount (t.region j) := by
  rw [hregion]
  split_ifs with hj
  · exact hj ▸ hr
  · exact .refl _

/-- The counts stand when no record counts for another port than before, and no lease moves. -/
theorem State.Quotas.of_same (law : s.Quotas) (hquota : ∀ p, t.quota p = s.quota p)
    (hmode : t.table.quotaMode = s.table.quotaMode)
    (hregion : ∀ i, (s.region i).SameCount (t.region i))
    (hlessee : ∀ c, (t.channel c).lessee = (s.channel c).lessee)
    (hends : ∀ p, leaseEndsFor t.table.notices p = leaseEndsFor s.table.notices p) : t.Quotas where
  granules := fun p => by
    rw [hquota, law.granules]
    refine Finset.sum_congr rfl fun i _ => ?_
    rw [Region.weight, Region.weight, (hregion i).counts, (hregion i).length]
  regions := fun p => by
    rw [hquota, law.regions]
    refine Finset.sum_congr rfl fun i _ => ?_
    rw [Region.one, Region.one, (hregion i).counts]
  channels := fun p => by
    rw [hquota, law.channels, hends]
    simp only [Channel.leasedBy, hlessee]
  split := fun h p => by rw [hquota]; exact law.split (hmode ▸ h) p

/-- One region record changes, and with it the counts of the ports it counts for. -/
theorem State.Quotas.region (law : s.Quotas) {i : Slot} {r : Region}
    (hregion : ∀ j, t.region j = if i = j then r else s.region j)
    (hgranules : ∀ p, (t.quota p).granules + (s.region i).weight p = (s.quota p).granules + r.weight p)
    (hregions : ∀ p, (t.quota p).regions + (s.region i).one p = (s.quota p).regions + r.one p)
    (hchannels : ∀ p, (t.quota p).channels = (s.quota p).channels)
    (hlessee : ∀ c, (t.channel c).lessee = (s.channel c).lessee)
    (hends : ∀ p, leaseEndsFor t.table.notices p = leaseEndsFor s.table.notices p)
    (hsplit : t.table.quotaMode = .split → ∀ p,
      (t.quota p).granules ≤ Config.splitGranules ∧ (t.quota p).regions ≤ Config.splitRegions ∧
        (s.quota p).channels ≤ Config.splitChannels) : t.Quotas := by
  have hother {j : Slot} (hj : i ≠ j) : t.region j = s.region j := by rw [hregion, if_neg hj]
  have hself : t.region i = r := by rw [hregion, if_pos rfl]
  exact {
    granules := fun p => by
      have hsum := sum_replaced (f := fun j => (s.region j).weight p) (g := fun j => (t.region j).weight p) i fun j hj => by
        rw [hother hj]
      have h1 := hgranules p
      rw [law.granules] at h1
      rw [hself] at hsum
      exact Nat.add_right_cancel (h1.trans hsum.symm)
    regions := fun p => by
      have hsum := sum_replaced (f := fun j => (s.region j).one p) (g := fun j => (t.region j).one p) i fun j hj => by
        rw [hother hj]
      have h1 := hregions p
      rw [law.regions] at h1
      rw [hself] at hsum
      exact Nat.add_right_cancel (h1.trans hsum.symm)
    channels := fun p => by
      rw [hchannels, law.channels, hends]
      simp only [Channel.leasedBy, hlessee]
    split := fun h p => by rw [hchannels]; exact hsplit h p }

theorem Region.weight_of_not {r : Region} {p : Port} (h : r.countsFor p = false) : r.weight p = 0 := by
  rw [Region.weight, h, if_neg Bool.false_ne_true]

theorem Region.one_of_not {r : Region} {p : Port} (h : r.countsFor p = false) : r.one p = 0 := by
  rw [Region.one, h, if_neg Bool.false_ne_true]

theorem Region.not_counts {r : Region} (h : r.state = .unused ∨ r.state = .scrubbing) (p : Port) : r.countsFor p = false := by
  rcases h with h | h <;> simp [Region.countsFor, h]

theorem Region.counts_iff {r : Region} (h : r.state = .live ∨ r.state = .retiring) (p : Port) :
    r.countsFor p = true ↔ r.owner = p := by
  rcases h with h | h <;> simp [Region.countsFor, h]

/-- A region that counted for its owner counts no longer, and the owner's counts fall by it (R16). -/
theorem State.Quotas.leaves (law : s.Quotas) {i : Slot} {r : Region}
    (hregion : ∀ j, t.region j = if i = j then r else s.region j)
    (hold : (s.region i).state = .live ∨ (s.region i).state = .retiring) (hnew : r.state = .scrubbing)
    (hquota : ∀ p, t.quota p = if (s.region i).owner = p then
        { s.quota p with granules := (s.quota p).granules - (s.region i).length, regions := (s.quota p).regions - 1 }
      else s.quota p)
    (hmode : t.table.quotaMode = s.table.quotaMode)
    (hlessee : ∀ c, (t.channel c).lessee = (s.channel c).lessee)
    (hends : ∀ p, leaseEndsFor t.table.notices p = leaseEndsFor s.table.notices p) : t.Quotas := by
  have weight (p : Port) : (s.region i).weight p = if (s.region i).owner = p then (s.region i).length else 0 := by
    simp only [Region.weight, Region.counts_iff hold]
  have one (p : Port) : (s.region i).one p = if (s.region i).owner = p then 1 else 0 := by
    simp only [Region.one, Region.counts_iff hold]
  have hgone := Region.not_counts (r := r) (.inr hnew)
  refine law.region hregion (fun p => ?_) (fun p => ?_) (fun p => ?_) hlessee hends fun h p => ?_
  · have hle := law.weight_le i p
    rw [Region.weight_of_not (hgone p), hquota]
    rw [weight] at hle ⊢
    split_ifs at hle ⊢
    · dsimp only; omega
    · rfl
  · have hle := law.one_le i p
    rw [Region.one_of_not (hgone p), hquota]
    rw [one] at hle ⊢
    split_ifs at hle ⊢
    · dsimp only; omega
    · rfl
  · rw [hquota]; split_ifs <;> rfl
  · obtain ⟨hg, hr, hc⟩ := law.split (hmode ▸ h) p
    rw [hquota]
    split_ifs
    · exact ⟨(Nat.sub_le _ _).trans hg, (Nat.sub_le _ _).trans hr, hc⟩
    · exact ⟨hg, hr, hc⟩

theorem State.Quotas.freeRegion (law : s.Quotas) {i : Slot} (hlive : (s.region i).state = .live) : (s.freeRegion i).Quotas := by
  by_cases hrefs : (s.region i).refs = 0
  · refine law.leaves (s.freeRegion_region i) (.inl hlive) (by simp [Region.freed, hrefs]) (fun p => ?_) (by simp) (by simp)
      (by simp)
    rw [State.freeRegion_quota]
    simp only [hrefs, true_and]
  · have hretiring : (s.region i).freed.state = .retiring := by simp [Region.freed, hrefs]
    refine law.of_same (fun p => ?_) (by simp) (.replaced (s.freeRegion_region i) ⟨fun p => ?_, rfl⟩) (by simp) (by simp)
    · rw [State.freeRegion_quota, if_neg fun h => hrefs h.1]
    · rw [Bool.eq_iff_iff, Region.counts_iff (.inr hretiring), Region.counts_iff (.inl hlive)]
      rfl

theorem State.Quotas.settleClosing (law : s.Quotas) (p : Port) : (s.settleClosing p).Quotas :=
  law.of_same (by simp) (by simp) (fun i => by rw [State.settleClosing_region]; exact .refl _) (by simp) (by simp)

theorem State.Quotas.releaseReference (law : s.Quotas) (i : Slot) : (s.releaseReference i).Quotas := by
  have hlessee (c : Chan) : ((s.releaseReference i).channel c).lessee = (s.channel c).lessee := by
    rw [State.releaseReference_channel]
  have hends (p : Port) : leaseEndsFor (s.releaseReference i).table.notices p = leaseEndsFor s.table.notices p := by
    rw [State.releaseReference_notices]
  by_cases hlast : (s.region i).state = .retiring ∧ (s.region i).refs - 1 = 0
  · refine law.leaves (s.releaseReference_region i) (.inr hlast.1) (by simp [Region.released, hlast]) (fun p => ?_)
      (s.releaseReference_quotaMode i) hlessee hends
    rw [State.releaseReference_quota]
    simp only [hlast, true_and, and_self]
  · refine law.of_same (fun p => ?_) (s.releaseReference_quotaMode i) (.replaced (s.releaseReference_region i) ?_) hlessee hends
    · rw [State.releaseReference_quota, if_neg fun h => hlast h.1]
    · exact .of_eq (by rw [Region.released, if_neg hlast]) rfl rfl

theorem State.Quotas.closeSession (law : s.Quotas) (p : Port) (order : List Slot) : (s.closeSession p order).Quotas := by
  refine State.closeSession_keeps (P := State.Quotas) ?_ (fun h hq => h.freeRegion hq.live) (fun h => h.settleClosing p)
  refine law.of_same (s.closeBegun_quota p order) (s.closeBegun_quotaMode p order) (fun i => ?_)
    (fun c => by rw [State.closeBegun_channel]) fun q => by rw [State.closeBegun_notices]
  rw [State.closeBegun_region]
  exact .of_eq rfl rfl rfl

/-- ALLOCATE adds the region to its owner's counts, which have room for it (R8, R10). -/
theorem State.Quotas.place (law : s.Quotas) {p : Port} {i : Slot} {base length label : Nat}
    (hslot : (s.region i).state = .unused) (hquota : s.quotaAllows p length = true) :
    (s.placeRegion p i base length label).Quotas := by
  have hold := Region.not_counts (r := s.region i) (.inl hslot)
  have hfield (q : Port) : (s.placeRegion p i base length label).quota q =
      if p = q then { s.quota p with granules := (s.quota p).granules + length, regions := (s.quota p).regions + 1 }
      else s.quota q := by
    simp [State.placeRegion]
  refine law.region (s.setRegion_region i _) (fun q => ?_) (fun q => ?_) (fun q => ?_) (fun _ => rfl) (fun _ => rfl) fun h q => ?_
  · rw [Region.weight_of_not (hold q), hfield, Region.weight, Region.countsFor]
    simp only [beq_self_eq_true, Bool.true_or, Bool.true_and, beq_iff_eq]
    split_ifs with hq
    · rw [hq]
      rfl
    · rfl
  · rw [Region.one_of_not (hold q), hfield, Region.one, Region.countsFor]
    simp only [beq_self_eq_true, Bool.true_or, Bool.true_and, beq_iff_eq]
    split_ifs with hq
    · rw [hq]
    · rfl
  · rw [hfield]
    split_ifs with hq
    · rw [hq]
    · rfl
  · obtain ⟨hg, hr, hc⟩ := law.split h q
    have hmode : s.table.quotaMode = .split := h
    rw [State.quotaAllows, hmode] at hquota
    simp only [Bool.or_eq_true, Bool.and_eq_true, decide_eq_true_eq] at hquota
    have hroom := hquota.resolve_left (by decide)
    rw [hfield]
    split_ifs with hq
    · exact ⟨hroom.1, hroom.2, hc⟩
    · exact ⟨hg, hr, hc⟩

/-- ACCEPT moves the region from the counts of its old owner to those of the new, which have room for it (R27, R47, R48). -/
theorem State.Quotas.accept (law : s.Quotas) {p : Port} {i : Slot} (hlive : (s.region i).state = .live)
    (howner : p ≠ (s.region i).owner) (hquota : s.quotaAllows p (s.region i).length = true) :
    ((s.setRegion i ((s.region i).handedTo p)).moveQuota (s.region i).owner p (s.region i).length).Quotas := by
  have hfield (q : Port) :
      ((s.setRegion i ((s.region i).handedTo p)).moveQuota (s.region i).owner p (s.region i).length).quota q =
        if p = q then
          { s.quota p with
            granules := (s.quota p).granules + (s.region i).length, regions := (s.quota p).regions + 1 }
        else if (s.region i).owner = q then
          { s.quota q with
            granules := (s.quota q).granules - (s.region i).length, regions := (s.quota q).regions - 1 }
        else s.quota q := by
    unfold State.moveQuota
    simp only [State.setQuota_quota, State.setRegion_quota, howner.symm, if_false]
    split_ifs with h1 h2
    · rfl
    · rw [h2]
    · rfl
  have hold (q : Port) := Region.counts_iff (r := s.region i) (.inl hlive) q
  have hnew (q : Port) := Region.counts_iff (r := (s.region i).handedTo p) (.inl hlive) q
  refine law.region (i := i) (r := (s.region i).handedTo p) (fun j => by simp [State.moveQuota]) (fun q => ?_) (fun q => ?_)
    (fun q => ?_) (fun c => by simp [State.moveQuota]) (fun q => by simp [State.moveQuota]) fun h q => ?_
  · have hle := law.weight_le i q
    rw [hfield]
    simp only [Region.weight, hold, hnew] at hle ⊢
    show _ = _ + if p = q then (s.region i).length else 0
    by_cases hp : p = q
    · have hne : ¬ (s.region i).owner = q := fun h => howner (hp.trans h.symm)
      simp only [hp, hne, if_true, if_false, Nat.add_zero]
    · by_cases hq : (s.region i).owner = q
      · simp only [hp, hq, if_true, if_false] at hle ⊢
        omega
      · simp only [hp, hq, if_false]
  · have hle := law.one_le i q
    rw [hfield]
    simp only [Region.one, hold, hnew] at hle ⊢
    show _ = _ + if p = q then 1 else 0
    by_cases hp : p = q
    · have hne : ¬ (s.region i).owner = q := fun h => howner (hp.trans h.symm)
      simp only [hp, hne, if_true, if_false, Nat.add_zero]
    · by_cases hq : (s.region i).owner = q
      · simp only [hp, hq, if_true, if_false] at hle ⊢
        omega
      · simp only [hp, hq, if_false]
  · rw [hfield]
    split_ifs with h1
    · rw [h1]
    · rfl
    · rfl
  · have hmode : s.table.quotaMode = .split := by simpa [State.moveQuota] using h
    obtain ⟨hg, hr, hc⟩ := law.split hmode q
    rw [State.quotaAllows, hmode] at hquota
    simp only [Bool.or_eq_true, Bool.and_eq_true, decide_eq_true_eq] at hquota
    have hroom := hquota.resolve_left (by decide)
    rw [hfield]
    split_ifs
    · exact ⟨hroom.1, hroom.2, hc⟩
    · exact ⟨(Nat.sub_le _ _).trans hg, (Nat.sub_le _ _).trans hr, hc⟩
    · exact ⟨hg, hr, hc⟩

/-! ### The counts of channels -/

theorem leaseEndsFor_append (a b : List Notice) (p : Port) : leaseEndsFor (a ++ b) p = leaseEndsFor a p + leaseEndsFor b p := by
  rw [leaseEndsFor, leaseEndsFor, leaseEndsFor, List.filter_append, List.length_append]

theorem leaseEndsFor_of_none {ns : List Notice} (h : ∀ n ∈ ns, ∀ c q, n ≠ .leaseEnd c q) (p : Port) : leaseEndsFor ns p = 0 := by
  rw [leaseEndsFor, List.filter_eq_nil_iff.2, List.length_nil]
  intro n hn
  cases n with
  | leaseEnd c q => exact absurd rfl (h _ hn c q)
  | _ => exact Bool.false_ne_true

theorem leaseEndsFor_releases (x : Channel) (p : Port) : leaseEndsFor x.releases p = 0 :=
  leaseEndsFor_of_none (fun n hn c q => by obtain ⟨g, -, rfl | rfl⟩ := Channel.mem_releases hn <;> simp) p

theorem leaseEndsFor_leaseEnds (c : Chan) (x : Channel) (p : Port) : leaseEndsFor (x.leaseEnds c) p = x.leasedBy p := by
  unfold Channel.leaseEnds Channel.leasedBy leaseEndsFor
  cases x.lessee with
  | none => rfl
  | some q =>
    by_cases hq : q = p
    · simp [hq]
    · simp [hq]

/-- A claim moves no lease out of the counts: one that ends waits as a lease-end notice (R65). -/
theorem Effect.Shape.leases {c : Chan} {x : Channel} {e : Effect} (h : e.Shape c x) (p : Port) :
    e.channel.leasedBy p + leaseEndsFor e.notices p = x.leasedBy p := by
  cases h with
  | keeps hprogram hlessee hnotices =>
    rw [hnotices, Channel.leasedBy, Channel.leasedBy, hlessee]
    rfl
  | discards hprogram hlessee hnotices =>
    rw [hnotices, leaseEndsFor_releases, Channel.leasedBy, Channel.leasedBy, hlessee]
    rfl
  | tears hprogram hlessee hnotices =>
    rw [hnotices, leaseEndsFor_append, leaseEndsFor_releases, leaseEndsFor_leaseEnds, Channel.leasedBy, hlessee]
    simp

/-- One channel record changes, and with it the leases counted. -/
theorem State.Quotas.channel (law : s.Quotas) {c : Chan} {x : Channel}
    (hchannel : ∀ d, t.channel d = if c = d then x else s.channel d)
    (hregions : t.table.regions = s.table.regions)
    (hquota : ∀ p, (t.quota p).granules = (s.quota p).granules ∧ (t.quota p).regions = (s.quota p).regions)
    (hleases : ∀ p, (t.quota p).channels + (s.channel c).leasedBy p + leaseEndsFor s.table.notices p =
      (s.quota p).channels + x.leasedBy p + leaseEndsFor t.table.notices p)
    (hmode : t.table.quotaMode = s.table.quotaMode)
    (hsplit : s.table.quotaMode = .split → ∀ p, (t.quota p).channels ≤ Config.splitChannels) : t.Quotas where
  granules := fun p => by
    rw [(hquota p).1, law.granules]
    simp only [State.region, hregions]
  regions := fun p => by
    rw [(hquota p).2, law.regions]
    simp only [State.region, hregions]
  channels := fun p => by
    have hsum := sum_replaced (f := fun d => (s.channel d).leasedBy p) (g := fun d => (t.channel d).leasedBy p) c fun d hd => by
      rw [hchannel, if_neg hd]
    have hself : t.channel c = x := by rw [hchannel, if_pos rfl]
    rw [hself] at hsum
    have h1 := hleases p
    rw [law.channels] at h1
    generalize (∑ d, (t.channel d).leasedBy p) = after at hsum ⊢
    generalize (∑ d, (s.channel d).leasedBy p) = before at hsum h1
    omega
  split := fun h p => by
    obtain ⟨hg, hr, -⟩ := law.split (hmode ▸ h) p
    rw [(hquota p).1, (hquota p).2]
    exact ⟨hg, hr, hsplit (hmode ▸ h) p⟩

theorem State.Quotas.commit (law : s.Quotas) {c : Chan} {e : Effect} (he : e.Shape c (s.channel c)) : (s.commit c e).Quotas := by
  refine law.channel (fun d => s.commit_channel_eq c d e) (by simp) (fun p => by simp) (fun p => ?_) (by simp)
    fun h p => by simpa using (law.split h p).2.2
  rw [State.commit_notices_eq, leaseEndsFor_append, State.commit_quota, ← he.leases p]
  omega

/-- A record whose lessee stands. -/
theorem State.Quotas.setChannel (law : s.Quotas) {c : Chan} {x : Channel} (h : x.lessee = (s.channel c).lessee) :
    (s.setChannel c x).Quotas := by
  refine law.of_same (fun _ => rfl) rfl (fun _ => .refl _) (fun d => ?_) fun _ => rfl
  rw [State.setChannel_channel]
  split_ifs with hd
  · rw [h, hd]
  · rfl

theorem State.Quotas.lease (law : s.Quotas) {p : Port} {c : Chan} (hfree : (s.channel c).lessee = none)
    (hroom : s.table.quotaMode = .split → (s.quota p).channels < Config.splitChannels) :
    ((s.setChannel c (Channel.leasedTo p)).setLeases p ((s.quota p).channels + 1)).Quotas := by
  have hfield (q : Port) : ((s.setChannel c (Channel.leasedTo p)).setLeases p ((s.quota p).channels + 1)).quota q =
      if p = q then { s.quota p with channels := (s.quota p).channels + 1 } else s.quota q := by simp [State.setLeases]
  refine law.channel (x := Channel.leasedTo p) (fun d => s.setChannel_channel c _ d) rfl (fun q => ?_) (fun q => ?_) rfl fun h q => ?_
  · rw [hfield]; split_ifs with hq
    · rw [hq]; exact ⟨rfl, rfl⟩
    · exact ⟨rfl, rfl⟩
  · have hnew : (Channel.leasedTo p).leasedBy q = if p = q then 1 else 0 := by simp [Channel.leasedBy, Channel.leasedTo]
    have hold : (s.channel c).leasedBy q = 0 := by simp [Channel.leasedBy, hfree]
    show _ = _ + _ + leaseEndsFor s.table.notices q
    rw [hfield, hnew, hold]
    split_ifs with hq
    · rw [hq]
    · rfl
  · rw [hfield]; split_ifs with hq
    · exact hroom h
    · exact (law.split h q).2.2

/-- The lease counted for the lessee of a channel. -/
theorem State.Quotas.lease_pos (law : s.Quotas) {p : Port} {c : Chan} (h : (s.channel c).lessee = some p) :
    1 ≤ (s.quota p).channels := by
  have hle : (s.channel c).leasedBy p ≤ ∑ d, (s.channel d).leasedBy p :=
    Finset.single_le_sum (f := fun d => (s.channel d).leasedBy p) (fun _ _ => Nat.zero_le _) (Finset.mem_univ c)
  rw [Channel.leasedBy, if_pos h] at hle
  rw [law.channels]
  exact hle.trans (Nat.le_add_right _ _)

theorem State.Quotas.release (law : s.Quotas) {p : Port} {c : Chan} (hlessee : (s.channel c).lessee = some p) :
    (((s.setChannel c Channel.empty).notify (s.channel c).releases).setLeases p ((s.quota p).channels - 1)).Quotas := by
  have hpos := law.lease_pos hlessee
  have hfield (q : Port) :
      (((s.setChannel c Channel.empty).notify (s.channel c).releases).setLeases p ((s.quota p).channels - 1)).quota q =
        if p = q then { s.quota p with channels := (s.quota p).channels - 1 } else s.quota q := by simp [State.setLeases]
  refine law.channel (x := Channel.empty) (fun d => s.setChannel_channel c _ d) rfl (fun q => ?_) (fun q => ?_) rfl fun h q => ?_
  · rw [hfield]; split_ifs with hq
    · rw [hq]; exact ⟨rfl, rfl⟩
    · exact ⟨rfl, rfl⟩
  · have hnew : Channel.empty.leasedBy q = 0 := rfl
    have hold : (s.channel c).leasedBy q = if p = q then 1 else 0 := by simp [Channel.leasedBy, hlessee]
    show _ = _ + _ + leaseEndsFor (s.table.notices ++ (s.channel c).releases) q
    rw [hfield, hnew, hold, leaseEndsFor_append, leaseEndsFor_releases]
    split_ifs with hq
    · rw [← hq]; dsimp only; omega
    · rfl
  · rw [hfield]; split_ifs with hq
    · exact (Nat.sub_le _ _).trans (law.split h p).2.2
    · exact (law.split h q).2.2

/-- The lease-end notice ends what still counted (R65). -/
theorem State.Quotas.leaseEnd (law : s.Quotas) {p : Port} {c : Chan} {rest : List Notice}
    (hn : s.table.notices = .leaseEnd c p :: rest) :
    ((s.setNotices rest).setQuota p { s.quota p with channels := (s.quota p).channels - 1 }).Quotas := by
  have hfield (q : Port) : ((s.setNotices rest).setQuota p { s.quota p with channels := (s.quota p).channels - 1 }).quota q =
      if p = q then { s.quota p with channels := (s.quota p).channels - 1 } else s.quota q := by simp
  have hends (q : Port) : leaseEndsFor s.table.notices q = (if p = q then 1 else 0) + leaseEndsFor rest q := by
    rw [hn, ← List.singleton_append, leaseEndsFor_append]
    congr 1
    unfold leaseEndsFor
    by_cases hq : p = q
    · simp [hq]
    · simp [hq]
  have hpos : 1 ≤ (s.quota p).channels := by
    rw [law.channels, hends, if_pos rfl]
    omega
  refine law.channel (c := c) (x := s.channel c) (fun d => ?_) rfl (fun q => ?_) (fun q => ?_) rfl fun h q => ?_
  · split_ifs with hd
    · rw [hd]; rfl
    · rfl
  · rw [hfield]; split_ifs with hq
    · rw [hq]; exact ⟨rfl, rfl⟩
    · exact ⟨rfl, rfl⟩
  · show _ = _ + _ + leaseEndsFor rest q
    rw [hfield, hends]
    split_ifs with hq
    · rw [← hq]; dsimp only; omega
    · omega
  · rw [hfield]; split_ifs with hq
    · exact (Nat.sub_le _ _).trans (law.split h p).2.2
    · exact (law.split h q).2.2

/-! ### Every act -/

theorem State.Quotas.of_eq (law : s.Quotas) (htable : t.table.regions = s.table.regions)
    (hquotas : t.table.quotas = s.table.quotas) (hmode : t.table.quotaMode = s.table.quotaMode)
    (hnotices : t.table.notices = s.table.notices) (hchannels : t.chan.channels = s.chan.channels) : t.Quotas := by
  refine law.of_same (fun p => ?_) hmode (fun i => ?_) (fun c => ?_) fun p => by rw [hnotices]
  · rw [State.quota, hquotas]; rfl
  · rw [State.region, State.region, htable]; exact .refl _
  · rw [State.channel, hchannels]; rfl

theorem State.Act.quotas (h : s.Act t) (law : s.Quotas) (hchannels : s.ChannelLaw) (hoffers : s.OfferLaw) (hscrub : s.ScrubLaw) :
    t.Quotas := by
  cases h with
  | tick =>
    refine law.of_same (by simp) (by simp) (fun i => ?_) (by simp) (by simp)
    rw [State.mapRegions_region]
    exact .of_eq rfl rfl rfl
  | close p order => exact law.closeSession p order
  | place p i base length label hopen hslot hlen hin hfree hquota => exact law.place hslot hquota
  | free i hlive => exact law.freeRegion hlive
  | mark i pinned label =>
    exact law.of_same (fun _ => rfl) rfl (.replaced (s.setRegion_region i _) (.of_eq rfl rfl rfl)) (fun _ => rfl) fun _ => rfl
  | grant i q new =>
    refine law.of_same (by simp [State.setGrant]) (by simp [State.setGrant])
      (.replaced (i := i) (r := { s.region i with grants := put (s.region i).grants q new }) (fun j => ?_) (.of_eq rfl rfl rfl))
      (by simp [State.setGrant]) (by simp [State.setGrant])
    simp [State.setGrant]
  | offer i o =>
    exact law.of_same (fun _ => rfl) rfl (.replaced (s.setRegion_region i _) (.of_eq rfl rfl rfl)) (fun _ => rfl) fun _ => rfl
  | clearOffer i =>
    exact law.of_same (fun _ => rfl) rfl (.replaced (s.setRegion_region i _) (.of_eq rfl rfl rfl)) (fun _ => rfl) fun _ => rfl
  | accept p i o e hlive hoffer htarget hopen hquota =>
    have howner : p ≠ (s.region i).owner := htarget ▸ (hoffers i o hoffer).2.2.1
    exact (law.accept hlive howner hquota).of_eq (by simp) (by simp) (by simp) (by simp) (by simp)
  | lease p c hopen hfree hroom => exact law.lease ((hchannels.channel c).lessee.2 hfree) hroom
  | release p c hlessee => exact law.release hlessee
  | install p c g i j r =>
    refine law.of_same (fun q => ?_) ?_ (fun k => ?_) (fun d => ?_) fun q => ?_
    · rw [State.quota, s.install_table c g i j]; rfl
    · rw [s.install_table c g i j]
    · obtain ⟨n, hn⟩ := s.install_region c g i j k
      rw [hn]
      exact .of_eq rfl rfl rfl
    · rw [State.install_channel]
      split_ifs with hd
      · rw [← hd]
      · rfl
    · rw [s.install_table c g i j]
  | arm c g => exact law.setChannel rfl
  | resume c => exact law.setChannel rfl
  | suspend c cause => exact law.commit (makeRequest_shape c _ _)
  | abort c cause => exact law.commit (makeRequest_shape c _ _)
  | activate c => exact law.commit (activate_shape c _)
  | order o left => exact State.Quotas.commit (s := s.setOrders left) (law.of_eq rfl rfl rfl rfl rfl) (Order.effect_shape _ o)
  | raise n h =>
    refine law.of_same (fun _ => rfl) rfl (fun _ => .refl _) (fun _ => rfl) fun p => ?_
    show leaseEndsFor (s.table.notices ++ [n]) p = _
    rw [leaseEndsFor_append, leaseEndsFor_of_none (ns := [n]), Nat.add_zero]
    intro m hm
    rw [List.mem_singleton.1 hm]
    rcases h with ⟨q, rfl⟩ | ⟨j, rfl⟩ <;> simp
  | drop n rest hn h =>
    refine law.of_same (fun _ => rfl) rfl (fun _ => .refl _) (fun _ => rfl) fun p => ?_
    rw [hn, ← List.singleton_append, leaseEndsFor_append, leaseEndsFor_of_none (ns := [n]), Nat.zero_add]
    · rfl
    · intro m hm
      rw [List.mem_singleton.1 hm]
      rcases h with ⟨q, rfl⟩ | ⟨j, rfl⟩ | ⟨k, rfl, -⟩ <;> simp
  | referenceRelease h i rest hn =>
    refine State.Quotas.releaseReference (s := s.setNotices rest) (law.of_same (fun _ => rfl) rfl (fun _ => .refl _) (fun _ => rfl) fun p => ?_) i
    rw [hn, ← List.singleton_append, leaseEndsFor_append, leaseEndsFor_of_none (ns := [.referenceRelease h]), Nat.zero_add]
    · rfl
    · intro m hm
      rw [List.mem_singleton.1 hm]
      simp
  | leaseEnd c p rest hn => exact (law.leaseEnd hn).settleClosing p
  | scrubDone i rest hn =>
    have hscrubbing := (hscrub.scrubbing_of_notice (i := i) (by rw [hn]; exact List.mem_cons_self ..)).1
    have hold := Region.not_counts (r := s.region i) (.inr hscrubbing)
    have hnew := Region.not_counts (r := Region.empty (((s.setNotices rest).region i).gen + 1)) (.inl rfl)
    refine law.region (s.setRegion_region i _) (fun p => ?_) (fun p => ?_) (fun _ => rfl) (fun _ => rfl) (fun p => ?_) law.split
    · rw [Region.weight_of_not (hold p), Region.weight_of_not (hnew p)]; rfl
    · rw [Region.one_of_not (hold p), Region.one_of_not (hnew p)]; rfl
    · rw [hn, ← List.singleton_append, leaseEndsFor_append, leaseEndsFor_of_none (ns := [.scrubDone i]), Nat.zero_add]
      · rfl
      · intro m hm
        rw [List.mem_singleton.1 hm]
        simp
  | startUnit c g bases =>
    refine (law.setChannel (c := c) (x := (s.channel c).started g) ?_).of_eq rfl rfl rfl rfl rfl
    unfold Channel.started
    split_ifs <;> rfl
  | endReport u =>
    have idle : (s.setEngine { s.engine with unit := none }).Quotas := law.of_eq rfl rfl rfl rfl rfl
    have htaken := s.takeEndReport_taken u
    generalize s.takeEndReport u = t at htaken
    cases htaken with
    | noProgram => exact idle.setChannel rfl
    | claim e he => exact idle.commit he
    | chained e lessee chain he =>
      have htable := State.followChain_table ((s.setEngine { s.engine with unit := none }).commit u.channel e) u.channel lessee chain
      refine (idle.commit he).of_same (fun p => ?_) ?_ (fun i => ?_) (fun d => (State.followChain_channel _ _ _ _ d).2) fun p => ?_
      · rw [State.quota, htable]; rfl
      · rw [htable]
      · rw [State.region, State.region, htable]; exact .refl _
      · rw [htable]
  | scrubRunEnd e later hq =>
    refine law.of_same (fun _ => rfl) rfl (fun _ => .refl _) (fun _ => rfl) fun p => ?_
    show leaseEndsFor (s.table.notices ++ [.scrubDone e.slot]) p = _
    rw [leaseEndsFor_append, leaseEndsFor_of_none (ns := [.scrubDone e.slot]), Nat.add_zero]
    intro m hm
    rw [List.mem_singleton.1 hm]
    simp
  | _ => exact law.of_eq rfl rfl rfl rfl rfl

end

end Sys2Proof.Machine
end

section
/-! SUPPORT for O60: sessions and grants (R29, R140, R145). -/

set_option Elab.async false

namespace Sys2Proof.Machine

section
variable {s t : State}

/-! ### The law while a close frees its regions -/

/-- The law of sessions, but for the slots of `freeing`, which the close of port `p` is about to free (R142). -/
structure State.SessionLawBut (s : State) (p : Port) (freeing : List Slot) : Prop where
  owner : ∀ i, look (s.region i).grants (s.region i).owner = .none
  grants : ∀ q i, s.session q ≠ .opened → look (s.region i).grants q = .none
  live : ∀ q i, s.session q ≠ .opened → (s.region i).state = .live → (s.region i).owner = q →
    (s.region i).pinned = true ∨ q = p ∧ i ∈ freeing
  retiring : ∀ q i, s.session q = .closed → (s.region i).state = .retiring → (s.region i).owner ≠ q
  leases : ∀ q, s.session q = .closed → (s.quota q).channels = 0

theorem State.SessionLaw.but (law : s.SessionLaw) (p : Port) (freeing : List Slot) : s.SessionLawBut p freeing where
  owner := law.owner
  grants := law.grants
  live := fun q i hq hi ho => .inl (law.live q i hq hi ho)
  retiring := law.retiring
  leases := law.leases

theorem State.SessionLawBut.all {p : Port} (law : s.SessionLawBut p []) : s.SessionLaw where
  owner := law.owner
  grants := law.grants
  live := fun q i hq hi ho => (law.live q i hq hi ho).resolve_right fun h => List.not_mem_nil h.2
  retiring := law.retiring
  leases := law.leases

theorem look_noGrants (p : Port) : look noGrants p = .none := look_replicate _ _

/-! ### What keeps the law -/

/-- The law stands when sessions open or stand, no lease comes to a CLOSED port, and each record keeps what the law says of it. -/
theorem State.SessionLaw.of_regions (law : s.SessionLaw) (hsession : ∀ p, t.session p = .opened ∨ t.session p = s.session p)
    (hquota : ∀ p, s.session p = .closed → (t.quota p).channels ≤ (s.quota p).channels)
    (hregion : ∀ i, t.region i = s.region i ∨
      look (t.region i).grants (t.region i).owner = .none ∧
        ∀ q, t.session q ≠ .opened → look (t.region i).grants q = .none ∧
          ((t.region i).owner = q → ((t.region i).state = .live → (t.region i).pinned = true) ∧
            ((t.region i).state = .retiring → t.session q ≠ .closed))) : t.SessionLaw := by
  have before {q : Port} (hq : t.session q ≠ .opened) : t.session q = s.session q := (hsession q).resolve_left hq
  exact {
    owner := fun i => by
      rcases hregion i with hsame | hnew
      · rw [hsame]; exact law.owner i
      · exact hnew.1
    grants := fun q i hq => by
      rcases hregion i with hsame | hnew
      · rw [hsame]; exact law.grants q i (before hq ▸ hq)
      · exact (hnew.2 q hq).1
    live := fun q i hq hlive howner => by
      rcases hregion i with hsame | hnew
      · rw [hsame] at hlive howner ⊢; exact law.live q i (before hq ▸ hq) hlive howner
      · exact ((hnew.2 q hq).2 howner).1 hlive
    retiring := fun q i hq hretiring howner => by
      have hnot : t.session q ≠ .opened := by rw [hq]; decide
      rcases hregion i with hsame | hnew
      · rw [hsame] at hretiring howner; exact law.retiring q i (before hnot ▸ hq) hretiring howner
      · exact ((hnew.2 q hnot).2 howner).2 hretiring hq
    leases := fun q hq => by
      have hnot : t.session q ≠ .opened := by rw [hq]; decide
      have hclosed := before hnot ▸ hq
      have hle := hquota q hclosed
      rw [law.leases q hclosed] at hle
      exact Nat.le_zero.1 hle }

theorem State.SessionLaw.of_eq (law : s.SessionLaw) (hregions : t.table.regions = s.table.regions)
    (hsessions : t.table.sessions = s.table.sessions) (hquota : ∀ p, (t.quota p).channels = (s.quota p).channels) :
    t.SessionLaw :=
  law.of_regions (fun p => .inr (by rw [State.session, hsessions]; rfl)) (fun p _ => (hquota p).le)
    fun i => .inl (by rw [State.region, hregions]; rfl)

/-- One record changes whose owner is an OPEN port; its grants stand, or a grant of an OPEN port other than the owner has
changed, or there are none. -/
theorem State.SessionLaw.replaced (law : s.SessionLaw) {i : Slot} {r : Region}
    (hregion : ∀ j, t.region j = if i = j then r else s.region j) (hsession : ∀ p, t.session p = s.session p)
    (hquota : ∀ p, (t.quota p).channels = (s.quota p).channels) (howner : look r.grants r.owner = .none)
    (hgrants : ∀ q, s.session q ≠ .opened → look r.grants q = .none)
    (hstands : ∀ q, s.session q ≠ .opened → r.owner = q →
      (r.state = .live → r.pinned = true) ∧ (r.state = .retiring → s.session q ≠ .closed)) : t.SessionLaw := by
  refine law.of_regions (fun p => .inr (hsession p)) (fun p _ => (hquota p).le) fun j => ?_
  rw [hregion]
  split_ifs with hj
  · refine .inr ⟨howner, fun q hq => ?_⟩
    rw [hsession] at hq ⊢
    exact ⟨hgrants q hq, hstands q hq⟩
  · exact .inl rfl

/-- A record of which only fields that the law does not read have changed. -/
theorem State.SessionLaw.sameRecord (law : s.SessionLaw) {i : Slot} {r : Region}
    (hregion : ∀ j, t.region j = if i = j then r else s.region j) (hsession : ∀ p, t.session p = s.session p)
    (hquota : ∀ p, (t.quota p).channels = (s.quota p).channels) (hgrants : r.grants = (s.region i).grants)
    (howner : r.owner = (s.region i).owner) (hlive : r.state = .live → (s.region i).state = .live)
    (hretiring : r.state = .retiring → (s.region i).state = .retiring) (hpinned : r.pinned = (s.region i).pinned) :
    t.SessionLaw := by
  refine law.replaced hregion hsession hquota ?_ (fun q hq => ?_) fun q hq ho => ⟨fun hl => ?_, fun hr hclosed => ?_⟩
  · rw [hgrants, howner]; exact law.owner i
  · rw [hgrants]; exact law.grants q i hq
  · rw [hpinned]; exact law.live q i hq (hlive hl) (howner ▸ ho)
  · exact law.retiring q i hclosed (hretiring hr) (howner ▸ ho)

theorem State.SessionLaw.freeRegion (law : s.SessionLaw) {i : Slot} (hopen : s.session (s.region i).owner = .opened) :
    (s.freeRegion i).SessionLaw := by
  refine law.replaced (s.freeRegion_region i) (by simp) (fun p => ?_) (look_noGrants _) (fun q _ => look_noGrants q)
    fun q hq ho => ?_
  · rw [State.freeRegion_quota]; split_ifs <;> rfl
  · exact absurd (ho ▸ hopen) hq

/-- A port closes only when nothing is left for its closing to wait for (R145). -/
theorem State.SessionLaw.settleClosing (law : s.SessionLaw) (p : Port) : (s.settleClosing p).SessionLaw := by
  have notOpened {q : Port} (hq : (s.settleClosing p).session q ≠ .opened) : s.session q ≠ .opened :=
    fun h => hq (s.settleClosing_opened p h)
  have closed {q : Port} (hq : (s.settleClosing p).session q = .closed) : s.session q = .closed ∨
      (s.quota q).channels = 0 ∧ ∀ i, (s.region i).state = .retiring → (s.region i).owner ≠ q := by
    rcases s.settleClosing_session p q with he | ⟨-, hqp, -, hleases, hretiring⟩
    · exact .inl (he ▸ hq)
    · exact .inr ⟨hqp ▸ hleases, hqp ▸ hretiring⟩
  exact {
    owner := fun i => by rw [State.settleClosing_region]; exact law.owner i
    grants := fun q i hq => by rw [State.settleClosing_region]; exact law.grants q i (notOpened hq)
    live := fun q i hq => by rw [State.settleClosing_region]; exact law.live q i (notOpened hq)
    retiring := fun q i hq => by
      rw [State.settleClosing_region]
      rcases closed hq with h | ⟨-, h⟩
      · exact law.retiring q i h
      · exact h i
    leases := fun q hq => by
      rw [State.settleClosing_quota]
      rcases closed hq with h | ⟨h, -⟩
      · exact law.leases q h
      · exact h }

/-! ### A session close -/

theorem State.SessionLaw.closeBegun (law : s.SessionLaw) (p : Port) (order : List Slot) :
    (s.closeBegun p order).SessionLawBut p ((s.closeBegun p order).closeFrees p) := by
  have before {q : Port} (hq : p ≠ q) : (s.closeBegun p order).session q = s.session q := by
    rw [State.closeBegun_session, if_neg hq]
  have hclosing : (s.closeBegun p order).session p = .closing := by rw [State.closeBegun_session, if_pos rfl]
  have hgrants (i : Slot) (q : Port) : look ((s.closeBegun p order).region i).grants q =
      if p = q then .none else look (s.region i).grants q := by
    rw [State.closeBegun_region]
    exact look_put _ _ _ _
  have hsame (i : Slot) : ((s.closeBegun p order).region i).owner = (s.region i).owner ∧
      ((s.closeBegun p order).region i).state = (s.region i).state ∧
      ((s.closeBegun p order).region i).pinned = (s.region i).pinned := by
    rw [State.closeBegun_region]; exact ⟨rfl, rfl, rfl⟩
  exact {
    owner := fun i => by
      rw [hgrants, (hsame i).1]
      split_ifs
      · rfl
      · exact law.owner i
    grants := fun q i hq => by
      rw [hgrants]
      split_ifs with hpq
      · rfl
      · exact law.grants q i (before hpq ▸ hq)
    live := fun q i hq hlive howner => by
      by_cases hpq : p = q
      · by_cases hpinned : ((s.closeBegun p order).region i).pinned = true
        · exact .inl hpinned
        · exact .inr ⟨hpq.symm, (State.mem_closeFrees _ p i).2 ⟨hlive, howner.trans hpq.symm, by simpa using hpinned⟩⟩
      · obtain ⟨ho, hs, hp⟩ := hsame i
        rw [hp]
        exact .inl (law.live q i (before hpq ▸ hq) (hs ▸ hlive) (ho ▸ howner))
    retiring := fun q i hq hretiring howner => by
      by_cases hpq : p = q
      · rw [← hpq, hclosing] at hq; cases hq
      · obtain ⟨ho, hs, -⟩ := hsame i
        exact law.retiring q i (before hpq ▸ hq) (hs ▸ hretiring) (ho ▸ howner)
    leases := fun q hq => by
      rw [State.closeBegun_quota]
      by_cases hpq : p = q
      · rw [← hpq, hclosing] at hq; cases hq
      · exact law.leases q (before hpq ▸ hq) }

theorem State.SessionLawBut.freeRegion {p : Port} {i : Slot} {is : List Slot} (law : s.SessionLawBut p (i :: is))
    (hclosing : s.session p = .closing) (howner : (s.region i).owner = p) : (s.freeRegion i).SessionLawBut p is := by
  have hfreed : (s.region i).freed.state ≠ .live := by unfold Region.freed; dsimp only; split_ifs <;> simp
  have hself : (s.freeRegion i).region i = (s.region i).freed := by rw [State.freeRegion_region, if_pos rfl]
  have hother {j : Slot} (hj : i ≠ j) : (s.freeRegion i).region j = s.region j := by rw [State.freeRegion_region, if_neg hj]
  have hsession (q : Port) : (s.freeRegion i).session q = s.session q := by simp
  have hnone (q : Port) : look (s.region i).freed.grants q = .none := look_noGrants q
  exact {
    owner := fun j => by
      by_cases hj : i = j
      · rw [← hj, hself]; exact hnone _
      · rw [hother hj]; exact law.owner j
    grants := fun q j hq => by
      by_cases hj : i = j
      · rw [← hj, hself]; exact hnone _
      · rw [hother hj]; exact law.grants q j (hsession q ▸ hq)
    live := fun q j hq hlive ho => by
      by_cases hj : i = j
      · rw [← hj, hself] at hlive; exact absurd hlive hfreed
      · rw [hother hj] at hlive ho ⊢
        rcases law.live q j (hsession q ▸ hq) hlive ho with h | ⟨hq, hmem⟩
        · exact .inl h
        · exact .inr ⟨hq, (List.mem_cons.1 hmem).resolve_left (Ne.symm hj)⟩
    retiring := fun q j hq hretiring ho => by
      rw [hsession] at hq
      by_cases hj : i = j
      · rw [← hj, hself] at ho
        have hp : p = q := howner.symm.trans ho
        rw [← hp, hclosing] at hq
        cases hq
      · rw [hother hj] at hretiring ho
        exact law.retiring q j hq hretiring ho
    leases := fun q hq => by
      have hchannels : ((s.freeRegion i).quota q).channels = (s.quota q).channels := by
        rw [State.freeRegion_quota]; split_ifs <;> rfl
      rw [hchannels]
      exact law.leases q (hsession q ▸ hq) }

theorem State.SessionLawBut.foldl_freeRegion {p : Port} {is : List Slot} (law : s.SessionLawBut p is) (hnodup : is.Nodup)
    (hclosing : s.session p = .closing) (howner : ∀ i ∈ is, (s.region i).owner = p) :
    (is.foldl State.freeRegion s).SessionLaw := by
  induction is generalizing s with
  | nil => exact law.all
  | cons i is ih =>
    obtain ⟨hnot, hnodup⟩ := List.nodup_cons.1 hnodup
    refine ih (law.freeRegion hclosing (howner i (List.mem_cons_self ..))) hnodup (by simpa using hclosing) fun j hj => ?_
    have hne : i ≠ j := fun he => hnot (he ▸ hj)
    rw [State.freeRegion_region, if_neg hne]
    exact howner j (List.mem_cons_of_mem i hj)

theorem State.SessionLaw.closeSession (law : s.SessionLaw) (p : Port) (order : List Slot) :
    (s.closeSession p order).SessionLaw := by
  rw [State.closeSession_eq]
  refine State.SessionLaw.settleClosing ((law.closeBegun p order).foldl_freeRegion (State.closeFrees_nodup _ p) ?_ fun i hi => ?_) p
  · rw [State.closeBegun_session, if_pos rfl]
  · exact ((State.mem_closeFrees _ p i).1 hi).2.1

/-! ### Every act -/

theorem State.SessionLaw.releaseReference (law : s.SessionLaw) (i : Slot) : (s.releaseReference i).SessionLaw := by
  have hsettled : s.releaseReference i = State.settleClosing (let r := s.region i
      let t := s.setRegion i { r with refs := r.refs - 1 }
      if r.state = .retiring ∧ r.refs - 1 = 0 then (t.enterScrubbing i).offerEvent r.owner (.regionRetired (s.handle i)) else t)
      (s.region i).owner := rfl
  rw [hsettled]
  refine State.SessionLaw.settleClosing ?_ _
  dsimp only
  split_ifs with hlast
  · refine law.sameRecord (i := i) (r := { s.region i with state := .scrubbing, refs := 0 }) (fun j => ?_) (by simp) (fun p => ?_) rfl rfl
      (by simp) (by simp) rfl
    · rw [State.offerEvent_region, State.enterScrubbing_region, State.setRegion_region, if_pos rfl, State.setRegion_region]
      split_ifs <;> rfl
    · rw [State.offerEvent_quota, State.enterScrubbing_quota]
      split_ifs <;> rfl
  · exact law.sameRecord (s.setRegion_region i _) (fun _ => rfl) (fun _ => rfl) rfl rfl id id rfl

theorem State.Act.sessionLaw (h : s.Act t) (law : s.SessionLaw) : t.SessionLaw := by
  have claimed {u : State} (hu : u.SessionLaw) (c : Chan) (e : Effect) : (u.commit c e).SessionLaw :=
    hu.of_eq (by simp) (by simp) (by simp)
  cases h with
  | tick =>
    refine {
      owner := fun i => by rw [State.mapRegions_region]; exact law.owner i
      grants := fun q i hq => by rw [State.mapRegions_region]; exact law.grants q i (by simpa using hq)
      live := fun q i hq => by rw [State.mapRegions_region]; exact law.live q i (by simpa using hq)
      retiring := fun q i hq => by rw [State.mapRegions_region]; exact law.retiring q i (by simpa using hq)
      leases := fun q hq => by rw [State.mapRegions_quota]; exact law.leases q (by simpa using hq) }
  | openPort p h =>
    refine law.of_regions (fun q => ?_) (fun _ _ => le_rfl) fun _ => .inl rfl
    rw [State.setSession_session]
    split_ifs
    · exact .inl rfl
    · exact .inr rfl
  | close p order => exact law.closeSession p order
  | place p i base length label hopen =>
    refine law.replaced (s.setRegion_region i _) (fun _ => rfl) (fun q => ?_) (look_noGrants _) (fun q _ => look_noGrants q)
      fun q hq ho => absurd (ho ▸ hopen) hq
    simp only [State.placeRegion, State.setGranules_quota, State.setQuota_quota]
    split_ifs with hq
    · rw [hq]
    · rfl
  | free i hlive hoffer hopen => exact law.freeRegion hopen
  | mark i pinned label hlive hopen =>
    exact law.replaced (s.setRegion_region i _) (fun _ => rfl) (fun _ => rfl) (law.owner i) (fun q => law.grants q i)
      fun q hq ho => absurd (ho ▸ hopen) hq
  | grant i q new hlive howner hopen =>
    refine law.replaced (i := i) (r := { s.region i with grants := put (s.region i).grants q new })
      (fun j => by simp [State.setGrant]) (by simp [State.setGrant]) (by simp [State.setGrant]) ?_ (fun p hp => ?_)
      fun p hp ho => ⟨fun _ => law.live p i hp hlive ho, fun hr => by rw [show (s.region i).state = .retiring from hr] at hlive; cases hlive⟩
    · exact (look_put_ne _ _ howner.symm).trans (law.owner i)
    · refine (look_put_ne _ _ ?_).trans (law.grants p i hp)
      rintro rfl
      exact hp hopen
  | offer i o => exact law.sameRecord (s.setRegion_region i _) (fun _ => rfl) (fun _ => rfl) rfl rfl id id rfl
  | clearOffer i => exact law.sameRecord (s.setRegion_region i _) (fun _ => rfl) (fun _ => rfl) rfl rfl id id rfl
  | accept p i o e hlive hoffer htarget hopen =>
    have hgrants (q : Port) : look ((s.region i).handedTo p).grants q =
        if (s.region i).owner = q then .none else if p = q then .none else look (s.region i).grants q := by
      unfold Region.handedTo
      dsimp only
      rw [look_put, look_put]
    refine law.replaced (i := i) (r := (s.region i).handedTo p) (fun j => by simp [State.moveQuota]) (by simp [State.moveQuota])
      (fun q => ?_) ?_ (fun q hq => ?_) fun q hq ho => absurd (ho ▸ hopen) hq
    · simp only [State.moveQuota, State.sendDiscards_quota, State.offerEvent_quota, State.setQuota_quota, State.setRegion_quota]
      split_ifs with h1 h2 h3
      · rw [← h1, ← h2]
      · rw [h1]
      · rw [h3]
      · rfl
    · have howner : ((s.region i).handedTo p).owner = p := rfl
      rw [hgrants, howner, if_pos (rfl : p = p), ite_self]
    · rw [hgrants]
      split_ifs
      · rfl
      · rfl
      · exact law.grants q i hq
  | lease p c hopen hfree =>
    refine law.of_regions (fun _ => .inr rfl) (fun q hq => ?_) fun _ => .inl rfl
    have hne : p ≠ q := by rintro rfl; rw [hopen] at hq; cases hq
    simp [State.setLeases, hne]
  | release p c hlessee =>
    refine law.of_regions (fun _ => .inr rfl) (fun q _ => ?_) fun _ => .inl rfl
    simp only [State.setLeases, State.setQuota_quota, State.notify_quota, State.setChannel_quota]
    split_ifs with hq
    · rw [hq]; exact Nat.sub_le _ _
    · exact le_rfl
  | install p c g i j r =>
    have hregion (k : Slot) := s.install_region c g i j k
    have htable := s.install_table c g i j
    refine {
      owner := fun k => ?_
      grants := fun q k hq => ?_
      live := fun q k hq => ?_
      retiring := fun q k hq => ?_
      leases := fun q hq => ?_ }
    · obtain ⟨n, hn⟩ := hregion k; rw [hn]; exact law.owner k
    · rw [State.session, htable] at hq
      obtain ⟨n, hn⟩ := hregion k; rw [hn]; exact law.grants q k hq
    · rw [State.session, htable] at hq
      obtain ⟨n, hn⟩ := hregion k; rw [hn]; exact law.live q k hq
    · rw [State.session, htable] at hq
      obtain ⟨n, hn⟩ := hregion k; rw [hn]; exact law.retiring q k hq
    · rw [State.session, htable] at hq
      rw [State.quota, htable]; exact law.leases q hq
  | suspend c cause => exact claimed law c _
  | abort c cause => exact claimed law c _
  | activate c => exact claimed law c _
  | order o left => exact claimed (u := s.setOrders left) (law.of_eq rfl rfl fun _ => rfl) _ _
  | referenceRelease h i rest =>
    exact State.SessionLaw.releaseReference (s := s.setNotices rest) (law.of_eq rfl rfl fun _ => rfl) i
  | leaseEnd c p rest =>
    have hlaw : ((s.setNotices rest).setQuota p { s.quota p with channels := (s.quota p).channels - 1 }).SessionLaw := by
      refine law.of_regions (fun _ => .inr rfl) (fun q _ => ?_) fun _ => .inl rfl
      simp only [State.setQuota_quota, State.setNotices_quota]
      split_ifs with hq
      · rw [hq]; exact Nat.sub_le _ _
      · exact le_rfl
    exact hlaw.settleClosing p
  | scrubDone i rest =>
    exact law.replaced (s.setRegion_region i _) (fun _ => rfl) (fun _ => rfl) (look_noGrants _) (fun q _ => look_noGrants q)
      fun q _ _ => ⟨(fun hl => by cases hl), fun hr => by cases hr⟩
  | endReport u =>
    obtain ⟨notices, htable⟩ := s.takeEndReport_table u
    exact law.of_eq (by rw [htable]) (by rw [htable]) fun p => by rw [State.quota, htable]; rfl
  | _ => exact law.of_eq rfl rfl fun _ => rfl

end

end Sys2Proof.Machine
end

section
/-! SUPPORT for O60: references and retirement (R11, R12, R15, R73). -/

set_option Elab.async false

namespace Sys2Proof.Machine

/-! ### Counting references -/

/-- The sides of a channel's program that name a slot. -/
def Channel.sidesOn (x : Channel) (i : Slot) : Nat := (x.program.map fun g => g.sidesOn i).getD 0

/-- The release notices for a slot in a queue. -/
def releasesFor (ns : List Notice) (i : Slot) : Nat := (ns.filter fun n => n.releases i).length

theorem State.sidesOn_eq (s : State) (i : Slot) : s.sidesOn i = ∑ c, (s.channel c).sidesOn i := sum_indices _

theorem releasesFor_append (a b : List Notice) (i : Slot) : releasesFor (a ++ b) i = releasesFor a i + releasesFor b i := by
  rw [releasesFor, releasesFor, releasesFor, List.filter_append, List.length_append]

theorem releasesFor_of_none {ns : List Notice} {i : Slot} (h : ∀ n ∈ ns, n.releases i = false) : releasesFor ns i = 0 := by
  rw [releasesFor, List.filter_eq_nil_iff.2, List.length_nil]
  exact fun n hn => Bool.eq_false_iff.1 (h n hn)

theorem releasesFor_releases (x : Channel) (i : Slot) : releasesFor x.releases i = x.sidesOn i := by
  unfold Channel.releases Channel.sidesOn
  cases x.program with
  | none => rfl
  | some g =>
    have e (h : Handle) : (Notice.referenceRelease h).releases i = decide (h.slot? = some i) := by
      rw [Bool.eq_iff_iff]; simp [Notice.releases]
    simp only [releasesFor, List.filter_cons, List.filter_nil, e, decide_eq_true_eq, Option.map_some, Option.getD_some,
      Program.sidesOn]
    split_ifs <;> rfl

theorem releasesFor_leaseEnds (c : Chan) (x : Channel) (i : Slot) : releasesFor (x.leaseEnds c) i = 0 :=
  releasesFor_of_none fun n hn => by obtain ⟨p, rfl⟩ := Channel.mem_leaseEnds hn; rfl

/-- A claim loses no reference: what a program held waits as release notices (R11). -/
theorem Effect.Shape.sides {c : Chan} {x : Channel} {e : Effect} (h : e.Shape c x) (i : Slot) :
    e.channel.sidesOn i + releasesFor e.notices i = x.sidesOn i := by
  cases h with
  | keeps hprogram hlessee hnotices =>
    rw [hnotices, Channel.sidesOn, Channel.sidesOn, hprogram]
    rfl
  | discards hprogram hlessee hnotices =>
    rw [hnotices, releasesFor_releases, Channel.sidesOn, hprogram]
    exact Nat.zero_add _
  | tears hprogram hlessee hnotices =>
    rw [hnotices, releasesFor_append, releasesFor_releases, releasesFor_leaseEnds, Channel.sidesOn, hprogram]
    exact Nat.zero_add _

/-- What a claim leaves of a program was there before. -/
theorem Effect.Shape.program {c : Chan} {x : Channel} {e : Effect} (h : e.Shape c x) {g : Program} (hg : g ∈ e.channel.program) :
    g ∈ x.program := by
  cases h with
  | keeps hprogram hlessee hnotices => rwa [hprogram] at hg
  | discards hprogram hlessee hnotices => rw [hprogram] at hg; cases hg
  | tears hprogram hlessee hnotices => rw [hprogram] at hg; cases hg

/-- A release notice is for a region the program named. -/
theorem Effect.Shape.released {c : Chan} {x : Channel} {e : Effect} (h : e.Shape c x) {k : Handle}
    (hk : .referenceRelease k ∈ e.notices) : ∃ g ∈ x.program, g.names k = true := by
  have ofReleases (hmem : .referenceRelease k ∈ x.releases) : ∃ g ∈ x.program, g.names k = true := by
    obtain ⟨g, hg, heq | heq⟩ := Channel.mem_releases hmem
    · cases heq; exact ⟨g, hg, by simp [Program.names]⟩
    · cases heq; exact ⟨g, hg, by simp [Program.names]⟩
  cases h with
  | keeps hprogram hlessee hnotices => rw [hnotices] at hk; cases hk
  | discards hprogram hlessee hnotices => rw [hnotices] at hk; exact ofReleases hk
  | tears hprogram hlessee hnotices =>
    rw [hnotices] at hk
    rcases List.mem_append.1 hk with hk | hk
    · exact ofReleases hk
    · obtain ⟨p, hp⟩ := Channel.mem_leaseEnds hk
      cases hp

/-! ### The law without the law of scrubbing -/

/-- The laws of references and retirement, over sums and apart from the law of scrubbing. -/
structure State.References (s : State) : Prop where
  count : ∀ i, (s.region i).refs = (∑ c, (s.channel c).sidesOn i) + releasesFor s.table.notices i
  zero : ∀ i, (s.region i).state = .unused ∨ (s.region i).state = .scrubbing → (s.region i).refs = 0
  retiring : ∀ i, (s.region i).state = .retiring → 0 < (s.region i).refs
  handles : ∀ h, s.usesHandle h → ∃ i, h.slot? = some i ∧ h.gen = (s.region i).gen
  leaves : ∀ i, (s.region i).state = .retiring →
    ∀ c, ∀ g ∈ (s.channel c).program, g.names (s.handle i) = true → s.leaving c (s.handle i)
  runs : ∀ e ∈ s.scrub.queue, e.base = (s.region e.slot).base ∧ e.length = (s.region e.slot).length

section
variable {s t : State}

theorem State.referenceLaw_iff (s : State) : s.ReferenceLaw ↔ s.References ∧ s.ScrubLaw := by
  constructor
  · rintro ⟨h1, h2, h3, h4, h5, h6, h7⟩
    exact ⟨⟨fun i => (h1 i).trans (by rw [s.sidesOn_eq]; rfl), h2, h3, h4, h5, h7⟩, h6⟩
  · rintro ⟨⟨h1, h2, h3, h4, h5, h7⟩, h6⟩
    exact ⟨fun i => (h1 i).trans (by rw [s.sidesOn_eq]; rfl), h2, h3, h4, h5, h6, h7⟩

/-- A slot without a reference is named by no program and waited for by no release notice. -/
theorem State.References.no_sides (law : s.References) {i : Slot} (h : (s.region i).refs = 0) (c : Chan) :
    (s.channel c).sidesOn i = 0 := by
  have hcount := law.count i
  rw [h] at hcount
  have hsum : (∑ d, (s.channel d).sidesOn i) = 0 := by omega
  exact (Finset.sum_eq_zero_iff.1 hsum) c (Finset.mem_univ c)

theorem Channel.sidesOn_pos {x : Channel} {g : Program} {h : Handle} {i : Slot} (hg : g ∈ x.program) (hnames : g.names h = true)
    (hi : h.slot? = some i) : 0 < x.sidesOn i := by
  rw [Channel.sidesOn, Option.mem_def.1 hg, Option.map_some, Option.getD_some, Program.sidesOn]
  simp only [Program.names, Bool.or_eq_true, beq_iff_eq] at hnames
  rcases hnames with rfl | rfl <;> simp [hi]

theorem State.References.not_used (law : s.References) {i : Slot} (h : (s.region i).refs = 0) {k : Handle} (hk : s.usesHandle k) :
    k.slot? ≠ some i := by
  intro hi
  rcases hk with ⟨c, g, hg, hnames⟩ | hmem
  · have hpos := Channel.sidesOn_pos hg hnames hi
    rw [law.no_sides h] at hpos
    exact Nat.lt_irrefl 0 hpos
  · have hcount := law.count i
    rw [h] at hcount
    have hpos : 0 < releasesFor s.table.notices i :=
      List.length_pos_of_mem (List.mem_filter.2 ⟨hmem, by simp [Notice.releases, hi]⟩)
    omega

theorem State.handle_slot (s : State) (i : Slot) : (s.handle i).slot? = some i := by
  refine Handle.slot?_of_toNat ?_
  have := i.isLt
  simp only [State.handle, BitVec.toNat_ofNat]
  omega

theorem Handle.eq_of_slot {h k : Handle} {i : Slot} (hh : h.slot? = some i) (hk : k.slot? = some i) (hgen : h.gen = k.gen) : h = k := by
  have slot {x : Handle} (hx : x.slot? = some i) : x.slot.toNat = i.val := by
    unfold Handle.slot? at hx
    split_ifs at hx
    exact congrArg Fin.val (Option.some.inj hx)
  obtain ⟨hg, hs⟩ := h
  obtain ⟨kg, ks⟩ := k
  have hs' : hs.toNat = i.val := slot hh
  have ks' : ks.toNat = i.val := slot hk
  obtain rfl : hs = ks := BitVec.eq_of_toNat_eq (hs'.trans ks'.symm)
  obtain rfl : hg = kg := hgen
  rfl

/-! ### Regions that change, programs that stand -/

/-- What the law reads of the rest of the hub, unchanged or with orders more. -/
structure State.SamePrograms (s t : State) : Prop where
  channel : ∀ c, (t.channel c).program = (s.channel c).program ∧ (t.channel c).recorded = (s.channel c).recorded
  notices : t.table.notices = s.table.notices
  orders : s.chan.orders ⊆ t.chan.orders

theorem State.SamePrograms.usesHandle (h : s.SamePrograms t) (k : Handle) : t.usesHandle k ↔ s.usesHandle k := by
  unfold State.usesHandle
  rw [h.notices]
  simp only [(h.channel _).1]

theorem State.SamePrograms.sidesOn (h : s.SamePrograms t) (c : Chan) (i : Slot) : (t.channel c).sidesOn i = (s.channel c).sidesOn i := by
  rw [Channel.sidesOn, Channel.sidesOn, (h.channel c).1]

theorem State.SamePrograms.leaving (h : s.SamePrograms t) {c : Chan} {k : Handle} (hl : s.leaving c k) : t.leaving c k := by
  rcases hl with ⟨batch, hbatch, hmem⟩ | hrec
  · exact .inl ⟨batch, h.orders hbatch, hmem⟩
  · exact .inr (by rw [(h.channel c).2]; exact hrec)

/-- The law stands when regions keep their generation and their counts, those in the scrub queue their runs, and a region that has
become RETIRING has sent its orders. -/
theorem State.References.of_regions (law : s.References) (hsame : s.SamePrograms t)
    (hregion : ∀ i, (t.region i).gen = (s.region i).gen ∧ (t.region i).refs = (s.region i).refs)
    (hzero : ∀ i, (t.region i).state = .unused ∨ (t.region i).state = .scrubbing → (t.region i).refs = 0)
    (hretiring : ∀ i, (t.region i).state = .retiring → (s.region i).state = .retiring ∨
      0 < (s.region i).refs ∧ ∀ c, ∀ g ∈ (s.channel c).program, g.names (s.handle i) = true → t.leaving c (s.handle i))
    (hruns : ∀ e ∈ t.scrub.queue, e.base = (t.region e.slot).base ∧ e.length = (t.region e.slot).length) : t.References where
  count := fun i => by rw [(hregion i).2, law.count, hsame.notices]; simp only [hsame.sidesOn]
  zero := hzero
  retiring := fun i hi => by
    rw [(hregion i).2]
    rcases hretiring i hi with h | ⟨h, -⟩
    · exact law.retiring i h
    · exact h
  handles := fun k hk => by
    obtain ⟨i, hi, hgen⟩ := law.handles k ((hsame.usesHandle k).1 hk)
    exact ⟨i, hi, hgen.trans (hregion i).1.symm⟩
  leaves := fun i hi c g hg hnames => by
    have hhandle : t.handle i = s.handle i := by rw [State.handle, State.handle, (hregion i).1]
    rw [(hsame.channel c).1] at hg
    rw [hhandle] at hnames ⊢
    rcases hretiring i hi with h | ⟨-, h⟩
    · exact hsame.leaving (law.leaves i h c g hg hnames)
    · exact h c g hg hnames
  runs := hruns

/-- A record of which no field the law reads has changed. -/
structure Region.SameUse (a b : Region) : Prop where
  gen : b.gen = a.gen
  state : b.state = a.state
  base : b.base = a.base
  length : b.length = a.length
  refs : b.refs = a.refs

theorem Region.SameUse.refl (r : Region) : r.SameUse r := ⟨rfl, rfl, rfl, rfl, rfl⟩

theorem State.References.of_same (law : s.References) (hsame : s.SamePrograms t)
    (hregion : ∀ i, (s.region i).SameUse (t.region i)) (hqueue : t.scrub.queue ⊆ s.scrub.queue) : t.References := by
  refine law.of_regions hsame (fun i => ⟨(hregion i).gen, (hregion i).refs⟩) (fun i hi => ?_) (fun i hi => ?_) fun e he => ?_
  · rw [(hregion i).state] at hi
    rw [(hregion i).refs]
    exact law.zero i hi
  · rw [(hregion i).state] at hi
    exact .inl hi
  · rw [(hregion e.slot).base, (hregion e.slot).length]
    exact law.runs e (hqueue he)

theorem State.SamePrograms.of_eq (hchannels : t.chan.channels = s.chan.channels) (hnotices : t.table.notices = s.table.notices)
    (horders : s.chan.orders ⊆ t.chan.orders) : s.SamePrograms t :=
  ⟨fun c => by rw [State.channel, hchannels]; exact ⟨rfl, rfl⟩, hnotices, horders⟩

theorem State.References.of_eq (law : s.References) (hchannels : t.chan.channels = s.chan.channels)
    (hnotices : t.table.notices = s.table.notices) (horders : t.chan.orders = s.chan.orders)
    (hregions : t.table.regions = s.table.regions) (hqueue : t.scrub.queue = s.scrub.queue) : t.References :=
  law.of_same (.of_eq hchannels hnotices (by rw [horders]; exact fun _ h => h))
    (fun i => by rw [State.region, State.region, hregions]; exact .refl _) (by rw [hqueue]; exact fun _ h => h)

theorem State.References.record (law : s.References) {i : Slot} {r : Region}
    (hregion : ∀ j, t.region j = if i = j then r else s.region j) (hr : (s.region i).SameUse r) (hsame : s.SamePrograms t)
    (hqueue : t.scrub.queue = s.scrub.queue) : t.References := by
  refine law.of_same hsame (fun j => ?_) (by rw [hqueue]; exact fun _ h => h)
  rw [hregion]
  split_ifs with hj
  · exact hj ▸ hr
  · exact .refl _

/-- The order a channel is sent when a region its program names is freed (R15). -/
theorem State.sendDiscards_leaving (u : State) (h : Handle) {c : Chan} (f : Channel → Bool) (hf : f (u.channel c) = true)
    (cause : DiscardCause) : (u.sendDiscards cause h f).leaving c h := by
  have hc : c ∈ u.channelsWhere f := (State.channelsWhere_mem u f c).2 hf
  unfold State.sendDiscards State.sendOrders
  have hmem : ({ channel := c, kind := .discard cause h } : Order) ∈
      (u.channelsWhere f).map fun c => ({ channel := c, kind := .discard cause h } : Order) := List.mem_map_of_mem hc
  rw [if_neg (by rw [List.isEmpty_iff]; exact List.ne_nil_of_mem hmem)]
  exact .inl ⟨_, List.mem_append_right _ (List.mem_singleton_self _), _, hmem, cause, rfl⟩

theorem State.leaving_of_orders {u : State} {c : Chan} {h : Handle} (hu : u.chan.orders ⊆ t.chan.orders)
    (hrec : (t.channel c).recorded = (u.channel c).recorded) (hl : u.leaving c h) : t.leaving c h := by
  rcases hl with ⟨batch, hbatch, hmem⟩ | hr
  · exact .inl ⟨batch, hu hbatch, hmem⟩
  · exact .inr (hrec ▸ hr)

/-- A freed region waits for its references with its orders sent, or has none and is scrubbed (R14, R15). -/
theorem State.References.freeRegion (law : s.References) {i : Slot} (hlive : (s.region i).state = .live) :
    (s.freeRegion i).References := by
  have horders : s.chan.orders ⊆ (s.freeRegion i).chan.orders := by
    rw [State.freeRegion_orders]
    split_ifs
    · exact fun _ h => h
    · exact State.sendOrders_orders s _
  have hself : (s.freeRegion i).region i = (s.region i).freed := by rw [State.freeRegion_region, if_pos rfl]
  have hother {j : Slot} (hj : i ≠ j) : (s.freeRegion i).region j = s.region j := by rw [State.freeRegion_region, if_neg hj]
  refine law.of_regions (.of_eq (by simp) (by simp) horders) (fun j => ?_) (fun j hj => ?_) (fun j hj => ?_) fun e he => ?_
  · by_cases hij : i = j
    · rw [← hij, hself]; exact ⟨rfl, rfl⟩
    · rw [hother hij]; exact ⟨rfl, rfl⟩
  · by_cases hij : i = j
    · rw [← hij, hself] at hj ⊢
      unfold Region.freed at hj ⊢
      dsimp only at hj ⊢
      split_ifs at hj with hrefs
      · exact hrefs
      · rcases hj with hj | hj <;> cases hj
    · rw [hother hij] at hj ⊢; exact law.zero j hj
  · by_cases hij : i = j
    · subst hij
      rw [hself] at hj
      unfold Region.freed at hj
      dsimp only at hj
      split_ifs at hj with hrefs
      refine .inr ⟨Nat.pos_of_ne_zero hrefs, fun c g hg hnames => ?_⟩
      refine State.leaving_of_orders ?_ (by simp) (s.sendDiscards_leaving (s.handle i) (c := c)
        (fun x => (x.program.map fun g => g.names (s.handle i)).getD false) ?_ .retired)
      · rw [State.freeRegion_orders, if_neg hrefs]
        exact fun _ h => h
      · rw [Option.mem_def.1 hg]; exact hnames
    · rw [hother hij] at hj; exact .inl hj
  · rw [State.freeRegion_queue] at he
    have hplace : ((s.freeRegion i).region e.slot).base = (s.region e.slot).base ∧
        ((s.freeRegion i).region e.slot).length = (s.region e.slot).length :=
      ⟨((State.freeRegion_sameRuns hlive).region e.slot).base, ((State.freeRegion_sameRuns hlive).region e.slot).length⟩
    rw [hplace.1, hplace.2]
    rcases List.mem_append.1 he with hold | hnew
    · exact law.runs e hold
    · split_ifs at hnew
      · rw [List.mem_singleton.1 hnew]; exact ⟨rfl, rfl⟩
      · cases hnew

theorem State.References.settleClosing (law : s.References) (p : Port) : (s.settleClosing p).References :=
  law.of_eq (by simp) (by simp) (by simp) (by simp) (by simp)

theorem State.References.closeSession (law : s.References) (p : Port) (order : List Slot) : (s.closeSession p order).References := by
  refine State.closeSession_keeps (P := State.References) ?_ (fun h hq => h.freeRegion hq.live) (fun h => h.settleClosing p)
  refine law.of_same ⟨fun c => by rw [State.closeBegun_channel]; exact ⟨rfl, rfl⟩, s.closeBegun_notices p order, s.closeBegun_orders p order⟩
    (fun i => ?_) (by rw [State.closeBegun_scrub]; exact fun _ h => h)
  rw [State.closeBegun_region]
  exact ⟨rfl, rfl, rfl, rfl, rfl⟩

/-! ### Regions that come and go -/

/-- ALLOCATE takes a slot that nothing names or scrubs (R8, R10). -/
theorem State.References.place (law : s.References) (hscrub : s.ScrubLaw) {p : Port} {i : Slot} {base length label : Nat}
    (hslot : (s.region i).state = .unused) : (s.placeRegion p i base length label).References := by
  have hrefs := law.zero i (.inl hslot)
  have hregion (j : Slot) := s.setRegion_region i
    { gen := (s.region i).gen, state := .live, owner := p, base, length, label, pinned := false, grants := noGrants
      refs := 0, offer := none } j
  have hself : (s.placeRegion p i base length label).region i =
      { gen := (s.region i).gen, state := .live, owner := p, base, length, label, pinned := false, grants := noGrants
        refs := 0, offer := none } := (hregion i).trans (if_pos rfl)
  have hother {j : Slot} (hj : i ≠ j) : (s.placeRegion p i base length label).region j = s.region j := (hregion j).trans (if_neg hj)
  refine law.of_regions (.of_eq rfl rfl fun _ h => h) (fun j => ?_) (fun j hj => ?_) (fun j hj => ?_) fun e he => ?_
  · by_cases hij : i = j
    · rw [← hij, hself]; exact ⟨rfl, hrefs.symm⟩
    · rw [hother hij]; exact ⟨rfl, rfl⟩
  · by_cases hij : i = j
    · rw [← hij, hself]
    · rw [hother hij] at hj ⊢; exact law.zero j hj
  · by_cases hij : i = j
    · rw [← hij, hself] at hj; cases hj
    · rw [hother hij] at hj; exact .inl hj
  · have hij : i ≠ e.slot := by
      intro hi
      have hnone := hscrub i
      rw [if_neg (by rw [hslot]; decide), State.scrubsOf] at hnone
      have hpos : 0 < (s.scrub.queue.filter fun e => e.slot == i).length :=
        List.length_pos_of_mem (List.mem_filter.2 ⟨he, by simp [hi]⟩)
      omega
    rw [hother hij]
    exact law.runs e he

theorem State.ScrubLaw.not_queued (law : s.ScrubLaw) {i : Slot} (h : .scrubDone i ∈ s.table.notices) {e : ScrubRun}
    (he : e ∈ s.scrub.queue) : i ≠ e.slot := by
  intro hi
  have hone := (law.scrubbing_of_notice h).2
  have hnotice : 0 < (s.table.notices.filter fun n => n == .scrubDone i).length :=
    List.length_pos_of_mem (List.mem_filter.2 ⟨h, beq_self_eq_true _⟩)
  have hqueue : 0 < (s.scrub.queue.filter fun e => e.slot == i).length :=
    List.length_pos_of_mem (List.mem_filter.2 ⟨he, by simp [hi]⟩)
  unfold State.scrubsOf at hone
  omega

/-- The taking of a scrub-done notice empties a slot whose last handle is out of use (R6, R18). -/
theorem State.References.finishScrub (law : s.References) (hscrub : s.ScrubLaw) {i : Slot} {rest : List Notice}
    (hn : s.table.notices = .scrubDone i :: rest) : ((s.setNotices rest).finishScrub i).References := by
  have hmem : Notice.scrubDone i ∈ s.table.notices := by rw [hn]; exact List.mem_cons_self ..
  have hrefs := law.zero i (.inr (hscrub.scrubbing_of_notice hmem).1)
  have hregion (j : Slot) : ((s.setNotices rest).finishScrub i).region j =
      if i = j then Region.empty ((s.region i).gen + 1) else s.region j := s.setRegion_region i _ j
  have hother {j : Slot} (hj : i ≠ j) : ((s.setNotices rest).finishScrub i).region j = s.region j := by rw [hregion, if_neg hj]
  have hself : ((s.setNotices rest).finishScrub i).region i = Region.empty ((s.region i).gen + 1) := by rw [hregion, if_pos rfl]
  have hcount (j : Slot) : releasesFor s.table.notices j = releasesFor rest j := by
    rw [hn, ← List.singleton_append, releasesFor_append, releasesFor_of_none (ns := [.scrubDone i]), Nat.zero_add]
    intro n hn'
    rw [List.mem_singleton.1 hn']
    rfl
  exact {
    count := fun j => by
      have hj := law.count j
      rw [hcount] at hj
      by_cases hij : i = j
      · rw [← hij, hself]
        rw [← hij, hrefs] at hj
        exact hj
      · rw [hother hij]; exact hj
    zero := fun j hj => by
      by_cases hij : i = j
      · rw [← hij, hself]; rfl
      · rw [hother hij] at hj ⊢; exact law.zero j hj
    retiring := fun j hj => by
      by_cases hij : i = j
      · rw [← hij, hself] at hj; cases hj
      · rw [hother hij] at hj ⊢; exact law.retiring j hj
    handles := fun k hk => by
      have hold : s.usesHandle k := by
        rcases hk with hprogram | hnotice
        · exact .inl hprogram
        · exact .inr (by rw [hn]; exact List.mem_cons_of_mem _ hnotice)
      obtain ⟨j, hj, hgen⟩ := law.handles k hold
      refine ⟨j, hj, ?_⟩
      rw [hother fun hij => law.not_used hrefs hold (hij ▸ hj)]
      exact hgen
    leaves := fun j hj c g hg hnames => by
      by_cases hij : i = j
      · rw [← hij, hself] at hj; cases hj
      · have hhandle : ((s.setNotices rest).finishScrub i).handle j = s.handle j := by
          rw [State.handle, State.handle, hother hij]
        rw [hother hij] at hj
        rw [hhandle] at hnames ⊢
        exact law.leaves j hj c g hg hnames
    runs := fun e he => by
      rw [hother (hscrub.not_queued hmem he)]
      exact law.runs e he }

/-- The taking of a release notice (R12). -/
theorem State.References.releaseReference (law : s.References) {h : Handle} {i : Slot} {rest : List Notice}
    (hn : s.table.notices = .referenceRelease h :: rest) (hi : h.slot? = some i) :
    ((s.setNotices rest).releaseReference i).References := by
  generalize ht : (s.setNotices rest).releaseReference i = t
  have hregion (j : Slot) : t.region j = if i = j then (s.region i).released else s.region j := by
    rw [← ht]; exact State.releaseReference_region _ i j
  have hnotices : t.table.notices = rest := by rw [← ht]; exact State.releaseReference_notices _ i
  have horders : t.chan.orders = s.chan.orders := by rw [← ht]; exact State.releaseReference_orders _ i
  have hchannel (c : Chan) : t.channel c = s.channel c := by rw [← ht]; exact State.releaseReference_channel _ i c
  have hqueue : t.scrub.queue = s.scrub.queue ++
      if (s.region i).state = .retiring ∧ (s.region i).refs - 1 = 0 then
        [{ slot := i, base := (s.region i).base, length := (s.region i).length }] else [] := by
    rw [← ht]; exact State.releaseReference_queue _ i
  have hself : t.region i = (s.region i).released := by rw [hregion, if_pos rfl]
  have hother {j : Slot} (hj : i ≠ j) : t.region j = s.region j := by rw [hregion, if_neg hj]
  have hgen (j : Slot) : (t.region j).gen = (s.region j).gen := by
    rw [hregion]; split_ifs with hj
    · rw [hj]; rfl
    · rfl
  have hcount (j : Slot) : releasesFor s.table.notices j = (if i = j then 1 else 0) + releasesFor rest j := by
    rw [hn, ← List.singleton_append, releasesFor_append]
    congr 1
    unfold releasesFor
    by_cases hij : i = j
    · simp [Notice.releases, hi, hij]
    · simp [Notice.releases, hi, hij]
  have hretiring {j : Slot} (hj : (t.region j).state = .retiring) :
      (s.region j).state = .retiring ∧ (i = j → (s.region i).refs - 1 ≠ 0) := by
    by_cases hij : i = j
    · subst hij
      rw [hself, Region.released] at hj
      dsimp only at hj
      split_ifs at hj with hlast
      exact ⟨hj, fun _ hzero => hlast ⟨hj, hzero⟩⟩
    · rw [hother hij] at hj; exact ⟨hj, fun h => absurd h hij⟩
  exact {
    count := fun j => by
      have hj := law.count j
      rw [hcount] at hj
      simp only [hchannel]
      rw [hnotices]
      by_cases hij : i = j
      · subst hij
        rw [if_pos rfl] at hj
        rw [hself, Region.released]
        dsimp only
        omega
      · rw [if_neg hij, Nat.zero_add] at hj
        rw [hother hij]
        exact hj
    zero := fun j hj => by
      by_cases hij : i = j
      · subst hij
        rw [hself, Region.released] at hj ⊢
        dsimp only at hj ⊢
        split_ifs at hj with hlast
        · exact hlast.2
        · rw [law.zero i hj]
      · rw [hother hij] at hj ⊢; exact law.zero j hj
    retiring := fun j hj => by
      obtain ⟨hold, hmore⟩ := hretiring hj
      by_cases hij : i = j
      · subst hij
        rw [hself]
        exact Nat.pos_of_ne_zero (hmore rfl)
      · rw [hother hij]; exact law.retiring j hold
    handles := fun k hk => by
      have hold : s.usesHandle k := by
        rcases hk with ⟨c, hc⟩ | hnotice
        · exact .inl ⟨c, by rw [← hchannel]; exact hc⟩
        · rw [hnotices] at hnotice
          exact .inr (by rw [hn]; exact List.mem_cons_of_mem _ hnotice)
      obtain ⟨j, hj, hk⟩ := law.handles k hold
      exact ⟨j, hj, hk.trans (hgen j).symm⟩
    leaves := fun j hj c g hg hnames => by
      have hhandle : t.handle j = s.handle j := by rw [State.handle, State.handle, hgen]
      rw [hchannel] at hg
      rw [hhandle] at hnames ⊢
      refine State.leaving_of_orders ?_ (by rw [hchannel]) (law.leaves j (hretiring hj).1 c g hg hnames)
      rw [horders]
      exact fun _ h => h
    runs := fun e he => by
      have hplace : (t.region e.slot).base = (s.region e.slot).base ∧ (t.region e.slot).length = (s.region e.slot).length := by
        rw [hregion]; split_ifs with hj
        · rw [← hj]; exact ⟨rfl, rfl⟩
        · exact ⟨rfl, rfl⟩
      rw [hplace.1, hplace.2]
      rw [hqueue] at he
      rcases List.mem_append.1 he with hold | hnew
      · exact law.runs e hold
      · split_ifs at hnew
        · rw [List.mem_singleton.1 hnew]; exact ⟨rfl, rfl⟩
        · cases hnew }

/-! ### Claims -/

/-- A claim that loses no reference and names no region that was not named before. -/
structure Effect.Balanced (x : Channel) (e : Effect) : Prop where
  sides : ∀ i, e.channel.sidesOn i + releasesFor e.notices i = x.sidesOn i
  program : ∀ g ∈ e.channel.program, g ∈ x.program
  released : ∀ k, .referenceRelease k ∈ e.notices → ∃ g ∈ x.program, g.names k = true

theorem Effect.Shape.balanced {c : Chan} {x : Channel} {e : Effect} (h : e.Shape c x) : e.Balanced x :=
  ⟨h.sides, fun _ => h.program, fun _ => h.released⟩

/-- A claim that keeps what announces the end of a program. -/
theorem State.References.claim (law : s.References) {c : Chan} {e : Effect} (he : e.Balanced (s.channel c))
    (hchannel : ∀ d, t.channel d = if c = d then e.channel else s.channel d)
    (hnotices : t.table.notices = s.table.notices ++ e.notices) (hregions : t.table.regions = s.table.regions)
    (hqueue : t.scrub.queue = s.scrub.queue)
    (hleaving : ∀ d k, (∃ g ∈ (t.channel d).program, g.names k = true) → s.leaving d k → t.leaving d k) : t.References := by
  have hregion (i : Slot) : t.region i = s.region i := by rw [State.region, hregions]; rfl
  have hhandle (i : Slot) : t.handle i = s.handle i := by rw [State.handle, hregion]; rfl
  have hprogram {d : Chan} {g : Program} (hg : g ∈ (t.channel d).program) : g ∈ (s.channel d).program := by
    rw [hchannel] at hg
    split_ifs at hg with hd
    · exact hd ▸ he.program g hg
    · exact hg
  exact {
    count := fun i => by
      have hsum := sum_replaced (f := fun d => (s.channel d).sidesOn i) (g := fun d => (t.channel d).sidesOn i) c fun d hd => by
        rw [hchannel, if_neg hd]
      have hself : t.channel c = e.channel := by rw [hchannel, if_pos rfl]
      have hcount := law.count i
      have hsides := he.sides i
      rw [hself] at hsum
      rw [hregion, hnotices, releasesFor_append]
      generalize (∑ d, (t.channel d).sidesOn i) = after at hsum ⊢
      generalize (∑ d, (s.channel d).sidesOn i) = before at hsum hcount
      omega
    zero := fun i hi => by rw [hregion] at hi ⊢; exact law.zero i hi
    retiring := fun i hi => by rw [hregion] at hi ⊢; exact law.retiring i hi
    handles := fun k hk => by
      have hold : s.usesHandle k := by
        rcases hk with ⟨d, g, hg, hnames⟩ | hnotice
        · exact .inl ⟨d, g, hprogram hg, hnames⟩
        · rw [hnotices] at hnotice
          rcases List.mem_append.1 hnotice with h | h
          · exact .inr h
          · obtain ⟨g, hg, hnames⟩ := he.released k h
            exact .inl ⟨c, g, hg, hnames⟩
      obtain ⟨i, hi, hgen⟩ := law.handles k hold
      exact ⟨i, hi, by rw [hregion]; exact hgen⟩
    leaves := fun i hi d g hg hnames => by
      rw [hregion] at hi
      rw [hhandle] at hnames ⊢
      exact hleaving d _ ⟨g, hg, hnames⟩ (law.leaves i hi d g (hprogram hg) hnames)
    runs := fun e he => by rw [hqueue] at he; rw [hregion]; exact law.runs e he }

/-- Whether a stop request that takes the program away is recorded (R119). -/
def Channel.going (x : Channel) : Prop := ∃ q ∈ x.recorded, 4 ≤ q.strength

/-- A claim at a channel keeps a recorded DISCARD or TEARDOWN, or takes the program away. -/
theorem State.References.commit (law : s.References) {c : Chan} {e : Effect} (he : e.Shape c (s.channel c))
    (hgoing : (s.channel c).going → e.channel.program = none ∨ e.channel.going) : (s.commit c e).References := by
  refine law.claim he.balanced (fun d => s.commit_channel_eq c d e) (s.commit_notices_eq c e) (by simp) (by simp) fun d k hg hl => ?_
  rcases hl with hordered | hrec
  · exact .inl (by simpa using hordered)
  · refine .inr ?_
    rw [State.commit_channel_eq] at hg ⊢
    split_ifs at hg ⊢ with hd
    · subst hd
      rcases hgoing hrec with hnone | h
      · obtain ⟨g, hg, -⟩ := hg
        rw [hnone] at hg
        cases hg
      · exact h
    · exact hrec

end

/-! ### What is going goes on -/

/-- The requests that take a program away are the strong ones (R117). -/
theorem Request.strong {q : Request} (h : 4 ≤ q.strength) : (∃ cause, q = .discard cause) ∨ q = .teardown := by
  cases q with
  | suspend cause => exact absurd h (by simp [Request.strength])
  | abort cause => exact absurd h (by simp [Request.strength])
  | discard cause => exact .inl ⟨cause, rfl⟩
  | teardown => exact .inr rfl

theorem Channel.record_going (x : Channel) (q : Request) :
    (x.going → (x.record q).going) ∧ (4 ≤ q.strength → (x.record q).going) := by
  unfold Channel.record
  cases hrec : x.recorded with
  | none => exact ⟨(fun ⟨r, hr, _⟩ => by rw [hrec] at hr; cases hr), fun h => ⟨q, rfl, h⟩⟩
  | some old =>
    dsimp only
    split_ifs with hless
    · refine ⟨fun ⟨r, hr, h⟩ => ⟨q, rfl, ?_⟩, fun h => ⟨q, rfl, h⟩⟩
      obtain rfl : old = r := Option.some.inj (hrec.symm.trans hr)
      omega
    · exact ⟨id, fun h => ⟨old, hrec, h.trans (not_lt.1 hless)⟩⟩

/-- A request keeps what is going, and a DISCARD or a TEARDOWN that applies makes it go. -/
theorem makeRequest_going {x : Channel} (law : x.Law) (c : Chan) (q : Request) :
    (x.going → (makeRequest c x q).channel.program = none ∨ (makeRequest c x q).channel.going) ∧
      (4 ≤ q.strength → q.appliesTo x = true → (makeRequest c x q).channel.program = none ∨ (makeRequest c x q).channel.going) := by
  unfold makeRequest
  split_ifs with happlies hflight
  · refine ⟨fun h => .inr h, fun _ h => ?_⟩
    rw [h] at happlies
    cases happlies
  · exact ⟨fun h => .inr ((x.record_going q).1 h), fun h _ => .inr ((x.record_going q).2 h)⟩
  · have hnone := law.not_recorded (by simpa using hflight)
    refine ⟨(fun ⟨r, hr, _⟩ => by rw [hnone] at hr; cases hr), fun h _ => .inl ?_⟩
    rcases Request.strong h with ⟨cause, rfl⟩ | rfl <;> rfl

theorem activate_going {x : Channel} (law : x.Law) (c : Chan) (h : x.going) :
    (activate c x).1.channel.program = none ∨ (activate c x).1.channel.going := by
  unfold activate
  split_ifs
  · exact .inr h
  · split
    · exact (makeRequest_going law c _).1 h
    · exact .inr h

/-- An order keeps what is going; a DISCARD makes a program that names its region go. -/
theorem Order.effect_going {x : Channel} (law : x.Law) (o : Order) :
    (x.going → (o.effect x).channel.program = none ∨ (o.effect x).channel.going) ∧
      ∀ cause k, o.kind = .discard cause k → ∀ g ∈ (o.effect x).channel.program, g.names k = true → (o.effect x).channel.going := by
  unfold Order.effect
  split
  · next cause k hkind =>
    split_ifs with hnames
    · refine ⟨(makeRequest_going law _ _).1, fun cause' k' hk g hg _ => ?_⟩
      have happlies : (Request.discard cause).appliesTo x = true := by
        cases hp : x.program with
        | none => rw [hp] at hnames; cases hnames
        | some g => simp [Request.appliesTo, hp]
      rcases (makeRequest_going law o.channel (.discard cause)).2 le_rfl happlies with hnone | h
      · rw [hnone] at hg; cases hg
      · exact h
    · refine ⟨fun h => .inr h, fun cause' k' hk g hg hg' => absurd ?_ hnames⟩
      rw [hkind] at hk
      cases hk
      rw [show x.program = some g from hg]
      exact hg'
  · next hkind =>
    refine ⟨(makeRequest_going law _ _).1, fun cause' k' hk => ?_⟩
    rw [hkind] at hk
    cases hk

/-- The end of a unit carries out what was recorded (R115, R119, R125). -/
theorem dataErrorEnd_going {c : Chan} {x : Channel} (h : x.going) : (dataErrorEnd c x).channel.program = none := by
  obtain ⟨q, hq, hstrong⟩ := h
  unfold dataErrorEnd
  rw [Option.mem_def.1 hq]
  rcases Request.strong hstrong with ⟨cause, rfl⟩ | rfl <;> rfl

theorem completedEnd_going {c : Chan} {x : Channel} (h : x.going) : (completedEnd c x).channel.program = none := by
  obtain ⟨q, hq, hstrong⟩ := h
  unfold completedEnd
  rw [Option.mem_def.1 hq]
  rcases Request.strong hstrong with ⟨cause, rfl⟩ | rfl <;> rfl

theorem recordedEnd_going {c : Chan} {x : Channel} (h : x.going) : (recordedEnd c x).channel.program = none := by
  obtain ⟨q, hq, hstrong⟩ := h
  unfold recordedEnd
  rw [Option.mem_def.1 hq]
  rcases Request.strong hstrong with ⟨cause, rfl⟩ | rfl <;> rfl

/-! ### PROGRAM -/

section
variable {s t : State}

theorem State.sideRegion_ok {h : Handle} {i : Slot} (hok : s.sideRegion h = .ok i) :
    s.current h = some i ∧ (s.region i).state = .live := by
  unfold State.sideRegion at hok
  split at hok
  · cases hok
  · next j hj =>
    split_ifs at hok with hlive
    cases hok
    exact ⟨hj, hlive⟩

/-- What a PROGRAM that passes its checks has found (R69 to R71). -/
structure State.Programmable (s : State) (p : Port) (g : Program) (i j : Slot) : Prop where
  source : s.current g.source.handle = some i
  sourceLive : (s.region i).state = .live
  dest : s.current g.dest.handle = some j
  destLive : (s.region j).state = .live
  align : g.source.start % g.unit.bytes = 0 ∧ g.dest.start % g.unit.bytes = 0
  sourceSpan : g.source.spanOk g.unit.bytes (g.sideUnits .source) (granuleBytes * (s.region i).length) = true
  destSpan : g.dest.spanOk g.unit.bytes (g.sideUnits .dest) (granuleBytes * (s.region j).length) = true

theorem State.checkProgram_ok {p : Port} {g : Program} {i j : Slot} (h : s.checkProgram p g = .ok (i, j)) : s.Programmable p g i j := by
  unfold State.checkProgram at h
  split at h
  · cases h
  · next i' hi =>
    split at h
    · cases h
    · next j' hj =>
      dsimp only at h
      split_ifs at h with hright halign hspan
      cases h
      obtain ⟨hsource, hsourceLive⟩ := State.sideRegion_ok hi
      obtain ⟨hdest, hdestLive⟩ := State.sideRegion_ok hj
      simp only [not_or, not_not] at halign
      simp only [Bool.not_eq_true', Bool.not_eq_false, Bool.and_eq_true] at hspan
      exact ⟨hsource, hsourceLive, hdest, hdestLive, halign, hspan.1, hspan.2⟩

theorem State.current_slot {h : Handle} {i : Slot} (hc : s.current h = some i) :
    h.slot? = some i ∧ h.gen = (s.region i).gen := by
  obtain ⟨hslot, hgen, -⟩ := (State.current_iff s h i).1 hc
  exact ⟨Handle.slot?_of_toNat hslot, hgen.symm⟩

/-- A program that counts on a slot names the region there. -/
theorem State.References.names_of_sides (law : s.References) {c : Chan} {g : Program} {i : Slot} (hg : g ∈ (s.channel c).program)
    (hpos : 0 < (s.channel c).sidesOn i) : g.names (s.handle i) = true := by
  rw [Channel.sidesOn, Option.mem_def.1 hg, Option.map_some, Option.getD_some, Program.sidesOn] at hpos
  have named {k : Handle} (hk : g.names k = true) (hi : k.slot? = some i) : k = s.handle i := by
    obtain ⟨j, hj, hgen⟩ := law.handles k (.inl ⟨c, g, hg, hk⟩)
    obtain rfl : i = j := Option.some.inj (hi.symm.trans hj)
    exact Handle.eq_of_slot hi (s.handle_slot i) hgen
  by_cases hsource : g.source.handle.slot? = some i
  · have hk : g.names g.source.handle = true := by simp [Program.names]
    rw [← named hk hsource]; exact hk
  · have hdest : g.dest.handle.slot? = some i := by
      by_contra hdest
      rw [if_neg hsource, if_neg hdest] at hpos
      exact Nat.lt_irrefl 0 hpos
    have hk : g.names g.dest.handle = true := by simp [Program.names]
    rw [← named hk hdest]; exact hk

/-- The new program's regions are LIVE, and the old one named none that is RETIRING: with no order on its way and none recorded, it
would be about to go (R72, R73). -/
theorem State.References.install (law : s.References) {p : Port} {c : Chan} {g : Program} {i j : Slot}
    (hrec : (s.channel c).recorded = none) (horders : s.chan.orders = []) (hcheck : s.checkProgram p g = .ok (i, j)) :
    (s.install c g i j).References := by
  have hp := State.checkProgram_ok hcheck
  obtain ⟨hi, higen⟩ := State.current_slot hp.source
  obtain ⟨hj, hjgen⟩ := State.current_slot hp.dest
  generalize ht : s.install c g i j = t
  have hregion (k : Slot) : t.region k = { s.region k with refs := (s.region k).refs + g.sidesOn k - (s.channel c).sidesOn k } := by
    obtain ⟨u, hinstall, -, hu⟩ := s.install_regions c g i j hi hj
    rw [← ht, hinstall, State.setChannel_region]
    exact hu k
  have hchannel (d : Chan) : t.channel d =
      if c = d then { s.channel c with state := .programmed, program := some g, run := g.initialRun false } else s.channel d := by
    rw [← ht]; exact s.install_channel c g i j d
  have hnotices : t.table.notices = s.table.notices := by rw [← ht, s.install_table c g i j]
  have hqueue : t.scrub.queue = s.scrub.queue := by rw [← ht, s.install_scrub]
  have hhandle (k : Slot) : t.handle k = s.handle k := by rw [State.handle, hregion]; rfl
  have live {k : Slot} (hpos : 0 < g.sidesOn k) : (s.region k).state = .live := by
    rw [Program.sidesOn, hi, hj] at hpos
    by_cases h1 : i = k
    · exact h1 ▸ hp.sourceLive
    · by_cases h2 : j = k
      · exact h2 ▸ hp.destLive
      · simp [h1, h2] at hpos
  have notNew {k : Slot} (hk : (s.region k).state ≠ .live) : g.sidesOn k = 0 :=
    Nat.eq_zero_of_not_pos fun hpos => hk (live hpos)
  have hless (k : Slot) : (s.channel c).sidesOn k ≤ (s.region k).refs := by
    have hle : (s.channel c).sidesOn k ≤ ∑ d, (s.channel d).sidesOn k :=
      Finset.single_le_sum (f := fun d => (s.channel d).sidesOn k) (fun _ _ => Nat.zero_le _) (Finset.mem_univ c)
    rw [law.count k]
    exact hle.trans (Nat.le_add_right _ _)
  have notOld {k : Slot} (hk : (s.region k).state = .retiring) : (s.channel c).sidesOn k = 0 := by
    refine Nat.eq_zero_of_not_pos fun hpos => ?_
    obtain ⟨old, hold⟩ : ∃ old, (s.channel c).program = some old := by
      cases hx : (s.channel c).program with
      | none => rw [Channel.sidesOn, hx] at hpos; exact absurd hpos (Nat.lt_irrefl 0)
      | some old => exact ⟨old, rfl⟩
    rcases law.leaves k hk c old hold (law.names_of_sides hold hpos) with ⟨batch, hbatch, -⟩ | ⟨q, hq, -⟩
    · rw [horders] at hbatch; cases hbatch
    · rw [hrec] at hq; cases hq
  have notNamed {k : Slot} (hk : (s.region k).state = .retiring) : ¬ g.names (s.handle k) = true := by
    intro hnames
    have hpos : 0 < g.sidesOn k := by
      simp only [Program.names, Bool.or_eq_true, beq_iff_eq] at hnames
      rw [Program.sidesOn]
      rcases hnames with h | h
      · rw [if_pos (h ▸ s.handle_slot k)]; omega
      · rw [if_pos (c := g.dest.handle.slot? = some k) (h ▸ s.handle_slot k)]; omega
    rw [live hpos] at hk
    cases hk
  exact {
    count := fun k => by
      have hsum := sum_replaced (f := fun d => (s.channel d).sidesOn k) (g := fun d => (t.channel d).sidesOn k) c fun d hd => by
        rw [hchannel, if_neg hd]
      have hself : (t.channel c).sidesOn k = g.sidesOn k := by rw [hchannel, if_pos rfl]; rfl
      have hcount := law.count k
      have hle := hless k
      rw [hself] at hsum
      rw [hregion, hnotices]
      dsimp only
      generalize (∑ d, (t.channel d).sidesOn k) = after at hsum ⊢
      generalize (∑ d, (s.channel d).sidesOn k) = before at hsum hcount
      omega
    zero := fun k hk => by
      rw [hregion] at hk ⊢
      have hk : (s.region k).state = .unused ∨ (s.region k).state = .scrubbing := hk
      have hzero := law.zero k hk
      have hnew := notNew (k := k) (by rcases hk with h | h <;> simp [h])
      dsimp only
      omega
    retiring := fun k hk => by
      rw [hregion] at hk ⊢
      have hk : (s.region k).state = .retiring := hk
      have hpos := law.retiring k hk
      have hnot := notOld hk
      dsimp only
      omega
    handles := fun k hk => by
      have fromOld (hk : s.usesHandle k) : ∃ i, k.slot? = some i ∧ k.gen = (t.region i).gen := by
        obtain ⟨n, hn, hgen⟩ := law.handles k hk
        exact ⟨n, hn, by rw [hregion]; exact hgen⟩
      rcases hk with ⟨d, h, hh, hnames⟩ | hnotice
      · rw [hchannel] at hh
        split_ifs at hh with hd
        · obtain rfl : g = h := Option.some.inj hh
          simp only [Program.names, Bool.or_eq_true, beq_iff_eq] at hnames
          rcases hnames with rfl | rfl
          · exact ⟨i, hi, by rw [hregion]; exact higen⟩
          · exact ⟨j, hj, by rw [hregion]; exact hjgen⟩
        · exact fromOld (.inl ⟨d, h, hh, hnames⟩)
      · rw [hnotices] at hnotice
        exact fromOld (.inr hnotice)
    leaves := fun k hk d h hh hnames => by
      rw [hregion] at hk
      have hk : (s.region k).state = .retiring := hk
      rw [hhandle] at hnames ⊢
      rw [hchannel] at hh
      split_ifs at hh with hd
      · obtain rfl : g = h := Option.some.inj hh
        exact absurd hnames (notNamed hk)
      · rcases law.leaves k hk d h hh hnames with ⟨batch, hbatch, -⟩ | hrec
        · rw [horders] at hbatch; cases hbatch
        · exact .inr (by rw [hchannel, if_neg hd]; exact hrec)
    runs := fun e he => by
      rw [hqueue] at he
      rw [hregion]
      exact law.runs e he }

/-! ### Every act -/

/-- An order that is taken leaves the others on their way, and has its effect (R61, R123, R124). -/
theorem State.References.order (law : s.References) (hchannels : s.ChannelLaw) {o : Order} {left : List (List Order)}
    (h : ∀ x ∈ s.chan.orders.flatten, x = o ∨ x ∈ left.flatten) : ((s.setOrders left).takeOrder o).References := by
  have hlaw := hchannels.channel o.channel
  refine law.claim (o.effect_shape (s.channel o.channel)).balanced (fun d => State.commit_channel_eq (s.setOrders left) o.channel d _)
    (State.commit_notices_eq (s.setOrders left) o.channel _) (by simp) (by simp) fun d k hg hl => ?_
  have horders : ((s.setOrders left).takeOrder o).chan.orders = left := by simp
  have hchannel : ((s.setOrders left).takeOrder o).channel d =
      if o.channel = d then (o.effect (s.channel o.channel)).channel else s.channel d :=
    State.commit_channel_eq (s.setOrders left) o.channel d _
  rcases hl with ⟨batch, hbatch, x, hx, cause, rfl⟩ | hrec
  · rcases h _ (List.mem_flatten.2 ⟨batch, hbatch, hx⟩) with rfl | hleft
    · right
      obtain ⟨g, hg, hnames⟩ := hg
      rw [hchannel, if_pos rfl] at hg ⊢
      exact (Order.effect_going hlaw _).2 cause k rfl g hg hnames
    · left
      obtain ⟨batch', hbatch', hmem⟩ := List.mem_flatten.1 hleft
      exact ⟨batch', by rw [horders]; exact hbatch', _, hmem, cause, rfl⟩
  · right
    rw [hchannel] at hg ⊢
    split_ifs at hg ⊢ with hd
    · subst hd
      rcases (Order.effect_going hlaw o).1 hrec with hnone | hgoing
      · obtain ⟨g, hg, -⟩ := hg
        rw [hnone] at hg
        cases hg
      · exact hgoing
    · exact hrec

/-- A record whose program and recorded request stand. -/
theorem State.References.setChannel (law : s.References) {c : Chan} {x : Channel} (hprogram : x.program = (s.channel c).program)
    (hrec : x.recorded = (s.channel c).recorded) : (s.setChannel c x).References := by
  refine law.of_same ⟨fun d => ?_, rfl, fun _ h => h⟩ (fun _ => .refl _) fun _ h => h
  rw [State.setChannel_channel]
  split_ifs with hd
  · exact hd ▸ ⟨hprogram, hrec⟩
  · exact ⟨rfl, rfl⟩

theorem State.followChain_recorded (s : State) (c : Chan) (lessee : Option Port) (chain : Option Chan) (d : Chan) :
    ((s.followChain c lessee chain).channel d).recorded = (s.channel d).recorded := by
  cases chain with
  | none => rfl
  | some target =>
    unfold State.followChain
    dsimp only
    split
    · split
      · rfl
      · simp
    · split
      · rfl
      · rw [State.setChannel_channel]
        split_ifs with hd
        · rw [hd]; rfl
        · rfl

theorem State.References.followChain (law : s.References) (c : Chan) (lessee : Option Port) (chain : Option Chan) :
    (s.followChain c lessee chain).References := by
  obtain ⟨hscrub, -, horders⟩ := State.followChain_rest s c lessee chain
  have htable := State.followChain_table s c lessee chain
  refine law.of_same ⟨fun d => ⟨(State.followChain_channel s c lessee chain d).1, State.followChain_recorded s c lessee chain d⟩, ?_, ?_⟩
    (fun i => ?_) ?_
  · rw [htable]
  · rw [horders]; exact fun _ h => h
  · rw [State.region, State.region, htable]; exact .refl _
  · rw [hscrub]; exact fun _ h => h

theorem State.References.takeEndReport (law : s.References) (u : UnitInFlight) : (s.takeEndReport u).References := by
  have idle : (s.setEngine { s.engine with unit := none }).References := law.of_eq rfl rfl rfl rfl rfl
  unfold State.takeEndReport
  dsimp only
  rw [State.setEngine_channel]
  generalize hy : ({ s.channel u.channel with run := { (s.channel u.channel).run with unitInFlight := false } } : Channel) = y
  have hprogram : y.program = (s.channel u.channel).program := by rw [← hy]
  have hlessee : y.lessee = (s.channel u.channel).lessee := by rw [← hy]
  have hrec : y.recorded = (s.channel u.channel).recorded := by rw [← hy]
  split
  · exact idle.setChannel hprogram hrec
  · next g hg =>
    obtain ⟨hendRec, hendLessee, hendProgram, -, -⟩ := unitEnd_keeps u.channel y g
    have hgoing (h : (s.channel u.channel).going) : y.going ∧ (unitEnd u.channel y g).channel.going := by
      unfold Channel.going at h ⊢
      rw [hendRec, hrec]
      exact ⟨h, h⟩
    have completed : (((s.setEngine { s.engine with unit := none }).commit u.channel
        ((completedEnd u.channel (unitEnd u.channel y g).channel).after (unitEnd u.channel y g).events))).References :=
      idle.commit (((completedEnd_shape u.channel _).after _).of_eq (hprogram.symm.trans hendProgram.symm) (hlessee.symm.trans hendLessee.symm))
        fun h => .inl (completedEnd_going (hgoing h).2)
    split_ifs
    · exact idle.commit ((dataErrorEnd_shape u.channel y).of_eq hprogram.symm hlessee.symm) fun h => .inl (dataErrorEnd_going (hgoing h).1)
    · exact completed.followChain _ _ _
    · exact completed
    · exact idle.commit (((recordedEnd_shape u.channel _).after _).of_eq (hprogram.symm.trans hendProgram.symm)
        (hlessee.symm.trans hendLessee.symm)) fun h => .inl (recordedEnd_going (hgoing h).2)

/-- Notices that release nothing come and go. -/
theorem State.References.of_notices (law : s.References) (hchannels : t.chan.channels = s.chan.channels)
    (horders : t.chan.orders = s.chan.orders) (hregions : t.table.regions = s.table.regions)
    (hqueue : t.scrub.queue ⊆ s.scrub.queue)
    (hreleases : ∀ i, releasesFor t.table.notices i = releasesFor s.table.notices i)
    (hnotices : ∀ k, .referenceRelease k ∈ t.table.notices → .referenceRelease k ∈ s.table.notices) : t.References := by
  have hregion (i : Slot) : t.region i = s.region i := by rw [State.region, hregions]; rfl
  have hchannel (c : Chan) : t.channel c = s.channel c := by rw [State.channel, hchannels]; rfl
  have hhandle (i : Slot) : t.handle i = s.handle i := by rw [State.handle, hregion]; rfl
  exact {
    count := fun i => by rw [hregion, hreleases, law.count]; simp only [hchannel]
    zero := fun i hi => by rw [hregion] at hi ⊢; exact law.zero i hi
    retiring := fun i hi => by rw [hregion] at hi ⊢; exact law.retiring i hi
    handles := fun k hk => by
      have hold : s.usesHandle k := by
        rcases hk with ⟨c, hc⟩ | hn
        · exact .inl ⟨c, by rw [← hchannel]; exact hc⟩
        · exact .inr (hnotices k hn)
      obtain ⟨i, hi, hgen⟩ := law.handles k hold
      exact ⟨i, hi, by rw [hregion]; exact hgen⟩
    leaves := fun i hi c g hg hnames => by
      rw [hregion] at hi
      rw [hchannel] at hg
      rw [hhandle] at hnames ⊢
      exact State.leaving_of_orders (by rw [horders]; exact fun _ h => h) (by rw [hchannel]) (law.leaves i hi c g hg hnames)
    runs := fun e he => by rw [hregion]; exact law.runs e (hqueue he) }

theorem State.Act.references (h : s.Act t) (law : s.References) (hchannels : s.ChannelLaw) (hscrub : s.ScrubLaw) :
    t.References := by
  have appended {u v : State} (hu : u.References) {n : Notice} (hn : ∀ i, n.releases i = false) (hne : ∀ k, n ≠ .referenceRelease k)
      (hc : v.chan.channels = u.chan.channels) (ho : v.chan.orders = u.chan.orders) (hr : v.table.regions = u.table.regions)
      (hq : v.scrub.queue ⊆ u.scrub.queue) (hv : v.table.notices = u.table.notices ++ [n]) : v.References := by
    refine hu.of_notices hc ho hr hq (fun i => ?_) fun k hk => ?_
    · rw [hv, releasesFor_append, releasesFor_of_none (ns := [n]), Nat.add_zero]
      intro m hm
      rw [List.mem_singleton.1 hm]
      exact hn i
    · rw [hv] at hk
      exact (List.mem_append.1 hk).resolve_right fun h => hne k (List.mem_singleton.1 h).symm
  have taken {u v : State} (hu : u.References) {n : Notice} {rest : List Notice} (hn : ∀ i, n.releases i = false)
      (hc : v.chan.channels = u.chan.channels) (ho : v.chan.orders = u.chan.orders) (hr : v.table.regions = u.table.regions)
      (hq : v.scrub.queue ⊆ u.scrub.queue) (hu' : u.table.notices = n :: rest) (hv : v.table.notices = rest) : v.References := by
    refine hu.of_notices hc ho hr hq (fun i => ?_) fun k hk => ?_
    · rw [hv, hu', ← List.singleton_append, releasesFor_append, releasesFor_of_none (ns := [n]), Nat.zero_add]
      intro m hm
      rw [List.mem_singleton.1 hm]
      exact hn i
    · rw [hv] at hk
      rw [hu']
      exact List.mem_cons_of_mem n hk
  cases h with
  | tick =>
    refine law.of_same (.of_eq (by simp) (by simp) (by simp)) (fun i => ?_) (by simp)
    rw [State.mapRegions_region]
    exact ⟨rfl, rfl, rfl, rfl, rfl⟩
  | close p order => exact law.closeSession p order
  | place p i base length label hopen hslot => exact law.place hscrub hslot
  | free i hlive => exact law.freeRegion hlive
  | mark i pinned label =>
    exact law.record (s.setRegion_region i _) ⟨rfl, rfl, rfl, rfl, rfl⟩ (.of_eq rfl rfl fun _ h => h) rfl
  | grant i q new =>
    exact law.record (i := i) (r := { s.region i with grants := put (s.region i).grants q new })
      (fun j => by simp [State.setGrant]) ⟨rfl, rfl, rfl, rfl, rfl⟩
      (.of_eq (by simp [State.setGrant]) (by simp [State.setGrant])
        (State.sendOrders_orders (s.setRegion i { s.region i with grants := put (s.region i).grants q new }) _))
      (by simp [State.setGrant])
  | offer i o => exact law.record (s.setRegion_region i _) ⟨rfl, rfl, rfl, rfl, rfl⟩ (.of_eq rfl rfl fun _ h => h) rfl
  | clearOffer i => exact law.record (s.setRegion_region i _) ⟨rfl, rfl, rfl, rfl, rfl⟩ (.of_eq rfl rfl fun _ h => h) rfl
  | accept p i o e =>
    refine law.record (i := i) (r := (s.region i).handedTo p) (fun j => by simp [State.moveQuota]) ⟨rfl, rfl, rfl, rfl, rfl⟩
      (.of_eq (by simp [State.moveQuota]) (by simp [State.moveQuota]) fun b hb => ?_) (by simp [State.moveQuota])
    exact State.sendOrders_orders _ _ (by simpa [State.moveQuota] using hb)
  | lease p c hopen hfree =>
    have hx := hchannels.channel c
    have hnone := hx.not_recorded (hx.not_flight (by simp [hfree]))
    exact (law.setChannel (c := c) (x := Channel.leasedTo p) (hx.program.2 (.inl hfree)).symm hnone.symm).of_eq rfl rfl rfl rfl rfl
  | release p c hlessee hrec =>
    refine law.claim (c := c) (e := { channel := Channel.empty, events := [], notices := (s.channel c).releases }) ?_
      (fun d => s.setChannel_channel c _ d) rfl rfl rfl fun d k hg hl => ?_
    · refine ⟨fun i => (Nat.zero_add _).trans (releasesFor_releases _ i), (by rintro _ ⟨⟩), fun k hk => ?_⟩
      obtain ⟨g, hg, heq | heq⟩ := Channel.mem_releases hk
      · cases heq; exact ⟨g, hg, by simp [Program.names]⟩
      · cases heq; exact ⟨g, hg, by simp [Program.names]⟩
    · have hchannel : ((((s.setChannel c Channel.empty).notify (s.channel c).releases).setLeases p
          ((s.quota p).channels - 1)).channel d) = if c = d then Channel.empty else s.channel d := s.setChannel_channel c _ d
      rcases hl with hordered | hgoing
      · exact .inl hordered
      · rw [hchannel] at hg
        split_ifs at hg with hd
        · obtain ⟨g, ⟨⟩, -⟩ := hg
        · exact .inr (by rw [hchannel, if_neg hd]; exact hgoing)
  | install p c g i j r hlessee hrec hstate horders hprog hcheck => exact law.install hrec horders hcheck
  | arm c g => exact law.setChannel rfl rfl
  | resume c => exact law.setChannel rfl rfl
  | suspend c cause => exact law.commit (makeRequest_shape c _ _) (makeRequest_going (hchannels.channel c) c _).1
  | abort c cause => exact law.commit (makeRequest_shape c _ _) (makeRequest_going (hchannels.channel c) c _).1
  | activate c => exact law.commit (activate_shape c _) (activate_going (hchannels.channel c) c)
  | order o left h => exact law.order hchannels h
  | orders left h =>
    refine {
      count := law.count, zero := law.zero, retiring := law.retiring, handles := law.handles, runs := law.runs
      leaves := fun i hi c g hg hnames => ?_ }
    rcases law.leaves i hi c g hg hnames with ⟨batch, hbatch, x, hx, cause, rfl⟩ | hrec
    · obtain ⟨batch', hbatch', hmem⟩ := List.mem_flatten.1 (h _ (List.mem_flatten.2 ⟨batch, hbatch, hx⟩))
      exact .inl ⟨batch', hbatch', _, hmem, cause, rfl⟩
    · exact .inr hrec
  | raise n h =>
    refine appended law ?_ ?_ rfl rfl rfl (fun _ h => h) rfl <;> rcases h with ⟨q, rfl⟩ | ⟨j, rfl⟩ <;> intro <;> simp [Notice.releases]
  | drop n rest hn h =>
    refine taken law (fun i => ?_) rfl rfl rfl (fun _ h => h) hn rfl
    rcases h with ⟨q, rfl⟩ | ⟨j, rfl⟩ | ⟨k, rfl, hk⟩
    · rfl
    · rfl
    · simp [Notice.releases, hk]
  | referenceRelease h i rest hn hi => exact law.releaseReference hn hi
  | leaseEnd c p rest hn =>
    exact (taken law (v := (s.setNotices rest).setQuota p { s.quota p with channels := (s.quota p).channels - 1 })
      (fun _ => rfl) rfl rfl rfl (fun _ h => h) hn rfl).settleClosing p
  | scrubDone i rest hn => exact law.finishScrub hscrub hn
  | startUnit c g bases =>
    refine (law.setChannel (c := c) (x := (s.channel c).started g) ?_ ?_).of_eq rfl rfl rfl rfl rfl
    · unfold Channel.started; split_ifs <;> rfl
    · unfold Channel.started; split_ifs <;> rfl
  | endReport u => exact law.takeEndReport u
  | scrubRunEnd e later hq =>
    refine appended law (n := .scrubDone e.slot) (fun _ => rfl) (fun k => by simp) rfl rfl rfl (fun x hx => ?_) rfl
    rw [hq]
    exact List.mem_cons_of_mem e hx
  | _ => exact law.of_eq rfl rfl rfl rfl rfl

end

end Sys2Proof.Machine
end

section
/-! SUPPORT for O60: where the engine may go (R70, R71, R99, R101). -/

set_option Elab.async false

namespace Sys2Proof.Machine

/-! ### One side of a run -/

section
variable {x : Side} {u left offset length : Nat}

/-- What is left of a side fits, its next unit first. -/
theorem Side.Within.unit_le (h : x.Within u left offset length) (hleft : 1 ≤ left) : offset + u ≤ length := by
  obtain ⟨hspan, -⟩ := h
  unfold Side.spanOk at hspan
  cases hx : x.step with
  | advance =>
    simp only [hx, decide_eq_true_eq] at hspan
    have := Nat.mul_le_mul_right u hleft
    omega
  | retreat =>
    simp only [hx, Bool.and_eq_true, decide_eq_true_eq] at hspan
    exact hspan.2
  | hold =>
    simp only [hx, decide_eq_true_eq] at hspan
    exact hspan

/-- Once its next unit is moved, the rest of a side fits from the offset moved (R101). -/
theorem Side.Within.moved (h : x.Within u (left + 1) offset length) (hleft : 1 ≤ left) : x.Within u left (x.moved u offset) length := by
  obtain ⟨hspan, halign⟩ := h
  unfold Side.Within Side.moved OffsetStep.move
  unfold Side.spanOk at hspan ⊢
  cases hx : x.step with
  | advance =>
    simp only [hx, decide_eq_true_eq, Option.getD_some] at hspan ⊢
    rw [Nat.add_one_mul] at hspan
    exact ⟨by omega, by rw [Nat.add_mod_right]; exact halign⟩
  | retreat =>
    simp only [hx, Bool.and_eq_true, decide_eq_true_eq, Nat.add_sub_cancel] at hspan ⊢
    obtain ⟨k, rfl⟩ : ∃ k, left = k + 1 := ⟨left - 1, by omega⟩
    rw [Nat.add_one_mul] at hspan
    have hless : u ≤ offset := by omega
    rw [if_pos hless, Option.getD_some, Nat.add_sub_cancel]
    refine ⟨⟨by omega, by omega⟩, ?_⟩
    obtain ⟨m, hm⟩ := Nat.dvd_of_mod_eq_zero halign
    rw [hm]
    exact Nat.mod_eq_zero_of_dvd (Nat.dvd_sub (Nat.dvd_mul_right u m) (Nat.dvd_refl u))
  | hold =>
    simp only [hx, decide_eq_true_eq, Option.getD_some] at hspan ⊢
    exact ⟨hspan, halign⟩

end

/-! ### The spans of a channel -/

/-- A side of a program by its name. -/
def Program.side (g : Program) : BlockSide → Side
  | .source => g.source
  | .dest => g.dest

/-- The offset of a side in a run. -/
def RunState.offset (r : RunState) : BlockSide → Nat
  | .source => r.sourceOffset
  | .dest => r.destOffset

/-- What is left of a run fits in its regions, whose lengths `bytes` gives (R71). -/
def Program.Fits (g : Program) (bytes : Handle → Nat) (r : RunState) : Prop :=
  ∀ side, (g.side side).Within g.unit.bytes (g.sideLeft r side) (r.offset side) (bytes (g.side side).handle)

/-- A program's whole span fits in its regions (R71). -/
def Program.FitsWhole (g : Program) (bytes : Handle → Nat) : Prop :=
  ∀ side, (g.side side).Within g.unit.bytes (g.sideUnits side) (g.side side).start (bytes (g.side side).handle)

/-- The law of spans of one channel. -/
structure Channel.Spans (bytes : Handle → Nat) (x : Channel) : Prop where
  whole : ∀ g ∈ x.program, g.FitsWhole bytes
  left : x.state.hasRun → ∀ g ∈ x.program, g.Fits bytes x.run

/-- The law of spans of the unit in flight. -/
def State.UnitInside (s : State) : Prop :=
  ∀ u ∈ s.engine.unit, u.source + u.size.bytes ≤ memoryBytes ∧ u.dest + u.size.bytes ≤ memoryBytes ∧ u.buffer.length ≤ u.size.bytes

theorem State.spanLaw_iff (s : State) : s.SpanLaw ↔ (∀ c, (s.channel c).Spans s.bytesOf) ∧ s.UnitInside := by
  constructor
  · rintro ⟨hwhole, hleft, hunit⟩
    refine ⟨fun c => ⟨fun g hg side => ?_, fun hrun g hg side => ?_⟩, hunit⟩
    · cases side with
      | source => exact (hwhole c g hg).1
      | dest => exact (hwhole c g hg).2
    · cases side with
      | source => exact (hleft c hrun g hg).1
      | dest => exact (hleft c hrun g hg).2
  · rintro ⟨hspans, hunit⟩
    exact ⟨fun c g hg => ⟨(hspans c).whole g hg .source, (hspans c).whole g hg .dest⟩,
      fun c hrun g hg => ⟨(hspans c).left hrun g hg .source, (hspans c).left hrun g hg .dest⟩, hunit⟩

section
variable {bytes : Handle → Nat} {x y : Channel} {g : Program}

theorem Channel.Spans.of_no_program (h : x.program = none) : x.Spans bytes where
  whole := fun g hg => by rw [h] at hg; cases hg
  left := fun _ g hg => by rw [h] at hg; cases hg

/-- The run state fields that say what is left of a run. -/
structure RunState.SameLeft (a b : RunState) : Prop where
  source : b.sourceOffset = a.sourceOffset
  dest : b.destOffset = a.destOffset
  remaining : b.remaining = a.remaining
  blockRemaining : b.blockRemaining = a.blockRemaining

theorem RunState.SameLeft.refl (r : RunState) : r.SameLeft r := ⟨rfl, rfl, rfl, rfl⟩

theorem RunState.SameLeft.trans {a b c : RunState} (h : a.SameLeft b) (h' : b.SameLeft c) : a.SameLeft c :=
  ⟨h'.source.trans h.source, h'.dest.trans h.dest, h'.remaining.trans h.remaining, h'.blockRemaining.trans h.blockRemaining⟩

theorem Program.Fits.of_sameLeft {a b : RunState} (h : g.Fits bytes a) (hsame : a.SameLeft b) : g.Fits bytes b := by
  intro side
  have hleft : g.sideLeft b side = g.sideLeft a side := by
    rw [Program.sideLeft, Program.sideLeft, hsame.remaining, hsame.blockRemaining]
  have hoffset : b.offset side = a.offset side := by
    cases side with
    | source => exact hsame.source
    | dest => exact hsame.dest
  rw [hleft, hoffset]
  exact h side

/-- A record that goes on with the program it had, or has none, and with what was left of the run if it still has one. -/
structure Channel.Follows (x y : Channel) : Prop where
  program : ∀ g ∈ y.program, g ∈ x.program
  run : y.state.hasRun → x.state.hasRun ∧ x.run.SameLeft y.run

theorem Channel.Follows.refl (x : Channel) : x.Follows x := ⟨fun _ h => h, fun h => ⟨h, .refl _⟩⟩

theorem Channel.Spans.follow (h : x.Spans bytes) (hf : x.Follows y) : y.Spans bytes where
  whole := fun g hg => h.whole g (hf.program g hg)
  left := fun hrun g hg => (h.left (hf.run hrun).1 g (hf.program g hg)).of_sameLeft (hf.run hrun).2

theorem Channel.Follows.of_no_run {z : ChannelState} (hprogram : ∀ g ∈ y.program, g ∈ x.program) (hstate : y.state = z)
    (hz : z = .free ∨ z = .leased ∨ z = .programmed) : x.Follows y :=
  ⟨hprogram, fun h => by subst hstate; rcases hz with e | e | e <;> rw [e] at h <;> simp [ChannelState.hasRun] at h⟩

theorem applyRequest_follows (c : Chan) (d : Bool) {q : Request} (hq : q.appliesTo x = true) :
    x.Follows (applyRequest c x d q).channel := by
  cases q with
  | suspend cause =>
    refine ⟨fun _ h => h, fun _ => ⟨?_, ⟨rfl, rfl, rfl, rfl⟩⟩⟩
    cases hs : x.state <;> simp [Request.appliesTo, hs] at hq <;> simp [ChannelState.hasRun]
  | abort cause => exact .of_no_run (fun _ h => h) rfl (.inr (.inr rfl))
  | discard cause => exact .of_no_run (by rintro _ ⟨⟩) rfl (.inr (.inl rfl))
  | teardown => exact .of_no_run (by rintro _ ⟨⟩) rfl (.inl rfl)

theorem makeRequest_follows (c : Chan) (x : Channel) (q : Request) : x.Follows (makeRequest c x q).channel := by
  unfold makeRequest
  split_ifs with happlies
  · exact .refl x
  · unfold Effect.keep Channel.record
    dsimp only
    split
    · exact ⟨fun _ h => h, fun h => ⟨h, .refl _⟩⟩
    · split_ifs <;> exact ⟨fun _ h => h, fun h => ⟨h, .refl _⟩⟩
  · exact applyRequest_follows c false (by simpa using happlies)

theorem activate_follows (c : Chan) (x : Channel) : x.Follows (activate c x).1.channel := by
  unfold activate
  split_ifs
  · exact ⟨fun _ h => h, fun h => ⟨h, ⟨rfl, rfl, rfl, rfl⟩⟩⟩
  · split
    · exact makeRequest_follows c x _
    · exact ⟨fun _ h => h, fun h => ⟨h, ⟨rfl, rfl, rfl, rfl⟩⟩⟩

theorem Order.effect_follows (o : Order) (x : Channel) : x.Follows (o.effect x).channel := by
  unfold Order.effect
  split
  · split_ifs
    · exact makeRequest_follows _ x _
    · exact .refl x
  · exact makeRequest_follows _ x _

theorem dataErrorEnd_follows (c : Chan) (x : Channel) : x.Follows (dataErrorEnd c x).channel := by
  unfold dataErrorEnd
  split
  · exact .of_no_run (by rintro _ ⟨⟩) rfl (.inr (.inl rfl))
  · exact .of_no_run (by rintro _ ⟨⟩) rfl (.inl rfl)
  all_goals exact .of_no_run (fun _ h => h) rfl (.inr (.inr rfl))

theorem completedEnd_follows (c : Chan) (x : Channel) : x.Follows (completedEnd c x).channel := by
  unfold completedEnd
  split
  · exact .of_no_run (by rintro _ ⟨⟩) rfl (.inr (.inl rfl))
  · exact .of_no_run (by rintro _ ⟨⟩) rfl (.inl rfl)
  all_goals exact ⟨fun _ h => h, fun h => ⟨h, .refl _⟩⟩

theorem recordedEnd_follows (c : Chan) (hrun : x.state = .armed ∨ x.state = .running) : x.Follows (recordedEnd c x).channel := by
  unfold recordedEnd
  split
  · exact .refl x
  · next q hq =>
    cases q with
    | suspend cause => exact ⟨fun _ h => h, fun _ => ⟨hrun.imp id .inl, ⟨rfl, rfl, rfl, rfl⟩⟩⟩
    | abort cause => exact .of_no_run (fun _ h => h) rfl (.inr (.inr rfl))
    | discard cause => exact .of_no_run (by rintro _ ⟨⟩) rfl (.inr (.inl rfl))
    | teardown => exact .of_no_run (by rintro _ ⟨⟩) rfl (.inl rfl)

/-! ### A run from its start -/

theorem Program.Ranged.sideLeft_initial (h : g.Ranged) (latch : Bool) (side : BlockSide) :
    g.sideLeft (g.initialRun latch) side = g.sideUnits side := by
  obtain ⟨hmin, -, -⟩ := h
  unfold Program.sideLeft Program.sideUnits Program.initialRun Program.blockUnits
  cases g.mode with
  | block a p b blockSide =>
    dsimp only
    split_ifs
    · rfl
    · obtain ⟨n, hn⟩ : ∃ n, g.count = n + 1 := ⟨g.count - 1, by omega⟩
      rw [hn, Nat.add_sub_cancel, Nat.mul_comm b, Nat.add_one_mul]
  | _ => rfl

theorem Program.FitsWhole.initial (h : g.FitsWhole bytes) (hranged : g.Ranged) (latch : Bool) : g.Fits bytes (g.initialRun latch) := by
  intro side
  rw [hranged.sideLeft_initial]
  cases side with
  | source => exact h .source
  | dest => exact h .dest

theorem Channel.Spans.armed (h : x.Spans bytes) (hranged : ∀ g ∈ x.program, g.Ranged) (hg : x.program = some g) :
    (x.armed g).Spans bytes where
  whole := h.whole
  left := fun _ k hk => by
    obtain rfl : g = k := Option.some.inj (hg.symm.trans hk)
    exact (h.whole g hg).initial (hranged g hg) _

/-! ### A run past a unit (R101 to R106) -/

/-- What the processing of a unit does to a side: the offset moves and one unit less is left, or it returns to its start with the
units of its next round. -/
theorem Program.Fits.side_moved {side : BlockSide} {r r' : RunState} (h : g.Fits bytes r) (hwhole : g.FitsWhole bytes)
    (hside : (r'.offset side = (g.side side).moved g.unit.bytes (r.offset side) ∧ 1 ≤ g.sideLeft r' side ∧
        g.sideLeft r side = g.sideLeft r' side + 1) ∨
      (r'.offset side = (g.side side).start ∧ g.sideLeft r' side = g.sideUnits side)) :
    (g.side side).Within g.unit.bytes (g.sideLeft r' side) (r'.offset side) (bytes (g.side side).handle) := by
  rcases hside with ⟨hoffset, hpos, hleft⟩ | ⟨hoffset, hleft⟩
  · have hw := h side
    rw [hleft] at hw
    rw [hoffset]
    exact hw.moved hpos
  · rw [hoffset, hleft]
    exact hwhole side

end

end Sys2Proof.Machine
end

section
/-! SUPPORT for O60: the spans past a unit and past every act (R70, R71, R99, R101 to R106). -/

set_option Elab.async false

namespace Sys2Proof.Machine

section
variable {bytes : Handle → Nat} {x y : Channel} {g : Program}

/-! ### Past a unit -/

/-- What the processing of a unit does to one side: its offset moves and one unit less is left of it, or it returns to its start with
the units of its next round before it. -/
def Program.SidePast (g : Program) (r r' : RunState) (side : BlockSide) : Prop :=
  (r'.offset side = (g.side side).moved g.unit.bytes (r.offset side) ∧ 1 ≤ g.sideLeft r' side ∧
      g.sideLeft r side = g.sideLeft r' side + 1) ∨
    (r'.offset side = (g.side side).start ∧ g.sideLeft r' side = g.sideUnits side)

theorem Channel.Spans.past (h : x.Spans bytes) (hrun : x.state.hasRun) (hx : x.program = some g) (hy : y.program = some g)
    (hside : ∀ side, g.SidePast x.run y.run side) : y.Spans bytes where
  whole := fun k hk => h.whole k (by rw [hx, ← hy]; exact hk)
  left := fun _ k hk => by
    obtain rfl : g = k := Option.some.inj (hy.symm.trans hk)
    exact fun side => (h.left hrun g hx).side_moved (h.whole g hx) (hside side)

/-- A run that ends leaves the program alone. -/
theorem Channel.Spans.completed (h : x.Spans bytes) (c : Chan) (g : Program) (run : RunState) :
    (x.completed c g run).channel.Spans bytes := h.follow (.of_no_run (fun _ h => h) rfl (.inr (.inr rfl)))

theorem unitEnd_spans (h : x.Spans bytes) (hrun : x.state.hasRun) (hx : x.program = some g) (hranged : g.Ranged)
    (hcounting : g.Counting x.run) (c : Chan) : (unitEnd c x g).channel.Spans bytes := by
  obtain ⟨hlow, -, hmode⟩ := hcounting
  obtain ⟨hcount, -, hblock⟩ := hranged
  unfold unitEnd
  cases hm : g.mode with
  | block a p b blockSide =>
    rw [hm] at hmode hblock
    dsimp only at hmode hblock ⊢
    by_cases hmore : 1 < x.run.blockRemaining
    · rw [if_pos hmore]
      refine h.past hrun hx hx fun side => .inl ⟨by cases side <;> rfl, ?_, ?_⟩ <;>
        · simp only [Program.sideLeft, hm]
          split_ifs <;> omega
    · rw [if_neg hmore]
      by_cases hlast : x.run.remaining - 1 = 0
      · rw [if_pos hlast]
        exact h.completed c g _
      · rw [if_neg hlast]
        refine h.past hrun hx hx fun side => ?_
        by_cases hside : blockSide = side
        · subst hside
          refine .inr ⟨?_, ?_⟩
          · cases blockSide <;> rfl
          · simp [Program.sideLeft, Program.sideUnits, hm, Channel.rearmed]
        · obtain ⟨n, hn⟩ : ∃ n, x.run.remaining = n + 2 := ⟨x.run.remaining - 2, by omega⟩
          have hone : x.run.blockRemaining = 1 := by omega
          have hleft : g.sideLeft x.run side = (n + 1) * b + 1 := by
            simp only [Program.sideLeft, hm, if_neg hside, hn, hone]
            rfl
          refine .inl ⟨?_, ?_, ?_⟩
          · cases blockSide with
            | source => cases side with
              | source => exact absurd rfl hside
              | dest => rfl
            | dest => cases side with
              | source => rfl
              | dest => exact absurd rfl hside
          · simp only [Program.sideLeft, hm, if_neg hside, Channel.rearmed]
            omega
          · rw [hleft]
            simp only [Program.sideLeft, hm, if_neg hside, Channel.rearmed, hn]
            rw [Nat.add_one_mul]
            rfl
  | single a p =>
    dsimp only
    split_ifs with hlast
    · exact h.completed c g _
    · refine h.past hrun hx hx fun side => .inl ⟨by cases side <;> rfl, ?_, ?_⟩ <;>
        · simp only [Program.sideLeft, hm, Channel.rearmed]
          omega
  | cyclic a p =>
    dsimp only
    by_cases hlast : x.run.remaining - 1 = 0
    · rw [if_pos hlast]
      refine h.past hrun hx hx fun side => .inr ⟨by cases side <;> rfl, ?_⟩
      simp only [Program.sideLeft, Program.sideUnits, hm, Channel.rearmed]
    · rw [if_neg hlast]
      refine h.past hrun hx hx fun side => .inl ⟨by cases side <;> rfl, ?_, ?_⟩ <;>
        · simp only [Program.sideLeft, hm, Channel.rearmed]
          omega
  | sweep pacing =>
    dsimp only
    split_ifs with hlast
    · exact h.completed c g _
    · refine h.past hrun hx hx fun side => .inl ⟨by cases side <;> rfl, ?_, ?_⟩ <;>
        · simp only [Program.sideLeft, hm, Channel.rearmed]
          omega
    · refine h.past hrun hx hx fun side => .inl ⟨by cases side <;> rfl, ?_, ?_⟩ <;>
        · simp only [Program.sideLeft, hm]
          omega

end

theorem unitEnd_active {x : Channel} (hstate : x.state = .running) (c : Chan) (g : Program)
    (h : (unitEnd c x g).completed = false) :
    (unitEnd c x g).channel.state = .armed ∨ (unitEnd c x g).channel.state = .running := by
  unfold unitEnd at h ⊢
  cases hm : g.mode with
  | block a p b side =>
    simp only [hm] at h ⊢
    by_cases hmore : 1 < x.run.blockRemaining
    · rw [if_pos hmore]; exact .inr hstate
    · rw [if_neg hmore] at h ⊢
      by_cases hlast : x.run.remaining - 1 = 0
      · rw [if_pos hlast] at h
        cases h
      · rw [if_neg hlast]
        exact .inl rfl
  | single a p =>
    simp only [hm] at h ⊢
    split_ifs at h ⊢
    · cases h
    · exact .inl rfl
  | cyclic a p =>
    dsimp only
    split
    · exact .inl rfl
    · exact .inl rfl
  | sweep pacing =>
    simp only [hm] at h ⊢
    split_ifs at h ⊢
    · cases h
    · exact .inl rfl
    · exact .inr hstate

/-! ### The lengths of the regions -/

section
variable {s t : State}

theorem State.bytesOf_same (h : ∀ i, (t.region i).length = (s.region i).length) : t.bytesOf = s.bytesOf := by
  funext k
  unfold State.bytesOf
  cases k.slot? with
  | none => rfl
  | some i =>
    simp [h i]

/-- A slot that no program names may change its length. -/
theorem Channel.Spans.of_bytes {x : Channel} {bytes bytes' : Handle → Nat} (h : x.Spans bytes)
    (hbytes : ∀ g ∈ x.program, ∀ k, g.names k = true → bytes' k = bytes k) : x.Spans bytes' := by
  have named (g : Program) (hg : g ∈ x.program) (side : BlockSide) :
      bytes' (g.side side).handle = bytes (g.side side).handle :=
    hbytes g hg _ (by cases side <;> simp [Program.names, Program.side])
  exact {
    whole := fun g hg side => by rw [named g hg]; exact h.whole g hg side
    left := fun hrun g hg side => by rw [named g hg]; exact h.left hrun g hg side }

theorem State.References.bytesOf (law : s.References) {i : Slot} (hi : (s.region i).refs = 0)
    (hregion : ∀ j, i ≠ j → t.region j = s.region j) (c : Chan) (hspans : (s.channel c).Spans s.bytesOf) :
    (s.channel c).Spans t.bytesOf := by
  refine hspans.of_bytes fun g hg k hk => ?_
  have hslot := law.not_used hi (.inl ⟨c, g, hg, hk⟩)
  unfold State.bytesOf
  cases hj : k.slot? with
  | none => rfl
  | some j =>
    rw [hj] at hslot
    simp only [Option.map_some, Option.getD_some]
    rw [hregion j fun h => hslot (congrArg some h.symm)]

/-! ### The channels past an act -/

theorem State.Programmable.whole {p : Port} {g : Program} {i j : Slot} (h : s.Programmable p g i j) : g.FitsWhole s.bytesOf := by
  have bytes {k : Handle} {l : Slot} (hk : s.current k = some l) : s.bytesOf k = granuleBytes * (s.region l).length := by
    rw [State.bytesOf, (State.current_slot hk).1]
    rfl
  intro side
  cases side with
  | source => exact ⟨by simpa [Program.side, bytes h.source] using h.sourceSpan, h.align.1⟩
  | dest => exact ⟨by simpa [Program.side, bytes h.dest] using h.destSpan, h.align.2⟩

/-- Every channel record that an act leaves keeps its spans, in the regions from before. -/
def State.SpansKept (s t : State) : Prop :=
  (∀ c, (s.channel c).Spans s.bytesOf) → ∀ c, (t.channel c).Spans s.bytesOf

theorem State.SpansKept.of_eq (h : t.chan.channels = s.chan.channels) : s.SpansKept t := fun hs c => by
  rw [State.channel, h]
  exact hs c

theorem State.SpansKept.replaced {c : Chan} {x : Channel} (hchannel : ∀ d, t.channel d = if c = d then x else s.channel d)
    (hx : (s.channel c).Spans s.bytesOf → x.Spans s.bytesOf) : s.SpansKept t := fun hs d => by
  rw [hchannel]
  split_ifs
  · exact hx (hs c)
  · exact hs d

theorem State.SpansKept.commit {c : Chan} {e : Effect} (h : (s.channel c).Follows e.channel) : s.SpansKept (s.commit c e) :=
  .replaced (fun d => s.commit_channel_eq c d e) fun hx => hx.follow h

/-- The chain of a completed channel arms its target from its start. -/
theorem State.followChain_spans (hranged : ∀ d, ∀ g ∈ (s.channel d).program, g.Ranged) {bytes : Handle → Nat} (c : Chan) (lessee : Option Port) (chain : Option Chan)
    (hs : ∀ d, (s.channel d).Spans bytes) (d : Chan) : ((s.followChain c lessee chain).channel d).Spans bytes := by
  cases chain with
  | none => exact hs d
  | some target =>
    unfold State.followChain
    dsimp only
    split
    · split
      · exact hs d
      · simpa using hs d
    · split
      · exact hs d
      · next g hg =>
        rw [State.setChannel_channel]
        split_ifs
        · exact (hs target).armed (hranged target) hg
        · exact hs d

/-- The end report of the unit in flight: its channel past the unit, and the chain. -/
theorem State.takeEndReport_spans (law : s.ChannelLaw) {u : UnitInFlight} (hu : s.engine.unit = some u) : s.SpansKept (s.takeEndReport u) := by
  intro hs d
  have hflight : (s.channel u.channel).run.unitInFlight = true := (law.unit u.channel).2 (by rw [hu]; rfl)
  have hlaw := law.channel u.channel
  have hstate := hlaw.flight hflight
  obtain ⟨g, hprogram, -⟩ := hlaw.run_some (.inr (.inl hstate))
  have hranged := hlaw.ranged g hprogram
  have hcounting := (hlaw.counting (.inr (.inl hstate)) g hprogram).of_eq 
    (b := { (s.channel u.channel).run with unitInFlight := false }) rfl rfl
  have hspans := (hs u.channel).follow (y := { s.channel u.channel with run := { (s.channel u.channel).run with unitInFlight := false } })
    ⟨fun _ h => h, fun h => ⟨h, ⟨rfl, rfl, rfl, rfl⟩⟩⟩
  have committed {e : Effect} (he : e.channel.Spans s.bytesOf) (d : Chan) :
      (((s.setEngine { s.engine with unit := none }).commit u.channel e).channel d).Spans s.bytesOf := by
    rw [State.commit_channel_eq]
    split_ifs
    · exact he
    · exact hs d
  have rangedBehind {e : Effect} (he : e.Shape u.channel (s.channel u.channel)) (d : Chan) :
      ∀ k ∈ (((s.setEngine { s.engine with unit := none }).commit u.channel e).channel d).program, k.Ranged := by
    rw [State.commit_channel_eq]
    split_ifs
    · exact fun k hk => hlaw.ranged k (he.program hk)
    · exact (law.channel d).ranged
  unfold State.takeEndReport
  dsimp only
  rw [State.setEngine_channel]
  generalize hy : ({ s.channel u.channel with run := { (s.channel u.channel).run with unitInFlight := false } } : Channel) = y
    at hspans
  have hystate : y.state = .running := by rw [← hy]; exact hstate
  have hyprogram : y.program = some g := by rw [← hy]; exact hprogram
  have hyshape {e : Effect} (he : e.Shape u.channel y) : e.Shape u.channel (s.channel u.channel) := by
    rw [← hy] at he
    exact he.of_eq rfl rfl
  have hend : (unitEnd u.channel y g).channel.Spans s.bytesOf :=
    unitEnd_spans hspans (.inr (.inl hystate)) hyprogram hranged (by rw [← hy]; exact hcounting) u.channel
  obtain ⟨-, hendLessee, hendProgram, -, -⟩ := unitEnd_keeps u.channel y g
  rw [hprogram]
  dsimp only
  by_cases herror : u.dataError = true
  · rw [if_pos herror]
    exact committed (hspans.follow (dataErrorEnd_follows _ _)) d
  · rw [if_neg herror]
    by_cases hdone : (unitEnd u.channel y g).completed = true
    · rw [if_pos hdone]
      have hcommitted := committed (e := (completedEnd u.channel (unitEnd u.channel y g).channel).after (unitEnd u.channel y g).events)
        (hend.follow (completedEnd_follows _ _))
      split_ifs
      · exact State.followChain_spans (rangedBehind (hyshape (((completedEnd_shape u.channel _).after _).of_eq
          hendProgram.symm hendLessee.symm))) _ _ _ hcommitted d
      · exact hcommitted d
    · rw [if_neg hdone]
      exact committed (e := (recordedEnd u.channel (unitEnd u.channel y g).channel).after (unitEnd u.channel y g).events)
        (hend.follow (recordedEnd_follows _ (unitEnd_active hystate _ _ (by simpa using hdone)))) d

/-- Every act that makes no region and ends none leaves the channels their spans. -/
theorem State.Act.spansKept (h : s.Act t) (law : s.ChannelLaw) : s.SpansKept t := by
  cases h with
  | close p order => exact .of_eq (s.closeSession_channels p order).1
  | lease p c =>
    exact .replaced (s := s) (c := c) (x := Channel.leasedTo p) (fun d => s.setChannel_channel c _ d) fun _ => .of_no_program rfl
  | release p c =>
    exact .replaced (s := s) (c := c) (x := Channel.empty) (fun d => s.setChannel_channel c _ d) fun _ => .of_no_program rfl
  | install p c g i j r hlessee hrec hstate horders hprog hcheck =>
    refine .replaced (fun d => s.install_channel c g i j d) fun _ => ⟨fun k hk => ?_, fun hrun => ?_⟩
    · cases hk
      exact (State.checkProgram_ok hcheck).whole
    · rcases hrun with h | h | h <;> cases h
  | arm c g hprog =>
    exact .replaced (fun d => s.setChannel_channel c _ d) fun hx => hx.armed (law.channel c).ranged hprog
  | resume c hstate =>
    exact .replaced (fun d => s.setChannel_channel c _ d) fun hx =>
      hx.follow ⟨fun _ h => h, fun _ => ⟨.inr (.inr hstate), ⟨rfl, rfl, rfl, rfl⟩⟩⟩
  | suspend c cause => exact .commit (makeRequest_follows c _ _)
  | abort c cause => exact .commit (makeRequest_follows c _ _)
  | activate c htakes => exact .commit (activate_follows c _)
  | order o left => exact State.SpansKept.commit (s := s.setOrders left) (o.effect_follows _)
  | startUnit c g bases hidle hreq =>
    refine .replaced (fun d => s.setChannel_channel c _ d) fun hx => hx.follow ?_
    obtain ⟨-, k, -, hstate⟩ := (s.requests_iff c).1 hreq
    have hrun : (s.channel c).state.hasRun := (hstate.imp And.left And.left).imp id .inl
    unfold Channel.started
    split_ifs
    · exact ⟨fun _ h => h, fun _ => ⟨hrun, ⟨rfl, rfl, rfl, rfl⟩⟩⟩
    · exact ⟨fun _ h => h, fun _ => ⟨hrun, ⟨rfl, rfl, rfl, rfl⟩⟩⟩
  | endReport u hu => exact State.takeEndReport_spans law hu
  | tick => exact .of_eq (by simp)
  | free i => exact .of_eq (by simp)
  | grant i p new => exact .of_eq (by simp [State.setGrant])
  | accept p i o e => exact .of_eq (by simp [State.moveQuota])
  | referenceRelease h i rest => exact .of_eq ((s.setNotices rest).releaseReference_chan i).1
  | leaseEnd c p rest => exact .of_eq (by simp)
  | _ => exact .of_eq rfl

/-! ### The unit in flight -/

/-- What a granted unit moves lies in the regions of its program, and so in the memory (R71, R99). -/
theorem State.startUnit_inside (hspans : ∀ c, (s.channel c).Spans s.bytesOf) (hchannels : s.ChannelLaw) (hgranule : s.GranuleLaw)
    {c : Chan} {g : Program} {bases : Nat × Nat} (hreq : s.requests c = true) (hcheck : s.unitStartCheck c = some bases)
    (hprog : (s.channel c).program = some g) : (s.startUnit c g bases.1 bases.2).UnitInside := by
  obtain ⟨-, k, -, hstate⟩ := (s.requests_iff c).1 hreq
  have hrun : (s.channel c).state.hasRun := (hstate.imp And.left And.left).imp id .inl
  obtain ⟨g', i, j, ⟨hg', -, -, -, hi, hilive, -, hj, hjlive, -⟩, rfl⟩ := (s.unitStartCheck_iff c _).1 hcheck
  obtain rfl : g = g' := Option.some.inj (hprog.symm.trans hg')
  obtain ⟨hlow, -, hmode⟩ := (hchannels.channel c).counting hrun g hprog
  have hleft (side : BlockSide) : 1 ≤ g.sideLeft (s.channel c).run side := by
    unfold Program.sideLeft
    cases hm : g.mode with
    | block a p b blockSide =>
      rw [hm] at hmode
      dsimp only at hmode ⊢
      split_ifs <;> omega
    | _ => exact hlow
  have inside {h : Handle} {l : Slot} (hh : s.current h = some l) (hlive : (s.region l).state = .live) :
      granuleBytes * (s.region l).base + s.bytesOf h ≤ memoryBytes := by
    have hin := (hgranule.inside l (by simp [hlive])).2
    have hbytes : s.bytesOf h = granuleBytes * (s.region l).length := by
      rw [State.bytesOf, (State.current_slot hh).1]
      rfl
    rw [hbytes, ← Nat.mul_add]
    exact Nat.mul_le_mul_left granuleBytes hin
  have hsource := ((hspans c).left hrun g hprog .source).unit_le (hleft .source)
  have hdest := ((hspans c).left hrun g hprog .dest).unit_le (hleft .dest)
  have hsourceIn := inside hi hilive
  have hdestIn := inside hj hjlive
  intro u hu
  obtain rfl := Option.some.inj (Option.mem_def.1 hu)
  refine ⟨?_, ?_, Nat.zero_le _⟩
  · simp only [Program.side, RunState.offset] at hsource
    dsimp only
    omega
  · simp only [Program.side, RunState.offset] at hdest
    dsimp only
    omega

theorem State.UnitInside.of_eq (h : s.UnitInside) (hengine : t.engine = s.engine) : t.UnitInside := by
  unfold State.UnitInside
  rw [hengine]
  exact h

theorem State.UnitInside.of_none (h : t.engine.unit = none) : t.UnitInside := by
  intro u hu
  rw [h] at hu
  cases hu

theorem State.takeEndReport_unit (u : UnitInFlight) : (s.takeEndReport u).engine.unit = none := by
  have ht := s.takeEndReport_taken u
  generalize s.takeEndReport u = t at ht ⊢
  cases ht with
  | noProgram h => rfl
  | claim e h => rw [State.commit_engine]; rfl
  | chained e lessee chain h => rw [(State.followChain_rest _ _ _ _).2.1, State.commit_engine]; rfl

theorem State.Act.unitInside (h : s.Act t) (law : s.UnitInside) (hspans : ∀ c, (s.channel c).Spans s.bytesOf)
    (hchannels : s.ChannelLaw) (hgranule : s.GranuleLaw) : t.UnitInside := by
  cases h with
  | startUnit c g bases hidle hreq hcheck hprog => exact State.startUnit_inside hspans hchannels hgranule hreq hcheck hprog
  | unit u v hu hsame hbuffer =>
    intro w hw
    obtain rfl := Option.some.inj (Option.mem_def.1 hw)
    obtain ⟨hsource, hdest, hlength⟩ := law u hu
    obtain ⟨-, heqSource, heqDest, heqSize⟩ := hsame
    rw [heqSource, heqDest, heqSize]
    refine ⟨hsource, hdest, ?_⟩
    rcases hbuffer with h | h
    · rw [h]; exact hlength
    · exact h.le
  | endReport u => exact .of_none (State.takeEndReport_unit u)
  | close p order => exact law.of_eq (s.closeSession_channels p order).2
  | install p c g i j => exact law.of_eq (s.install_engine c g i j)
  | suspend c cause => exact law.of_eq (by simp)
  | abort c cause => exact law.of_eq (by simp)
  | activate c => exact law.of_eq (by simp)
  | order o left => exact law.of_eq (by simp)
  | tick => exact law.of_eq (by simp)
  | free i => exact law.of_eq (by simp)
  | grant i p new => exact law.of_eq (by simp [State.setGrant])
  | accept p i o e => exact law.of_eq (by simp [State.moveQuota])
  | referenceRelease h i rest => exact law.of_eq ((s.setNotices rest).releaseReference_chan i).2
  | leaseEnd c p rest => exact law.of_eq (by simp)
  | _ => exact law.of_eq rfl

/-! ### The law of spans past every act -/

theorem State.Act.spanLaw (h : s.Act t) (law : s.SpanLaw) (hchannels : s.ChannelLaw) (hgranule : s.GranuleLaw)
    (hscrub : s.ScrubLaw) (href : s.References) : t.SpanLaw := by
  obtain ⟨hspans, hunit⟩ := (s.spanLaw_iff).1 law
  refine (t.spanLaw_iff).2 ⟨?_, h.unitInside hunit hspans hchannels hgranule⟩
  rcases h.runs with hsame | ⟨p, i, base, length, label, hslot, -, -, -, rfl⟩ | ⟨i, rest, hn, rfl⟩
  · rw [State.bytesOf_same fun i => (hsame.region i).length]
    exact h.spansKept hchannels hspans
  · exact fun c => href.bytesOf (href.zero i (.inl hslot)) (fun j hj => by simp [State.placeRegion, hj]) c (hspans c)
  · have hscrubbing := (hscrub.scrubbing_of_notice (i := i) (by rw [hn]; exact List.mem_cons_self ..)).1
    exact fun c => href.bytesOf (href.zero i (.inr hscrubbing)) (fun j hj => by simp [State.finishScrub, hj]) c (hspans c)

theorem State.SpanLaw.of_eq (law : s.SpanLaw) (hchannels : t.chan.channels = s.chan.channels)
    (hregions : t.table.regions = s.table.regions) (hengine : t.engine = s.engine) : t.SpanLaw := by
  obtain ⟨hspans, hunit⟩ := (s.spanLaw_iff).1 law
  have hbytes : t.bytesOf = s.bytesOf := State.bytesOf_same fun i => by
    rw [State.region, hregions]
    rfl
  refine (t.spanLaw_iff).2 ⟨fun c => ?_, hunit.of_eq hengine⟩
  rw [State.channel, hchannels, hbytes]
  exact hspans c

end

end Sys2Proof.Machine
end

section
/-! PROOF of O60 and O55: every law holds for ever, from reset on. -/

set_option Elab.async false

namespace Sys2Proof.Machine

/-! ### The bare tables -/

section
variable {s t : State}

theorem State.Bare.references (h : s.Bare) : s.References := by
  have hsides (c : Chan) (i : Slot) : (s.channel c).sidesOn i = 0 := by rw [h.channels c]; rfl
  exact {
    count := fun i => by
      have hnotices : releasesFor s.table.notices i = 0 := releasesFor_of_none fun n hn => by
        obtain ⟨p, rfl⟩ := h.notices n hn
        rfl
      simp only [hsides, hnotices, h.regions i]
      rfl
    zero := fun i _ => by rw [h.regions i]; rfl
    retiring := fun i hi => by rw [h.regions i] at hi; cases hi
    handles := fun k hk => by
      rcases hk with ⟨c, g, hg, -⟩ | hn
      · rw [h.channels c] at hg; cases hg
      · obtain ⟨p, ⟨⟩⟩ := h.notices _ hn
    leaves := fun i hi => by rw [h.regions i] at hi; cases hi
    runs := fun e he => by rw [h.queue] at he; cases he }

theorem State.Bare.quotaCounts (h : s.Bare) : s.Quotas where
  granules := fun p => by simp [h.quotas p, h.regions, Region.weight, Region.countsFor, Region.empty]
  regions := fun p => by simp [h.quotas p, h.regions, Region.one, Region.countsFor, Region.empty]
  channels := fun p => by
    have hnotices : leaseEndsFor s.table.notices p = 0 := leaseEndsFor_of_none (fun n hn c q heq => by
      obtain ⟨k, rfl⟩ := h.notices n hn
      cases heq) p
    simp [h.quotas p, hnotices, h.channels, Channel.leasedBy, Channel.empty]
  split := fun _ p => by rw [h.quotas p]; exact ⟨Nat.zero_le _, Nat.zero_le _, Nat.zero_le _⟩

theorem State.Bare.sessionLaw (h : s.Bare) : s.SessionLaw where
  owner := fun i => by rw [h.regions i]; exact look_noGrants _
  grants := fun p i _ => by rw [h.regions i]; exact look_noGrants p
  live := fun p i _ hlive => by rw [h.regions i] at hlive; cases hlive
  retiring := fun p i _ hretiring => by rw [h.regions i] at hretiring; cases hretiring
  leases := fun p _ => by rw [h.quotas p]

theorem State.Bare.spanLaw (h : s.Bare) : s.SpanLaw :=
  s.spanLaw_iff.2 ⟨fun c => .of_no_program (by rw [h.channels c]; rfl), .of_none h.unit⟩

theorem State.Bare.channelLaw (h : s.Bare) : s.ChannelLaw := .of_reset h.channels h.unit

/-! ### The laws that lean on each other -/

/-- The laws of the tables, the channels and the engine of a hub that has left the start-up time. -/
structure State.Sound (s : State) : Prop where
  tabled : s.Tabled
  channel : s.ChannelLaw
  reference : s.References
  quota : s.Quotas
  session : s.SessionLaw
  span : s.SpanLaw

theorem State.Act.sound (h : s.Act t) (law : s.Sound) : t.Sound := by
  obtain ⟨htabled, hchannel, hreference, hquota, hsession, hspan⟩ := law
  exact {
    tabled := h.tabled htabled
    channel := h.channelLaw hchannel
    reference := h.references hreference hchannel htabled.scrub
    quota := h.quotas hquota hchannel htabled.offer htabled.scrub
    session := h.sessionLaw hsession
    span := h.spanLaw hspan hchannel htabled.granule htabled.scrub hreference }

/-- What waits in a command queue, a result queue or the instruction queue, and where the port pointer stands, matters to none of
these laws. -/
theorem State.Sound.of_eq (law : s.Sound) (hpins : t.pins = s.pins) (hregions : t.table.regions = s.table.regions)
    (hgranules : t.table.granules = s.table.granules) (hsessions : t.table.sessions = s.table.sessions)
    (hquotas : t.table.quotas = s.table.quotas) (hmode : t.table.quotaMode = s.table.quotaMode)
    (hnotices : t.table.notices = s.table.notices) (hchan : t.chan = s.chan) (hengine : t.engine = s.engine)
    (hscrub : t.scrub = s.scrub) : t.Sound := by
  have hchannels : t.chan.channels = s.chan.channels := congrArg _ hchan
  have hstarting : t.starting ↔ s.starting := by rw [State.starting, State.starting, hpins, hscrub]
  exact {
    tabled := ⟨mt hstarting.1 law.tabled.running, law.tabled.offer.of_eq hregions hsessions,
      law.tabled.granule.of_sameRuns (.of_eq hregions hgranules) hstarting,
      law.tabled.scrub.of_eq (congrArg _ hscrub) hnotices hregions⟩
    channel := law.channel.of_eq hchannels hengine
    reference := law.reference.of_eq hchannels hnotices (congrArg _ hchan) hregions (congrArg _ hscrub)
    quota := law.quota.of_eq hregions hquotas hmode hnotices hchannels
    session := law.session.of_eq hregions hsessions fun p => by rw [State.quota, hquotas]; rfl
    span := law.span.of_eq hchannels hregions hengine }

theorem State.Moves.sound (h : s.Moves t) (law : s.Sound) : t.Sound :=
  h.keeps (P := State.Sound) State.Act.sound (fun law => law.of_eq rfl rfl rfl rfl rfl rfl rfl rfl rfl rfl)
    (fun law => law.of_eq rfl rfl rfl rfl rfl rfl rfl rfl rfl rfl) law

theorem State.Lawful.sound (law : s.Lawful) (hs : ¬ s.starting) : s.Sound where
  tabled := ⟨hs, law.offer, law.granule, law.reference.scrubs⟩
  channel := law.channel
  reference := (s.referenceLaw_iff.1 law.reference).1
  quota := s.quotaLaw_iff.1 law.quota
  session := law.session
  span := law.span

theorem State.Sound.lawful (law : s.Sound) (start : s.StartLaw) (link : ∀ p, (s.link p).Law) (memory : s.MemoryLaw) :
    s.Lawful where
  start := start
  link := link
  channel := law.channel
  offer := law.tabled.offer
  granule := law.tabled.granule
  reference := s.referenceLaw_iff.2 ⟨law.reference, law.tabled.scrub⟩
  quota := s.quotaLaw_iff.2 law.quota
  session := law.session
  memory := memory
  span := law.span

theorem State.Bare.lawful (h : s.Bare) (start : s.StartLaw) (link : ∀ p, (s.link p).Law) (memory : s.MemoryLaw) :
    s.Lawful where
  start := start
  link := link
  channel := h.channelLaw
  offer := h.offerLaw
  granule := h.granuleLaw
  reference := s.referenceLaw_iff.2 ⟨h.references, h.scrubLaw⟩
  quota := s.quotaLaw_iff.2 h.quotaCounts
  session := h.sessionLaw
  memory := memory
  span := h.spanLaw

theorem State.StepsTo.lawful (h : s.StepsTo t) (law : s.Lawful) : t.Lawful := by
  have start := h.startLaw law.start
  have link := h.linkLaw law.link
  have memory := h.memoryLaw law.memory
  rcases h.bare_or_moves law.start with hbare | ⟨hs, hmoves⟩
  · exact hbare.lawful start link memory
  · exact (hmoves.sound (law.sound hs)).lawful start link memory

/-- No law reads the instruction queue. -/
theorem State.Lawful.pending (law : s.Lawful) (rest : List Instr) : ({ s with pending := rest } : State).Lawful where
  start := { law.start with }
  link := law.link
  channel := law.channel.of_eq rfl rfl
  offer := law.offer.of_eq rfl rfl
  granule := law.granule.of_sameRuns (.of_eq rfl rfl) Iff.rfl
  reference := { law.reference with }
  quota := { law.quota with }
  session := law.session.of_eq rfl rfl fun _ => rfl
  memory := law.memory
  span := law.span.of_eq rfl rfl rfl

end

/-! ### Every row goes on -/

/-- The step goes on: it ends in no fault and no refusal. -/
def goesOn (r : Res) : Prop := ∃ t, r = .next t

theorem goesOn_next (t : State) : goesOn (.next t) := ⟨t, rfl⟩

theorem goesOn_ite {p : Prop} [Decidable p] {a b : Res} (ha : goesOn a) (hb : goesOn b) : goesOn (if p then a else b) := by
  split
  · exact ha
  · exact hb

section
variable {s : State}

theorem State.taking_goesOn (p : Port) (mine : CommandRecord → Bool) (body : CommandRecord → State → State × Option Reply) :
    goesOn (s.taking p mine body) := by
  unfold State.taking
  split
  · exact goesOn_next _
  · split_ifs
    · split
      · exact goesOn_next _
      · exact goesOn_next _
    · exact goesOn_next _

theorem State.unitWrite_goesOn {u : UnitInFlight} (h : u.dest + u.buffer.length ≤ memoryBytes) : goesOn (s.unitWrite u) := by
  unfold State.unitWrite
  dsimp only
  rw [if_neg (Nat.not_lt.2 h)]
  exact goesOn_ite (goesOn_next _) (goesOn_next _)

/-- The accesses of the unit in flight lie in the memory (R99). -/
theorem execUnitTransfer_goesOn (law : s.UnitInside) (part : UnitPart) : goesOn (execUnitTransfer part s) := by
  unfold execUnitTransfer
  split
  · exact goesOn_next _
  · next u hu =>
    obtain ⟨hsource, hdest, hbuffer⟩ := law u hu
    have hread : s.unitRead u = .next (s.setUnit { u with
        buffer := s.mem.readSpan u.source u.size.bytes, dataError := s.mem.spanError u.source u.size.bytes
        phase := .readDone }) := by
      unfold State.unitRead
      exact if_neg (Nat.not_lt.2 hsource)
    have hwrite : goesOn (s.unitWrite u) := State.unitWrite_goesOn (by omega)
    split
    · rw [hread]; exact goesOn_next _
    · exact hwrite
    · exact hwrite
    · rw [hread]
      refine State.unitWrite_goesOn ?_
      rw [Memory.readSpan_length]
      exact hdest
    all_goals exact goesOn_next _

/-- An admitted access lies in the memory, and the buffer holds the bytes of a write (R36, R39). -/
theorem execWindowAccess_goesOn (p : Port) (law : (s.link p).Law) : goesOn (execWindowAccess p s) := by
  unfold execWindowAccess
  split
  · exact goesOn_next _
  · next w hw =>
    by_cases hadmitted : w.admitted = true
    · have hspan := law.admitted w hw hadmitted
      rw [if_neg (by simp [hadmitted]), if_neg (Nat.not_lt.2 hspan)]
      cases hdir : w.direction with
      | read => exact goesOn_next _
      | write =>
        dsimp only
        rw [law.write w hw hdir, if_neg (Nat.not_lt.2 hspan)]
        exact goesOn_next _
    · rw [if_pos (by simpa using hadmitted)]
      exact goesOn_next _

theorem exec_goesOn (c : Instr) (links : ∀ p, (s.link p).Law) (unit : s.UnitInside) : goesOn (exec c s) := by
  have same : goesOn (.next s) := goesOn_next s
  cases hrow : commandRow c with
  | some row =>
    obtain ⟨body, hbody⟩ := exec_commandRow_taking (s := s) hrow
    rw [hbody]
    exact State.taking_goesOn _ _ _
  | none =>
    cases c with
    | badOpcode p => rw [exec, execBadOpcode]; exact State.taking_goesOn _ _ _
    | unitTransfer part => exact execUnitTransfer_goesOn unit part
    | windowAccess p => exact execWindowAccess_goesOn p (links p)
    | windowCheck p =>
      rw [exec, execWindowCheck]
      split
      · exact same
      · refine goesOn_ite same ?_
        split
        · exact goesOn_next _
        · exact goesOn_next _
    | referenceRelease =>
      rw [exec, execReferenceRelease]
      split
      · split
        · exact goesOn_next _
        · exact goesOn_next _
      · exact same
    | clearNotice order =>
      rw [exec, execClearNotice]
      split
      · exact goesOn_ite (goesOn_next _) (goesOn_next _)
      · exact same
    | clrFall p => exact goesOn_ite same (goesOn_ite (goesOn_next _) (goesOn_next _))
    | haltFall p => exact goesOn_ite same (goesOn_ite (goesOn_next _) (goesOn_next _))
    | leaseEnd =>
      rw [exec, execLeaseEnd]
      split
      · exact goesOn_next _
      · exact goesOn_next _
    | scrubDone =>
      rw [exec, execScrubDone]
      split
      · exact goesOn_next _
      · exact goesOn_next _
    | offerExpiry =>
      rw [exec, execOfferExpiry]
      split
      · exact goesOn_next _
      · exact goesOn_next _
    | edgeClaim n order =>
      rw [exec, execEdgeClaim]
      split
      · exact goesOn_next _
      · exact goesOn_next _
    | scrubRunEnd =>
      rw [exec, execScrubRunEnd]
      split
      · exact goesOn_next _
      · exact goesOn_next _
    | unitStart =>
      rw [exec, execUnitStart]
      refine goesOn_ite same ?_
      split
      · exact same
      · split
        · exact same
        · exact goesOn_next _
    | unitEndReport =>
      rw [exec, execUnitEndReport]
      split
      · exact same
      · exact goesOn_ite (goesOn_next _) same
    | unknownCodeFrame p code part => exact goesOn_ite (goesOn_next _) (goesOn_next _)
    | offerTimerExpiry i => exact goesOn_ite (goesOn_next _) (goesOn_next _)
    | haltClaim p order => exact goesOn_ite (goesOn_next _) (goesOn_next _)
    | triggerLevelChange n => exact goesOn_ite (goesOn_next _) (goesOn_next _)
    | scrubRunStart => exact goesOn_ite (goesOn_next _) (goesOn_next _)
    | resetRelease levels => exact goesOn_ite (goesOn_next _) (goesOn_next _)
    | startupClearEnd => exact goesOn_ite (goesOn_next _) (goesOn_next _)
    | statusRead p part => exact goesOn_next _
    | commandWrite p part => exact goesOn_next _
    | resultRead p part => exact goesOn_next _
    | eventRead p part => exact goesOn_next _
    | windowRead p part => exact goesOn_next _
    | windowWrite p part => exact goesOn_next _
    | msTick => exact goesOn_next _
    | clrRise p => exact goesOn_next _
    | haltRise p => exact goesOn_next _
    | discardOrder k => exact goesOn_next _
    | teardownOrder k => exact goesOn_next _
    | memoryFault addr value => exact goesOn_next _
    | resetAssert => exact goesOn_next _
    | _ => cases hrow

end

/-- Settles O60: a step goes on, and what it can be keeps every law. -/
theorem lawsHoldForEver : Obligations.LawsHoldForEver := by
  unfold Obligations.LawsHoldForEver
  intro s law
  have goes : goesOn (step s) := by
    unfold step
    split
    · exact goesOn_next _
    · exact exec_goesOn _ law.link (s.spanLaw_iff.1 law.span).2
  obtain ⟨t, ht⟩ := goes
  obtain ⟨rest, h⟩ := step_stepsTo ht
  exact ⟨t, ht, h.lawful (law.pending rest)⟩

/-- Settles O55: reset leaves the tables bare. -/
theorem resetIsLawful : Obligations.ResetIsLawful := by
  unfold Obligations.ResetIsLawful
  have start : State.reset.StartLaw := .of_reset rfl _ rfl rfl rfl rfl rfl
  refine (start.bare (.inl rfl)).lawful start (fun p => ?_) State.reset_mem_wf
  rw [State.link]
  exact (look_replicate _ _).symm ▸ Link.empty_law

end Sys2Proof.Machine
end

section
/-! PROOF of O1 to O5 and O36: the queue of steps, device reset, the memory, the scrub unit, and the HALT and CLR lines. Each row's
outcome is its definition at the case; what it leaves of the memory and of the granule map is read off byte by byte and bit by bit. -/

set_option Elab.async false

namespace Sys2Proof.Machine

/-! ### The queue of steps -/

theorem step_of_pending {s : State} {c : Instr} {rest : List Instr} (h : s.pending = c :: rest) :
    step s = exec c { s with pending := rest } := by unfold step; rw [h]

theorem step_of_idle {s : State} (h : s.pending = []) : step s = .next s.clearNextGranule := by unfold step; rw [h]

/-- Settles O1. -/
theorem stepRunsFrontCommand : Obligations.StepRunsFrontCommand := by
  unfold Obligations.StepRunsFrontCommand
  exact fun s c rest h => step_of_pending h

/-! ### Clearing granules -/

/-- What clearing the granules of a run from place `k` to before place `n` makes of a defined byte. -/
theorem Memory.clearGranules_byte (m : Memory) (base k n : Nat) {a : Nat} (ha : a < m.definedTo) :
    (m.clearGranules base k n).read a = (if 64 * (base + k) ≤ a ∧ a < 64 * (base + n) then 0 else m.read a) ∧
      (m.clearGranules base k n).parityError a =
        (if 64 * (base + k) ≤ a ∧ a < 64 * (base + n) then false else m.parityError a) :=
  ⟨m.read_clear _ _ a ha, m.parityError_clear _ _ a ha⟩

section
variable {s : State}

theorem State.clearNextGranule_startup (h : s.scrub.startup = true) : s.clearNextGranule =
    if s.mem.definedTo + 64 < memoryBytes then s.setMem (s.mem.define (s.mem.definedTo + 64)) else s := if_pos h

theorem State.clearNextGranule_none (h : s.scrub.startup = false) (hrun : s.scrub.running = none ∨ s.scrub.queue = []) :
    s.clearNextGranule = s := by
  unfold State.clearNextGranule
  rw [if_neg (by simp [h])]
  split
  · next hqueue hrunning =>
    rcases hrun with hnone | hempty
    · rw [hnone] at hrunning; cases hrunning
    · rw [hempty] at hqueue; cases hqueue
  · rfl

theorem State.clearNextGranule_run (h : s.scrub.startup = false) {e : ScrubRun} {rest : List ScrubRun} {k : Nat}
    (hqueue : s.scrub.queue = e :: rest) (hrunning : s.scrub.running = some k) : s.clearNextGranule =
    if k + 1 < e.length then
      (s.setMem (s.mem.clearGranules e.base k (k + 1))).setScrub { s.scrub with running := some (k + 1) }
    else s := by
  unfold State.clearNextGranule
  rw [if_neg (by simp [h]), hqueue, hrunning]

end

/-- Settles O2, by what the scrub unit is at. -/
theorem idleHubClearsGranules : Obligations.IdleHubClearsGranules := by
  unfold Obligations.IdleHubClearsGranules
  intro s hp
  rw [step_of_idle hp]
  refine ⟨fun hstartup hrun => ?_, fun hstartup hmore => ?_, fun hstartup hlast => ?_,
    fun e rest k hstartup hqueue hrunning => ⟨fun hlast => ?_, fun hmore => ?_⟩⟩
  · rw [State.clearNextGranule_none hstartup hrun]
  · rw [State.clearNextGranule_startup hstartup, if_pos hmore]
    rfl
  · rw [State.clearNextGranule_startup hstartup, if_neg (Nat.not_lt.2 hlast)]
  · rw [State.clearNextGranule_run hstartup hqueue hrunning, if_neg (Nat.not_lt.2 hlast)]
  · rw [State.clearNextGranule_run hstartup hqueue hrunning, if_pos hmore]
    exact ⟨s.mem.clearGranules e.base k (k + 1), rfl, rfl, fun a ha => s.mem.clearGranules_byte e.base k (k + 1) ha⟩

/-! ### Device reset -/

section
variable (s : State)

theorem exec_resetAssert : exec .resetAssert s = .next
    { pins := { s.pins with reset := .low }, table := TableController.reset s.table.quotaMode, chan := ChannelController.reset
      engine := Engine.reset, scrub := ScrubUnit.reset, links := Vector.replicate 4 Link.empty
      mem := Memory.undefined (s.mem.resets + 1), pending := s.pending } := rfl

variable {s}

theorem exec_resetRelease (levels : ReleaseLevels) (h : s.pins.reset = .low) : exec (.resetRelease levels) s = .next
    (((s.setPins { reset := .high, halt := levels.halt, clr := levels.clr, trg := levels.trg }).setQuotaMode
      (quotaModeOf levels.qsel)).setScrub { s.scrub with startup := true }) := if_neg (by simp [h])

theorem exec_startupClearEnd (h : s.scrub.startup = true) : exec .startupClearEnd s = .next
    ((((s.setMem (s.mem.define memoryBytes)).setGranules 0).setScrub { s.scrub with startup := false }).mapLinks
      fun l => { l with notReady := false }) := if_pos h

end

theorem quotaModeOf_eq (l : Level) : quotaModeOf l = if l = .low then .openMode else .split := by cases l <;> rfl

/-- Settles O3: each row is one assignment of the state, read off field by field. -/
theorem resetSequence : Obligations.ResetSequence := by
  unfold Obligations.ResetSequence
  refine ⟨⟨rfl, rfl, fun _ _ => rfl, look_noGrants, fun _ => rfl, rfl, rfl, rfl⟩, fun s => ?asserted,
    fun s levels hlow => ?released, fun s law hstartup => ?ended⟩
  case asserted =>
    refine ⟨_, exec_resetAssert s, rfl, fun i => look_replicate _ _, fun g hg => ?_,
      fun p => ⟨look_replicate _ _, look_replicate _ _⟩, rfl, rfl, rfl, rfl, fun c => look_replicate _ _, rfl, rfl, rfl,
      fun k => look_replicate _ _, rfl, rfl, fun p => look_replicate _ _, rfl, rfl⟩
    exact (BitVec.getLsbD_allOnes).trans (decide_eq_true hg)
  case released =>
    rw [exec_resetRelease levels hlow, quotaModeOf_eq]
    rfl
  case ended =>
    refine ⟨s.mem.define memoryBytes, 0, (s.mapLinks fun l => { l with notReady := false }).links,
      exec_startupClearEnd hstartup, fun g _ => BitVec.getLsbD_zero, fun p => s.mapLinks_link _ p, rfl,
      fun a hlow hhigh => ⟨?_, ?_⟩, fun a ha => ⟨?_, ?_⟩⟩
    · rw [Memory.read_define law hhigh, if_neg (Nat.not_lt.2 hlow)]
    · rw [Memory.parityError_define law hhigh, if_neg (Nat.not_lt.2 hlow)]
    · have hdefined := ((Memory.wf_iff s.mem).1 law).1
      rw [Memory.read_define law (ha.trans_le hdefined), if_pos ha]
    · have hdefined := ((Memory.wf_iff s.mem).1 law).1
      rw [Memory.parityError_define law (ha.trans_le hdefined), if_pos ha]

/-! ### The memory -/

theorem exec_memoryFault (s : State) (addr : BitVec 18) (value : Byte) :
    exec (.memoryFault addr value) s = .next (s.setMem (s.mem.corrupt addr.toNat value)) := rfl

/-- Settles O4, by what a fault does to a byte that is defined or not. -/
theorem memoryFaultEffect : Obligations.MemoryFaultEffect := by
  unfold Obligations.MemoryFaultEffect
  intro s addr value law
  rw [exec_memoryFault]
  refine ⟨fun hundefined => ?_, fun hdefined => ⟨s.mem.corrupt addr.toNat value, rfl, by simp, fun a _ => ⟨?_, ?_⟩⟩⟩
  · have hsame : s.mem.corrupt addr.toNat value = s.mem := if_neg (Nat.not_lt.2 hundefined)
    rw [hsame]
    rfl
  · exact Memory.read_corrupt law hdefined value a
  · exact Memory.parityError_corrupt hdefined value a

/-! ### The scrub unit -/

section
variable {s : State}

theorem exec_scrubRunStart (hqueue : s.scrub.queue ≠ []) (hrunning : s.scrub.running = none) (hstartup : s.scrub.startup = false) :
    exec .scrubRunStart s = .next (s.setScrub { s.scrub with running := some 0 }) := by
  refine if_neg ?_
  simp [hqueue, hrunning, hstartup]

theorem exec_scrubRunEnd {e : ScrubRun} {rest : List ScrubRun} {k : Nat} (hqueue : s.scrub.queue = e :: rest)
    (hrunning : s.scrub.running = some k) : exec .scrubRunEnd s = .next
      (((s.setMem (s.mem.clearGranules e.base k e.length)).setScrub { s.scrub with queue := rest, running := none }).notify
        [.scrubDone e.slot]) := by
  rw [exec, execScrubRunEnd, hqueue, hrunning]

/-- The oldest notice is taken while no admitted access is pending (R37, R161). -/
theorem State.nextNotice_of {n : Notice} {rest : List Notice} (hn : s.table.notices = n :: rest) (haccess : s.accessPending = false) :
    s.nextNotice = some (n, s.setNotices rest) := by
  rw [State.nextNotice, hn]
  exact if_neg (by simp [haccess])

theorem exec_scrubDone {i : Slot} {rest : List Notice} (hn : s.table.notices = .scrubDone i :: rest) (haccess : s.accessPending = false) :
    exec .scrubDone s = .next ((s.setNotices rest).finishScrub i) := by
  rw [exec, execScrubDone, State.nextNotice_of hn haccess]

end

/-- Settles O5, one clause for each row. -/
theorem scrubCycle : Obligations.ScrubCycle := by
  unfold Obligations.ScrubCycle
  refine ⟨fun s hqueue hrunning hstartup => exec_scrubRunStart hqueue hrunning hstartup,
    fun s e rest k hqueue hrunning => ?ended, fun s i rest hn haccess hinside => ?done⟩
  case ended =>
    exact ⟨s.mem.clearGranules e.base k e.length, exec_scrubRunEnd hqueue hrunning, rfl,
      fun a ha => s.mem.clearGranules_byte e.base k e.length ha⟩
  case done =>
    refine ⟨freeRun s.table.granules (s.region i).base (s.region i).length, exec_scrubDone hn haccess, fun g hg => ?_⟩
    rw [freeRun_bit hinside hg, Bool.and_eq_true, Bool.not_eq_true', decide_eq_false_iff_not]
    rfl

/-! ### The HALT and CLR lines -/

section
variable {s : State} {p : Port}

theorem exec_haltFall_low (h : look s.pins.halt p = .low) : exec (.haltFall p) s = .next s := if_pos h

theorem exec_haltFall_high (h : look s.pins.halt p = .high) : exec (.haltFall p) s =
    if s.sendsClaims then .next ((s.setHalt p .low).setHaltClaims (s.chan.haltClaims ++ [p])) else .next (s.setHalt p .low) :=
  if_neg (by simp [h])

theorem exec_clrFall_low (h : look s.pins.clr p = .low) : exec (.clrFall p) s = .next s := if_pos h

theorem exec_clrFall_high (h : look s.pins.clr p = .high) : exec (.clrFall p) s =
    if s.pins.reset = .low ∨ s.table.notices.contains (.clear p) then .next (s.setClr p .low)
    else .next ((s.setClr p .low).notify [.clear p]) := if_neg (by simp [h])

end

/-- Settles O36, one case for each level and condition. -/
theorem haltAndClrLines : Obligations.HaltAndClrLines := by
  unfold Obligations.HaltAndClrLines
  intro s p
  refine ⟨rfl, rfl, fun hhigh hreset hstartup => ?claim, fun hhigh hstarting => ?noClaim, exec_haltFall_low,
    fun hhigh hreset hfirst => ?notice, fun hhigh hnone => ?noNotice, exec_clrFall_low⟩
  case claim => rw [exec_haltFall_high hhigh, if_pos (by simp [State.sendsClaims, hreset, hstartup])]
  case noClaim =>
    rw [exec_haltFall_high hhigh, if_neg]
    rcases hstarting with h | h <;> simp [State.sendsClaims, h]
  case notice =>
    rw [exec_clrFall_high hhigh, if_neg (by simp [hreset, hfirst])]
    rfl
  case noNotice => rw [exec_clrFall_high hhigh, if_pos (by simpa using hnone)]

end Sys2Proof.Machine
end

section
/-! PROOF of O13, O16, O15, O14 and O18: the region commands. Each outcome is the command's body at the case its checks answer. -/

set_option Elab.async false

namespace Sys2Proof.Machine

/-! ### The owner checks (O13) -/

theorem Handle.slot?_iff (h : Handle) (i : Slot) : h.slot? = some i ↔ h.slot.toNat = i.val := by
  refine ⟨fun hslot => ?_, Handle.slot?_of_toNat⟩
  unfold Handle.slot? at hslot
  split_ifs at hslot with hlt
  rw [← Option.some.inj hslot]

/-- The commands that begin with the three checks of R13, with their opcodes. -/
theorem ownerRow {c : Instr} {p : Port} {op : Byte} {n : Nat} (hrow : commandRow c = some (p, op, n))
    (hop : op ∈ ([0x05, 0x06, 0x07, 0x08, 0x0C, 0x0E] : List Byte)) :
    c = .free p ∨ c = .pin p ∨ c = .unpin p ∨ c = .label p ∨ c = .grant p ∨ c = .offer p := by
  cases c <;> simp only [commandRow, Option.some.injEq, Prod.mk.injEq, reduceCtorEq] at hrow
  all_goals
    obtain ⟨rfl, rfl, -⟩ := hrow
    revert hop
    simp

section
variable {s : State} {p : Port}

/-- A command of the owner: what it does with the slot that its checks find. -/
theorem exec_owner_refused {c : Instr} {op tag g k : Byte} {n : Nat} {rest : List Byte} (hrow : commandRow c = some (p, op, n))
    (hop : op ∈ ([0x05, 0x06, 0x07, 0x08, 0x0C, 0x0E] : List Byte)) (h : s.servesOpen p op tag (g :: k :: rest))
    (hn : rest.length + 2 = n) {code : ResultCode} (herror : s.ownedLive p { gen := g, slot := k } = .error code) :
    exec c s = .next (s.served p op tag code []) := by
  have hlength : (g :: k :: rest).length = n := hn
  have checked : (s.popCommand p).ownedLive p (handleAt (g :: k :: rest) 0) = .error code := by
    rw [handleAt_cons, State.popCommand_ownedLive]
    exact herror
  rcases ownerRow hrow hop with rfl | rfl | rfl | rfl | rfl | rfl <;> cases hrow
  all_goals
    simp only [exec, execFree, execPin, execUnpin, execLabel, execGrant, execOffer]
    refine State.command_refused h hlength ?_
    simp only [State.setPinned, checked]

end

/-- Settles O13: the checks of R13 refuse in their order, whichever of the six commands they begin. -/
theorem handlesAndOwnerChecks : Obligations.HandlesAndOwnerChecks := by
  unfold Obligations.HandlesAndOwnerChecks
  refine ⟨fun _ _ => rfl, Handle.slot?_iff, State.current_iff, fun s c p op n tag g i rest hrow hop h hn => ?_⟩
  refine ⟨fun hnone => ?_, fun k hcur => ⟨fun howner => ?_, fun howner hlive => ?_⟩⟩
  · exact exec_owner_refused hrow hop h hn (State.ownedLive_of_not_current hnone)
  · exact exec_owner_refused hrow hop h hn (State.ownedLive_of_not_owner hcur howner)
  · exact exec_owner_refused hrow hop h hn (State.ownedLive_of_not_live hcur howner hlive)

/-! ### PIN, UNPIN and LABEL (O16) -/

section
variable {s : State} {p : Port} {tag g k : Byte} {i : Slot}

theorem State.popCommand_ownedLive_ok (h : s.ownsLive p { gen := g, slot := k } i) (rest : List Byte) :
    (s.popCommand p).ownedLive p (handleAt (g :: k :: rest) 0) = .ok i := by
  rw [handleAt_cons, State.popCommand_ownedLive]
  exact State.ownedLive_of_ownsLive h

theorem yesNo_eq (b : Bool) : yesNo b = if b then 1 else 0 := by cases b <;> rfl

theorem exec_pin_ok (h : s.servesOpen p 0x06 tag [g, k]) (howns : s.ownsLive p { gen := g, slot := k } i) :
    exec (.pin p) s = .next ((s.setRegion i { s.region i with pinned := true }).served p 0x06 tag .ok
      [yesNo (s.region i).pinned]) := by
  rw [exec, execPin]
  refine State.command_accepted h rfl ?_
  simp only [State.setPinned, State.popCommand_ownedLive_ok howns]
  rfl

theorem exec_unpin_ok (h : s.servesOpen p 0x07 tag [g, k]) (howns : s.ownsLive p { gen := g, slot := k } i) :
    exec (.unpin p) s = .next ((s.setRegion i { s.region i with pinned := false }).served p 0x07 tag .ok
      [yesNo (s.region i).pinned]) := by
  rw [exec, execUnpin]
  refine State.command_accepted h rfl ?_
  simp only [State.setPinned, State.popCommand_ownedLive_ok howns]
  rfl

theorem exec_label_ok {l1 l0 : Byte} (h : s.servesOpen p 0x08 tag [g, k, l1, l0])
    (howns : s.ownsLive p { gen := g, slot := k } i) :
    exec (.label p) s = .next ((s.setRegion i { s.region i with label := l1.toNat * 256 + l0.toNat }).served p 0x08 tag .ok
      []) := by
  rw [exec, execLabel]
  refine State.command_accepted h rfl ?_
  simp only [State.popCommand_ownedLive_ok howns]
  rfl

end

/-- Settles O16, one clause for each command. -/
theorem pinUnpinLabelEffect : Obligations.PinUnpinLabelEffect := by
  unfold Obligations.PinUnpinLabelEffect
  intro s p tag g k i howns
  refine ⟨fun h => ?_, fun h => ?_, fun l1 l0 h => exec_label_ok h howns⟩
  · rw [exec_pin_ok h howns, yesNo_eq]
  · rw [exec_unpin_ok h howns, yesNo_eq]

/-! ### FREE (O15) -/

section
variable {s : State} {p : Port} {tag g k : Byte} {i : Slot}

theorem exec_free_pinned (h : s.servesOpen p 0x05 tag [g, k]) (howns : s.ownsLive p { gen := g, slot := k } i)
    (hpinned : (s.region i).pinned = true) : exec (.free p) s = .next (s.served p 0x05 tag .pinned []) := by
  rw [exec, execFree]
  refine State.command_refused h rfl ?_
  simp only [State.popCommand_ownedLive_ok howns]
  exact if_pos hpinned

theorem exec_free_offered (h : s.servesOpen p 0x05 tag [g, k]) (howns : s.ownsLive p { gen := g, slot := k } i)
    (hpinned : (s.region i).pinned = false) (hoffer : (s.region i).offer ≠ none) :
    exec (.free p) s = .next (s.served p 0x05 tag .offerPending []) := by
  rw [exec, execFree]
  refine State.command_refused h rfl ?_
  have unpinned : ¬ ((s.popCommand p).region i).pinned = true := by simp [hpinned]
  simp only [State.popCommand_ownedLive_ok howns]
  have offered : ((s.popCommand p).region i).offer.isSome = true := Option.isSome_iff_ne_none.2 hoffer
  rw [if_neg unpinned, if_pos offered]

theorem exec_free_ok (h : s.servesOpen p 0x05 tag [g, k]) (howns : s.ownsLive p { gen := g, slot := k } i)
    (hpinned : (s.region i).pinned = false) (hoffer : (s.region i).offer = none) :
    exec (.free p) s = .next ((s.freeRegion i).served p 0x05 tag .ok [((s.region i).freed).state.code]) := by
  rw [exec, execFree]
  refine State.command_accepted h rfl ?_
  have unpinned : ¬ ((s.popCommand p).region i).pinned = true := by simp [hpinned]
  have unoffered : ¬ ((s.popCommand p).region i).offer.isSome = true := by simp [hoffer]
  simp only [State.popCommand_ownedLive_ok howns]
  rw [if_neg unpinned, if_neg unoffered, State.popCommand_freeRegion]
  simp only [State.accepted, State.popCommand_region, State.freeRegion_region, if_true]

end

/-- Settles O15: the checks of R13, then the two ways a region goes (R14 to R16). -/
theorem freeEffect : Obligations.FreeEffect := by
  unfold Obligations.FreeEffect
  intro s p tag g k i h howns r q events
  have hcur := howns.1
  have howner : r.owner = p := howns.2.1
  refine ⟨exec_free_pinned h howns, exec_free_offered h howns, fun hpinned hoffer hrefs => ?scrubbing,
    fun hpinned hoffer hrefs => ?retiring⟩
  case scrubbing =>
    rw [exec_free_ok h howns hpinned hoffer, State.freeRegion_unreferenced hrefs howner (State.handle_of_current hcur),
      Region.freed, if_pos hrefs]
    rfl
  case retiring =>
    rw [exec_free_ok h howns hpinned hoffer, State.freeRegion_referenced hrefs (State.handle_of_current hcur),
      Region.freed, if_neg hrefs]
    rfl

/-! ### ALLOCATE (O14) -/

section
variable {s : State} {p : Port}

theorem State.freeSlot_eq_none_iff : s.freeSlot = none ↔ ∀ i, (s.region i).state ≠ .unused := by
  simp [State.freeSlot, indices]

theorem State.freeSlot_eq_some_iff (i : Slot) :
    s.freeSlot = some i ↔ (s.region i).state = .unused ∧ ∀ j, (s.region j).state = .unused → i ≤ j := by
  unfold State.freeSlot
  rw [find?_indices_iff]
  simp only [beq_iff_eq]

/-- R8, R47: only SPLIT has limits. -/
theorem State.quotaAllows_iff (n : Nat) : s.quotaAllows p n = true ↔
    ¬ (s.table.quotaMode = .split ∧ (1024 < (s.quota p).granules + n ∨ 16 ≤ (s.quota p).regions)) := by
  have hsplit : Config.splitGranules = 1024 ∧ Config.splitRegions = 16 := ⟨rfl, rfl⟩
  unfold State.quotaAllows
  rw [hsplit.1, hsplit.2]
  cases s.table.quotaMode with
  | openMode => simp
  | split => simp

theorem State.freeRun_iff {g n : Nat} : s.FreeRun g n ↔ g + n ≤ granuleCount ∧ runFree s.table.granules g n = true := by
  constructor
  · rintro ⟨hin, hfree⟩
    exact ⟨hin, (runFree_iff hin).2 fun k hk => hfree _ (Nat.le_add_right g k) (by omega)⟩
  · rintro ⟨hin, hfree⟩
    refine ⟨hin, fun x hlow hhigh => ?_⟩
    have hbit := (runFree_iff hin).1 hfree (x - g) (by omega)
    rwa [Nat.add_sub_cancel' hlow] at hbit

/-- The runs an ALLOCATE may take: those that are FREE, and under AT that at the base given alone (R8, R9). -/
def State.fitsAt (s : State) (atBase : Bool) (base length g : Nat) : Prop :=
  s.FreeRun g length ∧ (atBase = true → g = base)

section
variable {atBase : Bool} {base length : Nat} (hlength : length ≤ granuleCount)
include hlength

theorem State.place_nowhere (hbase : atBase = true → base + length ≤ granuleCount)
    (h : ∀ g, ¬ s.fitsAt atBase base length g) : s.place atBase base length = none := by
  unfold State.place
  cases atBase with
  | true =>
    rw [if_pos rfl, if_neg]
    exact fun hfree => h base ⟨State.freeRun_iff.2 ⟨hbase rfl, hfree⟩, fun _ => rfl⟩
  | false =>
    rw [if_neg Bool.false_ne_true]
    refine Option.eq_none_iff_forall_not_mem.2 fun g hg => ?_
    obtain ⟨hin, hfree, -⟩ := firstFit_all_some (n := granuleCount) hg
    exact h g ⟨State.freeRun_iff.2 ⟨hin hlength, hfree⟩, by rintro ⟨⟩⟩

theorem State.place_lowest {g : Nat} (hg : s.fitsAt atBase base length g) (hlow : ∀ x, x < g → ¬ s.fitsAt atBase base length x) :
    s.place atBase base length = some g := by
  obtain ⟨hfree, hat⟩ := hg
  obtain ⟨hin, hrun⟩ := State.freeRun_iff.1 hfree
  unfold State.place
  cases atBase with
  | true =>
    obtain rfl := hat rfl
    rw [if_pos rfl, if_pos hrun]
  | false =>
    rw [if_neg Bool.false_ne_true]
    cases hfit : firstFit s.table.granules length (granuleCount - length + 1) 0 with
    | none => exact absurd (hrun.symm.trans (firstFit_all_none hfit hin)) (by decide)
    | some g' =>
      obtain ⟨hin', hrun', hlow'⟩ := firstFit_all_some hfit
      rcases Nat.lt_trichotomy g' g with hlt | rfl | hlt
      · exact absurd ⟨State.freeRun_iff.2 ⟨hin' hlength, hrun'⟩, by rintro ⟨⟩⟩ (hlow g' hlt)
      · rfl
      · exact absurd (hrun.symm.trans (hlow' g hlt)) (by decide)

end

/-! The command, by what its checks answer -/

variable {tag l1 l0 b1 b0 place m1 m0 : Byte}

/-- The arguments that R8 refuses. -/
def allocateBadArg (place : Byte) (length base : Nat) : Prop :=
  length = 0 ∨ 4096 < length ∨ 2 ≤ place.toNat ∨ (place = 1 ∧ (4096 ≤ base ∨ 4096 < base + length))

theorem allocateBadArg_iff (place : Byte) (length base : Nat) : (length = 0 ∨ granuleCount < length ∨ (place ≠ 0 ∧ place ≠ 1) ∨
    (place = 1 ∧ (granuleCount ≤ base ∨ granuleCount < base + length))) ↔ allocateBadArg place length base := by
  have hzero : place = 0 ↔ place.toNat = 0 := byte_eq_iff (by decide)
  have hone : place = 1 ↔ place.toNat = 1 := byte_eq_iff (by decide)
  have hother : place ≠ 0 ∧ place ≠ 1 ↔ 2 ≤ place.toNat := by rw [Ne, hzero, Ne, hone]; omega
  rw [hother]
  rfl

section
variable (h : s.servesOpen p 0x04 tag [l1, l0, b1, b0, place, m1, m0])
include h

theorem exec_allocate_badArg (hbad : allocateBadArg place (l1.toNat * 256 + l0.toNat) (m1.toNat * 256 + m0.toNat)) :
    exec (.allocate p) s = .next (s.served p 0x04 tag .badArg []) := by
  rw [exec, execAllocate]
  exact State.command_refused h rfl (if_pos ((allocateBadArg_iff _ _ _).2 hbad))

variable (hgood : ¬ allocateBadArg place (l1.toNat * 256 + l0.toNat) (m1.toNat * 256 + m0.toNat))
include hgood

theorem exec_allocate_noSlot (hslot : s.freeSlot = none) : exec (.allocate p) s = .next (s.served p 0x04 tag .noSlot []) := by
  rw [exec, execAllocate]
  refine State.command_refused h rfl ((if_neg (mt (allocateBadArg_iff _ _ _).1 hgood)).trans ?_)
  simp only [State.popCommand_freeSlot, hslot]

variable {i : Slot} (hslot : s.freeSlot = some i)
include hslot

theorem exec_allocate_quota (hquota : s.quotaAllows p (l1.toNat * 256 + l0.toNat) = false) :
    exec (.allocate p) s = .next (s.served p 0x04 tag .quota []) := by
  rw [exec, execAllocate]
  refine State.command_refused h rfl ((if_neg (mt (allocateBadArg_iff _ _ _).1 hgood)).trans ?_)
  simp only [State.popCommand_freeSlot, hslot]
  have beyond : (!s.quotaAllows p (l1.toNat * 256 + l0.toNat)) = true := by simp [hquota]
  exact if_pos beyond

variable (hquota : s.quotaAllows p (l1.toNat * 256 + l0.toNat) = true)
include hquota

theorem exec_allocate_noSpace (hplace : s.place (place == 1) (m1.toNat * 256 + m0.toNat) (l1.toNat * 256 + l0.toNat) = none) :
    exec (.allocate p) s = .next (s.served p 0x04 tag .noSpace []) := by
  rw [exec, execAllocate]
  refine State.command_refused h rfl ((if_neg (mt (allocateBadArg_iff _ _ _).1 hgood)).trans ?_)
  simp only [State.popCommand_freeSlot, hslot]
  have within : ¬ (!s.quotaAllows p (l1.toNat * 256 + l0.toNat)) = true := by simp [hquota]
  have hpop : (s.popCommand p).place (byteAt [l1, l0, b1, b0, place, m1, m0] 4 == 1)
      (wordAt [l1, l0, b1, b0, place, m1, m0] 5) (wordAt [l1, l0, b1, b0, place, m1, m0] 0) = none := hplace
  refine (if_neg within).trans ?_
  rw [hpop]

theorem exec_allocate_ok {b : Nat}
    (hplace : s.place (place == 1) (m1.toNat * 256 + m0.toNat) (l1.toNat * 256 + l0.toNat) = some b) :
    exec (.allocate p) s = .next ((s.placeRegion p i b (l1.toNat * 256 + l0.toNat) (b1.toNat * 256 + b0.toNat)).served p 0x04 tag
      .ok (handleBytes (s.handle i) ++ bytes2 b)) := by
  rw [exec, execAllocate]
  refine State.command_accepted h rfl ((if_neg (mt (allocateBadArg_iff _ _ _).1 hgood)).trans ?_)
  simp only [State.popCommand_freeSlot, hslot]
  have within : ¬ (!s.quotaAllows p (l1.toNat * 256 + l0.toNat)) = true := by simp [hquota]
  have hpop : (s.popCommand p).place (byteAt [l1, l0, b1, b0, place, m1, m0] 4 == 1)
      (wordAt [l1, l0, b1, b0, place, m1, m0] 5) (wordAt [l1, l0, b1, b0, place, m1, m0] 0) = some b := hplace
  refine (if_neg within).trans ?_
  rw [hpop]
  rfl

end

end

/-- Settles O14: the checks in the order of R8, then what the searches for a slot and a run answer. -/
theorem allocateEffect : Obligations.AllocateEffect := by
  unfold Obligations.AllocateEffect
  intro s p tag l1 l0 b1 b0 place m1 m0 h length label base badArg overQuota fits
  have within (hquota : ¬ overQuota) : s.quotaAllows p length = true := (State.quotaAllows_iff length).2 hquota
  have inRange (hgood : ¬ badArg) : length ≤ granuleCount ∧ ((place == 1) = true → base + length ≤ granuleCount) := by
    simp only [badArg, not_or, not_and, not_lt] at hgood
    obtain ⟨-, hlength, -, hbase⟩ := hgood
    exact ⟨hlength, fun hat => (hbase (eq_of_beq hat)).2⟩
  have fits_iff (g : Nat) : s.fitsAt (place == 1) base length g ↔ fits g := by simp [State.fitsAt, fits]
  refine ⟨exec_allocate_badArg h, fun hgood hfull => ?noSlot, fun hgood ⟨i, hi⟩ hquota => ?quota,
    fun hgood ⟨i, hi⟩ hquota hnone => ?noSpace, fun i g hgood hquota hi hlow hg hlowest => ?placed⟩
  case noSlot => exact exec_allocate_noSlot h hgood (State.freeSlot_eq_none_iff.2 hfull)
  case quota =>
    obtain ⟨j, hj⟩ := Option.ne_none_iff_exists'.1 (mt State.freeSlot_eq_none_iff.1 fun hfull => hfull i hi)
    refine exec_allocate_quota h hgood hj ?_
    rw [← Bool.not_eq_true, State.quotaAllows_iff, not_not]
    exact hquota
  case noSpace =>
    obtain ⟨j, hj⟩ := Option.ne_none_iff_exists'.1 (mt State.freeSlot_eq_none_iff.1 fun hfull => hfull i hi)
    exact exec_allocate_noSpace h hgood hj (within hquota)
      (State.place_nowhere (inRange hgood).1 (inRange hgood).2 fun g => mt (fits_iff g).1 (hnone g))
  case placed =>
    have hslot : s.freeSlot = some i := (State.freeSlot_eq_some_iff i).2 ⟨hi, fun j hj => not_lt.1 fun hji => hlow j hji hj⟩
    have hplace := State.place_lowest (inRange hgood).1 ((fits_iff g).2 hg) fun x hx => mt (fits_iff x).1 (hlowest x hx)
    refine ⟨holdRun s.table.granules g length, exec_allocate_ok h hgood hslot (within hquota) hplace, fun x _ => ?_⟩
    rw [holdRun_bit hg.1.1, Bool.or_eq_true, decide_eq_true_eq]
    rfl

/-! ### QUERY_REGION and QUERY_SPACE (O18) -/

section
variable {s : State} {p : Port} {tag g k : Byte}

theorem exec_queryRegion_noRegion (h : s.servesOpen p 0x0A tag [g, k]) (hnone : s.current { gen := g, slot := k } = none) :
    exec (.queryRegion p) s = .next (s.served p 0x0A tag .noRegion []) := by
  rw [exec, execQueryRegion]
  exact State.command_refused h rfl (by simp only [handleAt_cons, State.popCommand_current, hnone])

theorem exec_queryRegion_ok (h : s.servesOpen p 0x0A tag [g, k]) {i : Slot} (hcur : s.current { gen := g, slot := k } = some i) :
    exec (.queryRegion p) s = .next (s.served p 0x0A tag .ok
      ([(s.region i).state.code, portByte (s.region i).owner] ++ bytes2 (s.region i).base ++ bytes2 (s.region i).length ++
        bytes2 (s.region i).label ++ [yesNo (s.region i).pinned, byteOf (s.region i).refs, (s.rights p i).code] ++
        offerBytes (s.region i).offer)) := by
  rw [exec, execQueryRegion]
  refine State.command_accepted h rfl ?_
  simp only [handleAt_cons, State.popCommand_current, hcur]
  rfl

theorem exec_querySpace_ok (h : s.servesOpen p 0x0B tag []) : exec (.querySpace p) s = .next (s.served p 0x0B tag .ok
    (bytes2 (countFree s.table.granules granuleCount 0 0 0 0).1 ++ bytes2 (countFree s.table.granules granuleCount 0 0 0 0).2 ++
      bytes2 s.scrubbingGranules ++
      if s.table.quotaMode = .openMode then [0, 0, 0, 0]
      else bytes2 (s.quota p).granules ++ [byteOf (s.quota p).regions, byteOf (s.quota p).channels])) := by
  rw [exec, execQuerySpace]
  refine State.command_accepted h rfl ?_
  rw [State.popCommand_quotaMode]
  cases s.table.quotaMode with
  | openMode => simp only [List.append_assoc]; rfl
  | split => simp only [List.append_assoc]; rfl

/-- A handle is current on a LIVE or RETIRING region, and the rights on it are those of R28. -/
theorem State.rights_of_opened (hopen : s.session p = .opened) (i : Slot) (hstate : (s.region i).state = .live ∨ (s.region i).state = .retiring) :
    s.rights p i = if (s.region i).state = .retiring then .none else if (s.region i).owner = p then .readWrite
      else look (s.region i).grants p := by
  unfold State.rights
  rcases hstate with hlive | hretiring
  · simp [hopen, hlive]
  · simp [hopen, hretiring]

theorem offerBytes_eq (x : Option Offer) : offerBytes x = match x with
    | none => [0xFF, 0, 0]
    | some o => BitVec.ofNat 8 o.target.val :: bytes2 o.remaining := by
  cases x <;> rfl

/-- What QUERY_SPACE counts: the FREE granules, and the longest run of them (R25). -/
theorem countFree_granules (s : State) :
    (countFree s.table.granules granuleCount 0 0 0 0).1 = ((List.range granuleCount).filter fun g => !s.table.held g).length ∧
      (countFree s.table.granules granuleCount 0 0 0 0).2 ≤ granuleCount ∧
      (∃ g, s.FreeRun g (countFree s.table.granules granuleCount 0 0 0 0).2) ∧
      ∀ g n, s.FreeRun g n → n ≤ (countFree s.table.granules granuleCount 0 0 0 0).2 := by
  obtain ⟨hcount, ⟨b, hin, hrun⟩, hmax⟩ := countFree_spec s.table.granules granuleCount 0 0 0 0 (Nat.le_refl 0)
    (fun x _ hx => absurd hx (Nat.not_lt_zero x)) (.inl rfl) ⟨0, Nat.le_refl 0, fun x _ hx => absurd hx (Nat.not_lt_zero x)⟩
    (fun b m hbm _ => by omega)
  rw [Nat.zero_add] at hcount hin
  refine ⟨?_, by omega, ⟨b, hin, hrun⟩, fun g n hfree => hmax g n (by rw [Nat.zero_add]; exact hfree.1) hfree.2⟩
  rw [hcount, ← List.range_eq_range']
  rfl

end

/-- Settles O18: what each query sends, with the count of R25 characterised by `countFree_granules`. -/
theorem regionQueries : Obligations.RegionQueries := by
  unfold Obligations.RegionQueries
  refine ⟨fun s p tag g k h => ⟨exec_queryRegion_noRegion h, fun i hcur => ?region⟩, fun s p tag h => ?space⟩
  case region =>
    intro r rights
    obtain ⟨-, -, hstate⟩ := (State.current_iff s _ i).1 hcur
    have hcode : r.state.code = if r.state = .live then 1 else 2 := by
      rcases hstate with hlive | hretiring
      · simp only [r, hlive]; rfl
      · simp only [r, hretiring]; rfl
    rw [exec_queryRegion_ok h hcur, hcode, State.rights_of_opened h.2 i hstate, yesNo_eq, offerBytes_eq]
    rfl
  case space =>
    obtain ⟨hcount, hbound, hattained, hmax⟩ := countFree_granules s
    refine ⟨_, ⟨hbound, hattained, hmax⟩, ?_⟩
    rw [exec_querySpace_ok h, hcount]
    rfl

end Sys2Proof.Machine
end

section
/-! PROOF of O19 and O21 to O25: GRANT, the handoff commands and the offer timer. -/

set_option Elab.async false

namespace Sys2Proof.Machine

/-! ### GRANT (O19) -/

theorem Rights.hasRead_iff (x : Rights) : x.hasRead = true ↔ x = .read ∨ x = .readWrite := by cases x <;> decide

theorem Rights.hasWrite_iff (x : Rights) : x.hasWrite = true ↔ x = .write ∨ x = .readWrite := by cases x <;> decide

section
variable {s : State} {p : Port} {tag g k port rights : Byte} {i : Slot}
variable (h : s.servesOpen p 0x0C tag [g, k, port, rights]) (howns : s.ownsLive p { gen := g, slot := k } i)
include h howns

theorem exec_grant_badArg (hbad : 4 ≤ port.toNat ∨ 4 ≤ rights.toNat) :
    exec (.grant p) s = .next (s.served p 0x0C tag .badArg []) := by
  rw [exec, execGrant]
  refine State.command_refused h rfl ?_
  simp only [State.popCommand_ownedLive_ok howns]
  split
  · next q new hq hnew =>
    rcases hbad with hport | hrights
    · cases hq.symm.trans (portOf_none hport)
    · cases hnew.symm.trans (rightsOf_none hrights)
  · rfl

variable {q : Port} {new : Rights} (hport : port.toNat = q.val) (hrights : new.code = rights)
include hport hrights

theorem exec_grant_badHost (hbad : q = p ∨ s.session q ≠ .opened) :
    exec (.grant p) s = .next (s.served p 0x0C tag .badHost []) := by
  subst hrights
  have hq : portOf (byteAt [g, k, port, new.code] 2) = some q := portOf_some hport
  have hnew : rightsOf (byteAt [g, k, port, new.code] 3) = some new := rightsOf_code new
  rw [exec, execGrant]
  refine State.command_refused h rfl ?_
  simp only [State.popCommand_ownedLive_ok howns, hq, hnew]
  exact if_pos hbad

theorem exec_grant_ok (hother : q ≠ p) (hopen : s.session q = .opened) : exec (.grant p) s = .next
    (((s.setGrant i q new).offerEvents (grantEvents (s.handle i) q (look (s.region i).grants q) new)).served p 0x0C tag .ok
      [(look (s.region i).grants q).code]) := by
  subst hrights
  have hq : portOf (byteAt [g, k, port, new.code] 2) = some q := portOf_some hport
  have hnew : rightsOf (byteAt [g, k, port, new.code] 3) = some new := rightsOf_code new
  have hgood : ¬ (q = p ∨ (s.popCommand p).session q ≠ .opened) := not_or.2 ⟨hother, not_not.2 hopen⟩
  rw [exec, execGrant]
  refine State.command_accepted h rfl ?_
  simp only [State.popCommand_ownedLive_ok howns, hq, hnew]
  rw [if_neg hgood, State.popCommand_setGrant, State.popCommand_offerEvents]
  rfl

end

/-- Settles O19: the table of R28, the refusals, and the entry with its event and orders (R30 to R32). -/
theorem grantEffect : Obligations.GrantEffect := by
  unfold Obligations.GrantEffect
  refine ⟨fun _ _ _ => rfl, fun x => ⟨x.hasRead_iff, x.hasWrite_iff⟩, fun s p tag g k port rights i h howns => ?_⟩
  refine ⟨exec_grant_badArg h howns, fun q new hport hrights => ⟨exec_grant_badHost h howns hport hrights,
    fun hother hopen => ?_⟩⟩
  rw [exec_grant_ok h howns hport hrights hother hopen, State.setGrant_eq (State.handle_of_current howns.1),
    State.handle_of_current howns.1, grantEvents_eq]

/-! ### OFFER (O21) -/

section
variable {s : State} {p : Port} {tag g k target t1 t0 : Byte} {i : Slot}
variable (h : s.servesOpen p 0x0E tag [g, k, target, t1, t0]) (howns : s.ownsLive p { gen := g, slot := k } i)
include h howns

theorem exec_offer_pending (hoffer : (s.region i).offer ≠ none) :
    exec (.offer p) s = .next (s.served p 0x0E tag .offerPending []) := by
  rw [exec, execOffer]
  refine State.command_refused h rfl ?_
  simp only [State.popCommand_ownedLive_ok howns]
  exact if_pos (Option.isSome_iff_ne_none.2 hoffer)

variable (hoffer : (s.region i).offer = none)
include hoffer

/-- OFFER past the check for a standing offer. -/
theorem exec_offer_eq {code : ResultCode} {u : State} {payload : List Byte}
    (hbody : (match portOf target with
      | none => (s.popCommand p).refuse .badArg
      | some q =>
        if t1.toNat * 256 + t0.toNat = 0 then (s.popCommand p).refuse .badArg
        else if q = p ∨ s.session q ≠ .opened then (s.popCommand p).refuse .badHost
        else
          (((s.popCommand p).setRegion i { s.region i with offer := some { target := q, remaining := t1.toNat * 256 + t0.toNat } }).offerEvent q
            (.offerReceived (s.handle i) p (s.region i).length (s.region i).label (t1.toNat * 256 + t0.toNat))).accepted []) =
      (u.popCommand p, some { code, payload })) :
    exec (.offer p) s = .next (u.served p 0x0E tag code payload) := by
  have hnone : ¬ ((s.popCommand p).region i).offer.isSome = true := by simp [hoffer]
  rw [exec, execOffer]
  refine State.command_accepted h rfl ?_
  simp only [State.popCommand_ownedLive_ok howns]
  exact (if_neg hnone).trans hbody

theorem exec_offer_badArg (hbad : 4 ≤ target.toNat ∨ t1.toNat * 256 + t0.toNat = 0) :
    exec (.offer p) s = .next (s.served p 0x0E tag .badArg []) := by
  refine exec_offer_eq h howns hoffer ?_
  split
  · rfl
  · next q hq =>
    rcases hbad with htarget | htimeout
    · cases hq.symm.trans (portOf_none htarget)
    · exact if_pos htimeout

variable {q : Port} (htarget : target.toNat = q.val) (htimeout : t1.toNat * 256 + t0.toNat ≠ 0)
include htarget htimeout

theorem exec_offer_badHost (hbad : q = p ∨ s.session q ≠ .opened) :
    exec (.offer p) s = .next (s.served p 0x0E tag .badHost []) := by
  refine exec_offer_eq h howns hoffer ?_
  rw [portOf_some htarget]
  exact (if_neg htimeout).trans (if_pos hbad)

theorem exec_offer_ok (hother : q ≠ p) (hopen : s.session q = .opened) : exec (.offer p) s = .next
    (((s.setRegion i { s.region i with offer := some { target := q, remaining := t1.toNat * 256 + t0.toNat } }).offerEvent q
      (.offerReceived (s.handle i) p (s.region i).length (s.region i).label (t1.toNat * 256 + t0.toNat))).served p 0x0E tag .ok
        []) := by
  have hgood : ¬ (q = p ∨ s.session q ≠ .opened) := not_or.2 ⟨hother, not_not.2 hopen⟩
  refine exec_offer_eq h howns hoffer ?_
  rw [portOf_some htarget]
  refine (if_neg htimeout).trans ((if_neg hgood).trans ?_)
  rw [State.popCommand_setRegion, State.popCommand_offerEvent]
  rfl

end

/-- Settles O21: the checks of R43 in their order, and the standing offer with its event (R44). -/
theorem offerEffect : Obligations.OfferEffect := by
  unfold Obligations.OfferEffect
  intro s p tag g k target t1 t0 i h howns
  refine ⟨exec_offer_pending h howns, exec_offer_badArg h howns, fun q hoffer htarget htimeout =>
    ⟨exec_offer_badHost h howns hoffer htarget htimeout, fun hother hopen => ?_⟩⟩
  rw [exec_offer_ok h howns hoffer htarget htimeout hother hopen, State.handle_of_current howns.1]
  rfl

/-! ### The refusals of ACCEPT, DECLINE and WITHDRAW (O22) -/

section
variable {s : State} {p : Port} {tag g k : Byte}

/-- What ACCEPT and DECLINE begin with, as an answer of `State.offeredTo`. -/
theorem exec_offered_refused {c : Instr} {op : Byte} (hc : c = .accept p ∧ op = 0x10 ∨ c = .decline p ∧ op = 0x11)
    (h : s.servesOpen p op tag [g, k]) {code : ResultCode} (herror : s.offeredTo p { gen := g, slot := k } = .error code) :
    exec c s = .next (s.served p op tag code []) := by
  have checked : (s.popCommand p).offeredTo p (handleAt [g, k] 0) = .error code := herror
  rcases hc with ⟨rfl, rfl⟩ | ⟨rfl, rfl⟩
  · rw [exec, execAccept]
    exact State.command_refused h rfl (by simp only [checked])
  · rw [exec, execDecline]
    exact State.command_refused h rfl (by simp only [checked])

/-- WITHDRAW behind the check of its handle. -/
theorem exec_withdraw_noRegion (h : s.servesOpen p 0x0F tag [g, k]) (hnone : s.current { gen := g, slot := k } = none) :
    exec (.withdraw p) s = .next (s.served p 0x0F tag .noRegion []) := by
  rw [exec, execWithdraw]
  exact State.command_refused h rfl (by simp only [handleAt_cons, State.popCommand_current, hnone])

variable {i : Slot} (hcur : s.current { gen := g, slot := k } = some i)
include hcur

theorem exec_withdraw_retiring (h : s.servesOpen p 0x0F tag [g, k]) (hstate : (s.region i).state ≠ .live) :
    exec (.withdraw p) s = .next (s.served p 0x0F tag .retiring []) := by
  rw [exec, execWithdraw]
  refine State.command_refused h rfl ?_
  simp only [handleAt_cons, State.popCommand_current, hcur]
  exact if_pos hstate

theorem State.offeredTo_retiring (hstate : (s.region i).state ≠ .live) : s.offeredTo p { gen := g, slot := k } = .error .retiring := by
  simp only [State.offeredTo, hcur]
  exact if_pos hstate

variable (hlive : (s.region i).state = .live)
include hlive

theorem State.offeredTo_eq : s.offeredTo p { gen := g, slot := k } = match (s.region i).offer with
    | none => .error .notOffered
    | some o => if o.target = p then .ok i else .error .notOffered := by
  simp only [State.offeredTo, hcur]
  exact (if_neg (not_not.2 hlive)).trans rfl

/-- WITHDRAW on a LIVE region. -/
theorem exec_withdraw_live (h : s.servesOpen p 0x0F tag [g, k]) {code : ResultCode} {u : State} {payload : List Byte}
    (hbody : (match (s.region i).offer with
      | none => (s.popCommand p).refuse .notOffered
      | some o =>
        if (s.region i).owner ≠ p then (s.popCommand p).refuse .notOwner
        else (((s.popCommand p).clearOffer i).offerEvent o.target (.offerCancelled (s.handle i) p .withdrawn)).accepted
          (bytes2 o.remaining)) = (u.popCommand p, some { code, payload })) :
    exec (.withdraw p) s = .next (u.served p 0x0F tag code payload) := by
  rw [exec, execWithdraw]
  refine State.command_accepted h rfl ?_
  simp only [handleAt_cons, State.popCommand_current, hcur]
  exact (if_neg (not_not.2 hlive)).trans hbody

end

/-- The rows of WITHDRAW, ACCEPT and DECLINE. -/
theorem offerAnswerRow {c : Instr} {p : Port} {op : Byte} (hrow : commandRow c = some (p, op, 2))
    (hop : op ∈ ([0x0F, 0x10, 0x11] : List Byte)) :
    c = .withdraw p ∧ op = 0x0F ∨ c = .accept p ∧ op = 0x10 ∨ c = .decline p ∧ op = 0x11 := by
  cases c <;> simp only [commandRow, Option.some.injEq, Prod.mk.injEq, reduceCtorEq] at hrow
  all_goals
    obtain ⟨rfl, rfl, -⟩ := hrow
    revert hop
    simp

/-- Settles O22: WITHDRAW on its own, ACCEPT and DECLINE through the checks they share. -/
theorem offerAnswersRefused : Obligations.OfferAnswersRefused := by
  unfold Obligations.OfferAnswersRefused
  intro s c p op tag g k hrow hop h
  rcases offerAnswerRow hrow hop with ⟨rfl, rfl⟩ | hc
  case inl =>
    refine ⟨exec_withdraw_noRegion h, fun i hcur => ⟨exec_withdraw_retiring hcur h, fun hlive hoffer => ?_,
      fun o hlive hoffer => ⟨fun hne => absurd rfl hne, fun _ howner => ?_⟩⟩⟩
    · refine exec_withdraw_live hcur hlive h ?_
      rw [hoffer]
      rfl
    · refine exec_withdraw_live hcur hlive h ?_
      rw [hoffer]
      exact if_pos howner
  case inr =>
    have other : op ≠ 0x0F := by rcases hc with ⟨-, rfl⟩ | ⟨-, rfl⟩ <;> decide
    refine ⟨fun hnone => exec_offered_refused hc h (by simp only [State.offeredTo, hnone]),
      fun i hcur => ⟨fun hstate => exec_offered_refused hc h (State.offeredTo_retiring hcur hstate), fun hlive hoffer => ?_,
      fun o hlive hoffer => ⟨fun _ htarget => ?_, fun heq => absurd heq other⟩⟩⟩
    · exact exec_offered_refused hc h (by rw [State.offeredTo_eq hcur hlive, hoffer])
    · refine exec_offered_refused hc h ?_
      rw [State.offeredTo_eq hcur hlive, hoffer]
      exact if_neg htarget

/-! ### DECLINE, WITHDRAW and ACCEPT (O24, O23) -/

section
variable {s : State} {p : Port} {tag g k : Byte} {i : Slot} {o : Offer}
variable (hcur : s.current { gen := g, slot := k } = some i) (hlive : (s.region i).state = .live) (hoffer : (s.region i).offer = some o)
include hcur hlive hoffer

theorem State.popCommand_offeredTo_ok (htarget : o.target = p) : (s.popCommand p).offeredTo p (handleAt [g, k] 0) = .ok i := by
  rw [handleAt_cons, State.popCommand_offeredTo, State.offeredTo_eq hcur hlive, hoffer]
  exact if_pos htarget

theorem exec_decline_ok (h : s.servesOpen p 0x11 tag [g, k]) (htarget : o.target = p) : exec (.decline p) s = .next
    (((s.clearOffer i).offerEvent (s.region i).owner (.offerResolved (s.handle i) p .declined)).served p 0x11 tag .ok []) := by
  rw [exec, execDecline]
  refine State.command_accepted h rfl ?_
  simp only [State.popCommand_offeredTo_ok hcur hlive hoffer htarget]
  rw [State.popCommand_clearOffer, State.popCommand_offerEvent]
  rfl

theorem exec_withdraw_ok (h : s.servesOpen p 0x0F tag [g, k]) (howner : (s.region i).owner = p) : exec (.withdraw p) s = .next
    (((s.clearOffer i).offerEvent o.target (.offerCancelled (s.handle i) p .withdrawn)).served p 0x0F tag .ok
      (bytes2 o.remaining)) := by
  refine exec_withdraw_live hcur hlive h ?_
  rw [hoffer]
  refine (if_neg (not_not.2 howner)).trans ?_
  rw [State.popCommand_clearOffer, State.popCommand_offerEvent]
  rfl

theorem exec_accept_quota (h : s.servesOpen p 0x10 tag [g, k]) (htarget : o.target = p)
    (hquota : s.quotaAllows p (s.region i).length = false) : exec (.accept p) s = .next (s.served p 0x10 tag .quota []) := by
  have beyond : (!(s.popCommand p).quotaAllows p ((s.popCommand p).region i).length) = true := by simp [hquota]
  rw [exec, execAccept]
  refine State.command_refused h rfl ?_
  simp only [State.popCommand_offeredTo_ok hcur hlive hoffer htarget]
  exact if_pos beyond

theorem exec_accept_ok (h : s.servesOpen p 0x10 tag [g, k]) (htarget : o.target = p)
    (hquota : s.quotaAllows p (s.region i).length = true) : exec (.accept p) s = .next
    (((((s.setRegion i ((s.region i).handedTo p)).moveQuota (s.region i).owner p (s.region i).length).offerEvent (s.region i).owner
      (.offerResolved (s.handle i) p .accepted)).sendDiscards .revoked (s.handle i)
        fun x => x.lessee == some (s.region i).owner && (x.program.map fun g => g.names (s.handle i)).getD false).served p 0x10 tag
      .ok (bytes2 (s.region i).base ++ bytes2 (s.region i).length ++ bytes2 (s.region i).label ++ [yesNo (s.region i).pinned])) := by
  have within : ¬ (!(s.popCommand p).quotaAllows p ((s.popCommand p).region i).length) = true := by simp [hquota]
  rw [exec, execAccept]
  refine State.command_accepted h rfl ?_
  simp only [State.popCommand_offeredTo_ok hcur hlive hoffer htarget]
  refine (if_neg within).trans ?_
  rw [State.popCommand_setRegion, State.popCommand_moveQuota, State.popCommand_offerEvent, State.popCommand_sendDiscards]
  rfl

end

/-- Settles O24: the offer goes and the other party is told. -/
theorem declineWithdrawEffect : Obligations.DeclineWithdrawEffect := by
  unfold Obligations.DeclineWithdrawEffect
  intro s p tag g k i o hcur hlive hoffer handle r
  refine ⟨fun h htarget => ?_, fun h howner => ?_⟩
  · rw [exec_decline_ok hcur hlive hoffer h htarget, State.handle_of_current hcur]
    rfl
  · rw [exec_withdraw_ok hcur hlive hoffer h howner, State.handle_of_current hcur]
    rfl

/-- The quota counts move from one port to another (R27, R48). -/
theorem State.moveQuota_eq (s : State) {old new : Port} (hne : old ≠ new) (n : Nat) : s.moveQuota old new n =
    (s.setQuota old { s.quota old with granules := (s.quota old).granules - n, regions := (s.quota old).regions - 1 }).setQuota new
      { s.quota new with granules := (s.quota new).granules + n, regions := (s.quota new).regions + 1 } := by
  unfold State.moveQuota
  dsimp only
  rw [State.setQuota_quota, if_neg hne]

/-- DISCARD orders to the channels that meet a condition, which a state with the same channels tells. -/
theorem State.sendDiscards_eq_discarding {s t : State} (cause : DiscardCause) (h : Handle) (f : Channel → Bool)
    (hchannels : ∀ c, t.channel c = s.channel c) : t.sendDiscards cause h f = t.discarding cause h (s.channelsWhere f) := by
  have hsame : t.channelsWhere f = s.channelsWhere f := List.filter_congr fun c _ => by rw [hchannels]
  rw [State.sendDiscards, hsame]
  rfl

/-- Settles O23: the quota check of R47, and the handoff of R48 and R49. -/
theorem acceptEffect : Obligations.AcceptEffect := by
  unfold Obligations.AcceptEffect
  intro s p tag g k i o h hcur hlive hoffer htarget law handle r old new overQuota
  have hother : r.owner ≠ p := fun howner => (law i o hoffer).2.2.1 (htarget.trans howner.symm)
  refine ⟨fun hquota => ?_, fun hquota => ?_⟩
  · refine exec_accept_quota hcur hlive hoffer h htarget ?_
    rw [← Bool.not_eq_true, State.quotaAllows_iff, not_not]
    exact hquota
  · rw [exec_accept_ok hcur hlive hoffer h htarget ((State.quotaAllows_iff _).2 hquota), State.moveQuota_eq _ hother,
      State.handle_of_current hcur, State.discarding_offerEvents, yesNo_eq,
      State.sendDiscards_eq_discarding (s := s) _ _ _ fun c => by simp]
    have hnaming : s.channelsNaming handle (fun x => x.lessee = some r.owner) =
        s.channelsWhere fun x => x.lessee == some r.owner && (x.program.map fun g => g.names handle).getD false :=
      congrArg s.channelsWhere (funext fun x => by rw [beq_eq_decide])
    rw [hnaming]
    rfl

/-! ### The offer timer (O25) -/

/-- The slots whose offer a tick brings to 0 (R45). -/
def State.runningOut (s : State) : List Slot :=
  (indices 64).filter fun i => ((s.region i).offer.map Offer.remaining) == some 1

theorem State.runningOut_nodup (s : State) : s.runningOut.Nodup := (List.nodup_finRange 64).filter _

theorem State.mem_runningOut (s : State) (i : Slot) : i ∈ s.runningOut ↔ ∃ o ∈ (s.region i).offer, o.remaining = 1 := by
  simp [State.runningOut, indices]

theorem exec_msTick (s : State) : exec .msTick s =
    .next ((s.mapRegions tickedRegion).setExpiryDue (s.table.expiryDue ++ s.runningOut)) := rfl

section
variable {s : State} {i : Slot}

theorem exec_offerTimerExpiry_due (h : i ∈ s.table.expiryDue) : exec (.offerTimerExpiry i) s =
    .next ((s.setExpiryDue (s.table.expiryDue.erase i)).notify [.offerExpiry i]) := if_pos (List.contains_iff_mem.2 h)

theorem exec_offerTimerExpiry_not_due (h : i ∉ s.table.expiryDue) : exec (.offerTimerExpiry i) s = .next s :=
  if_neg (mt List.contains_iff_mem.1 h)

theorem exec_offerExpiry {rest : List Notice} (hn : s.table.notices = .offerExpiry i :: rest) (haccess : s.accessPending = false) :
    exec .offerExpiry s = .next ((s.setNotices rest).expireOffer i) := by
  rw [exec, execOfferExpiry, State.nextNotice_of hn haccess]

theorem State.expireOffer_ends {o : Offer} (hlive : (s.region i).state = .live) (hoffer : (s.region i).offer = some o)
    (hzero : o.remaining = 0) : s.expireOffer i = (s.clearOffer i).offerEvents
      [((s.region i).owner, .offerResolved (s.handle i) o.target .expired),
        (o.target, .offerCancelled (s.handle i) (s.region i).owner .expired)] := by
  unfold State.expireOffer
  dsimp only
  rw [hoffer]
  exact if_pos ⟨hlive, hzero⟩

theorem State.expireOffer_stands (h : (s.region i).state = .live → ∀ o ∈ (s.region i).offer, o.remaining ≠ 0) :
    s.expireOffer i = s := by
  unfold State.expireOffer
  dsimp only
  split
  · rfl
  · next o ho => exact if_neg fun ⟨hlive, hzero⟩ => h hlive o ho hzero

end

/-- Settles O25, one clause for each row. -/
theorem offerTimerEffect : Obligations.OfferTimerEffect := by
  unfold Obligations.OfferTimerEffect
  refine ⟨fun s => ⟨_, s.runningOut, exec_msTick s, ?ticked, fun i => ?_, s.runningOut_nodup, s.mem_runningOut⟩,
    fun s i => ⟨exec_offerTimerExpiry_due, exec_offerTimerExpiry_not_due⟩, fun s i rest hn haccess => ?_⟩
  case ticked => simp only [State.mapRegions, State.setExpiryDue]
  · simp [tickedRegion]
  · rw [exec_offerExpiry hn haccess]
    refine ⟨fun o hlive hoffer hzero => ?_, fun hstands => ?_⟩
    · rw [State.expireOffer_ends (s := s.setNotices rest) hlive hoffer hzero]
      rfl
    · rw [State.expireOffer_stands (s := s.setNotices rest) hstands]
      rfl

end Sys2Proof.Machine

end

section
/-! PROOF of O26, O27, O32, O33 and O35: the commands of a channel's lessee, and LEASE. Each outcome is the command's body behind the
orders sent before it, at the case its checks answer. -/

set_option Elab.async false

namespace Sys2Proof.Machine

/-! ### The channel number and the lessee (O26) -/

/-- The commands that name a channel: LEASE, QUERY_CHANNEL, and those of its lessee. -/
theorem channelRow {c : Instr} {p : Port} {op : Byte} {n : Nat} (hrow : commandRow c = some (p, op, n))
    (hlow : 0x12 ≤ op.toNat) (hhigh : op.toNat ≤ 0x1A) :
    (c = .lease p ∧ op = 0x12 ∧ n = 1) ∨ (c = .queryChannel p ∧ op = 0x1A ∧ n = 1) ∨
      ((op ≠ 0x12 ∧ op ≠ 0x1A) ∧ ∀ s, ∃ body, exec c s = s.lesseeCommand p op n body) := by
  cases c <;> simp only [commandRow, Option.some.injEq, Prod.mk.injEq, reduceCtorEq] at hrow <;> obtain ⟨rfl, rfl, rfl⟩ := hrow
  case lease => exact .inl ⟨rfl, rfl, rfl⟩
  case queryChannel => exact .inr (.inl ⟨rfl, rfl, rfl⟩)
  case release | program | arm | disarm | suspend | resume | trigger =>
    refine .inr (.inr ⟨by decide, fun s => ?_⟩)
    simp only [exec, execRelease, execProgram, execArm, execDisarm, execSuspend, execResume, execTrigger]
    exact ⟨_, rfl⟩
  all_goals simp at hlow hhigh

section
variable {s : State} {p : Port} {op tag b : Byte} {rest : List Byte} {n : Nat}

theorem State.lesseeCommand_badArg (h : s.servesOpen p op tag (b :: rest)) (hn : rest.length + 1 = n) (hb : 16 ≤ b.toNat)
    (body : List Byte → Chan → State → State × Option Reply) :
    s.lesseeCommand p op n body = .next (s.served p op tag .badArg []) :=
  State.command_refused h (by simpa using hn) (by simp only [byteAt_zero, chanOf_none hb])

end

/-- Settles O26: the number is checked on the hub as it stands, the lessee behind the orders. -/
theorem channelCommandChecks : Obligations.ChannelCommandChecks := by
  unfold Obligations.ChannelCommandChecks
  intro s c p op n tag b rest hrow hlow hhigh h hn
  refine ⟨fun hb hany => ?_, fun k hk hlease hquery hlessee => ?_⟩
  · rcases channelRow hrow hlow hhigh with ⟨rfl, rfl, rfl⟩ | ⟨rfl, rfl, rfl⟩ | ⟨-, hbody⟩
    · have named : ¬ byteAt (b :: rest) 0 = 0xFF := fun heq => hany ⟨rfl, heq⟩
      rw [exec, execLease]
      refine State.command_refused h (by simpa using hn) ((if_neg named).trans ?_)
      simp only [byteAt_zero, chanOf_none hb]
    · rw [exec, execQueryChannel]
      exact State.command_refused h (by simpa using hn) (by simp only [byteAt_zero, chanOf_none hb])
    · obtain ⟨body, hexec⟩ := hbody s
      rw [hexec]
      exact State.lesseeCommand_badArg h hn hb body
  · rcases channelRow hrow hlow hhigh with ⟨-, rfl, -⟩ | ⟨-, rfl, -⟩ | ⟨-, hbody⟩
    · exact absurd rfl hlease
    · exact absurd rfl hquery
    · obtain ⟨body, hexec⟩ := hbody s
      rw [hexec]
      exact State.lesseeCommand_notLessee h hn hk hlessee body

/-! ### LEASE (O27) -/

section
variable {s : State} {p : Port} {tag b : Byte} {wanted : Option Chan}

/-- A channel that LEASE may take (R63). -/
def State.mayLease (s : State) (wanted : Option Chan) (c : Chan) : Prop :=
  (s.channel c).state = .free ∧ ∀ w ∈ wanted, w = c

theorem State.leasable_eq_none (h : ∀ c, ¬ s.mayLease wanted c) : s.leasable wanted = none := by
  unfold State.leasable
  cases wanted with
  | none => simpa [State.mayLease, indices] using h
  | some w => exact if_neg fun hfree => h w ⟨hfree, fun v hv => (Option.some.inj hv).symm⟩

theorem State.leasable_eq_some {c : Chan} (h : s.mayLease wanted c) (hlow : ∀ d, d < c → ¬ s.mayLease wanted d) :
    s.leasable wanted = some c := by
  obtain ⟨hfree, hwanted⟩ := h
  unfold State.leasable
  cases wanted with
  | none =>
    dsimp only
    rw [find?_indices_iff]
    exact ⟨beq_iff_eq.2 hfree, fun d hd => not_lt.1 fun hlt => hlow d hlt ⟨beq_iff_eq.1 hd, by rintro _ ⟨⟩⟩⟩
  | some w =>
    obtain rfl := hwanted w rfl
    exact if_pos hfree

theorem State.leasable_isSome {c : Chan} (h : s.mayLease wanted c) : ∃ d, s.leasable wanted = some d := by
  rw [← Option.ne_none_iff_exists']
  obtain ⟨hfree, hwanted⟩ := h
  unfold State.leasable
  cases wanted with
  | none =>
    dsimp only
    rw [Ne, List.find?_eq_none, not_forall]
    exact ⟨c, by simp [indices, hfree]⟩
  | some w =>
    obtain rfl := hwanted w rfl
    simp [hfree]

/-- LEASE behind its channel byte: what it does with the channel it gets. -/
theorem exec_lease {t : State} {code : ResultCode} {payload : List Byte} (h : s.servesOpen p 0x12 tag [b])
    (hb : b = 0xFF ∧ wanted = none ∨ ∃ c : Chan, wanted = some c ∧ b.toNat = c.val)
    (hbody : (s.drainOrders.popCommand p).leaseChannel p wanted = (t.popCommand p, some { code, payload })) :
    exec (.lease p) s = .next (t.served p 0x12 tag code payload) := by
  rw [exec, execLease]
  refine State.command_accepted h rfl ?_
  rw [State.popCommand_drainOrders]
  rcases hb with ⟨rfl, rfl⟩ | ⟨c, rfl, hc⟩
  · exact (if_pos rfl).trans hbody
  · have named : ¬ byteAt [b] 0 = 0xFF := by
      rw [byteAt_zero]
      rintro rfl
      have := c.isLt
      simp at hc
      omega
    refine (if_neg named).trans ?_
    simp only [byteAt_zero, chanOf_some hc]
    exact hbody

end

section
variable {u : State} {p : Port} {wanted : Option Chan}

theorem State.leaseChannel_noChannel (h : u.leasable wanted = none) :
    (u.popCommand p).leaseChannel p wanted = (u.popCommand p).refuse .noChannel := by
  unfold State.leaseChannel
  simp only [State.popCommand_leasable, h]

variable {c : Chan} (h : u.leasable wanted = some c)
include h

theorem State.leaseChannel_quota (hquota : u.table.quotaMode = .split ∧ 4 ≤ (u.quota p).channels) :
    (u.popCommand p).leaseChannel p wanted = (u.popCommand p).refuse .quota := by
  unfold State.leaseChannel
  simp only [State.popCommand_leasable, h]
  exact if_pos hquota

theorem State.leaseChannel_ok (hquota : ¬ (u.table.quotaMode = .split ∧ 4 ≤ (u.quota p).channels)) :
    (u.popCommand p).leaseChannel p wanted =
      (((u.setChannel c (Channel.leasedTo p)).setLeases p ((u.quota p).channels + 1)).popCommand p).accepted [chanByte c] := by
  unfold State.leaseChannel
  simp only [State.popCommand_leasable, h]
  exact if_neg hquota

end

/-! ### RELEASE (O27) -/

section
variable {s u : State} {p : Port} {op tag b : Byte} {rest : List Byte} {c : Chan} {x : Channel}

/-- The record a lessee's command works on. -/
theorem State.servesLessee.channel (h : s.servesLessee p op tag b rest c u x) : (u.popCommand p).channel c = x := h.2.2.2.1.symm

theorem State.servesLessee.lessee (h : s.servesLessee p op tag b rest c u x) : (u.channel c).lessee = some p :=
  (congrArg Channel.lessee h.channel).trans h.2.2.2.2

theorem State.servesLessee.drained (h : s.servesLessee p op tag b rest c u x) : u = s.drainOrders := h.2.2.1

end

section
variable {s u : State} {p : Port} {tag b : Byte} {c : Chan} {x : Channel} (h : s.servesLessee p 0x13 tag b [] c u x)
include h

theorem exec_release_busy (hrec : x.recorded ≠ none) : exec (.release p) s = .next (u.served p 0x13 tag .busy []) := by
  rw [exec, execRelease]
  refine State.lesseeCommand_refused h rfl ?_
  dsimp only
  rw [h.channel, if_pos (Option.isSome_iff_ne_none.2 hrec)]

variable (hrec : x.recorded = none)
include hrec

theorem exec_release_wrongState (hstate : x.state ≠ .leased ∧ x.state ≠ .programmed) :
    exec (.release p) s = .next (u.served p 0x13 tag .wrongState []) := by
  rw [exec, execRelease]
  refine State.lesseeCommand_refused h rfl ?_
  dsimp only
  rw [h.channel, if_neg (by simp [hrec]), if_pos hstate]

theorem exec_release_ok (hstate : x.state = .leased ∨ x.state = .programmed) : exec (.release p) s =
    .next ((((u.setChannel c Channel.empty).notify x.releases).setLeases p ((u.quota p).channels - 1)).served p 0x13 tag .ok
      [x.state.code]) := by
  have released : ¬ (x.state ≠ .leased ∧ x.state ≠ .programmed) := fun ⟨hleased, hprogrammed⟩ =>
    hstate.elim hleased hprogrammed
  rw [exec, execRelease]
  refine State.lesseeCommand_accepted h rfl ?_
  dsimp only
  rw [h.channel, if_neg (by simp [hrec]), if_neg released]
  rfl

end

/-- Settles O27: LEASE through the channel it gets, RELEASE through its two checks. -/
theorem leaseAndReleaseEffect : Obligations.LeaseAndReleaseEffect := by
  unfold Obligations.LeaseAndReleaseEffect
  refine ⟨fun s p tag b wanted h hb => ?lease, fun s u p tag b c x h => ?release⟩
  case lease =>
    intro u q mayLease overQuota
    have hquota : u.quota p = q := by simp [u, q]
    have hover : (u.table.quotaMode = .split ∧ 4 ≤ (u.quota p).channels) ↔ overQuota := by simp [u, overQuota, q]
    refine ⟨fun hnone => ?_, fun ⟨c, hc⟩ hbeyond => ?_, fun c hwithin hc hlow => ?_⟩
    · exact exec_lease h hb (State.leaseChannel_noChannel (State.leasable_eq_none hnone))
    · obtain ⟨d, hd⟩ := State.leasable_isSome (s := u) (wanted := wanted) hc
      exact exec_lease h hb (State.leaseChannel_quota hd (hover.2 hbeyond))
    · have hd := State.leasable_eq_some (s := u) (wanted := wanted) hc hlow
      rw [exec_lease h hb (State.leaseChannel_ok hd (mt hover.1 hwithin)), hquota, State.setLeases, State.setChannel_quota,
        hquota]
      rfl
  case release =>
    intro q notices
    have hquota : u.quota p = q := by simp [h.drained, q]
    have hnotices : x.releases = notices := rfl
    refine ⟨exec_release_busy h, fun hrec hleased hprogrammed => exec_release_wrongState h hrec ⟨hleased, hprogrammed⟩,
      fun hrec hstate => ?_⟩
    have hcode : x.state.code = if x.state = .leased then 1 else 2 := by rcases hstate with h | h <;> rw [h] <;> rfl
    rw [exec_release_ok h hrec hstate, hnotices, hcode, State.setLeases, State.notify_quota, State.setChannel_quota, hquota]
    rfl

/-! ### ARM (O32) -/

section
variable {s u : State} {p : Port} {tag b : Byte} {c : Chan} {x : Channel} (h : s.servesLessee p 0x15 tag b [] c u x)
include h

theorem exec_arm_noProgram (hg : x.program = none) : exec (.arm p) s = .next (u.served p 0x15 tag .noProgram []) := by
  rw [exec, execArm]
  refine State.lesseeCommand_refused h rfl ?_
  dsimp only
  rw [h.channel, hg]

variable {g : Program} (hg : x.program = some g)
include hg

theorem exec_arm_wrongState (hstate : x.state ≠ .programmed) : exec (.arm p) s = .next (u.served p 0x15 tag .wrongState []) := by
  rw [exec, execArm]
  refine State.lesseeCommand_refused h rfl ?_
  dsimp only
  rw [h.channel, hg]
  exact if_pos hstate

variable (hstate : x.state = .programmed)
include hstate

theorem exec_arm_halted (hhalt : u.halted p = true) : exec (.arm p) s = .next (u.served p 0x15 tag .halted []) := by
  rw [exec, execArm]
  refine State.lesseeCommand_refused h rfl ?_
  dsimp only
  rw [h.channel, hg]
  exact (if_neg (not_not.2 hstate)).trans (if_pos hhalt)

theorem exec_arm_ok (hhalt : u.halted p = false) : exec (.arm p) s =
    .next ((u.setChannel c (x.armed g)).served p 0x15 tag .ok [x.outcome.code]) := by
  have running : ¬ (u.popCommand p).halted p = true := by simp [hhalt]
  rw [exec, execArm]
  refine State.lesseeCommand_accepted h rfl ?_
  dsimp only
  rw [h.channel, hg]
  refine (if_neg (not_not.2 hstate)).trans ((if_neg running).trans ?_)
  rw [State.popCommand_setChannel]

end

section
variable {s u : State} {p : Port} {op tag b : Byte} {rest : List Byte} {c : Chan} {x : Channel}

/-- The orders sent before a command leave the HALT inputs as they are. -/
theorem State.servesLessee.halted (h : s.servesLessee p op tag b rest c u x) (l : Level) (hl : look s.pins.halt p = l) :
    u.halted p = (l == .low) := by
  rw [State.halted, h.drained, State.drainOrders_pins, hl]

end

theorem Program.initialRun_eq (g : Program) (latch : Bool) : g.initialRun latch =
    { sourceOffset := g.source.start, destOffset := g.dest.start, remaining := g.count
      blockRemaining := match g.mode with
        | .block _ _ b _ => b
        | .single _ _ | .cyclic _ _ | .sweep _ => 0
      latch, overrunSeen := false, wrapCount := 0, inService := false, unitInFlight := false } := by
  rw [Program.initialRun, Program.blockUnits]
  cases g.mode <;> rfl

theorem Mode.isSweep_eq (m : Mode) : m.isSweep = match m with
    | .sweep _ => true
    | .single _ _ | .cyclic _ _ | .block _ _ _ _ => false := by cases m <;> rfl

/-- Settles O32: the checks of R76 in their order, and the armed record. -/
theorem armEffect : Obligations.ArmEffect := by
  unfold Obligations.ArmEffect
  intro s u p tag b c x h
  refine ⟨exec_arm_noProgram h, fun g hg => ⟨exec_arm_wrongState h hg, fun hstate hlow => ?_, fun hstate hhigh => ?_⟩⟩
  · exact exec_arm_halted h hg hstate (h.halted .low hlow)
  · rw [exec_arm_ok h hg hstate (h.halted .high hhigh), Channel.armed, Program.initialRun_eq, Mode.isSweep_eq] <;>
      rfl

/-! ### TRIGGER (O33) -/

section
variable {s u : State} {p : Port} {tag b : Byte} {c : Chan} {x : Channel} (h : s.servesLessee p 0x19 tag b [] c u x)
include h

theorem exec_trigger_wrongState (hx : (!x.takesActivations || (x.program.map fun g => g.mode.isSweep).getD true) = true) :
    exec (.trigger p) s = .next (u.served p 0x19 tag .wrongState []) := by
  rw [exec, execTrigger]
  refine State.lesseeCommand_refused h rfl ?_
  dsimp only
  rw [h.channel, if_pos hx]

theorem exec_trigger_ok (hx : (!x.takesActivations || (x.program.map fun g => g.mode.isSweep).getD true) = false) :
    exec (.trigger p) s = .next ((u.commit c (activate c x).1).served p 0x19 tag .ok [(activate c x).2.code]) := by
  rw [exec, execTrigger]
  refine State.lesseeCommand_accepted h rfl ?_
  dsimp only
  rw [h.channel, if_neg (by simp [hx]), State.popCommand_commit]

end

theorem Channel.takesActivations_iff (x : Channel) : x.takesActivations = true ↔ x.state = .armed ∨ x.state = .running := by
  simp [Channel.takesActivations]

theorem Mode.isSweep_iff (m : Mode) : m.isSweep = true ↔ ∃ v, m = .sweep v := by cases m <;> simp [Mode.isSweep]

/-- The check of R89. -/
theorem Channel.triggers_iff (x : Channel) : (!x.takesActivations || (x.program.map fun g => g.mode.isSweep).getD true) = false ↔
    (x.state = .armed ∨ x.state = .running) ∧ ∃ g ∈ x.program, ∀ v, g.mode ≠ .sweep v := by
  rw [Bool.or_eq_false_iff, Bool.not_eq_false', x.takesActivations_iff]
  refine and_congr Iff.rfl ?_
  cases x.program with
  | none => simp
  | some g =>
    simp only [Option.map_some, Option.getD_some, Option.mem_some, exists_eq_left', ← Bool.not_eq_true, g.mode.isSweep_iff,
      not_exists, ne_eq]

/-- Settles O33: the check of R89, and the activation by what an overrun does (R83 to R85). -/
theorem triggerEffect : Obligations.TriggerEffect := by
  unfold Obligations.TriggerEffect
  intro s u p tag b c x h active
  refine ⟨fun hidle => ?_, fun g policy hstate hg hpolicy => ?_⟩
  · refine exec_trigger_wrongState h ?_
    rw [← Bool.not_eq_false, x.triggers_iff]
    exact hidle
  · have htriggers := x.triggers_iff.2 ⟨hstate, g, hg, fun v hv => by rw [hv] at hpolicy; cases hpolicy⟩
    obtain ⟨hoverrun, hcalm⟩ := activate_spec (c := c) hstate hg hpolicy
    refine ⟨fun hover => ?_, fun hover => ?_⟩
    · rw [exec_trigger_ok h htriggers, hoverrun hover, State.commit_without_notices h.lessee]
      rfl
    · have hcode : (if x.run.latch = false then Activated.latched else if policy = .merge then .merged else .stopping).code =
          if x.run.latch = false then 0 else if policy = .merge then 1 else 2 := by split_ifs <;> rfl
      rw [exec_trigger_ok h htriggers, hcalm hover, State.commit_keep, hcode]

end Sys2Proof.Machine
end

section
/-! PROOF of O35 (SUSPEND, DISARM and RESUME) and O37 (HALT_CLAIM). -/

set_option Elab.async false

namespace Sys2Proof.Machine

/-! ### Recorded requests -/

section
variable {x : Channel} {q : Request}

/-- A request is recorded where nothing is recorded that it does not outweigh (R119, R120). -/
theorem Channel.recording_of_weaker (h : ∀ old ∈ x.recorded, old.strength < q.strength) :
    x.recording q = { x with recorded := some q } := by rw [Channel.recording, if_pos h]

theorem Channel.recordedByte_eq (x : Channel) : x.recordedByte = if x.run.unitInFlight then 1 else 0 := by
  rw [Channel.recordedByte]
  cases x.run.unitInFlight <;> rfl

/-- A DISARM is refused by a recorded request that it does not outweigh (R127). -/
theorem Channel.refusesDisarm_iff (x : Channel) : x.refusesDisarm = true ↔ ∃ q ∈ x.recorded, 2 ≤ q.strength := by
  unfold Channel.refusesDisarm
  cases x.recorded with
  | none => simp
  | some q => cases q <;> simp [Request.strength]

theorem Channel.disarmable_iff (x : Channel) : (!x.takesActivations && x.state != .suspended) = false ↔
    x.state = .armed ∨ x.state = .running ∨ x.state = .suspended := by
  cases hx : x.state <;> simp [Channel.takesActivations, hx]

theorem makeRequest_disarm_recorded (c : Chan) (h : x.state = .armed ∨ x.state = .running ∨ x.state = .suspended)
    (hflight : x.run.unitInFlight = true) : makeRequest c x (.abort .disarm) = Effect.keep (x.recording (.abort .disarm)) := by
  have happlies : (Request.abort .disarm).appliesTo x = true := by rcases h with h | h | h <;> simp [Request.appliesTo, h]
  rw [makeRequest, if_neg (by simp [happlies]), if_pos hflight, Channel.record_eq]

theorem makeRequest_disarm_now (c : Chan) (h : x.state = .armed ∨ x.state = .running ∨ x.state = .suspended)
    (hflight : x.run.unitInFlight = false) : makeRequest c x (.abort .disarm) =
      { channel := x.stoppedWith .aborted, events := if x.notifiesStop then [.channelStopped c .aborted false] else []
        notices := [] } := by
  have happlies : (Request.abort .disarm).appliesTo x = true := by rcases h with h | h | h <;> simp [Request.appliesTo, h]
  rw [makeRequest, if_neg (by simp [happlies]), if_neg (by simp [hflight])]
  simp only [applyRequest, applyAbort, reduceCtorEq, false_or]
  rfl

end

/-! ### SUSPEND -/

section
variable {s u : State} {p : Port} {tag b : Byte} {c : Chan} {x : Channel}

section
variable (h : s.servesLessee p 0x17 tag b [] c u x)
include h

theorem exec_suspend_busy (hrec : x.recorded ≠ none) : exec (.suspend p) s = .next (u.served p 0x17 tag .busy []) := by
  rw [exec, execSuspend]
  refine State.lesseeCommand_refused h rfl ?_
  dsimp only
  rw [h.channel, if_pos (Option.isSome_iff_ne_none.2 hrec)]

variable (hrec : x.recorded = none)
include hrec

theorem exec_suspend_wrongState (hstate : x.takesActivations = false) :
    exec (.suspend p) s = .next (u.served p 0x17 tag .wrongState []) := by
  rw [exec, execSuspend]
  refine State.lesseeCommand_refused h rfl ?_
  dsimp only
  rw [h.channel, if_neg (by simp [hrec]), if_pos (by simp [hstate])]

theorem exec_suspend_ok (hstate : x.takesActivations = true) : exec (.suspend p) s =
    .next ((u.commit c (makeRequest c x (.suspend .command))).served p 0x17 tag .ok [if x.run.unitInFlight then 1 else 0]) := by
  rw [exec, execSuspend]
  refine State.lesseeCommand_accepted h rfl ?_
  dsimp only
  rw [h.channel, if_neg (by simp [hrec]), if_neg (by simp [hstate]), State.popCommand_commit, Channel.recordedByte_eq]

end

/-! ### DISARM -/

section
variable (h : s.servesLessee p 0x16 tag b [] c u x)
include h

theorem exec_disarm_busy (hbusy : x.refusesDisarm = true) : exec (.disarm p) s = .next (u.served p 0x16 tag .busy []) := by
  rw [exec, execDisarm]
  refine State.lesseeCommand_refused h rfl ?_
  dsimp only
  rw [h.channel, if_pos hbusy]

variable (hbusy : x.refusesDisarm = false)
include hbusy

theorem exec_disarm_wrongState (hstate : (!x.takesActivations && x.state != .suspended) = true) :
    exec (.disarm p) s = .next (u.served p 0x16 tag .wrongState []) := by
  rw [exec, execDisarm]
  refine State.lesseeCommand_refused h rfl ?_
  dsimp only
  rw [h.channel, if_neg (by simp [hbusy]), if_pos hstate]

theorem exec_disarm_ok (hstate : (!x.takesActivations && x.state != .suspended) = false) : exec (.disarm p) s =
    .next ((u.commit c (makeRequest c x (.abort .disarm))).served p 0x16 tag .ok [if x.run.unitInFlight then 1 else 0]) := by
  rw [exec, execDisarm]
  refine State.lesseeCommand_accepted h rfl ?_
  dsimp only
  rw [h.channel, if_neg (by simp [hbusy]), if_neg (by simp only [hstate, Bool.false_eq_true, not_false_eq_true]),
    State.popCommand_commit, Channel.recordedByte_eq]

end

/-! ### RESUME -/

section
variable (h : s.servesLessee p 0x18 tag b [] c u x)
include h

theorem exec_resume_wrongState (hstate : x.state ≠ .suspended) :
    exec (.resume p) s = .next (u.served p 0x18 tag .wrongState []) := by
  rw [exec, execResume]
  refine State.lesseeCommand_refused h rfl ?_
  dsimp only
  rw [h.channel, if_pos hstate]

variable (hstate : x.state = .suspended)
include hstate

theorem exec_resume_halted (hhalt : u.halted p = true) : exec (.resume p) s = .next (u.served p 0x18 tag .halted []) := by
  rw [exec, execResume]
  refine State.lesseeCommand_refused h rfl ?_
  dsimp only
  rw [h.channel, if_neg (not_not.2 hstate)]
  exact if_pos hhalt

theorem exec_resume_ok (hhalt : u.halted p = false) : exec (.resume p) s =
    .next ((u.setChannel c x.resumed).served p 0x18 tag .ok [(x.suspension.map SuspendCause.code).getD 0xFF]) := by
  have running : ¬ (u.popCommand p).halted p = true := by simp [hhalt]
  rw [exec, execResume]
  refine State.lesseeCommand_accepted h rfl ?_
  dsimp only
  rw [h.channel, if_neg (not_not.2 hstate), if_neg running, State.popCommand_setChannel]

end

end

theorem SuspendCause.code_eq (k : SuspendCause) : k.code = if k = .command then 0 else 1 := by cases k <;> rfl

theorem Channel.resumed_eq (x : Channel) : x.resumed = { x with
    state := .armed, suspension := none
    run := { x.run with
      latch := match x.program.map Program.mode with
        | some (.sweep _) => true
        | none | some (.single _ _) | some (.cyclic _ _) | some (.block _ _ _ _) => false
      inService := false } } := by
  unfold Channel.resumed
  cases hx : x.program with
  | none => rfl
  | some g =>
    simp only [Option.map_some, Option.getD_some, Mode.isSweep_eq]
    cases g.mode <;> rfl

/-- An event of a channel whose notify set holds STOP. -/
theorem Channel.told_eq (x : Channel) (p : Port) (e : Event) :
    ((if x.notifiesStop then [e] else []).map fun e => (p, e)) = if ∃ g ∈ x.program, g.notify.stop = true then [(p, e)] else [] := by
  rw [if_congr x.notifiesStop_iff rfl rfl]
  split_ifs <;> rfl

/-- Settles O35: each command by its checks, and by whether a unit is in flight. -/
theorem suspendDisarmResumeEffect : Obligations.SuspendDisarmResumeEffect := by
  unfold Obligations.SuspendDisarmResumeEffect
  refine ⟨fun s u p tag b c x h => ?suspend, fun s u p tag b c x h => ?disarm, fun s u p tag b c x h => ?resume⟩
  case suspend =>
    refine ⟨exec_suspend_busy h, fun hrec harmed hrunning => ?_, fun hrec hstate hflight => ?_, fun hrec hstate hflight => ?_⟩
    · refine exec_suspend_wrongState h hrec ?_
      rw [← Bool.not_eq_true, x.takesActivations_iff]
      exact not_or.2 ⟨harmed, hrunning⟩
    · rw [exec_suspend_ok h hrec (x.takesActivations_iff.2 hstate), makeRequest_suspend_recorded hstate hflight, State.commit_keep,
        Channel.recording_of_weaker (by simp [hrec]), if_pos hflight]
    · rw [exec_suspend_ok h hrec (x.takesActivations_iff.2 hstate), makeRequest_suspend_now hstate hflight,
        State.commit_without_notices h.lessee, Channel.told_eq, if_neg (show ¬ x.run.unitInFlight = true by simp [hflight])]
  case disarm =>
    intro stoppable busy
    have idle (hbusy : ¬ busy) : x.refusesDisarm = false := by rw [← Bool.not_eq_true, x.refusesDisarm_iff]; exact hbusy
    refine ⟨fun hbusy => exec_disarm_busy h (x.refusesDisarm_iff.2 hbusy), fun hbusy hstate => ?_,
      fun hbusy hstate hflight => ?_, fun hbusy hstate hflight => ?_⟩
    · refine exec_disarm_wrongState h (idle hbusy) ?_
      rw [← Bool.not_eq_false, x.disarmable_iff]
      exact hstate
    · have weaker : ∀ old ∈ x.recorded, old.strength < (Request.abort .disarm).strength := fun old hold =>
        not_le.1 fun hstrong => hbusy ⟨old, hold, hstrong⟩
      rw [exec_disarm_ok h (idle hbusy) (x.disarmable_iff.2 hstate), makeRequest_disarm_recorded c hstate hflight,
        State.commit_keep, Channel.recording_of_weaker weaker, if_pos hflight]
    · rw [exec_disarm_ok h (idle hbusy) (x.disarmable_iff.2 hstate), makeRequest_disarm_now c hstate hflight,
        State.commit_without_notices h.lessee, Channel.told_eq, if_neg (show ¬ x.run.unitInFlight = true by simp [hflight])]
  case resume =>
    refine ⟨exec_resume_wrongState h, fun hstate hlow => exec_resume_halted h hstate (h.halted .low hlow),
      fun cause hstate hhigh hcause => ?_⟩
    rw [exec_resume_ok h hstate (h.halted .high hhigh), hcause, Channel.resumed_eq, Option.map_some, Option.getD_some,
      SuspendCause.code_eq] <;>
      rfl

/-! ### A claim at several channels (O37) -/

/-- Nothing but channel records and events has changed. -/
theorem SameButChannelsAndEvents.eq {s t : State} (h : SameButChannelsAndEvents s t) :
    t = { s with chan := { s.chan with channels := t.chan.channels }, links := t.links } := by
  obtain ⟨hpins, htable, hengine, hscrub, hmem, hpending, horders, hclaims, hedges⟩ := h
  obtain ⟨tpins, ttable, ⟨tchannels, torders, tclaims, tedges⟩, tengine, tscrub, tlinks, tmem, tpending⟩ := t
  dsimp only at hpins htable hengine hscrub hmem hpending horders hclaims hedges
  subst hpins htable hengine hscrub hmem hpending horders hclaims hedges
  rfl

/-- Events raised one or none at each channel. -/
theorem flatMap_ite {α β : Type} (l : List α) (f : α → Bool) (e : α → β) :
    (l.flatMap fun c => if f c = true then [e c] else []) = (l.filter f).map e := by
  induction l with
  | nil => rfl
  | cons a l ih =>
    rw [List.flatMap_cons, ih, List.filter_cons]
    split_ifs <;> rfl

section
variable {s : State} {p : Port}

/-- The channels a halt claim of a port strikes (R129). -/
def State.strikes (s : State) (p : Port) (c : Chan) : Prop :=
  (s.channel c).lessee = some p ∧ ((s.channel c).state = .armed ∨ (s.channel c).state = .running)

/-- The channels that a halt claim suspends, in the order taken. -/
def State.struck (s : State) (p : Port) (order : List Chan) : List Chan :=
  arrange order (s.channelsWhere fun x => x.lessee == some p && x.takesActivations)

theorem State.struck_nodup (order : List Chan) : (s.struck p order).Nodup := arrange_nodup _ _ (s.channelsWhere_nodup _)

theorem State.mem_struck (order : List Chan) (c : Chan) : c ∈ s.struck p order ↔ s.strikes p c := by
  rw [State.struck, arrange_mem, State.channelsWhere_mem, Bool.and_eq_true, beq_iff_eq, Channel.takesActivations_iff]
  rfl

/-- The channels suspended at once that report it (R121). -/
def State.haltTold (s : State) (p : Port) (order : List Chan) : List Chan :=
  (s.struck p order).filter fun c => !(s.channel c).run.unitInFlight && (s.channel c).notifiesStop

/-- The event of a channel that a halt claim strikes. -/
theorem makeRequest_halt_events {c : Chan} (h : s.strikes p c) : (makeRequest c (s.channel c) (.suspend .halt)).events =
    if (!(s.channel c).run.unitInFlight && (s.channel c).notifiesStop) = true then [.channelSuspended c .halt] else [] := by
  cases hflight : (s.channel c).run.unitInFlight with
  | true => rw [makeRequest_suspend_recorded h.2 hflight]; rfl
  | false => rw [makeRequest_suspend_now h.2 hflight]; rfl

/-- What HALT_CLAIM leaves: every struck channel suspended or told to be, and the events of those suspended at once. -/
theorem State.takeHalt_spec (order : List Chan) :
    SameButChannelsAndEvents s (s.takeHalt p order) ∧
      (∀ c, s.strikes p c → (s.takeHalt p order).channel c = (makeRequest c (s.channel c) (.suspend .halt)).channel) ∧
      (∀ c, ¬ s.strikes p c → (s.takeHalt p order).channel c = s.channel c) ∧
      (s.takeHalt p order).link p =
        { s.link p with events := s.eventsAfter p ((s.haltTold p order).map fun c => .channelSuspended c .halt) } ∧
      ∀ q, q ≠ p → (s.takeHalt p order).link q = s.link q := by
  obtain ⟨hsame, hchannel, hlink⟩ := State.foldl_commit (fun c x => makeRequest c x (.suspend .halt))
    (fun c x => (makeRequest_suspend_keeps c x .halt).2) (fun c x => (makeRequest_suspend_keeps c x .halt).1) (s.struck p order)
    (State.struck_nodup order) s
  refine ⟨hsame, fun c hc => (hchannel c).trans (if_pos ((State.mem_struck order c).2 hc)),
    fun c hc => (hchannel c).trans (if_neg (mt (State.mem_struck order c).1 hc)), (hlink p).trans ?_,
    fun q hq => (hlink q).trans ?_⟩
  · have hall : ((s.struck p order).filter fun c => (s.channel c).lessee = some p) = s.struck p order :=
      List.filter_eq_self.2 fun c hc => decide_eq_true ((State.mem_struck order c).1 hc).1
    have hevents : ((s.struck p order).flatMap fun c => (makeRequest c (s.channel c) (.suspend .halt)).events) =
        (s.haltTold p order).map fun c => .channelSuspended c .halt := by
      rw [State.haltTold, ← flatMap_ite]
      exact List.flatMap_congr fun c hc => makeRequest_halt_events ((State.mem_struck order c).1 hc)
    rw [hall, hevents]
  · have hnone : ((s.struck p order).filter fun c => (s.channel c).lessee = some q) = [] :=
      List.filter_eq_nil_iff.2 fun c hc => by
        rw [((State.mem_struck order c).1 hc).1]
        simpa using hq.symm
    rw [hnone]
    exact congrArg (fun es => ({ s.link q with events := es } : Link)) (State.eventsAfter_nil s q)

theorem exec_haltClaim_none (order : List Chan) (h : p ∉ s.chan.haltClaims) : exec (.haltClaim p order) s = .next s :=
  if_neg (mt List.contains_iff_mem.1 h)

theorem exec_haltClaim (order : List Chan) (h : p ∈ s.chan.haltClaims) : exec (.haltClaim p order) s =
    .next ((s.setHaltClaims (s.chan.haltClaims.erase p)).takeHalt p order) := if_pos (List.contains_iff_mem.2 h)

end

/-- Settles O37: what a claim at several channels does, with SUSPEND at each. -/
theorem haltClaimEffect : Obligations.HaltClaimEffect := by
  unfold Obligations.HaltClaimEffect
  refine ⟨fun s p order h => exec_haltClaim_none order h, fun s p order h => ?_⟩
  intro struck
  obtain ⟨hsame, hstruck, hspared, hlink, hothers⟩ :=
    State.takeHalt_spec (s := s.setHaltClaims (s.chan.haltClaims.erase p)) (p := p) order
  refine ⟨_, (s.setHaltClaims (s.chan.haltClaims.erase p)).haltTold p order, exec_haltClaim order h, hsame.eq, fun c => ?_,
    (State.struck_nodup order).filter _, fun c => ?_, hlink, hothers⟩
  · by_cases hc : struck c
    · rw [hstruck c hc, if_neg (not_not.2 hc)]
      split_ifs with hflight
      · exact congrArg Effect.channel (makeRequest_suspend_recorded hc.2 hflight)
      · exact congrArg Effect.channel (makeRequest_suspend_now hc.2 (by simpa using hflight))
    · rw [hspared c hc, if_pos hc]
      rfl
  · rw [State.haltTold, List.mem_filter, State.mem_struck, Bool.and_eq_true, Bool.not_eq_true', Channel.notifiesStop_iff]
    rfl

end Sys2Proof.Machine
end

section
/-! PROOF of O34 (the trigger lines and their claims), O38 (the stop orders) and O39 (channel commands behind the orders). -/

set_option Elab.async false

namespace Sys2Proof.Machine

/-! ### TRIGGER_LEVEL_CHANGE and EDGE_CLAIM (O34) -/

theorem flipLevel_eq (l : Level) : flipLevel l = if l = .low then .high else .low := by cases l <;> rfl

theorem Edge.sense_eq (e : Edge) : e.sense = if e = .rise then .rise else .fall := by cases e <;> rfl

/-- A mode with an activation has an overrun policy (R66). -/
theorem Mode.policy_of_activation {m : Mode} {a : Activation} (h : m.activation = some a) : ∃ policy, m.policy = some policy := by
  cases m with
  | sweep v => cases h
  | _ => exact ⟨_, rfl⟩

/-- An activation stops the channel at once (R85). -/
def Channel.overrunsNow (x : Channel) : Bool :=
  x.run.latch && ((x.program.bind fun g => g.mode.policy) == some .stop) && !x.run.unitInFlight

theorem Channel.overrunsNow_iff (x : Channel) : x.overrunsNow = true ↔
    ∃ g ∈ x.program, ∃ policy ∈ g.mode.policy, x.overruns policy := by
  unfold Channel.overrunsNow Channel.overruns
  cases x.program with
  | none => simp
  | some g => cases hp : g.mode.policy <;> simp [hp]; tauto

theorem activate_events {c : Chan} {x : Channel} {g : Program} {policy : Policy} (hstate : x.state = .armed ∨ x.state = .running)
    (hg : x.program = some g) (hpolicy : g.mode.policy = some policy) :
    (activate c x).1.events = if x.overrunsNow = true then [.channelStopped c .overrun false] else [] := by
  obtain ⟨hover, hcalm⟩ := activate_spec (c := c) hstate hg hpolicy
  have hiff : x.overrunsNow = true ↔ x.overruns policy := by simp [Channel.overrunsNow_iff, hg, hpolicy]
  by_cases h : x.overruns policy
  · rw [hover h, if_pos (hiff.2 h)]
  · rw [hcalm h, if_neg (mt hiff.1 h)]
    rfl

theorem activate_channel {c : Chan} {x : Channel} {g : Program} {policy : Policy} (hstate : x.state = .armed ∨ x.state = .running)
    (hg : x.program = some g) (hpolicy : g.mode.policy = some policy) : (activate c x).1.channel = x.activated policy := by
  obtain ⟨hover, hcalm⟩ := activate_spec (c := c) hstate hg hpolicy
  by_cases h : x.overruns policy
  · rw [hover h]
  · rw [hcalm h]
    rfl

section
variable {s : State} {claim : EdgeClaim}

/-- The channels that an edge claim activates (R80). -/
def State.edgeSelects (s : State) (claim : EdgeClaim) (c : Chan) : Prop :=
  ((s.channel c).state = .armed ∨ (s.channel c).state = .running) ∧
    ∃ g ∈ (s.channel c).program, g.mode.activation = some (.line claim.line claim.edge.sense)

/-- The channels that an edge claim activates, in the order taken. -/
def State.edgeSelected (s : State) (claim : EdgeClaim) (order : List Chan) : List Chan :=
  arrange order (s.channelsWhere fun x => x.selects claim)

theorem State.edgeSelected_nodup (order : List Chan) : (s.edgeSelected claim order).Nodup := arrange_nodup _ _ (s.channelsWhere_nodup _)

theorem State.mem_edgeSelected (order : List Chan) (c : Chan) : c ∈ s.edgeSelected claim order ↔ s.edgeSelects claim c := by
  rw [State.edgeSelected, arrange_mem, State.channelsWhere_mem, Channel.selects, Bool.and_eq_true, Channel.takesActivations_iff]
  refine and_congr Iff.rfl ?_
  cases (s.channel c).program with
  | none => simp
  | some g => simp

/-- The channels that an edge claim stops at once. -/
def State.edgeStopped (s : State) (claim : EdgeClaim) (order : List Chan) : List Chan :=
  (s.edgeSelected claim order).filter fun c => (s.channel c).overrunsNow

/-- What EDGE_CLAIM leaves: one activation at every selected channel, and the events of those stopped at once. -/
theorem State.takeEdge_spec (order : List Chan) :
    SameButChannelsAndEvents s (s.takeEdge claim order) ∧
      (∀ c, s.edgeSelects claim c → (s.takeEdge claim order).channel c = (activate c (s.channel c)).1.channel) ∧
      (∀ c, ¬ s.edgeSelects claim c → (s.takeEdge claim order).channel c = s.channel c) ∧
      ∀ q, (s.takeEdge claim order).link q = { s.link q with
        events := s.eventsAfter q
          (((s.edgeStopped claim order).filter fun c => (s.channel c).lessee = some q).map
            fun c => .channelStopped c .overrun false) } := by
  obtain ⟨hsame, hchannel, hlink⟩ := State.foldl_commit (fun c x => (activate c x).1) (fun c x => (activate_keeps c x).2)
    (fun c x => (activate_keeps c x).1) (s.edgeSelected claim order) (State.edgeSelected_nodup order) s
  refine ⟨hsame, fun c hc => (hchannel c).trans (if_pos ((State.mem_edgeSelected order c).2 hc)),
    fun c hc => (hchannel c).trans (if_neg (mt (State.mem_edgeSelected order c).1 hc)), fun q => (hlink q).trans ?_⟩
  have hevents : (((s.edgeSelected claim order).filter fun c => (s.channel c).lessee = some q).flatMap
      fun c => (activate c (s.channel c)).1.events) =
        ((s.edgeStopped claim order).filter fun c => (s.channel c).lessee = some q).map fun c => .channelStopped c .overrun false := by
    rw [State.edgeStopped, List.filter_comm, ← flatMap_ite]
    refine List.flatMap_congr fun c hc => ?_
    obtain ⟨hstate, g, hg, hactivation⟩ := (State.mem_edgeSelected order c).1 (List.mem_filter.1 hc).1
    obtain ⟨policy, hpolicy⟩ := Mode.policy_of_activation hactivation
    exact activate_events hstate hg hpolicy
  rw [hevents]

end

section
variable {s : State} {n : Line}

theorem exec_edgeClaim_none (order : List Chan) (h : ∀ k ∈ s.chan.edgeClaims, k.line ≠ n) : exec (.edgeClaim n order) s = .next s := by
  have hnone : (s.chan.edgeClaims.find? fun k => k.line == n) = none := by simpa using h
  rw [exec, execEdgeClaim, hnone]

theorem exec_edgeClaim (order : List Chan) {before after : List EdgeClaim} {edge : Edge}
    (hclaims : s.chan.edgeClaims = before ++ { line := n, edge } :: after) (hbefore : ∀ k ∈ before, k.line ≠ n) :
    exec (.edgeClaim n order) s = .next ((s.setEdgeClaims (before ++ after)).takeEdge { line := n, edge } order) := by
  have hfind : (s.chan.edgeClaims.find? fun k => k.line == n) = some { line := n, edge } := by
    rw [hclaims, List.find?_append, List.find?_eq_none.2 fun k hk => by simpa using hbefore k hk]
    simp
  have herase : s.chan.edgeClaims.erase { line := n, edge } = before ++ after := by
    rw [hclaims, List.erase_append_right _ fun hmem => hbefore _ hmem rfl]
    simp
  rw [exec, execEdgeClaim, hfind]
  simp only [herase]

theorem exec_triggerLevelChange (s : State) (n : Line) : exec (.triggerLevelChange n) s =
    if s.sendsClaims then .next ((s.setTrg n (flipLevel (look s.pins.trg n))).setEdgeClaims
      (s.chan.edgeClaims ++ [{ line := n, edge := if look s.pins.trg n = .low then .rise else .fall }]))
    else .next (s.setTrg n (flipLevel (look s.pins.trg n))) := rfl

end

/-- Settles O34: what a claim at several channels does, with an activation at each. -/
theorem edgeClaims : Obligations.EdgeClaims := by
  unfold Obligations.EdgeClaims
  refine ⟨fun m => ?mode, fun s n => ?level, fun s n order h => exec_edgeClaim_none order h,
    fun s n order before after edge hclaims hbefore => ?claim⟩
  case mode => cases m <;> rfl
  case level =>
    intro old t
    refine ⟨fun hreset hstartup => ?_, fun hstarting => ?_⟩
    · rw [exec_triggerLevelChange, if_pos (by simp [State.sendsClaims, hreset, hstartup]), flipLevel_eq]
    · rw [exec_triggerLevelChange, if_neg, flipLevel_eq]
      rcases hstarting with h | h <;> simp [State.sendsClaims, h]
  case claim =>
    intro selected
    have hselected (c : Chan) : selected c ↔ (s.setEdgeClaims (before ++ after)).edgeSelects { line := n, edge } c := by
      simp only [selected, State.edgeSelects, Edge.sense_eq, State.setEdgeClaims_channel]
    obtain ⟨hsame, hactivated, hspared, hlink⟩ :=
      State.takeEdge_spec (s := s.setEdgeClaims (before ++ after)) (claim := { line := n, edge }) order
    refine ⟨_, (s.setEdgeClaims (before ++ after)).edgeStopped { line := n, edge } order, exec_edgeClaim order hclaims hbefore,
      hsame.eq, fun c hc => hspared c (mt (hselected c).2 hc), fun c g policy hc hg hpolicy => ?_,
      (State.edgeSelected_nodup order).filter _, fun c => ?_, hlink⟩
    · exact (hactivated c ((hselected c).1 hc)).trans (activate_channel hc.1 hg hpolicy)
    · rw [State.edgeStopped, List.mem_filter, State.mem_edgeSelected, ← hselected, Channel.overrunsNow_iff]
      rfl

end Sys2Proof.Machine
end

section
/-! PROOF of O38 (the stop orders) and O39 (channel commands behind the orders). -/

set_option Elab.async false

namespace Sys2Proof.Machine

/-! ### DISCARD_ORDER and TEARDOWN_ORDER (O38) -/

theorem State.setChannel_same (s : State) (c : Chan) : s.setChannel c (s.channel c) = s := by
  unfold State.setChannel State.channel
  rw [put_look]

theorem DiscardCause.outcome_eq (cause : DiscardCause) : cause.outcome = if cause = .retired then .retired else .revoked := by
  cases cause <;> rfl

theorem Program.names_iff (g : Program) (h : Handle) : g.names h = true ↔ g.source.handle = h ∨ g.dest.handle = h := by
  simp [Program.names]

theorem OrderKind.isTeardown_iff (k : OrderKind) : k.isTeardown = true ↔ k = .teardown := by
  cases k <;> simp [OrderKind.isTeardown]

section
variable {s : State} {c : Chan} {before after : List Order} {later : List (List Order)}

/-- The orders that wait once one of the oldest batch is taken. -/
def ordersLeft (rest : List Order) (later : List (List Order)) : List (List Order) :=
  if rest = [] then later else rest :: later

theorem exec_discardOrder {k : OrderKind} (hk : k ≠ .teardown)
    (horders : s.chan.orders = (before ++ { channel := c, kind := k } :: after) :: later)
    (hbefore : ∀ o ∈ before, ¬ (o.channel = c ∧ o.kind ≠ .teardown)) :
    exec (.discardOrder c) s =
      .next ((s.setOrders (ordersLeft (before ++ after) later)).takeOrder { channel := c, kind := k }) := by
  refine congrArg Host.Outcome.next (State.takeOrderOf_eq ?_ (fun o ho => ?_) horders)
  · simpa [← OrderKind.isTeardown_iff] using hk
  · simpa [← OrderKind.isTeardown_iff] using hbefore o ho

theorem exec_teardownOrder (horders : s.chan.orders = (before ++ { channel := c, kind := .teardown } :: after) :: later)
    (hbefore : ∀ o ∈ before, ¬ (o.channel = c ∧ o.kind = .teardown)) :
    exec (.teardownOrder c) s =
      .next ((s.setOrders (ordersLeft (before ++ after) later)).takeOrder { channel := c, kind := .teardown }) := by
  refine congrArg Host.Outcome.next (State.takeOrderOf_eq ?_ (fun o ho => ?_) horders)
  · simp [OrderKind.isTeardown]
  · simpa [← OrderKind.isTeardown_iff] using hbefore o ho

theorem State.takeOrderOf_none (teardown : Bool) (h : ∀ batch rest, s.chan.orders = batch :: rest → ∀ o ∈ batch, o.channel ≠ c) :
    s.takeOrderOf c teardown = s := by
  unfold State.takeOrderOf
  cases horders : s.chan.orders with
  | nil => rfl
  | cons batch rest =>
    have hnone : (batch.find? fun o => o.channel == c && o.kind.isTeardown == teardown) = none :=
      List.find?_eq_none.2 fun o ho => by simp [h batch rest horders o ho]
    simp only [hnone]

end

section
variable {t : State} {c : Chan} {x : Channel} {h : Handle} {cause : DiscardCause} {g : Program} {p : Port}
  (hx : t.channel c = x)
include hx

theorem State.takeOrder_discard_dropped (hnames : ∀ g ∈ x.program, g.names h = false) :
    t.takeOrder { channel := c, kind := .discard cause h } = t := by
  have hnot : ¬ (x.program.map fun g => g.names h).getD false = true := by
    cases hg : x.program with
    | none => simp
    | some g => simpa using hnames g hg
  simp only [State.takeOrder, Order.effect, hx, if_neg hnot, State.commit_keep]
  rw [← hx]
  exact State.setChannel_same t c

theorem State.takeOrder_discard (hg : x.program = some g) (hnames : g.names h = true) :
    t.takeOrder { channel := c, kind := .discard cause h } = t.commit c (makeRequest c x (.discard cause)) := by
  simp [State.takeOrder, Order.effect, hx, hg, hnames]

theorem State.takeOrder_discard_recorded (hg : x.program = some g) (hnames : g.names h = true) (hflight : x.run.unitInFlight = true) :
    t.takeOrder { channel := c, kind := .discard cause h } = t.setChannel c (x.recording (.discard cause)) := by
  rw [State.takeOrder_discard hx hg hnames, makeRequest_discard hg, if_pos hflight, State.commit_keep]

theorem State.takeOrder_discard_applied (hg : x.program = some g) (hnames : g.names h = true)
    (hflight : x.run.unitInFlight = false) (hlessee : x.lessee = some p) :
    t.takeOrder { channel := c, kind := .discard cause h } =
      ((t.setChannel c { x with
          state := .leased, program := none, run := RunState.clear, recorded := none, suspension := none
          outcome := cause.outcome }).setNotices
        (t.table.notices ++ [.referenceRelease g.source.handle, .referenceRelease g.dest.handle])).offerEvents
        [(p, .channelStopped c cause.outcome false)] := by
  rw [State.takeOrder_discard hx hg hnames, makeRequest_discard hg, if_neg (by simp [hflight]),
    State.commit_leased (hx ▸ hlessee)]
  rfl

theorem State.takeOrder_teardown_dropped (hfree : x.state = .free) :
    t.takeOrder { channel := c, kind := .teardown } = t := by
  have hkeep : makeRequest c x .teardown = Effect.keep x := by simp [makeRequest, Request.appliesTo, hfree]
  simp only [State.takeOrder, Order.effect, hx, hkeep, State.commit_keep]
  rw [← hx]
  exact State.setChannel_same t c

theorem State.takeOrder_teardown_recorded (hfree : x.state ≠ .free) (hflight : x.run.unitInFlight = true) :
    t.takeOrder { channel := c, kind := .teardown } = t.setChannel c (x.recording .teardown) := by
  simp only [State.takeOrder, Order.effect, hx, makeRequest_teardown hfree, if_pos hflight, State.commit_keep]

theorem State.takeOrder_teardown_applied (hfree : x.state ≠ .free) (hflight : x.run.unitInFlight = false)
    (hlessee : x.lessee = some p) :
    t.takeOrder { channel := c, kind := .teardown } =
      (t.setChannel c Channel.empty).setNotices (t.table.notices ++ (x.releases ++ [.leaseEnd c p])) := by
  simp only [State.takeOrder, Order.effect, hx, makeRequest_teardown hfree, hflight, Bool.false_eq_true, if_false]
  rw [State.commit_leased (hx ▸ hlessee)]
  simp only [applyTeardown, hlessee]
  rfl

end

/-- Settles O38: the order found in the oldest batch, and then what one order does. -/
theorem stopOrders : Obligations.StopOrders := by
  unfold Obligations.StopOrders
  refine ⟨Program.names_iff, fun s f => rfl, fun s batch => ?send,
    fun s c h cause before after later horders hbefore => ?discard,
    fun s c before after later horders hbefore => ?teardown,
    fun s c hnone => ⟨congrArg Host.Outcome.next (State.takeOrderOf_none false hnone),
      congrArg Host.Outcome.next (State.takeOrderOf_none true hnone)⟩⟩
  case send => simp only [State.sendOrders, List.isEmpty_iff]
  case discard =>
    intro x t
    have htake := exec_discardOrder (k := .discard cause h) nofun horders hbefore
    refine ⟨fun hnames => htake.trans (congrArg Host.Outcome.next (State.takeOrder_discard_dropped rfl hnames)),
      fun g hg hnames => ⟨fun hflight => htake.trans (congrArg Host.Outcome.next (State.takeOrder_discard_recorded rfl hg hnames hflight)),
        fun p hflight hlessee => htake.trans (congrArg Host.Outcome.next ?_)⟩⟩
    refine (State.takeOrder_discard_applied (t := t) rfl hg hnames hflight hlessee).trans ?_
    rw [DiscardCause.outcome_eq]
    rfl
  case teardown =>
    intro x t
    have htake := exec_teardownOrder horders hbefore
    refine ⟨fun hfree => htake.trans (congrArg Host.Outcome.next (State.takeOrder_teardown_dropped rfl hfree)),
      fun hfree hflight => htake.trans (congrArg Host.Outcome.next (State.takeOrder_teardown_recorded rfl hfree hflight)),
      fun p hfree hflight hlessee => htake.trans (congrArg Host.Outcome.next ?_)⟩
    refine (State.takeOrder_teardown_applied (t := t) rfl hfree hflight hlessee).trans ?_
    rw [← List.append_assoc]
    rfl

end Sys2Proof.Machine
end

section
/-! PROOF of O39: a channel command reads no notice, so that the notices of the orders taken before it stand in front of its own. -/

set_option Elab.async false


namespace Sys2Proof.Machine

/-- The hub with further notices in front of those that wait. -/
def State.behind (s : State) (ns : List Notice) : State := s.setNotices (ns ++ s.table.notices)

section
variable (s : State) (ns : List Notice)

theorem State.behind_channel (c : Chan) : (s.behind ns).channel c = s.channel c := rfl
theorem State.behind_checkProgram (p : Port) (g : Program) : (s.behind ns).checkProgram p g = s.checkProgram p g := rfl
theorem State.behind_setChannel (c : Chan) (x : Channel) : (s.behind ns).setChannel c x = (s.setChannel c x).behind ns := rfl

theorem State.behind_notify (ms : List Notice) : (s.behind ns).notify ms = (s.notify ms).behind ns := by
  simp only [State.behind, State.notify, State.setNotices_table_notices, List.append_assoc]
  rfl

theorem State.behind_offerEvent (p : Port) (e : Event) : (s.behind ns).offerEvent p e = (s.offerEvent p e).behind ns := by
  unfold State.offerEvent
  rw [show (s.behind ns).session p = s.session p from rfl]
  split_ifs <;> rfl

theorem State.behind_offerEvents (es : List (Port × Event)) : (s.behind ns).offerEvents es = (s.offerEvents es).behind ns := by
  induction es generalizing s with
  | nil => rfl
  | cons e es ih => simp only [State.offerEvents, State.behind_offerEvent, ih]

theorem State.behind_commit (c : Chan) (e : Effect) : (s.behind ns).commit c e = (s.commit c e).behind ns := by
  unfold State.commit
  rw [State.behind_setChannel, State.behind_notify, show (s.behind ns).channel c = s.channel c from rfl]
  cases (s.channel c).lessee with
  | none => rfl
  | some p => exact State.behind_offerEvents _ _ _

theorem State.behind_dropReference (h : Handle) : (s.behind ns).dropReference h = (s.dropReference h).behind ns := by
  unfold State.dropReference
  cases h.slot? <;> rfl

theorem State.behind_dropProgram (g : Option Program) : (s.behind ns).dropProgram g = (s.dropProgram g).behind ns := by
  cases g with
  | none => rfl
  | some g => simp only [State.dropProgram, State.behind_dropReference]

theorem State.behind_install (c : Chan) (g : Program) (i j : Slot) :
    (s.behind ns).install c g i j = (s.install c g i j).behind ns := by
  unfold State.install
  simp only [show ∀ (t : State) (k : Slot), (t.behind ns).addReference k = (t.addReference k).behind ns from fun _ _ => rfl,
    State.behind_dropProgram, State.behind_setChannel]
  rfl

end

/-- What a command body does on a hub with further notices in front: the same, and they stay in front. -/
def KeepsNoticesInFront (body : State → State × Option Reply) : Prop :=
  ∀ (t : State) (ns : List Notice), body (t.behind ns) = ((body t).1.behind ns, (body t).2)

namespace KeepsNoticesInFront

theorem refuse (code : ResultCode) : KeepsNoticesInFront fun t => t.refuse code := fun _ _ => rfl

theorem accepted {f : State → State} {payload : State → List Byte} (hf : ∀ t ns, f (t.behind ns) = (f t).behind ns)
    (hpayload : ∀ t ns, payload (t.behind ns) = payload t) : KeepsNoticesInFront fun t => (f t).accepted (payload t) := fun t ns => by
  simp only [hf, hpayload]
  rfl

/-- A choice between two bodies by what the notices do not touch. -/
theorem ite {P : State → Prop} [∀ t, Decidable (P t)] {f g : State → State × Option Reply} (hP : ∀ t ns, P (t.behind ns) ↔ P t)
    (hf : KeepsNoticesInFront f) (hg : KeepsNoticesInFront g) : KeepsNoticesInFront fun t => if P t then f t else g t := fun t ns => by
  by_cases h : P t
  · simp only [if_pos h, if_pos ((hP t ns).2 h), hf t ns]
  · simp only [if_neg h, if_neg (mt (hP t ns).1 h), hg t ns]

end KeepsNoticesInFront

theorem State.leaseChannel_front (p : Port) (wanted : Option Chan) : KeepsNoticesInFront fun t => t.leaseChannel p wanted := by
  intro t ns
  dsimp only
  unfold State.leaseChannel
  rw [show (t.behind ns).leasable wanted = t.leasable wanted from rfl]
  cases t.leasable wanted with
  | none => rfl
  | some c =>
    exact KeepsNoticesInFront.ite (P := fun t => t.table.quotaMode = .split ∧ Config.splitChannels ≤ (t.quota p).channels)
      (fun _ _ => Iff.rfl) (.refuse .quota)
      (.accepted (f := fun t => (t.setChannel c (Channel.leasedTo p)).setLeases p ((t.quota p).channels + 1))
        (payload := fun _ => [chanByte c]) (fun _ _ => rfl) fun _ _ => rfl) t ns

section
variable {s : State}

theorem State.drainOrders_none (horders : s.chan.orders = []) : s.drainOrders = s := by
  unfold State.drainOrders
  rw [horders]
  exact congrArg (fun x => { s with chan := { s.chan with orders := x } }) horders.symm

/-- The orders leave what a link holds but for its events. -/
theorem State.foldl_takeOrder_link (os : List Order) (s : State) (q : Port) :
    ∃ es, (os.foldl State.takeOrder s).link q = { s.link q with events := es } := by
  induction os generalizing s with
  | nil => exact ⟨_, rfl⟩
  | cons o os ih =>
    obtain ⟨es, hes⟩ := ih (s.takeOrder o)
    exact ⟨es, by rw [List.foldl_cons, hes, State.takeOrder, State.commit_link_eq]⟩

theorem State.drainOrders_link (s : State) (q : Port) : ∃ es, s.drainOrders.link q = { s.link q with events := es } :=
  State.foldl_takeOrder_link _ (s.setOrders []) q

theorem State.commandTurn_of {t : State} (hpointer : t.table.pointer = s.table.pointer)
    (hnotices : s.table.notices = [] → t.table.notices = []) (hlinks : ∀ q, ∃ es, t.link q = { s.link q with events := es })
    {p : Port} (h : s.commandTurn = some p) : t.commandTurn = some p := by
  unfold State.commandTurn at h ⊢
  have haccess : t.accessPending = s.accessPending := congrArg (List.any _) (funext fun q => by
    obtain ⟨es, hes⟩ := hlinks q
    rw [hes])
  have heligible : t.eligible = s.eligible := funext fun q => by
    obtain ⟨es, hes⟩ := hlinks q
    simp only [State.eligible, hes]
  rw [haccess, hpointer, heligible]
  by_cases hbusy : (s.accessPending || !s.table.notices.isEmpty) = true
  · rw [if_pos hbusy] at h
    cases h
  · rw [if_neg hbusy] at h
    have hquiet : s.accessPending = false ∧ s.table.notices = [] := by simpa using hbusy
    rw [if_neg (by simp [hquiet.1, hnotices hquiet.2])]
    exact h

/-- The hub behind the orders, with no notice waiting, is at the same turn. -/
theorem State.servesOpen.behindOrders {p : Port} {op tag : Byte} {args : List Byte} (h : s.servesOpen p op tag args) :
    (s.drainOrders.setNotices []).servesOpen p op tag args := by
  obtain ⟨⟨hhead, hturn⟩, hopen⟩ := h
  obtain ⟨es, hes⟩ := s.drainOrders_link p
  refine ⟨⟨?_, State.commandTurn_of (s := s) (t := s.drainOrders.setNotices []) (by simp) (fun _ => rfl) (fun q => s.drainOrders_link q) hturn⟩, ?_⟩
  · rw [State.setNotices_link, hes]
    exact hhead
  · rw [State.setNotices_session, State.drainOrders_session]
    exact hopen

/-- What a channel command does behind the orders sent before it, whatever waits in the notice queue. -/
def FollowsOrders (s : State) (row : State → Res) : Prop :=
  ∃ v, row (s.drainOrders.setNotices []) = .next v ∧ row s = .next (v.behind s.drainOrders.table.notices)

/-- A command whose body begins behind the orders does the same where those have been taken, their notices in front. -/
theorem FollowsOrders.of_command {p : Port} {op tag : Byte} {args : List Byte} {n : Nat}
    {body : List Byte → State → State × Option Reply} {rest : State → State × Option Reply} (h : s.servesOpen p op tag args)
    (hn : args.length = n) (hbody : ∀ t, body args t = rest t.drainOrders) (hrest : KeepsNoticesInFront rest) :
    FollowsOrders s fun t => t.command p op n body := by
  unfold FollowsOrders
  beta_reduce
  rw [State.command_of_servesOpen h hn, State.command_of_servesOpen h.behindOrders hn, hbody, hbody, State.popCommand_drainOrders,
    State.popCommand_drainOrders, State.drainOrders_none (s := s.drainOrders.setNotices []) s.drainOrders_orders]
  have hbehind : s.drainOrders.popCommand p = ((s.drainOrders.setNotices []).popCommand p).behind s.drainOrders.table.notices := by
    simp only [State.behind, State.popCommand_notices, State.setNotices_table_notices, List.append_nil]
    rfl
  rw [hbehind, hrest]
  cases hresult : rest ((s.drainOrders.setNotices []).popCommand p) with
  | mk t reply =>
    cases reply with
    | none => exact ⟨t, rfl, rfl⟩
    | some y => exact ⟨t.answer p { opcode := op, tag, args } y, rfl, rfl⟩

theorem FollowsOrders.of_lesseeCommand {p : Port} {op tag b : Byte} {args : List Byte} {n : Nat}
    {body : List Byte → Chan → State → State × Option Reply} (h : s.servesOpen p op tag (b :: args)) (hn : args.length + 1 = n)
    (hb : b.toNat < 16) (hbody : ∀ c, KeepsNoticesInFront fun t => body (b :: args) c t) :
    FollowsOrders s fun t => t.lesseeCommand p op n body := by
  refine FollowsOrders.of_command h hn (rest := fun u =>
    if (u.channel ⟨b.toNat, hb⟩).lessee ≠ some p then u.refuse .notLessee else body (b :: args) ⟨b.toNat, hb⟩ u) (fun t => ?_) ?_
  · simp only [byteAt_zero, chanOf_some (c := ⟨b.toNat, hb⟩) rfl]
  · exact .ite (fun _ _ => Iff.rfl) (.refuse _) (hbody _)

end

/-! ### The channel commands, each behind its lessee check -/

section
variable (p : Port) (c : Chan)

theorem KeepsNoticesInFront.commit {f : State → Effect} {payload : State → List Byte} (hf : ∀ t ns, f (t.behind ns) = f t)
    (hpayload : ∀ t ns, payload (t.behind ns) = payload t) :
    KeepsNoticesInFront fun t => (t.commit c (f t)).accepted (payload t) :=
  .accepted (fun t ns => by rw [hf, State.behind_commit]) hpayload

end

section
variable {s : State} {p : Port} {tag b : Byte}

theorem FollowsOrders.lease (h : s.servesOpen p 0x12 tag [b]) (hb : b.toNat < 16 ∨ b = 0xFF) : FollowsOrders s (execLease p) := by
  unfold execLease
  by_cases hany : b = 0xFF
  · subst hany
    exact FollowsOrders.of_command h rfl (fun t => rfl) (State.leaseChannel_front p none)
  · have hlow := hb.resolve_right hany
    refine FollowsOrders.of_command h rfl (fun t => ?_) (State.leaseChannel_front p (some ⟨b.toNat, hlow⟩))
    simp only [byteAt_zero, if_neg hany, chanOf_some (c := ⟨b.toNat, hlow⟩) rfl]

theorem FollowsOrders.release (h : s.servesOpen p 0x13 tag [b]) (hb : b.toNat < 16) : FollowsOrders s (execRelease p) := by
  unfold execRelease
  refine FollowsOrders.of_lesseeCommand h rfl hb fun c =>
    .ite (fun _ _ => Iff.rfl) (.refuse _) (.ite (fun _ _ => Iff.rfl) (.refuse _) (.accepted
      (f := fun t => ((t.setChannel c Channel.empty).notify (t.channel c).releases).setLeases p ((t.quota p).channels - 1))
      (payload := fun t => [(t.channel c).state.code]) (fun t ns => by
        rw [State.behind_setChannel, State.behind_notify]
        rfl) fun _ _ => rfl))

theorem FollowsOrders.arm (h : s.servesOpen p 0x15 tag [b]) (hb : b.toNat < 16) : FollowsOrders s (execArm p) := by
  unfold execArm
  refine FollowsOrders.of_lesseeCommand h rfl hb fun c t ns => ?_
  dsimp only
  rw [State.behind_channel]
  cases hg : (t.channel c).program with
  | none => rfl
  | some g =>
    exact KeepsNoticesInFront.ite (P := fun _ => (t.channel c).state ≠ .programmed) (fun _ _ => Iff.rfl) (.refuse _)
      (.ite (P := fun t => t.halted p = true) (fun _ _ => Iff.rfl) (.refuse _) (.accepted (f := fun t => t.setChannel c ((t.channel c).armed g))
        (payload := fun t => [(t.channel c).outcome.code]) (fun _ _ => rfl) fun _ _ => rfl)) t ns

theorem FollowsOrders.disarm (h : s.servesOpen p 0x16 tag [b]) (hb : b.toNat < 16) : FollowsOrders s (execDisarm p) := by
  unfold execDisarm
  refine FollowsOrders.of_lesseeCommand h rfl hb fun c =>
    .ite (fun _ _ => Iff.rfl) (.refuse _) (.ite (fun _ _ => Iff.rfl) (.refuse _) (.commit c
      (f := fun t => makeRequest c (t.channel c) (.abort .disarm)) (fun _ _ => rfl) fun _ _ => rfl))

theorem FollowsOrders.suspend (h : s.servesOpen p 0x17 tag [b]) (hb : b.toNat < 16) : FollowsOrders s (execSuspend p) := by
  unfold execSuspend
  refine FollowsOrders.of_lesseeCommand h rfl hb fun c =>
    .ite (fun _ _ => Iff.rfl) (.refuse _) (.ite (fun _ _ => Iff.rfl) (.refuse _) (.commit c
      (f := fun t => makeRequest c (t.channel c) (.suspend .command)) (fun _ _ => rfl) fun _ _ => rfl))

theorem FollowsOrders.resume (h : s.servesOpen p 0x18 tag [b]) (hb : b.toNat < 16) : FollowsOrders s (execResume p) := by
  unfold execResume
  refine FollowsOrders.of_lesseeCommand h rfl hb fun c =>
    .ite (fun _ _ => Iff.rfl) (.refuse _) (.ite (fun _ _ => Iff.rfl) (.refuse _) (.accepted
      (f := fun t => t.setChannel c (t.channel c).resumed) (fun _ _ => rfl) fun _ _ => rfl))

theorem FollowsOrders.trigger (h : s.servesOpen p 0x19 tag [b]) (hb : b.toNat < 16) : FollowsOrders s (execTrigger p) := by
  unfold execTrigger
  refine FollowsOrders.of_lesseeCommand h rfl hb fun c =>
    .ite (fun _ _ => Iff.rfl) (.refuse _) (.commit c (f := fun t => (activate c (t.channel c)).1) (fun _ _ => rfl) fun _ _ => rfl)

theorem FollowsOrders.program {args : List Byte} (h : s.servesOpen p 0x14 tag (b :: args)) (hn : args.length + 1 = 29)
    (hb : b.toNat < 16) : FollowsOrders s (execProgram p) := by
  unfold execProgram
  refine FollowsOrders.of_lesseeCommand h hn hb fun c =>
    .ite (fun _ _ => Iff.rfl) (.refuse _) (.ite (fun _ _ => Iff.rfl) (.refuse _) fun t ns => ?_)
  cases programOf (b :: args).tail with
  | none => rfl
  | some g =>
    dsimp only
    rw [State.behind_checkProgram]
    cases t.checkProgram p g with
    | error code => rfl
    | ok ij =>
      dsimp only
      rw [State.behind_install]
      rfl

theorem FollowsOrders.queryChannel (h : s.servesOpen p 0x1A tag [b]) (hb : b.toNat < 16) : FollowsOrders s (execQueryChannel p) := by
  unfold execQueryChannel
  refine FollowsOrders.of_command h rfl (rest := fun u => u.accepted (u.channel ⟨b.toNat, hb⟩).encode) (fun t => ?_) fun _ _ => rfl
  simp only [byteAt_zero, chanOf_some (c := ⟨b.toNat, hb⟩) rfl]

theorem FollowsOrders.listChannels (h : s.servesOpen p 0x1B tag []) : FollowsOrders s (execListChannels p) := by
  unfold execListChannels
  exact FollowsOrders.of_command h rfl (rest := fun u => u.accepted ((indices 16).flatMap fun c =>
    [(u.channel c).state.code, ((u.channel c).lessee.map portByte).getD 0xFF])) (fun _ => rfl) fun _ _ => rfl

/-- Every channel command that comes past its number check follows the orders. -/
theorem FollowsOrders.row {c : Instr} {op : Byte} {n : Nat} {args : List Byte} (hrow : commandRow c = some (p, op, n))
    (hop : 0x12 ≤ op.toNat) (h : s.servesOpen p op tag args) (hn : args.length = n)
    (hfirst : ∀ b ∈ args.head?, b.toNat < 16 ∨ (op = 0x12 ∧ b = 0xFF)) : FollowsOrders s (exec c) := by
  have hone (hop' : op ≠ 0x12) (hlength : args.length = 1) : ∃ b, args = [b] ∧ b.toNat < 16 := by
    obtain ⟨b, rfl⟩ := List.length_eq_one_iff.1 hlength
    exact ⟨b, rfl, (hfirst b rfl).resolve_right fun hany => hop' hany.1⟩
  cases c <;> simp only [commandRow, Option.some.injEq, Prod.mk.injEq, reduceCtorEq] at hrow <;> obtain ⟨rfl, rfl, rfl⟩ := hrow
  case lease =>
    obtain ⟨b, rfl⟩ := List.length_eq_one_iff.1 hn
    exact .lease h ((hfirst b rfl).imp_right And.right)
  case release => obtain ⟨b, rfl, hb⟩ := hone (by decide) hn; exact .release h hb
  case arm => obtain ⟨b, rfl, hb⟩ := hone (by decide) hn; exact .arm h hb
  case disarm => obtain ⟨b, rfl, hb⟩ := hone (by decide) hn; exact .disarm h hb
  case suspend => obtain ⟨b, rfl, hb⟩ := hone (by decide) hn; exact .suspend h hb
  case resume => obtain ⟨b, rfl, hb⟩ := hone (by decide) hn; exact .resume h hb
  case trigger => obtain ⟨b, rfl, hb⟩ := hone (by decide) hn; exact .trigger h hb
  case queryChannel => obtain ⟨b, rfl, hb⟩ := hone (by decide) hn; exact .queryChannel h hb
  case listChannels =>
    obtain rfl := List.length_eq_zero_iff.1 hn
    exact .listChannels h
  case program =>
    obtain ⟨b, rest, rfl⟩ := List.exists_cons_of_length_pos (l := args) (by omega)
    exact .program h hn ((hfirst b rfl).resolve_right fun hany => absurd hany.1 (by decide))
  all_goals simp at hop

end

/-- One order taken as a step of its own is the first of those a channel command takes. -/
theorem exec_firstOrder {s : State} {o : Order} {batch : List Order} {later : List (List Order)}
    (horders : s.chan.orders = (o :: batch) :: later) :
    exec (if o.kind = .teardown then .teardownOrder o.channel else .discardOrder o.channel) s =
      .next ((s.setOrders (ordersLeft batch later)).takeOrder o) := by
  split_ifs with hkind
  · have heq : o = { channel := o.channel, kind := .teardown } := by rw [← hkind]
    rw [exec_teardownOrder (before := []) (by rw [← heq]; exact horders) (by simp), ← heq]
    rfl
  · exact exec_discardOrder (before := []) hkind horders (by simp)

theorem ordersLeft_flatten (batch : List Order) (later : List (List Order)) :
    (ordersLeft batch later).flatten = batch ++ later.flatten := by
  unfold ordersLeft
  split_ifs with h
  · rw [h, List.nil_append]
  · rfl

/-- Settles O39: each command behind the orders, and the orders one by one. -/
theorem commandsFollowOrders : Obligations.CommandsFollowOrders := by
  unfold Obligations.CommandsFollowOrders
  refine ⟨fun s c p op n tag args hrow hop h hlength hfirst => ?commands, fun s => State.drainOrders_none,
    fun s t o batch later horders ht => ?first⟩
  case commands => exact FollowsOrders.row hrow hop h hlength hfirst
  case first =>
    rw [exec_firstOrder horders] at ht
    cases ht
    refine ⟨?_, State.drainOrders_orders _⟩
    simp only [State.drainOrders, State.takeOrder_chan_orders, State.setOrders_chan_orders, ordersLeft_flatten, horders,
      List.flatten_cons, List.cons_append, List.foldl_cons]
    exact congrArg (List.foldl _ · _) (State.setOrders_commit _ _ _ _)

end Sys2Proof.Machine
end

section
/-! PROOF of O11 (CLOSE and CLEAR_NOTICE): what the frees of a session close come to together, and then the close field by field. -/

set_option Elab.async false

namespace Sys2Proof.Machine

/-! ### One region freed -/

section
variable (s : State) (i : Slot)

theorem State.sendOrders_orders_eq (batch : List Order) :
    (s.sendOrders batch).chan.orders = s.chan.orders ++ [batch].filter fun b => !b.isEmpty := by
  unfold State.sendOrders
  split_ifs with h <;> simp [h]

/-- The DISCARD orders of a region freed with references (R15). -/
def State.freeOrders (s : State) (i : Slot) : List Order :=
  (s.channelsNaming (s.handle i) fun _ => true).map fun c => { channel := c, kind := .discard .retired (s.handle i) }

theorem State.freeRegion_orders_eq : (s.freeRegion i).chan.orders = s.chan.orders ++
    (if (s.region i).refs = 0 then [] else [s.freeOrders i]).filter fun b => !b.isEmpty := by
  rw [State.freeRegion_orders]
  split_ifs with hrefs
  · simp
  · rw [State.sendDiscards, State.sendOrders_orders_eq, ← State.channelsNaming_all]
    rfl

/-- The event that a port with a grant is sent when a region is freed (R14, R15). -/
def State.freedEvent (s : State) (q : Port) (i : Slot) : List Event :=
  if look (s.region i).grants q ≠ .none then [.rightsChanged (s.handle i) .none .freed] else []

theorem State.freedEvents_of (q : Port) :
    (((s.freedEvents i).filter fun e => e.1 = q).map Prod.snd) = s.freedEvent q i := by
  rw [State.freedEvents_eq, List.filter_map, List.map_map, List.filter_filter, State.freedEvent]
  have hfilter : ((indices 4).filter fun x => (decide ((x, Event.rightsChanged (s.handle i) .none .freed).1 = q)) &&
      decide (look (s.region i).grants x ≠ .none)) = if look (s.region i).grants q ≠ .none then [q] else [] := by
    split_ifs with h
    · rw [List.filter_congr (q := fun x => x == q) (fun x _ => by by_cases hx : x = q <;> simp [hx, h])]
      rw [List.filter_beq, indices, List.count_eq_one_of_mem (List.nodup_finRange 4) (List.mem_finRange q)]
      rfl
    · exact List.filter_eq_nil_iff.2 fun x _ hx => by
        simp only [Bool.and_eq_true, decide_eq_true_eq] at hx
        exact h (hx.1 ▸ hx.2)
  exact (congrArg (List.map _) hfilter).trans (by split_ifs <;> rfl)

theorem State.freeRegion_scrub : (s.freeRegion i).scrub = { s.scrub with
    queue := s.scrub.queue ++
      if (s.region i).refs = 0 then [{ slot := i, base := (s.region i).base, length := (s.region i).length }] else [] } := by
  unfold State.freeRegion
  dsimp only
  split_ifs with hrefs
  · simp [State.enterScrubbing]
  · simp

theorem State.freeRegion_link (q : Port) : (s.freeRegion i).link q =
    { s.link q with events := s.eventsAfter q (s.freedEvent q i) } := by
  rw [← State.freedEvents_of]
  unfold State.freeRegion
  dsimp only
  split_ifs with hrefs
  · rw [State.offerEvents_link_eq]
    rfl
  · rw [State.sendDiscards_link, State.offerEvents_link_eq]
    rfl

theorem State.freeRegion_handle (j : Slot) : (s.freeRegion i).handle j = s.handle j := by
  unfold State.handle
  rw [State.freeRegion_region]
  split_ifs with h
  · rw [← h]
    rfl
  · rfl

end

/-! ### Several regions of one port freed -/

/-- What freeing the regions of port `p` in the slots `is` makes of the state. -/
structure State.FreedAll (s : State) (p : Port) (is : List Slot) (t : State) : Prop where
  region : ∀ j, t.region j = if j ∈ is then (s.region j).freed else s.region j
  quota : t.quota p = { s.quota p with
    granules := (s.quota p).granules - ((is.filter fun i => (s.region i).refs = 0).map fun i => (s.region i).length).sum
    regions := (s.quota p).regions - (is.filter fun i => (s.region i).refs = 0).length }
  quotas : ∀ q, q ≠ p → t.quota q = s.quota q
  scrub : t.scrub = { s.scrub with
    queue := s.scrub.queue ++ (is.filter fun i => (s.region i).refs = 0).map fun i =>
      { slot := i, base := (s.region i).base, length := (s.region i).length } }
  orders : t.chan.orders = s.chan.orders ++
    ((is.filter fun i => (s.region i).refs ≠ 0).map s.freeOrders).filter fun b => !b.isEmpty
  link : ∀ q, t.link q = { s.link q with events := s.eventsAfter q (is.flatMap (s.freedEvent q)) }

theorem State.FreedAll.nil (s : State) (p : Port) : s.FreedAll p [] s where
  region _ := rfl
  quota := rfl
  quotas _ _ := rfl
  scrub := by simp
  orders := by simp
  link q := by rw [List.flatMap_nil, State.eventsAfter_nil]

theorem State.FreedAll.cons {s t : State} {p : Port} {i : Slot} {is : List Slot} (hi : i ∉ is) (howner : (s.region i).owner = p)
    (h : (s.freeRegion i).FreedAll p is t) : s.FreedAll p (i :: is) t := by
  have hregion (j : Slot) (hj : j ∈ is) : (s.freeRegion i).region j = s.region j := by
    rw [State.freeRegion_region, if_neg fun heq : i = j => hi (heq ▸ hj)]
  have hfilter : (is.filter fun j => ((s.freeRegion i).region j).refs = 0) = is.filter fun j => (s.region j).refs = 0 :=
    List.filter_congr fun j hj => by rw [hregion j hj]
  have hreferenced : (is.filter fun j => ((s.freeRegion i).region j).refs ≠ 0) = is.filter fun j => (s.region j).refs ≠ 0 :=
    List.filter_congr fun j hj => by rw [hregion j hj]
  have hmem (j : Slot) (hj : j ∈ is.filter fun j => (s.region j).refs = 0) : (s.freeRegion i).region j = s.region j :=
    hregion j (List.mem_filter.1 hj).1
  refine ⟨fun j => ?region, ?quota, fun q hq => ?quotas, ?scrub, ?orders, fun q => ?link⟩
  case region =>
    rw [h.region]
    by_cases hj : j ∈ is
    · rw [if_pos hj, if_pos (List.mem_cons_of_mem i hj), hregion j hj]
    · rw [if_neg hj, State.freeRegion_region]
      by_cases heq : i = j
      · rw [if_pos heq, if_pos (by simp [heq]), heq]
      · rw [if_neg heq, if_neg (by simp [Ne.symm heq, hj])]
  case quota =>
    rw [h.quota, hfilter, List.map_congr_left fun j hj => by rw [hmem j hj], State.freeRegion_quota]
    by_cases hrefs : (s.region i).refs = 0
    · rw [if_pos ⟨hrefs, howner⟩, List.filter_cons_of_pos (by simpa using hrefs)]
      simp only [List.map_cons, List.sum_cons, List.length_cons, Nat.sub_sub, Nat.add_comm 1]
    · rw [if_neg fun hand => hrefs hand.1, List.filter_cons_of_neg (by simpa using hrefs)]
  case quotas => rw [h.quotas q hq, State.freeRegion_quota, if_neg fun hand => hq (hand.2.symm.trans howner)]
  case scrub =>
    rw [h.scrub, hfilter, List.map_congr_left fun j hj => by rw [hmem j hj], State.freeRegion_scrub]
    by_cases hrefs : (s.region i).refs = 0
    · simp [hrefs]
    · simp [hrefs]
  case orders =>
    have horders : (s.freeRegion i).freeOrders = s.freeOrders := funext fun j => by
      simp only [State.freeOrders, State.freeRegion_handle, State.channelsNaming, State.channelsWhere, State.freeRegion_channel]
    rw [h.orders, hreferenced, horders, State.freeRegion_orders_eq]
    by_cases hrefs : (s.region i).refs = 0
    · simp [hrefs]
    · rw [if_neg hrefs, List.filter_cons_of_pos (a := i) (by simpa using hrefs), List.map_cons, List.append_assoc,
        ← List.filter_append]
      rfl
  case link =>
    have hevents : is.flatMap ((s.freeRegion i).freedEvent q) = is.flatMap (s.freedEvent q) :=
      List.flatMap_congr fun j hj => by rw [State.freedEvent, State.freedEvent, hregion j hj, State.freeRegion_handle]
    rw [h.link, hevents, List.flatMap_cons, State.eventsAfter_append s _ q (s.freedEvent q i) _ (by simp)
      (by rw [State.freeRegion_link]), State.freeRegion_link]

theorem State.foldl_freeRegion {p : Port} (is : List Slot) (hnodup : is.Nodup) (s : State)
    (howner : ∀ i ∈ is, (s.region i).owner = p) : s.FreedAll p is (is.foldl State.freeRegion s) := by
  induction is generalizing s with
  | nil => exact .nil s p
  | cons i is ih =>
    obtain ⟨hi, hrest⟩ := List.nodup_cons.1 hnodup
    refine .cons hi (howner i (by simp)) (ih hrest _ fun j hj => ?_)
    rw [State.freeRegion_region, if_neg fun heq : i = j => hi (heq ▸ hj)]
    exact howner j (List.mem_cons_of_mem i hj)

/-! ### The close begun -/

theorem arrange_perm {α : Type} [DecidableEq α] (order : List α) {affected : List α} (h : affected.Nodup) :
    (arrange order affected).Perm affected :=
  (List.perm_ext_iff_of_nodup (arrange_nodup order affected h) h).2 fun x => arrange_mem order affected x

section
variable (s : State) (p : Port) (order : List Slot)

/-- The slots with an offer to port `p`, in the order taken (R52). -/
def State.closeTargeted : List Slot :=
  arrange order ((indices 64).filter fun i => ((s.region i).offer.map fun o => o.target == p).getD false)

/-- The slots of port `p` with an offer, in the order taken (R53). -/
def State.closeOffered : List Slot := arrange order ((indices 64).filter fun i => s.owns p i && (s.region i).offer.isSome)

theorem State.closeTargeted_perm :
    (s.closeTargeted p order).Perm ((indices 64).filter fun i => ∃ o ∈ (s.region i).offer, o.target = p) := by
  refine (arrange_perm order ((List.nodup_finRange 64).filter _)).trans (List.Perm.of_eq (List.filter_congr fun i _ => ?_))
  cases (s.region i).offer <;> simp [beq_eq_decide]

theorem State.closeOffered_perm :
    (s.closeOffered p order).Perm ((indices 64).filter fun i => s.owns p i ∧ (s.region i).offer.isSome) := by
  refine (arrange_perm order ((List.nodup_finRange 64).filter _)).trans (List.Perm.of_eq (List.filter_congr fun i _ => ?_))
  simp

/-- The events of R52 and R53 for one port. -/
theorem State.closeOfferEvents_of (q : Port) : (((s.closeOfferEvents p order).filter fun e => e.1 = q).map Prod.snd) =
    ((s.closeTargeted p order).filter fun i => (s.region i).owner = q).map (fun i => .offerResolved (s.handle i) p .targetClosed) ++
      ((s.closeOffered p order).filter fun i => (s.region i).offer.map Offer.target = some q).map
        fun i => .offerCancelled (s.handle i) p .ownerClosed := by
  have htarget : ((s.closeOffered p order).filter fun i => ((s.region i).offer.map Offer.target).getD 0 = q) =
      (s.closeOffered p order).filter fun i => (s.region i).offer.map Offer.target = some q := by
    refine List.filter_congr fun i hi => ?_
    have hsome : (s.region i).offer.isSome = true := by
      have := (arrange_mem _ _ _).1 hi
      simp only [List.mem_filter, Bool.and_eq_true] at this
      exact this.2.2
    obtain ⟨o, ho⟩ := Option.isSome_iff_exists.1 hsome
    simp [ho]
  rw [← htarget]
  unfold State.closeOfferEvents
  rw [List.filter_append, List.map_append, List.filter_map, List.filter_map, List.map_map, List.map_map]
  rfl

theorem State.closeBegun_orders_eq : (s.closeBegun p order).chan.orders = s.chan.orders ++
    [(s.channelsWhere fun x => x.lessee = some p).map fun c => ({ channel := c, kind := .teardown } : Order)].filter
      fun b => !b.isEmpty := by
  unfold State.closeBegun
  dsimp only
  rw [State.sendOrders_orders_eq]
  simp only [State.mapRegions_chan_orders, State.offerEvents_chan_orders, State.setLink_chan_orders, State.setSession_chan_orders,
    State.channelsWhere, State.mapRegions_channel, State.offerEvents_channel, State.setLink_channel, State.setSession_channel, beq_eq_decide]

theorem State.closeBegun_link_own : (s.closeBegun p order).link p = (s.link p).emptied := by
  unfold State.closeBegun
  dsimp only
  rw [State.sendOrders_link, State.mapRegions_link, State.offerEvents_link_eq, State.eventsAfter, if_neg (by simp)]
  simp

theorem State.closeBegun_link {q : Port} (hq : q ≠ p) : (s.closeBegun p order).link q = { s.link q with
    events := s.eventsAfter q (((s.closeOfferEvents p order).filter fun e => e.1 = q).map Prod.snd) } := by
  unfold State.closeBegun
  dsimp only
  rw [State.sendOrders_link, State.mapRegions_link, State.offerEvents_link_eq]
  simp only [State.eventsAfter, State.setLink_link, State.setLink_session, State.setSession_session, State.setSession_link,
    if_neg (Ne.symm hq)]
  rfl

end

/-! ### The close whole (O11) -/

section
variable (s : State) (p : Port) (order : List Slot)

theorem State.closeFrees_eq : s.closeFrees p = s.freedByClose p := by
  unfold State.closeFrees State.freedByClose
  refine List.filter_congr fun i _ => ?_
  rw [Bool.eq_iff_iff]
  simp [and_assoc, and_left_comm]

theorem State.closeBegun_frees : (s.closeBegun p order).closeFrees p = s.freedByClose p := by
  rw [← State.closeFrees_eq]
  unfold State.closeFrees
  refine List.filter_congr fun i _ => ?_
  rw [State.closeBegun_region]
  rfl

theorem State.closeBegun_handle (i : Slot) : (s.closeBegun p order).handle i = s.handle i := by
  unfold State.handle
  rw [State.closeBegun_region]
  rfl

theorem State.mem_freedByClose (i : Slot) : i ∈ s.freedByClose p ↔
    (s.region i).owner = p ∧ (s.region i).state = .live ∧ (s.region i).pinned = false := by
  simp [State.freedByClose, indices]

/-- The state of a close with the regions freed, before the end of CLOSING is looked at. -/
def State.closeFreed : State := (s.freedByClose p).foldl State.freeRegion (s.closeBegun p order)

theorem State.closeFreed_all : (s.closeBegun p order).FreedAll p (s.freedByClose p) (s.closeFreed p order) :=
  State.foldl_freeRegion _ ((List.nodup_finRange 64).filter _) _ fun i hi => by
    rw [State.closeBegun_region]
    exact ((s.mem_freedByClose p i).1 hi).1

theorem State.closeSession_settled : s.closeSession p order = (s.closeFreed p order).closingSettled p := by
  rw [State.closeSession_eq, State.closeBegun_frees, State.settleClosing_eq]
  rfl

theorem regionAfterClose_eq (r : Region) : regionAfterClose p r =
    if r.owner = p ∧ r.state = .live ∧ r.pinned = false then (closedRegion p r).freed else closedRegion p r := by
  have hclosed : closedRegion p r = { r with
      offer := if (r.owner = p ∧ (r.state = .live ∨ r.state = .retiring)) ∨ (∃ o ∈ r.offer, o.target = p) then none else r.offer
      grants := put r.grants p .none } := by
    unfold closedRegion
    have htarget : (r.offer.map fun o => o.target == p).getD false = true ↔ ∃ o ∈ r.offer, o.target = p := by
      cases r.offer <;> simp
    simp only [Bool.or_eq_true, Bool.and_eq_true, beq_iff_eq, htarget, and_comm]
  unfold regionAfterClose
  rw [hclosed]
  rfl

/-- Any property kept by every step of the frees is kept by a close freed. -/
theorem State.closeFreed_keeps {α : Sort _} (f : State → α) (hfree : ∀ t i, f (State.freeRegion t i) = f t) :
    f (s.closeFreed p order) = f (s.closeBegun p order) := by
  unfold State.closeFreed
  generalize s.closeBegun p order = t
  induction s.freedByClose p generalizing t with
  | nil => rfl
  | cons i is ih => rw [List.foldl_cons, ih, hfree]

end

section
variable (s : State) (p : Port) (order : List Slot)

theorem State.closeSession_freed : s.closeSession p order = (s.closeFreed p order).settleClosing p := by
  rw [State.closeSession_settled, State.settleClosing_eq]

theorem State.closeSession_session : (s.closeSession p order).session p =
    if ((s.closeSession p order).quota p).channels = 0 ∧
      ∀ i, ¬ (((s.closeSession p order).region i).state = .retiring ∧ ((s.closeSession p order).region i).owner = p)
    then .closed else .closing := by
  have hclosing : (s.closeFreed p order).session p = .closing := by
    rw [State.closeFreed_keeps s p order (fun t => t.session p) fun t i => State.freeRegion_session t i p, State.closeBegun_session,
      if_pos rfl]
  rw [State.closeSession_freed]
  simp only [State.settleClosing_quota, State.settleClosing_region]
  rw [State.settleClosing_eq, State.closingSettled]
  split_ifs with hall hrest hrest
  · simp
  · exact absurd hall.2 hrest
  · exact absurd ⟨hclosing, hrest⟩ hall
  · exact hclosing

theorem State.closeSession_session_other {q : Port} (hq : q ≠ p) : (s.closeSession p order).session q = s.session q := by
  have hfreed : (s.closeFreed p order).session q = s.session q := by
    rw [State.closeFreed_keeps s p order (fun t => t.session q) fun t i => State.freeRegion_session t i q, State.closeBegun_session,
      if_neg (Ne.symm hq)]
  rw [State.closeSession_settled, State.closingSettled]
  split_ifs
  · rw [State.setSession_session, if_neg (Ne.symm hq), hfreed]
  · exact hfreed

theorem State.closeFreed_region (i : Slot) : (s.closeFreed p order).region i = regionAfterClose p (s.region i) := by
  rw [(s.closeFreed_all p order).region, State.closeBegun_region, regionAfterClose_eq]
  simp only [State.mem_freedByClose]

/-- The frees of a close look at records whose grants and offers alone have changed. -/
theorem State.closeBegun_same (i : Slot) : ((s.closeBegun p order).region i).refs = (s.region i).refs ∧
    ((s.closeBegun p order).region i).base = (s.region i).base ∧ ((s.closeBegun p order).region i).length = (s.region i).length := by
  rw [State.closeBegun_region]
  exact ⟨rfl, rfl, rfl⟩

theorem State.closeBegun_freeOrders (i : Slot) : (s.closeBegun p order).freeOrders i =
    (s.channelsNaming (s.handle i) fun _ => true).map fun c => { channel := c, kind := .discard .retired (s.handle i) } := by
  simp only [State.freeOrders, State.closeBegun_handle, State.channelsNaming, State.channelsWhere, State.closeBegun_channel]

theorem State.closeBegun_freedEvent (q : Port) (i : Slot) : (s.closeBegun p order).freedEvent q i =
    if q ≠ p ∧ look (s.region i).grants q ≠ .none then [.rightsChanged (s.handle i) .none .freed] else [] := by
  unfold State.freedEvent
  rw [State.closeBegun_region, State.closeBegun_handle]
  simp only [closedRegion, look_put]
  by_cases hq : p = q
  · rw [if_pos hq, if_neg (by simp), if_neg (fun h => h.1 hq.symm)]
  · simp only [if_neg hq, Ne.symm hq, ne_eq, not_false_eq_true, true_and]

theorem State.closeFreed_link_own : (s.closeFreed p order).link p = (s.link p).emptied := by
  have hnone : (s.freedByClose p).flatMap ((s.closeBegun p order).freedEvent p) = [] :=
    List.flatMap_eq_nil_iff.2 fun i _ => by rw [State.closeBegun_freedEvent, if_neg fun h => h.1 rfl]
  rw [(s.closeFreed_all p order).link, hnone, State.eventsAfter_nil, State.closeBegun_link_own]

theorem State.closeFreed_link {q : Port} (hq : q ≠ p) : (s.closeFreed p order).link q = { s.link q with
    events := s.eventsAfter q
      (((s.closeOfferEvents p order).filter fun e => e.1 = q).map Prod.snd ++
        ((s.freedByClose p).filter fun i => look (s.region i).grants q ≠ .none).map
          fun i => .rightsChanged (s.handle i) .none .freed) } := by
  have hevents : (s.freedByClose p).flatMap ((s.closeBegun p order).freedEvent q) =
      ((s.freedByClose p).filter fun i => look (s.region i).grants q ≠ .none).map
        fun i => .rightsChanged (s.handle i) .none .freed := by
    rw [← flatMap_ite]
    refine List.flatMap_congr fun i _ => ?_
    rw [State.closeBegun_freedEvent]
    simp only [hq, ne_eq, not_false_eq_true, true_and, decide_eq_true_eq]
  rw [(s.closeFreed_all p order).link, hevents, State.eventsAfter_append s _ q _ _
    (by rw [State.closeBegun_session, if_neg (Ne.symm hq)]) (by rw [State.closeBegun_link s p order hq]),
    State.closeBegun_link s p order hq]

theorem State.closeSession_closedBy : ClosedBy s (s.closeSession p order) p := by
  have hall := s.closeFreed_all p order
  have hrefs : ((s.freedByClose p).filter fun i => ((s.closeBegun p order).region i).refs = 0) =
      (s.freedByClose p).filter fun i => (s.region i).refs = 0 := by
    simp only [(s.closeBegun_same p order _).1]
  refine ⟨?pins, ?engine, ?mem, ?pending, ?granules, ?quotaMode, ?expiryDue, ?channels, ⟨?halts, ?edges⟩,
    s.closeSession_session p order, fun q => s.closeSession_session_other p order, fun i => ?regions, ?quota, fun q hq => ?quotas,
    ?scrub, ?orders, ?link, ⟨s.closeTargeted p order, s.closeOffered p order, s.closeTargeted_perm p order,
      s.closeOffered_perm p order, fun q hq => ?links⟩⟩
  case pins =>
    rw [State.closeSession_freed, State.settleClosing_pins, State.closeFreed_keeps s p order _ State.freeRegion_pins,
      State.closeBegun_pins]
  case engine =>
    rw [State.closeSession_freed, State.settleClosing_engine, State.closeFreed_keeps s p order _ State.freeRegion_engine,
      State.closeBegun_engine]
  case mem =>
    rw [State.closeSession_freed, State.settleClosing_mem, State.closeFreed_keeps s p order _ State.freeRegion_mem]
    simp [State.closeBegun]
  case pending =>
    rw [State.closeSession_freed, State.settleClosing_pending, State.closeFreed_keeps s p order _ State.freeRegion_pending]
    simp [State.closeBegun]
  case granules =>
    rw [State.closeSession_freed, State.settleClosing_table_granules,
      State.closeFreed_keeps s p order (fun t => t.table.granules) State.freeRegion_table_granules, State.closeBegun_granules]
  case quotaMode =>
    rw [State.closeSession_freed, State.settleClosing_table_quotaMode,
      State.closeFreed_keeps s p order (fun t => t.table.quotaMode) State.freeRegion_table_quotaMode, State.closeBegun_quotaMode]
  case expiryDue =>
    rw [State.closeSession_freed, State.settleClosing_table_expiryDue,
      State.closeFreed_keeps s p order (fun t => t.table.expiryDue) State.freeRegion_table_expiryDue]
    simp [State.closeBegun]
  case channels =>
    rw [State.closeSession_freed, State.settleClosing_chan_channels,
      State.closeFreed_keeps s p order (fun t => t.chan.channels) State.freeRegion_chan_channels]
    simp [State.closeBegun]
  case halts =>
    rw [State.closeSession_freed, State.settleClosing_chan_haltClaims,
      State.closeFreed_keeps s p order (fun t => t.chan.haltClaims) State.freeRegion_chan_haltClaims]
    simp [State.closeBegun]
  case edges =>
    rw [State.closeSession_freed, State.settleClosing_chan_edgeClaims,
      State.closeFreed_keeps s p order (fun t => t.chan.edgeClaims) State.freeRegion_chan_edgeClaims]
    simp [State.closeBegun]
  case regions => rw [State.closeSession_freed, State.settleClosing_region, State.closeFreed_region]
  case quota =>
    rw [State.closeSession_freed, State.settleClosing_quota, hall.quota, hrefs, State.closeBegun_quota]
    simp only [(s.closeBegun_same p order _).2.2]
  case quotas => rw [State.closeSession_freed, State.settleClosing_quota, hall.quotas q hq, State.closeBegun_quota]
  case scrub =>
    rw [State.closeSession_freed, State.settleClosing_scrub, hall.scrub, hrefs, State.closeBegun_scrub]
    simp only [(s.closeBegun_same p order _).2]
  case orders =>
    have hfreeOrders : (s.closeBegun p order).freeOrders = fun i =>
        (s.channelsNaming (s.handle i) fun _ => true).map fun c => { channel := c, kind := .discard .retired (s.handle i) } :=
      funext fun i => s.closeBegun_freeOrders p order i
    rw [State.closeSession_freed, State.settleClosing_chan_orders, hall.orders, State.closeBegun_orders_eq, hfreeOrders,
      List.append_assoc, ← List.filter_append]
    simp only [(s.closeBegun_same p order _).1]
    rfl
  case link => rw [State.closeSession_freed, State.settleClosing_link, State.closeFreed_link_own]; rfl
  case links =>
    rw [State.closeSession_freed, State.settleClosing_link, State.closeFreed_link s p order hq, State.closeOfferEvents_of]

theorem State.closeSession_pointer : (s.closeSession p order).table.pointer = s.table.pointer := by
  rw [State.closeSession_freed, State.settleClosing_table_pointer,
    State.closeFreed_keeps s p order (fun t => t.table.pointer) State.freeRegion_table_pointer]
  simp [State.closeBegun]

theorem State.closeSession_notices : (s.closeSession p order).table.notices = s.table.notices := by
  rw [State.closeSession_freed, State.settleClosing_table_notices,
    State.closeFreed_keeps s p order (fun t => t.table.notices) State.freeRegion_table_notices, State.closeBegun_notices]

end

/-- The head record of a port that closes counts no more: its queue is emptied. -/
theorem ClosedBy.of_popCommand {s t : State} {p : Port} (h : ClosedBy (s.popCommand p) t p) : ClosedBy s t p where
  pins := h.pins
  engine := h.engine
  mem := h.mem
  pending := h.pending
  granules := h.granules
  quotaMode := h.quotaMode
  expiryDue := h.expiryDue
  channels := h.channels
  claims := h.claims
  session := h.session
  sessions := h.sessions
  regions := h.regions
  quota := h.quota
  quotas := h.quotas
  scrub := h.scrub
  orders := h.orders
  link := by rw [h.link, State.popCommand_link, if_pos rfl]
  links := by
    obtain ⟨targeted, owned, htargeted, howned, hlinks⟩ := h.links
    refine ⟨targeted, owned, htargeted, howned, fun q hq => ?_⟩
    have hlink : (s.popCommand p).link q = s.link q := by rw [State.popCommand_link, if_neg (Ne.symm hq)]
    rw [hlinks q hq]
    simp only [State.eventsAfter, hlink]
    rfl

theorem ClosedBy.of_setNotices {s t : State} {p : Port} {ns : List Notice} (h : ClosedBy (s.setNotices ns) t p) : ClosedBy s t p where
  pins := h.pins
  engine := h.engine
  mem := h.mem
  pending := h.pending
  granules := h.granules
  quotaMode := h.quotaMode
  expiryDue := h.expiryDue
  channels := h.channels
  claims := h.claims
  session := h.session
  sessions := h.sessions
  regions := h.regions
  quota := h.quota
  quotas := h.quotas
  scrub := h.scrub
  orders := h.orders
  link := h.link
  links := h.links

section
variable {s : State} {p : Port} {order : List Slot}

theorem exec_closeSession {tag : Byte} (h : s.servesOpen p 0x02 tag []) :
    exec (.closeSession p order) s = .next ((s.popCommand p).closeSession p order) := by
  rw [exec, execCloseSession]
  exact State.command_of_servesOpen h rfl _

theorem exec_clearNotice {rest : List Notice} (hn : s.table.notices = .clear p :: rest) (haccess : s.accessPending = false) :
    exec (.clearNotice order) s =
      if s.session p = .opened then .next ((s.setNotices rest).closeSession p order) else .next (s.setNotices rest) := by
  rw [exec, execClearNotice, State.nextNotice_of hn haccess]
  rfl

end

/-- Settles O11: both rows carry out one close, on the hub with the record or the notice taken. -/
theorem sessionCloseEffect : Obligations.SessionCloseEffect := by
  unfold Obligations.SessionCloseEffect
  refine ⟨fun s p i => ?owns, fun s p order tag h => ?close, fun s p order rest hn haccess => ⟨fun hopen => ?clear, fun hopen => ?idle⟩⟩
  case owns => simp [State.owns]
  case close =>
    exact ⟨_, exec_closeSession h, ((s.popCommand p).closeSession_closedBy p order).of_popCommand,
      (s.popCommand p).closeSession_pointer p order, (s.popCommand p).closeSession_notices p order⟩
  case clear =>
    exact ⟨_, (exec_clearNotice hn haccess).trans (if_pos hopen), ((s.setNotices rest).closeSession_closedBy p order).of_setNotices,
      (s.setNotices rest).closeSession_pointer p order, (s.setNotices rest).closeSession_notices p order⟩
  case idle => exact (exec_clearNotice hn haccess).trans (if_neg hopen)

end Sys2Proof.Machine
end

section
/-! PROOF of O7 (whose turn it is), O6 (the checks of a record at its turn), O10 (OPEN), O8 and O9 (what every taking leaves). -/

set_option Elab.async false

namespace Sys2Proof.Machine

/-! ### Whose turn it is (O7) -/

theorem portsAfter_eq (pointer : Port) : portsAfter pointer = (indices 4).map fun k => pointer + 1 + k := by
  revert pointer
  decide

/-- The first port behind the pointer that meets a condition (R160). -/
theorem portsAfter_find (pointer : Port) (f : Port → Bool) (p : Port) :
    (portsAfter pointer).find? f = some p ↔
      f p = true ∧ ∀ q, f q = true → (p - pointer - 1).val ≤ (q - pointer - 1).val := by
  have place (q : Port) : pointer + 1 + (q - pointer - 1) = q := by abel
  rw [portsAfter_eq, List.find?_map, Option.map_eq_some_iff]
  constructor
  · rintro ⟨k, hk, rfl⟩
    obtain ⟨hf, hlow⟩ := (find?_indices_iff _ k).1 hk
    refine ⟨hf, fun q hq => ?_⟩
    have hself : pointer + 1 + k - pointer - 1 = k := by abel
    rw [hself]
    exact hlow _ (by rw [Function.comp_apply, place]; exact hq)
  · rintro ⟨hf, hlow⟩
    refine ⟨p - pointer - 1, (find?_indices_iff _ _).2 ⟨by rw [Function.comp_apply, place]; exact hf, fun k hk => ?_⟩, place p⟩
    have hself : pointer + 1 + k - pointer - 1 = k := by abel
    have := hlow _ hk
    rwa [hself] at this

section
variable {s : State}

theorem State.accessPending_iff (s : State) : s.accessPending = true ↔ ∃ q, ∃ w ∈ (s.link q).window, w.admitted = true := by
  unfold State.accessPending
  rw [List.any_eq_true]
  refine ⟨fun ⟨q, _, hq⟩ => ⟨q, ?_⟩, fun ⟨q, w, hw, hadmitted⟩ => ⟨q, List.mem_finRange q, ?_⟩⟩
  · cases hw : (s.link q).window with
    | none => simp [hw] at hq
    | some w => exact ⟨w, rfl, by simpa [hw] using hq⟩
  · rw [Option.mem_def] at hw
    simpa [hw] using hadmitted

theorem State.eligible_iff (s : State) (p : Port) :
    s.eligible p = true ↔ (s.link p).commands ≠ [] ∧ (s.link p).results.length < 8 := by
  unfold State.eligible Config.resultRoom
  simp only [Bool.and_eq_true, Bool.not_eq_true', List.isEmpty_eq_false_iff, decide_eq_true_eq]

theorem State.commandTurn_iff (s : State) (p : Port) : s.commandTurn = some p ↔
    s.table.notices = [] ∧ s.accessPending = false ∧ s.eligible p = true ∧
      ∀ q, s.eligible q = true → (p - s.table.pointer - 1).val ≤ (q - s.table.pointer - 1).val := by
  unfold State.commandTurn
  split_ifs with hbusy
  · simp only [Bool.or_eq_true, Bool.not_eq_true', List.isEmpty_eq_false_iff] at hbusy
    refine ⟨nofun, fun ⟨hnotices, haccess, _⟩ => ?_⟩
    rcases hbusy with h | h
    · rw [haccess] at h
      cases h
    · exact absurd hnotices h
  · have hidle : s.accessPending = false ∧ s.table.notices = [] := by simpa using hbusy
    rw [portsAfter_find]
    simp [hidle.1, hidle.2]

/-- With an admitted access pending no notice is taken; nor is one that is not the row's own at the head. -/
theorem State.nextNotice_none_or (mine : Notice → Prop)
    (h : s.accessPending = true ∨ ∀ n ∈ s.table.notices.head?, ¬ mine n) :
    s.nextNotice = none ∨ ∃ n t, s.nextNotice = some (n, t) ∧ ¬ mine n := by
  unfold State.nextNotice
  cases hn : s.table.notices with
  | nil => exact .inl rfl
  | cons n rest =>
    by_cases haccess : s.accessPending = true
    · exact .inl (if_pos haccess)
    · exact .inr ⟨n, _, if_neg haccess, h.resolve_left haccess n (by rw [hn]; rfl)⟩

end

/-- Settles O7: the turn is the search behind the pointer, and a row reads nothing but that turn or the oldest notice. -/
theorem turnsFollowThePointer : Obligations.TurnsFollowThePointer := by
  unfold Obligations.TurnsFollowThePointer
  refine ⟨fun s p => ?turn, fun s c p op n hrow hnone => ?row, State.accessPending_iff, fun s order => ?notices⟩
  case turn =>
    have haccess : s.accessPending = false ↔ ∀ q, ∀ w ∈ (s.link q).window, w.admitted = false := by
      rw [← Bool.not_eq_true, State.accessPending_iff]
      simp
    rw [State.commandTurn_iff, haccess]
    simp only [State.eligible_iff, and_imp]
  case row =>
    obtain ⟨body, hexec⟩ := exec_commandRow_taking (s := s) hrow
    rw [hexec]
    refine State.taking_of_not (fun r hr => ?_) body
    rcases hnone r hr with h | h <;> simp [h]
  case notices =>
    intro keeps
    have idle (row : Instr) (mine : Notice → Prop) (hrow : s.nextNotice = none → exec row s = .next s)
        (hother : ∀ n t, s.nextNotice = some (n, t) → ¬ mine n → exec row s = .next s) : keeps row mine := fun h => by
      rw [← State.accessPending_iff] at h
      rcases State.nextNotice_none_or mine h with hnone | ⟨n, t, hsome, hmine⟩
      · exact hrow hnone
      · exact hother n t hsome hmine
    refine ⟨idle _ _ (fun h => ?_) (fun n t h hmine => ?_), idle _ _ (fun h => ?_) (fun n t h hmine => ?_),
      idle _ _ (fun h => ?_) (fun n t h hmine => ?_), idle _ _ (fun h => ?_) (fun n t h hmine => ?_),
      idle _ _ (fun h => ?_) (fun n t h hmine => ?_)⟩
    · rw [exec, execReferenceRelease, h]
    · rw [exec, execReferenceRelease, h]
      cases n with
      | referenceRelease => exact absurd ⟨_, rfl⟩ hmine
      | _ => rfl
    · rw [exec, execLeaseEnd, h]
    · rw [exec, execLeaseEnd, h]
      cases n with
      | leaseEnd => exact absurd ⟨_, _, rfl⟩ hmine
      | _ => rfl
    · rw [exec, execScrubDone, h]
    · rw [exec, execScrubDone, h]
      cases n with
      | scrubDone => exact absurd ⟨_, rfl⟩ hmine
      | _ => rfl
    · rw [exec, execOfferExpiry, h]
    · rw [exec, execOfferExpiry, h]
      cases n with
      | offerExpiry => exact absurd ⟨_, rfl⟩ hmine
      | _ => rfl
    · rw [exec, execClearNotice, h]
    · rw [exec, execClearNotice, h]
      cases n with
      | clear => exact absurd ⟨_, rfl⟩ hmine
      | _ => rfl

/-! ### The checks of a record at its turn (O6) -/

section
variable {s : State} {p : Port} {r : CommandRecord}

theorem State.taking_refused (h : s.serves p r) {mine : CommandRecord → Bool} (hmine : mine r = true)
    {body : CommandRecord → State → State × Option Reply} {code : ResultCode}
    (hbody : body r (s.popCommand p) = (s.popCommand p).refuse code) :
    s.taking p mine body = .next (s.served p r.opcode r.tag code []) := by
  rw [State.taking_of_serves h hmine, hbody]
  simp only [State.refuse, State.popCommand_answer]

theorem State.taking_accepted (h : s.serves p r) {mine : CommandRecord → Bool} (hmine : mine r = true)
    {body : CommandRecord → State → State × Option Reply} {t : State} {payload : List Byte}
    (hbody : body r (s.popCommand p) = (t.popCommand p).accepted payload) :
    s.taking p mine body = .next (t.served p r.opcode r.tag .ok payload) := by
  rw [State.taking_of_serves h hmine, hbody]
  simp only [State.accepted, State.popCommand_answer]

theorem exec_badOpcode (h : s.serves p r) (hclosing : s.session p ≠ .closing) (hop : r.opcode = 0 ∨ 0x1C ≤ r.opcode.toNat) :
    exec (.badOpcode p) s = .next (s.served p r.opcode r.tag .badOpcode []) := by
  have hnone : namesCommand r.opcode = false := by
    unfold namesCommand
    rcases hop with hzero | hhigh
    · rw [hzero]
      rfl
    · have : ¬ r.opcode.toNat ≤ 27 := by omega
      simp [this]
  rw [exec, execBadOpcode]
  exact State.taking_refused h (by simp [hnone, hclosing]) rfl

/-- The argument length and the session of a command's record, for every opcode but OPEN's (R135, R159). -/
theorem State.command_length {op : Byte} {n : Nat} (h : s.serves p r) (hop : r.opcode = op) (hclosing : s.session p ≠ .closing)
    (hlength : r.args.length ≠ n) (body : List Byte → State → State × Option Reply) :
    s.command p op n body = .next (s.served p op r.tag .badArg []) := by
  subst hop
  exact State.taking_refused h (by simp [hclosing]) (if_pos hlength)

theorem State.command_notOpen {op : Byte} {n : Nat} (h : s.serves p r) (hop : r.opcode = op) (hclosed : s.session p = .closed)
    (hlength : r.args.length = n) (body : List Byte → State → State × Option Reply) :
    s.command p op n body = .next (s.served p op r.tag .notOpen []) := by
  subst hop
  refine State.taking_refused h (by simp [hclosed]) ((if_neg (not_not.2 hlength)).trans (if_pos ?_))
  simp [hclosed]

theorem exec_openSession_length (h : s.serves p r) (hop : r.opcode = 0x01) (hclosing : s.session p ≠ .closing)
    (hlength : r.args.length ≠ 0) : exec (.openSession p) s = .next (s.served p 0x01 r.tag .badArg []) := by
  rw [← hop, exec, execOpenSession]
  exact State.taking_refused h (by simp [hop, hclosing]) (if_pos hlength)

theorem exec_openSession_alreadyOpen (h : s.serves p r) (hop : r.opcode = 0x01) (hopen : s.session p = .opened)
    (hlength : r.args.length = 0) : exec (.openSession p) s = .next (s.served p 0x01 r.tag .alreadyOpen []) := by
  rw [← hop, exec, execOpenSession]
  refine State.taking_refused h (by simp [hop, hopen]) ((if_neg (not_not.2 hlength)).trans (if_pos ?_))
  simp [hopen]

end

/-- Settles O6: OPEN has the session check of its own, every other command that of `State.command`. -/
theorem recordAndSessionChecks : Obligations.RecordAndSessionChecks := by
  unfold Obligations.RecordAndSessionChecks
  refine ⟨fun s p r h hclosing hop => exec_badOpcode h hclosing hop, fun s c p op n r hrow h hop hclosing => ?_⟩
  by_cases hopen : op = 0x01
  · subst hopen
    obtain ⟨rfl, rfl⟩ := commandRow_open hrow
    exact ⟨exec_openSession_length h hop hclosing, fun _ hne => absurd rfl hne,
      fun hlength _ hsession => exec_openSession_alreadyOpen h hop hsession hlength⟩
  · obtain ⟨body, hexec⟩ := exec_commandRow (s := s) hrow hopen
    rw [hexec]
    exact ⟨fun hlength => State.command_length h hop hclosing hlength body,
      fun hlength _ hclosed => State.command_notOpen h hop hclosed hlength body, fun _ heq => absurd heq hopen⟩

/-! ### OPEN (O10) -/

section
variable {s : State} {p : Port} {tag : Byte} (h : s.serves p { opcode := 0x01, tag, args := [] }) (hclosed : s.session p = .closed)
include h hclosed

theorem exec_openSession_held (hlow : look s.pins.clr p = .low) :
    exec (.openSession p) s = .next (s.served p 0x01 tag .notOpen []) := by
  rw [exec, execOpenSession]
  refine State.taking_refused h (by simp [hclosed]) ?_
  refine (if_neg (by simp)).trans ((if_neg (by simp [hclosed])).trans (if_pos ?_))
  simp [State.heldClosed, hlow]

theorem exec_openSession_ok (hhigh : look s.pins.clr p = .high) : exec (.openSession p) s =
    .next (((s.setSession p .opened).setLink p { s.link p with settings := NotifySettings.default }).served p 0x01 tag .ok
      [portByte p, s.table.quotaMode.code, Config.revision, byteOf (s.pinnedCount p)]) := by
  rw [exec, execOpenSession]
  refine State.taking_accepted h (by simp [hclosed]) ?_
  refine (if_neg (by simp)).trans ((if_neg (by simp [hclosed])).trans ((if_neg ?_).trans ?_))
  · simp [State.heldClosed, hhigh]
  · rw [State.popCommand_setSession, ← State.popCommand_setLink_same]
    simp only [State.popCommand_link, if_true, State.setSession_link]
    rfl

end

/-- Settles O10: both levels of CLRk. -/
theorem openEffect : Obligations.OpenEffect := by
  unfold Obligations.OpenEffect
  refine fun s p tag h hclosed => ⟨exec_openSession_held h hclosed, fun hhigh => ?_⟩
  rw [exec_openSession_ok h hclosed hhigh]
  have hmode : s.table.quotaMode.code = if s.table.quotaMode = .openMode then 0 else 1 := by cases s.table.quotaMode <;> rfl
  have hcount : byteOf (s.pinnedCount p) = BitVec.ofNat 8 ((indices 64).filter fun i =>
      (s.region i).state = .live ∧ (s.region i).owner = p ∧ (s.region i).pinned = true).length := by
    refine congrArg (fun l : List Slot => BitVec.ofNat 8 l.length) (List.filter_congr fun i _ => ?_)
    rw [Bool.eq_iff_iff]
    simp [and_assoc]
  rw [hmode, hcount]
  rfl

end Sys2Proof.Machine
end

section
/-! PROOF of O8 and O9: every command body answers once. It refuses on the hub as it stands (a channel command behind the orders too),
or it accepts and leaves the command and result queues and the port pointer alone. -/

set_option Elab.async false

namespace Sys2Proof.Machine

/-! ### What an accepted command leaves alone -/

/-- The port pointer and the queues of the links, but for their events, stand as before. -/
structure SameQueues (s t : State) : Prop where
  pointer : t.table.pointer = s.table.pointer
  commands : ∀ q, (t.link q).commands = (s.link q).commands
  results : ∀ q, (t.link q).results = (s.link q).results

section
variable {s t u : State}

theorem SameQueues.refl (s : State) : SameQueues s s := ⟨rfl, fun _ => rfl, fun _ => rfl⟩

theorem SameQueues.trans (h : SameQueues s t) (h' : SameQueues t u) : SameQueues s u :=
  ⟨h'.pointer.trans h.pointer, fun q => (h'.commands q).trans (h.commands q), fun q => (h'.results q).trans (h.results q)⟩

theorem SameQueues.of_links (hpointer : t.table.pointer = s.table.pointer) (hlinks : ∀ q, t.link q = s.link q) : SameQueues s t :=
  ⟨hpointer, fun q => by rw [hlinks q], fun q => by rw [hlinks q]⟩

theorem SameQueues.of_events (hpointer : t.table.pointer = s.table.pointer)
    (hlinks : ∀ q, ∃ es, t.link q = { s.link q with events := es }) : SameQueues s t := by
  refine ⟨hpointer, fun q => ?_, fun q => ?_⟩
  all_goals
    obtain ⟨es, hes⟩ := hlinks q
    rw [hes]

variable (s)

theorem SameQueues.offerEvents (es : List (Port × Event)) : SameQueues s (s.offerEvents es) :=
  .of_events (by simp) fun q => ⟨_, s.offerEvents_link_eq es q⟩

theorem SameQueues.offerEvent (p : Port) (e : Event) : SameQueues s (s.offerEvent p e) := .offerEvents s [(p, e)]

theorem SameQueues.sendDiscards (k : DiscardCause) (h : Handle) (f : Channel → Bool) : SameQueues s (s.sendDiscards k h f) :=
  .of_links (by simp) (by simp)

theorem SameQueues.setGrant (i : Slot) (q : Port) (x : Rights) : SameQueues s (s.setGrant i q x) :=
  .of_links (by simp [State.setGrant]) (by simp [State.setGrant])

theorem SameQueues.freeRegion (i : Slot) : SameQueues s (s.freeRegion i) := .of_events (by simp) fun q => ⟨_, s.freeRegion_link i q⟩

theorem SameQueues.commit (c : Chan) (e : Effect) : SameQueues s (s.commit c e) :=
  .of_events (by simp) fun q => ⟨_, s.commit_link_eq c e q⟩

theorem SameQueues.drainOrders : SameQueues s s.drainOrders := .of_events (by simp) s.drainOrders_link

theorem SameQueues.settings (p : Port) (x : NotifySettings) : SameQueues s (s.setLink p { s.link p with settings := x }) := by
  refine ⟨rfl, fun q => ?_, fun q => ?_⟩
  all_goals
    rw [State.setLink_link]
    split_ifs with h
    · rw [h]
    · rfl

theorem SameQueues.install (c : Chan) (g : Program) (i j : Slot) : SameQueues s (s.install c g i j) := by
  refine .of_links ?_ (s.install_link c g i j)
  have hreference (t : State) (h : Handle) : (t.dropReference h).table.pointer = t.table.pointer := by
    unfold State.dropReference
    cases h.slot? <;> rfl
  have hprogram (t : State) (old : Option Program) : (t.dropProgram old).table.pointer = t.table.pointer := by
    cases old with
    | none => rfl
    | some g => exact (hreference _ _).trans (hreference _ _)
  exact hprogram _ _

end

/-! ### A command answers -/

/-- What a command body does on the hub `t`: it refuses, it refuses behind the orders, where the command is a channel's, or it accepts. -/
inductive Answers (channel : Prop) (t : State) : State × Option Reply → Prop
  | refused (code : ResultCode) : Answers channel t (t.refuse code)
  | refusedBehind (code : ResultCode) (h : channel) : Answers channel t (t.drainOrders.refuse code)
  | accepted {u : State} (payload : List Byte) (h : SameQueues t u) : Answers channel t (u.accepted payload)

/-- What a command row makes of a body's answer. -/
def finishTaking (p : Port) (r : CommandRecord) : State × Option Reply → Res
  | (u, none) => .next u
  | (u, some y) => .next (u.answer p r y)

/-- Every taking of a record by the row is answered. -/
def AnswersOnce (channel : Prop) (p : Port) (op : Byte) (row : State → Res) : Prop :=
  ∀ (s : State) (r : CommandRecord), s.serves p r → r.opcode = op → s.session p ≠ .closing →
    ∃ x, Answers channel (s.popCommand p) x ∧ row s = finishTaking p r x

section
variable {channel : Prop} {p : Port} {op : Byte} {n : Nat}

theorem AnswersOnce.of_taking {mine : State → CommandRecord → Bool} {body : CommandRecord → State → State × Option Reply}
    (hmine : ∀ s r, r.opcode = op → s.session p ≠ .closing → mine s r = true) (hbody : ∀ r t, Answers channel t (body r t)) :
    AnswersOnce channel p op fun s => s.taking p (mine s) body := fun s r hserves hop hclosing => by
  refine ⟨_, hbody r (s.popCommand p), ?_⟩
  dsimp only
  rw [State.taking_of_serves hserves (hmine s r hop hclosing)]
  rfl

theorem AnswersOnce.of_command {body : List Byte → State → State × Option Reply} (hbody : ∀ args t, Answers channel t (body args t)) :
    AnswersOnce channel p op fun s => s.command p op n body := by
  refine .of_taking (mine := fun s r => r.opcode == op && decide (s.session p ≠ .closing)) (fun s r hop hclosing => by simp [hop, hclosing])
    fun r t => ?_
  split_ifs
  · exact .refused _
  · exact .refused _
  · exact hbody r.args t

/-- A lessee's command: its own checks and its effect stand behind the orders. -/
theorem AnswersOnce.of_lesseeCommand {body : List Byte → Chan → State → State × Option Reply}
    (hbody : ∀ args c t, (∃ code, body args c t = t.refuse code) ∨ ∃ u payload, SameQueues t u ∧ body args c t = u.accepted payload) :
    AnswersOnce True p op fun s => s.lesseeCommand p op n body := by
  refine .of_command fun args t => ?_
  split
  · exact .refused _
  · next c _ =>
    dsimp only
    split_ifs
    · exact .refusedBehind _ trivial
    · rcases hbody args c t.drainOrders with ⟨code, hcode⟩ | ⟨u, payload, hsame, haccepted⟩
      · rw [hcode]
        exact .refusedBehind _ trivial
      · rw [haccepted]
        exact .accepted _ ((SameQueues.drainOrders t).trans hsame)

end

/-! ### The rows (sections 11.4) -/

section
variable (p : Port)

theorem AnswersOnce.openSession : AnswersOnce False p 0x01 (execOpenSession p) := by
  unfold execOpenSession
  refine .of_taking (mine := fun s r => r.opcode == 0x01 && decide (s.session p ≠ .closing))
    (fun s r hop hclosing => by simp [hop, hclosing]) fun r t => ?_
  split_ifs
  · exact .refused _
  · exact .refused _
  · exact .refused _
  · exact .accepted _ ((SameQueues.of_links rfl fun _ => rfl : SameQueues t (t.setSession p .opened)).trans
      (.settings (t.setSession p .opened) p _))

theorem AnswersOnce.setNotify : AnswersOnce False p 0x03 (execSetNotify p) := by
  unfold execSetNotify
  refine .of_command fun args t => ?_
  split
  · exact .accepted _ (.settings t p _)
  · exact .refused _

theorem AnswersOnce.badOpcode {op : Byte} (hop : op = 0 ∨ 0x1C ≤ op.toNat) : AnswersOnce False p op (execBadOpcode p) := by
  intro s r hserves hopcode hclosing
  subst hopcode
  exact ⟨_, .refused .badOpcode, (exec_badOpcode hserves hclosing hop).trans (by simp [finishTaking, State.refuse, State.popCommand_answer])⟩

theorem AnswersOnce.allocate : AnswersOnce False p 0x04 (execAllocate p) := by
  unfold execAllocate
  refine .of_command fun args t => ?_
  dsimp only
  split
  · exact .refused _
  split
  · exact .refused _
  split
  · exact .refused _
  split
  · exact .refused _
  · exact .accepted _ (.of_links rfl fun _ => rfl)

theorem AnswersOnce.free : AnswersOnce False p 0x05 (execFree p) := by
  unfold execFree
  refine .of_command fun args t => ?_
  split
  · exact .refused _
  split_ifs
  · exact .refused _
  · exact .refused _
  · exact .accepted _ (.freeRegion t _)

theorem State.setPinned_answers (t : State) (h : Handle) (pinned : Bool) : Answers False t (t.setPinned p h pinned) := by
  unfold State.setPinned
  split
  · exact .refused _
  · exact .accepted _ (.of_links rfl fun _ => rfl)

theorem AnswersOnce.pin : AnswersOnce False p 0x06 (execPin p) := by
  unfold execPin
  exact .of_command fun args t => State.setPinned_answers p t _ true

theorem AnswersOnce.unpin : AnswersOnce False p 0x07 (execUnpin p) := by
  unfold execUnpin
  exact .of_command fun args t => State.setPinned_answers p t _ false

theorem AnswersOnce.label : AnswersOnce False p 0x08 (execLabel p) := by
  unfold execLabel
  refine .of_command fun args t => ?_
  split
  · exact .refused _
  · exact .accepted _ (.of_links rfl fun _ => rfl)

theorem AnswersOnce.find : AnswersOnce False p 0x09 (execFind p) := by
  unfold execFind
  refine .of_command fun args t => ?_
  dsimp only
  split_ifs
  · exact .refused _
  split
  · exact .refused _
  · exact .accepted _ (.refl t)

theorem AnswersOnce.queryRegion : AnswersOnce False p 0x0A (execQueryRegion p) := by
  unfold execQueryRegion
  refine .of_command fun args t => ?_
  split
  · exact .refused _
  · exact .accepted _ (.refl t)

theorem AnswersOnce.querySpace : AnswersOnce False p 0x0B (execQuerySpace p) := by
  unfold execQuerySpace
  exact .of_command fun args t => .accepted _ (.refl t)

theorem AnswersOnce.grant : AnswersOnce False p 0x0C (execGrant p) := by
  unfold execGrant
  refine .of_command fun args t => ?_
  split
  · exact .refused _
  split
  · split_ifs
    · exact .refused _
    · exact .accepted _ ((SameQueues.setGrant t _ _ _).trans (.offerEvents _ _))
  · exact .refused _

theorem AnswersOnce.renounce : AnswersOnce False p 0x0D (execRenounce p) := by
  unfold execRenounce
  refine .of_command fun args t => ?_
  split
  · exact .refused _
  split_ifs
  · exact .refused _
  · exact .refused _
  · exact .accepted _ (.setGrant t _ _ _)

theorem AnswersOnce.offer : AnswersOnce False p 0x0E (execOffer p) := by
  unfold execOffer
  refine .of_command fun args t => ?_
  split
  · exact .refused _
  dsimp only
  split
  · exact .refused _
  split
  · exact .refused _
  split_ifs
  · exact .refused _
  · exact .refused _
  · exact .accepted _ ((SameQueues.of_links rfl fun _ => rfl : SameQueues t (t.setRegion _ _)).trans (.offerEvent _ _ _))

theorem AnswersOnce.withdraw : AnswersOnce False p 0x0F (execWithdraw p) := by
  unfold execWithdraw
  refine .of_command fun args t => ?_
  split
  · exact .refused _
  split
  · exact .refused _
  split
  · exact .refused _
  split_ifs
  · exact .refused _
  · exact .accepted _ ((SameQueues.of_links rfl fun _ => rfl : SameQueues t (t.clearOffer _)).trans (.offerEvent _ _ _))

theorem AnswersOnce.accept : AnswersOnce False p 0x10 (execAccept p) := by
  unfold execAccept
  refine .of_command fun args t => ?_
  split
  · exact .refused _
  dsimp only
  split_ifs
  · exact .refused _
  · exact .accepted _ (((SameQueues.of_links rfl fun _ => rfl : SameQueues t ((t.setRegion _ _).moveQuota _ _ _)).trans
      (.offerEvent _ _ _)).trans (.sendDiscards _ _ _ _))

theorem AnswersOnce.decline : AnswersOnce False p 0x11 (execDecline p) := by
  unfold execDecline
  refine .of_command fun args t => ?_
  split
  · exact .refused _
  · exact .accepted _ ((SameQueues.of_links rfl fun _ => rfl : SameQueues t (t.clearOffer _)).trans (.offerEvent _ _ _))

theorem State.leaseChannel_answers (t : State) (wanted : Option Chan) : Answers True t (t.drainOrders.leaseChannel p wanted) := by
  unfold State.leaseChannel
  split
  · exact .refusedBehind _ trivial
  split_ifs
  · exact .refusedBehind _ trivial
  · exact .accepted _ ((SameQueues.drainOrders t).trans (.of_links rfl fun _ => rfl))

theorem AnswersOnce.lease : AnswersOnce True p 0x12 (execLease p) := by
  unfold execLease
  refine .of_command fun args t => ?_
  split_ifs
  · exact State.leaseChannel_answers p t none
  split
  · exact .refused _
  · exact State.leaseChannel_answers p t _

theorem AnswersOnce.release : AnswersOnce True p 0x13 (execRelease p) := by
  unfold execRelease
  refine .of_lesseeCommand fun args c t => ?_
  dsimp only
  split_ifs
  · exact .inl ⟨_, rfl⟩
  · exact .inl ⟨_, rfl⟩
  · refine .inr ⟨_, _, ?_, rfl⟩
    exact .of_links rfl fun _ => rfl

theorem AnswersOnce.program : AnswersOnce True p 0x14 (execProgram p) := by
  unfold execProgram
  refine .of_lesseeCommand fun args c t => ?_
  dsimp only
  split_ifs
  · exact .inl ⟨_, rfl⟩
  · exact .inl ⟨_, rfl⟩
  split
  · exact .inl ⟨_, rfl⟩
  split
  · exact .inl ⟨_, rfl⟩
  · exact .inr ⟨_, _, .install t _ _ _ _, rfl⟩

theorem AnswersOnce.arm : AnswersOnce True p 0x15 (execArm p) := by
  unfold execArm
  refine .of_lesseeCommand fun args c t => ?_
  dsimp only
  split
  · exact .inl ⟨_, rfl⟩
  split_ifs
  · exact .inl ⟨_, rfl⟩
  · exact .inl ⟨_, rfl⟩
  · refine .inr ⟨_, _, ?_, rfl⟩
    exact .of_links rfl fun _ => rfl

theorem AnswersOnce.disarm : AnswersOnce True p 0x16 (execDisarm p) := by
  unfold execDisarm
  refine .of_lesseeCommand fun args c t => ?_
  dsimp only
  split_ifs
  · exact .inl ⟨_, rfl⟩
  · exact .inl ⟨_, rfl⟩
  · exact .inr ⟨_, _, .commit t _ _, rfl⟩

theorem AnswersOnce.suspend : AnswersOnce True p 0x17 (execSuspend p) := by
  unfold execSuspend
  refine .of_lesseeCommand fun args c t => ?_
  dsimp only
  split_ifs
  · exact .inl ⟨_, rfl⟩
  · exact .inl ⟨_, rfl⟩
  · exact .inr ⟨_, _, .commit t _ _, rfl⟩

theorem AnswersOnce.resume : AnswersOnce True p 0x18 (execResume p) := by
  unfold execResume
  refine .of_lesseeCommand fun args c t => ?_
  dsimp only
  split_ifs
  · exact .inl ⟨_, rfl⟩
  · exact .inl ⟨_, rfl⟩
  · refine .inr ⟨_, _, ?_, rfl⟩
    exact .of_links rfl fun _ => rfl

theorem AnswersOnce.trigger : AnswersOnce True p 0x19 (execTrigger p) := by
  unfold execTrigger
  refine .of_lesseeCommand fun args c t => ?_
  dsimp only
  split_ifs
  · exact .inl ⟨_, rfl⟩
  · exact .inr ⟨_, _, .commit t _ _, rfl⟩

theorem AnswersOnce.queryChannel : AnswersOnce True p 0x1A (execQueryChannel p) := by
  unfold execQueryChannel
  refine .of_command fun args t => ?_
  split
  · exact .refused _
  · exact .accepted _ (.drainOrders t)

theorem AnswersOnce.listChannels : AnswersOnce True p 0x1B (execListChannels p) := by
  unfold execListChannels
  exact .of_command fun args t => .accepted _ (.drainOrders t)

end

/-! ### One result for every taking (O8), and none of it in a refusal (O9) -/

section
variable {s : State} {p : Port} {r : CommandRecord}

/-- What a row that answers leaves: one result record more for its own port, and the queues else as the taking left them. -/
theorem Answers.finished {channel : Prop} {x : State × Option Reply} (h : Answers channel (s.popCommand p) x) :
    ∃ u y, finishTaking p r x = .next (u.answer p r y) ∧ SameQueues (s.popCommand p) u ∧
      ((y.code ≠ .ok → y.payload = []) ∧
        (y.code ≠ .ok → u = s.popCommand p ∨ channel ∧ u = s.drainOrders.popCommand p)) := by
  cases h with
  | refused code => exact ⟨_, _, rfl, .refl _, fun _ => rfl, fun _ => .inl rfl⟩
  | refusedBehind code hchannel =>
    exact ⟨_, _, rfl, .drainOrders _, fun _ => rfl, fun _ => .inr ⟨hchannel, State.popCommand_drainOrders s p⟩⟩
  | accepted payload h => exact ⟨_, _, rfl, h, fun hne => absurd rfl hne, fun hne => absurd rfl hne⟩

end

/-- Every command row but CLOSE answers once. -/
theorem AnswersOnce.row {c : Instr} {p : Port} {op : Byte} {n : Nat} (hrow : commandRow c = some (p, op, n)) (hclose : op ≠ 0x02) :
    AnswersOnce (0x12 ≤ op.toNat ∧ op.toNat ≤ 0x1B) p op (exec c) := by
  have region {op : Byte} {row : State → Res} (h : AnswersOnce False p op row) :
      AnswersOnce (0x12 ≤ op.toNat ∧ op.toNat ≤ 0x1B) p op row := fun s r hserves hop hclosing => by
    obtain ⟨x, hx, hexec⟩ := h s r hserves hop hclosing
    cases hx with
    | refused code => exact ⟨_, .refused code, hexec⟩
    | accepted payload h => exact ⟨_, .accepted payload h, hexec⟩
    | refusedBehind code h => exact h.elim
  have channel {op : Byte} {row : State → Res} (hop : 0x12 ≤ op.toNat ∧ op.toNat ≤ 0x1B) (h : AnswersOnce True p op row) :
      AnswersOnce (0x12 ≤ op.toNat ∧ op.toNat ≤ 0x1B) p op row := by
    rwa [eq_true hop]
  cases c <;> simp only [commandRow, Option.some.injEq, Prod.mk.injEq, reduceCtorEq] at hrow <;> obtain ⟨rfl, rfl, rfl⟩ := hrow
  case openSession => exact region (.openSession _)
  case closeSession => exact absurd rfl hclose
  case setNotify => exact region (.setNotify _)
  case allocate => exact region (.allocate _)
  case free => exact region (.free _)
  case pin => exact region (.pin _)
  case unpin => exact region (.unpin _)
  case label => exact region (.label _)
  case find => exact region (.find _)
  case queryRegion => exact region (.queryRegion _)
  case querySpace => exact region (.querySpace _)
  case grant => exact region (.grant _)
  case renounce => exact region (.renounce _)
  case offer => exact region (.offer _)
  case withdraw => exact region (.withdraw _)
  case accept => exact region (.accept _)
  case decline => exact region (.decline _)
  case lease => exact channel (by decide) (.lease _)
  case release => exact channel (by decide) (.release _)
  case program => exact channel (by decide) (.program _)
  case arm => exact channel (by decide) (.arm _)
  case disarm => exact channel (by decide) (.disarm _)
  case suspend => exact channel (by decide) (.suspend _)
  case resume => exact channel (by decide) (.resume _)
  case trigger => exact channel (by decide) (.trigger _)
  case queryChannel => exact channel (by decide) (.queryChannel _)
  case listChannels => exact channel (by decide) (.listChannels _)

/-- The result record that an answer writes. -/
def CommandRecord.result (r : CommandRecord) (y : Reply) : ResultRecord :=
  { opcode := r.opcode, tag := r.tag, code := y.code, payload := y.payload }

section
variable {s u : State} {p : Port} {r : CommandRecord} {y : Reply}

theorem SameQueues.answered_results (h : SameQueues (s.popCommand p) u) :
    ((u.answer p r y).link p).results = (s.link p).results ++ [r.result y] := by
  rw [State.answer_link, if_pos rfl]
  dsimp only
  rw [h.results p, State.popCommand_link, if_pos rfl]
  rfl

/-- What an answered taking leaves of the queues (R158, R163, R178). -/
theorem SameQueues.answered (h : SameQueues (s.popCommand p) u) (hpayload : y.code ≠ .ok → y.payload = []) :
    let t := u.answer p r y
    t.table.pointer = p ∧
      (∀ q, q ≠ p → (t.link q).commands = (s.link q).commands ∧ (t.link q).results = (s.link q).results) ∧
      (t.link p).commands = (s.link p).commands.tail ∧
        ∃ x : ResultRecord, (t.link p).results = (s.link p).results ++ [x] ∧ x.opcode = r.opcode ∧ x.tag = r.tag ∧
          (x.code ≠ .ok → x.payload = []) := by
  refine ⟨h.pointer, fun q hq => ?_, ?_, r.result y, h.answered_results, rfl, rfl, hpayload⟩
  · rw [State.answer_link, if_neg (Ne.symm hq), h.commands q, h.results q, State.popCommand_link, if_neg (Ne.symm hq)]
    exact ⟨rfl, rfl⟩
  · rw [State.answer_link, if_pos rfl]
    dsimp only
    rw [h.commands p, State.popCommand_link, if_pos rfl]

end

/-- A CLOSE that does not begin a close is refused for its length or its session. -/
theorem exec_closeSession_refused {s : State} {p : Port} {order : List Slot} {r : CommandRecord} (h : s.serves p r)
    (hop : r.opcode = 0x02) (hclosing : s.session p ≠ .closing) (hnot : ¬ (r.args = [] ∧ s.session p = .opened)) :
    ∃ code, exec (.closeSession p order) s = .next (s.served p 0x02 r.tag code []) := by
  rw [exec, execCloseSession]
  by_cases hlength : r.args.length = 0
  · refine ⟨.notOpen, State.command_notOpen h hop ?_ hlength _⟩
    cases hsession : s.session p with
    | closed => rfl
    | opened => exact absurd ⟨List.length_eq_zero_iff.1 hlength, hsession⟩ hnot
    | closing => exact absurd hsession hclosing
  · exact ⟨.badArg, State.command_length h hop hclosing hlength _⟩

theorem commandRow_close {c : Instr} {p : Port} {n : Nat} (h : commandRow c = some (p, 0x02, n)) :
    ∃ order, c = .closeSession p order := by
  cases c <;> simp [commandRow] at h
  exact ⟨_, by rw [h.1]⟩

/-- Settles O9: a body refuses on the hub it is given, or on that hub behind the orders. -/
theorem refusedCommandsChangeNothing : Obligations.RefusedCommandsChangeNothing := by
  unfold Obligations.RefusedCommandsChangeNothing
  intro s t c p op n r x hrow hserves hop hclosing hexec hresult hcode
  subst hop
  by_cases hclose : r.opcode = 0x02
  · obtain ⟨order, rfl⟩ := commandRow_close (hclose ▸ hrow)
    by_cases hbegins : r.args = [] ∧ s.session p = .opened
    · rw [exec_closeSession (tag := r.tag) ⟨by rw [← hclose, ← hbegins.1]; exact hserves, hbegins.2⟩] at hexec
      obtain rfl := Host.Outcome.next.inj hexec
      rw [((s.popCommand p).closeSession_closedBy p order).link] at hresult
      simp at hresult
    · obtain ⟨code, hrefused⟩ := exec_closeSession_refused (order := order) hserves hclose hclosing hbegins
      rw [hrefused] at hexec
      obtain rfl := Host.Outcome.next.inj hexec
      rw [State.served_link, if_pos rfl] at hresult
      obtain rfl : _ = x := by simpa using hresult
      exact .inl (by rw [hclose])
  · obtain ⟨_, hanswers, hrun⟩ := AnswersOnce.row hrow hclose s r hserves rfl hclosing
    obtain ⟨u, y, hfinish, hsame, hpayload, hrefused⟩ := hanswers.finished (r := r)
    rw [hrun, hfinish] at hexec
    obtain rfl := Host.Outcome.next.inj hexec
    rw [hsame.answered_results] at hresult
    obtain rfl : r.result y = x := by simpa using hresult
    rcases hrefused hcode with rfl | ⟨hchannel, rfl⟩
    · exact .inl (by rw [State.popCommand_answer, hpayload hcode]; rfl)
    · exact .inr ⟨hchannel.1, hchannel.2, by rw [State.popCommand_answer, hpayload hcode]; rfl⟩

/-- Settles O8: the close apart, an answer for every row. -/
theorem everyTakingWritesOneResult : Obligations.EveryTakingWritesOneResult := by
  unfold Obligations.EveryTakingWritesOneResult
  intro s t c p op n r hrow hserves hop hclosing hexec
  have answered {row : State → Res} {channel : Prop} (h : AnswersOnce channel p op row) (hrun : row s = .next t) :
      ∃ u y, t = u.answer p r y ∧ SameQueues (s.popCommand p) u ∧ (y.code ≠ .ok → y.payload = []) := by
    obtain ⟨_, hanswers, hfinishes⟩ := h s r hserves hop hclosing
    obtain ⟨u, y, hfinish, hsame, hpayload, -⟩ := hanswers.finished (r := r)
    rw [hfinishes, hfinish] at hrun
    obtain rfl := Host.Outcome.next.inj hrun
    exact ⟨u, y, rfl, hsame, hpayload⟩
  by_cases hclose : op = 0x02
  · obtain hrow | ⟨-, hbad, rfl⟩ := hrow
    · subst hclose
      obtain ⟨order, rfl⟩ := commandRow_close hrow
      by_cases hbegins : r.args = [] ∧ s.session p = .opened
      · rw [exec_closeSession (tag := r.tag) ⟨by rw [← hop, ← hbegins.1]; exact hserves, hbegins.2⟩] at hexec
        obtain rfl := Host.Outcome.next.inj hexec
        obtain ⟨_, _, _, _, hlinks⟩ := ((s.popCommand p).closeSession_closedBy p order).links
        refine ⟨(s.popCommand p).closeSession_pointer p order, fun q hq => ?_, ?_⟩
        · rw [hlinks q hq, State.popCommand_link, if_neg (Ne.symm hq)]
          exact ⟨rfl, rfl⟩
        · rw [if_pos ⟨rfl, hbegins⟩, ((s.popCommand p).closeSession_closedBy p order).link]
          exact ⟨rfl, rfl⟩
      · obtain ⟨code, hrefused⟩ := exec_closeSession_refused (order := order) hserves hop hclosing hbegins
        rw [hrefused] at hexec
        obtain rfl := Host.Outcome.next.inj hexec
        rw [if_neg fun h => hbegins h.2]
        have h := (SameQueues.refl (s.popCommand p)).answered (r := r) (y := { code, payload := [] }) fun _ => rfl
        rw [State.popCommand_answer, hop] at h
        rw [hop]
        exact h
    · rw [hclose] at hbad
      simp at hbad
  · rw [if_neg fun h => hclose h.1]
    obtain ⟨u, y, rfl, hsame, hpayload⟩ : ∃ u y, t = u.answer p r y ∧ SameQueues (s.popCommand p) u ∧ (y.code ≠ .ok → y.payload = []) := by
      rcases hrow with hrow | ⟨rfl, hbad, rfl⟩
      · exact answered (.row hrow hclose) hexec
      · exact answered (.badOpcode p hbad) hexec
    exact hsame.answered hpayload

end Sys2Proof.Machine
end

section
/-! PROOF of O28, O29 and O31: which program a 28-byte record spells, field by field, that what QUERY_CHANNEL sends of a program spells
that program, and what the two channel queries carry. -/

set_option Elab.async false

namespace Sys2Proof.Machine

/-! ### The program a record spells (section 11.5) -/

/-- Each field of a program is read from its own bytes of the record, within the ranges of R66 and R67. -/
structure Spells (r : List Byte) (g : Program) : Prop where
  mode : modeOf r = some g.mode
  unit : unitOf (byteAt r 2) = some g.unit
  cls : (byteAt r 3).toNat = g.cls.val
  source : sideOf r 4 = some g.source
  dest : sideOf r 10 = some g.dest
  count : tripleAt r 16 = g.count
  low : 1 ≤ g.count
  high : g.count ≤ 65536
  notify : notifyOf (byteAt r 26) = g.notify
  chain : chainOf (byteAt r 27) = some g.chain
  cyclic : g.mode.isCyclic = true → g.chain = none

theorem programOf_iff (r : List Byte) (g : Program) : programOf r = some g ↔ Spells r g := by
  constructor
  · intro h
    unfold programOf at h
    split at h
    · next mode unit source dest chain hmode hunit hsource hdest hchain =>
      split_ifs at h with hcls hcount
      cases h
      obtain ⟨hlow, hhigh, hcyclic⟩ := hcount
      refine ⟨hmode, hunit, rfl, hsource, hdest, rfl, hlow, hhigh, rfl, hchain, fun hm => ?_⟩
      simpa [hm] using hcyclic
    · cases h
  · rintro ⟨hmode, hunit, hcls, hsource, hdest, hcount, hlow, hhigh, hnotify, hchain, hcyclic⟩
    have hlt : (byteAt r 3).toNat < 4 := by rw [hcls]; exact g.cls.isLt
    have hchained : (!(g.mode.isCyclic && g.chain.isSome)) = true := by
      cases hm : g.mode.isCyclic with
      | false => rfl
      | true => rw [hcyclic hm]; rfl
    unfold programOf
    simp only [hmode, hunit, hsource, hdest, hchain]
    rw [dif_pos hlt, if_pos ⟨by omega, by omega, hchained⟩, hnotify, hcount]
    have : (⟨(byteAt r 3).toNat, hlt⟩ : PriorityClass) = g.cls := Fin.ext hcls
    rw [this]

theorem tripleAt_eq (r : List Byte) (k : Nat) :
    tripleAt r k = (byteAt r k).toNat * 65536 + (byteAt r (k + 1)).toNat * 256 + (byteAt r (k + 2)).toNat :=
  (Nat.add_assoc _ _ _).symm

/-- Settles O28: a record spells a program when each of its fields reads. -/
theorem programRecordChecks : Obligations.ProgramRecordChecks := by
  unfold Obligations.ProgramRecordChecks
  intro r _ byte paced count blockLength
  have hpaced : (∃ x, pacedOf r = some x) ↔ paced := pacedOf_ex r
  have hmode := modeOf_ex r
  rw [hpaced] at hmode
  have hunit := unitOf_ex (byteAt r 2)
  have hsource := sideOf_ex r 4
  have hdest := sideOf_ex r 10
  have hchain := chainOf_ex (byteAt r 27)
  rw [tripleAt_eq] at hsource hdest
  have hcount := tripleAt_eq r 16
  constructor
  · rintro ⟨g, hg⟩
    have h := (programOf_iff r g).1 hg
    obtain ⟨hkind, hpace, hsweep, hblock⟩ := hmode.1 ⟨_, h.mode⟩
    obtain ⟨hstep, hstart⟩ := hsource.1 ⟨_, h.source⟩
    obtain ⟨hstep', hstart'⟩ := hdest.1 ⟨_, h.dest⟩
    have hcls : (byteAt r 3).toNat ≤ 3 := by rw [h.cls]; omega
    have hlow := h.count ▸ h.low
    have hhigh := h.count ▸ h.high
    rw [hcount] at hlow hhigh
    refine ⟨hkind, hpace, hsweep, hblock, hunit.1 ⟨_, h.unit⟩, hcls, hstep, hstep', hstart, hstart', hlow, hhigh,
      hchain.1 ⟨_, h.chain⟩, fun hcyclic => ?_⟩
    rw [← chainOf_none]
    exact h.cyclic ((modeOf_cyclic h.mode).2 hcyclic) ▸ h.chain
  · rintro ⟨hkind, hpace, hsweep, hblock, hu, hcls, hstep, hstep', hstart, hstart', hlow, hhigh, hc, hcyclic⟩
    obtain ⟨mode, hm⟩ := hmode.2 ⟨hkind, hpace, hsweep, hblock⟩
    obtain ⟨unit, hu⟩ := hunit.2 hu
    obtain ⟨source, hs⟩ := hsource.2 ⟨hstep, hstart⟩
    obtain ⟨dest, hd⟩ := hdest.2 ⟨hstep', hstart'⟩
    obtain ⟨chain, hch⟩ := hchain.2 hc
    refine ⟨{ mode, unit, cls := ⟨(byteAt r 3).toNat, Nat.lt_succ_of_le hcls⟩, source, dest, count := tripleAt r 16,
              notify := notifyOf (byteAt r 26), chain },
      (programOf_iff r _).2 ⟨hm, hu, rfl, hs, hd, rfl, hcount ▸ hlow, hcount ▸ hhigh, rfl, hch, fun hcyc => ?_⟩⟩
    have hnone := (chainOf_none (byteAt r 27)).2 (hcyclic ((modeOf_cyclic hm).1 hcyc))
    rw [hch] at hnone
    exact Option.some.inj hnone

/-! ### What a program is written as (O29) -/

theorem bytes3_value {n : Nat} (h : n < 16777216) :
    (byteOf (n / 65536)).toNat * 65536 + (byteOf (n / 256)).toNat * 256 + (byteOf n).toNat = n := by
  simp only [byteOf_toNat]
  omega

theorem bytes2_value {n : Nat} (h : n < 65536) : (byteOf (n / 256)).toNat * 256 + (byteOf n).toNat = n := by
  simp only [byteOf_toNat]
  omega

theorem Mode.blockBytes_eq (m : Mode) : ∃ b0 b1 b2, m.blockBytes = [b0, b1, b2] := by cases m <;> exact ⟨_, _, _, rfl⟩

theorem Mode.pacedBytes_eq (m : Mode) : ∃ a l v o, m.pacedBytes = [a, l, v, o] := by
  cases m with
  | sweep x => exact ⟨_, _, _, _, rfl⟩
  | single a o => cases a <;> exact ⟨_, _, _, _, rfl⟩
  | cyclic a o => cases a <;> exact ⟨_, _, _, _, rfl⟩
  | block a o b side => cases a <;> exact ⟨_, _, _, _, rfl⟩

/-- The 28 bytes of a program's record, each at its place. -/
theorem Program.encode_eq (g : Program) {b0 b1 b2 a l v o : Byte} (hblock : g.mode.blockBytes = [b0, b1, b2])
    (hpaced : g.mode.pacedBytes = [a, l, v, o]) : g.encode =
    [g.mode.code, g.mode.pacingByte, byteOf g.unit.bytes, byteOf g.cls.val,
      g.source.handle.gen, g.source.handle.slot, byteOf (g.source.start / 65536), byteOf (g.source.start / 256), byteOf g.source.start,
      g.source.step.code,
      g.dest.handle.gen, g.dest.handle.slot, byteOf (g.dest.start / 65536), byteOf (g.dest.start / 256), byteOf g.dest.start,
      g.dest.step.code, byteOf (g.count / 65536), byteOf (g.count / 256), byteOf g.count, b0, b1, b2, a, l, v, o,
      flagByte [g.notify.done, g.notify.wrap, g.notify.stop], (g.chain.map chanByte).getD 0xFF] := by
  unfold Program.encode
  rw [hblock, hpaced]
  rfl

section
variable {r : List Byte}

theorem modeOf_single (h : byteAt r 0 = 0) : modeOf r = (pacedOf r).map fun x => .single x.1 x.2 := by rw [modeOf_eq, h]; rfl

theorem modeOf_paced (h : byteAt r 0 = 1) : modeOf r = (pacedOf r).map fun x => .cyclic x.1 x.2 := by rw [modeOf_eq, h]; rfl

theorem modeOf_sweep (h : byteAt r 0 = 3) : modeOf r = (pacingOf (byteAt r 1)).map fun x => .sweep x := by rw [modeOf_eq, h]; rfl

theorem modeOf_block_eq (h : byteAt r 0 = 2) : modeOf r = (pacedOf r).bind fun x => (blockSideOf (byteAt r 21)).bind fun side =>
    if 1 ≤ wordAt r 19 ∧ wordAt r 19 ≤ 256 then some (.block x.1 x.2 (wordAt r 19) side) else none := by
  rw [modeOf_eq, h]
  cases pacedOf r <;> cases blockSideOf (byteAt r 21) <;> rfl

end

/-- The mode reads back from its own bytes. -/
theorem modeOf_of_bytes {r : List Byte} {m : Mode} (hranged : ∀ a o b side, m = .block a o b side → 1 ≤ b ∧ b ≤ 256)
    (hcode : byteAt r 0 = m.code) (hpacing : byteAt r 1 = m.pacingByte)
    (hblock : m.blockBytes = [byteAt r 19, byteAt r 20, byteAt r 21])
    (hpaced : m.pacedBytes = [byteAt r 22, byteAt r 23, byteAt r 24, byteAt r 25]) : modeOf r = some m := by
  have paced {a : Activation} {o : Policy} (h : (match a with
      | .soft => [0, 0xFF, 0xFF, o.code]
      | .line l v => [1, byteOf l.val, v.code, o.code]) = [byteAt r 22, byteAt r 23, byteAt r 24, byteAt r 25]) :
      pacedOf r = some (a, o) := by
    unfold pacedOf
    cases a with
    | soft =>
      injection h with h22 h
      injection h with h23 h
      injection h with h24 h
      injection h with h25
      rw [← h22, ← h23, ← h24, ← h25, policyOf_code]
      rfl
    | line l v =>
      injection h with h22 h
      injection h with h23 h
      injection h with h24 h
      injection h with h25
      rw [← h22, ← h23, ← h24, ← h25, policyOf_code, activationOf_line]
  cases m with
  | single a o => rw [modeOf_single hcode, paced (a := a) (o := o) (by cases a <;> exact hpaced)]; rfl
  | cyclic a o => rw [modeOf_paced hcode, paced (a := a) (o := o) (by cases a <;> exact hpaced)]; rfl
  | sweep v =>
    rw [modeOf_sweep hcode, hpacing]
    exact congrArg (Option.map Mode.sweep) (pacingOf_code v)
  | block a o b side =>
    obtain ⟨hlow, hhigh⟩ := hranged a o b side rfl
    injection hblock with h19 h
    injection h with h20 h
    injection h with h21
    have hlength : wordAt r 19 = b := by
      unfold wordAt
      rw [← h19, ← h20]
      exact bytes2_value (by omega)
    rw [modeOf_block_eq hcode, paced (a := a) (o := o) (by cases a <;> exact hpaced), ← h21, blockSideOf_code]
    simp only [hlength, Option.bind_some]
    rw [if_pos ⟨hlow, hhigh⟩]

theorem sideOf_of_bytes {r : List Byte} {k : Nat} {x : Side} (hstart : x.start ≤ 262143) (hgen : byteAt r k = x.handle.gen)
    (hslot : byteAt r (k + 1) = x.handle.slot) (h2 : byteAt r (k + 2) = byteOf (x.start / 65536))
    (h1 : byteAt r (k + 3) = byteOf (x.start / 256)) (h0 : byteAt r (k + 4) = byteOf x.start)
    (hstep : byteAt r (k + 5) = x.step.code) : sideOf r k = some x := by
  have hvalue : tripleAt r (k + 2) = x.start := by
    rw [tripleAt_eq, h2, h1, h0]
    exact bytes3_value (by omega)
  unfold sideOf
  rw [hstep, stepOf_code]
  simp only [hvalue]
  rw [if_pos (show x.start < memoryBytes from Nat.lt_succ_of_le hstart), handleAt, hgen, hslot]

theorem chainOf_encoded (chain : Option Chan) : chainOf ((chain.map chanByte).getD 0xFF) = some chain := by
  cases chain with
  | none => rfl
  | some c => exact chainOf_chan c

/-- Settles O29: each field reads back from where it was written. -/
theorem programRecordRoundTrip : Obligations.ProgramRecordRoundTrip := by
  unfold Obligations.ProgramRecordRoundTrip
  intro g ⟨hlow, hhigh, hblockRange⟩ hsource hdest hcyclic
  obtain ⟨b0, b1, b2, hblock⟩ := g.mode.blockBytes_eq
  obtain ⟨a, l, v, o, hpaced⟩ := g.mode.pacedBytes_eq
  rw [g.encode_eq hblock hpaced]
  refine ⟨rfl, (programOf_iff _ g).2 ?_⟩
  have hranged (a : Activation) (o : Policy) (b : Nat) (side : BlockSide) (hmode : g.mode = .block a o b side) : 1 ≤ b ∧ b ≤ 256 := by
    rw [hmode] at hblockRange
    exact hblockRange
  refine ⟨modeOf_of_bytes hranged rfl rfl hblock hpaced, unitOf_bytes g.unit, ?_, sideOf_of_bytes hsource rfl rfl rfl rfl rfl rfl,
    sideOf_of_bytes hdest rfl rfl rfl rfl rfl rfl, ?_, hlow, hhigh, notifyOf_flag g.notify, chainOf_encoded g.chain, fun hc => ?_⟩
  · exact (byteOf_toNat _).trans (Nat.mod_eq_of_lt (by omega))
  · exact (tripleAt_eq _ 16).trans (bytes3_value (by omega))
  · cases hmode : g.mode with
    | cyclic a o => exact hcyclic a o hmode
    | _ => rw [hmode] at hc; cases hc

/-! ### QUERY_CHANNEL and LIST_CHANNELS (O31) -/

/-- The weight of a flag in a byte of flags. -/
def flagBit (f : Bool) : Nat := if f then 1 else 0

theorem flagByte_three (a b c : Bool) : flagByte [a, b, c] = BitVec.ofNat 8 (flagBit a + 2 * flagBit b + 4 * flagBit c) := by
  revert a b c
  decide

theorem flagByte_four (a b c d : Bool) :
    flagByte [a, b, c, d] = BitVec.ofNat 8 (flagBit a + 2 * flagBit b + 4 * flagBit c + 8 * flagBit d) := by
  revert a b c d
  decide

/-- Two bytes for each entry of a list: where those of one entry stand. -/
theorem pairs_getElem? {α : Type} (a b : α → Byte) (l : List α) (k : Nat) :
    (l.flatMap fun x => [a x, b x])[2 * k]? = (l[k]?).map a ∧ (l.flatMap fun x => [a x, b x])[2 * k + 1]? = (l[k]?).map b := by
  induction l generalizing k with
  | nil => simp
  | cons x l ih =>
    cases k with
    | zero => exact ⟨rfl, rfl⟩
    | succ k => exact ih k

theorem pairs_length {α : Type} (a b : α → Byte) (l : List α) : (l.flatMap fun x => [a x, b x]).length = 2 * l.length := by
  induction l with
  | nil => rfl
  | cons x l ih => rw [List.flatMap_cons, List.length_append, ih]; simp; omega

section
variable {s : State} {p : Port} {tag : Byte}

theorem exec_queryChannel {b : Byte} {c : Chan} (h : s.servesOpen p 0x1A tag [b]) (hb : b.toNat = c.val) :
    exec (.queryChannel p) s = .next (s.drainOrders.served p 0x1A tag .ok (s.drainOrders.channel c).encode) := by
  rw [exec, execQueryChannel]
  refine State.command_accepted h rfl ?_
  simp only [byteAt_zero, chanOf_some hb, State.popCommand_drainOrders, State.popCommand_channel, State.accepted]

theorem exec_listChannels (h : s.servesOpen p 0x1B tag []) :
    exec (.listChannels p) s = .next (s.drainOrders.served p 0x1B tag .ok ((indices 16).flatMap fun c =>
      [(s.drainOrders.channel c).state.code, ((s.drainOrders.channel c).lessee.map portByte).getD 0xFF])) := by
  rw [exec, execListChannels]
  refine State.command_accepted h rfl ?_
  simp only [State.popCommand_drainOrders, State.popCommand_channel, State.accepted]

end

/-- Settles O31: the 48 bytes of a channel, the 28 of its program, and the sixteen pairs. -/
theorem channelQueries : Obligations.ChannelQueries := by
  unfold Obligations.ChannelQueries
  refine ⟨fun s p tag b c h hb => ?channel, fun g => ?program, fun s p tag h => ?list⟩
  case channel =>
    intro u x bit
    rw [exec_queryChannel h hb]
    refine congrArg (fun bs => Host.Outcome.next (u.served p 0x1A tag .ok bs)) ?_
    refine congrArg₂ (· ++ ·) (congrArg₂ (· ++ ·) (congrArg₂ (· ++ ·) (congrArg (_ ++ [·]) ?flags) rfl) ?request) ?last
    case flags => exact flagByte_four _ _ _ _
    case request =>
      cases x.recorded with
      | none => rfl
      | some q =>
        cases q with
        | suspend cause => cases cause <;> rfl
        | abort cause => cases cause <;> rfl
        | discard cause => cases cause <;> rfl
        | teardown => rfl
    case last =>
      refine congrArg (fun b => [x.outcome.code, b]) ?_
      cases x.suspension with
      | none => rfl
      | some cause => cases cause <;> rfl
  case program =>
    intro byte bit three side paced absent head tail unit
    have hside (x : Side) : x.encode = side x := by
      refine congrArg (handleBytes x.handle ++ bytes3 x.start ++ [·]) ?_
      cases x.step <;> rfl
    have hpaced (m : Mode) (a : Activation) (o : Policy) (ha : m.activation = some a) (ho : m.policy = some o) :
        m.pacedBytes = paced a o := by
      have hcode : o.code = if o = .merge then 0 else 1 := by cases o <;> rfl
      unfold Mode.pacedBytes
      rw [ha, ho]
      cases a with
      | soft => exact congrArg ([0, 0xFF, 0xFF, ·]) hcode
      | line l v => cases v <;> exact congrArg ([1, byteOf l.val, _, ·]) hcode
    have hunit : byteOf g.unit.bytes = unit := by
      simp only [unit]
      cases g.unit <;> rfl
    have hhead : [g.mode.code, g.mode.pacingByte] = head := by
      simp only [head]
      cases g.mode with
      | sweep v => cases v <;> rfl
      | _ => rfl
    have htail : g.mode.blockBytes ++ g.mode.pacedBytes = tail := by
      simp only [tail]
      cases g.mode with
      | sweep v => rfl
      | single a o => exact congrArg (absent 3 ++ ·) (hpaced (.single a o) a o rfl rfl)
      | cyclic a o => exact congrArg (absent 3 ++ ·) (hpaced (.cyclic a o) a o rfl rfl)
      | block a o b blockSide =>
        exact congrArg₂ (· ++ ·) (by cases blockSide <;> rfl) (hpaced (.block a o b blockSide) a o rfl rfl)
    rw [← hhead, ← htail, ← hunit, ← hside, ← hside]
    unfold Program.encode
    rw [flagByte_three]
    simp only [List.append_assoc]
    cases g.chain <;> rfl
  case list =>
    intro u
    refine ⟨_, exec_listChannels h, by rw [pairs_length]; rfl, fun c => ?_⟩
    obtain ⟨hstate, hlessee⟩ := pairs_getElem? (fun c => (u.channel c).state.code)
      (fun c => ((u.channel c).lessee.map portByte).getD 0xFF) (indices 16) c.val
    have hc : (indices 16)[c.val]? = some c := by simp [indices]
    rw [hstate, hlessee, hc]
    exact ⟨rfl, rfl⟩

end Sys2Proof.Machine
end

section
/-! PROOF of O30 (PROGRAM): the bytes that each field was read from, the checks in their order, and the program installed. -/

set_option Elab.async false

namespace Sys2Proof.Machine

/-! ### The byte that a field was read from -/

section
variable {b : Byte}

theorem unitOf_toNat {u : UnitSize} (h : unitOf b = some u) : b.toNat = u.bytes := by
  revert h
  cases u <;> revert b <;> decide

theorem stepOf_toNat {v : OffsetStep} (h : stepOf b = some v) : b.toNat = v.code.toNat := by
  revert h
  cases v <;> revert b <;> decide

theorem senseOf_toNat {v : Sense} (h : senseOf b = some v) : b.toNat = v.code.toNat := by
  revert h
  cases v <;> revert b <;> decide

theorem policyOf_toNat {v : Policy} (h : policyOf b = some v) : b.toNat = v.code.toNat := by
  revert h
  cases v <;> revert b <;> decide

theorem blockSideOf_toNat {v : BlockSide} (h : blockSideOf b = some v) : b.toNat = v.code.toNat := by
  revert h
  cases v <;> revert b <;> decide

theorem pacingOf_toNat {v : Pacing} (h : pacingOf b = some v) : b.toNat = v.code.toNat := by
  revert h
  cases v <;> revert b <;> decide

theorem chainOf_toNat {d : Chan} (h : chainOf b = some (some d)) : b.toNat = d.val := by
  unfold chainOf chanOf at h
  split_ifs at h with habsent hlt
  · cases h
  · rw [Option.map_some] at h
    exact congrArg Fin.val (Option.some.inj (Option.some.inj h))
  · cases h

theorem activationOf_soft {l v : Byte} (h : activationOf b l v = some .soft) : b.toNat = 0 := by
  unfold activationOf at h
  split_ifs at h with hsoft hline hlt
  · rw [hsoft]
    rfl
  · cases hv : senseOf v <;> rw [hv] at h <;> cases h

theorem activationOf_lined {l v : Byte} {n : Line} {sense : Sense} (h : activationOf b l v = some (.line n sense)) :
    b.toNat = 1 ∧ l.toNat = n.val ∧ v.toNat = sense.code.toNat := by
  unfold activationOf at h
  split_ifs at h with hsoft hline hlt
  · cases h
  · obtain ⟨x, hx, heq⟩ := Option.map_eq_some_iff.1 h
    cases heq
    exact ⟨by rw [hline]; rfl, rfl, senseOf_toNat hx⟩

end

section
variable {r : List Byte}

theorem sideOf_fields {k : Nat} {x : Side} (h : sideOf r k = some x) :
    x.handle = handleAt r k ∧ x.start = tripleAt r (k + 2) ∧ (byteAt r (k + 5)).toNat = x.step.code.toNat := by
  unfold sideOf at h
  split at h
  · next step hstep =>
    split_ifs at h
    cases h
    exact ⟨rfl, rfl, stepOf_toNat hstep⟩
  · cases h

theorem pacedOf_fields {a : Activation} {o : Policy} (h : pacedOf r = some (a, o)) :
    activationOf (byteAt r 22) (byteAt r 23) (byteAt r 24) = some a ∧ (byteAt r 25).toNat = o.code.toNat := by
  unfold pacedOf at h
  split at h
  · next a' o' ha ho =>
    cases h
    exact ⟨ha, policyOf_toNat ho⟩
  · cases h

/-- The bytes a mode was read from. -/
theorem modeOf_fields {m : Mode} (h : modeOf r = some m) : byteAt r 0 = m.code ∧
    (∀ a o, m.activation = some a → m.policy = some o → pacedOf r = some (a, o)) ∧
    (∀ v, m = .sweep v → (byteAt r 1).toNat = v.code.toNat) ∧
    ∀ a o b side, m = .block a o b side → wordAt r 19 = b ∧ (byteAt r 21).toNat = side.code.toNat := by
  by_cases h0 : byteAt r 0 = 0
  · rw [modeOf_single h0] at h
    obtain ⟨⟨a, o⟩, hpaced, rfl⟩ := Option.map_eq_some_iff.1 h
    refine ⟨h0, fun a' o' ha ho => ?_, nofun, nofun⟩
    cases ha
    cases ho
    exact hpaced
  by_cases h1 : byteAt r 0 = 1
  · rw [modeOf_paced h1] at h
    obtain ⟨⟨a, o⟩, hpaced, rfl⟩ := Option.map_eq_some_iff.1 h
    refine ⟨h1, fun a' o' ha ho => ?_, nofun, nofun⟩
    cases ha
    cases ho
    exact hpaced
  by_cases h2 : byteAt r 0 = 2
  · rw [modeOf_block_eq h2] at h
    obtain ⟨⟨a, o⟩, hpaced, h⟩ := Option.bind_eq_some_iff.1 h
    obtain ⟨side, hside, h⟩ := Option.bind_eq_some_iff.1 h
    split_ifs at h
    cases h
    refine ⟨h2, fun a' o' ha ho => ?_, nofun, fun a' o' b side' heq => ?_⟩
    · cases ha
      cases ho
      exact hpaced
    · cases heq
      exact ⟨rfl, blockSideOf_toNat hside⟩
  by_cases h3 : byteAt r 0 = 3
  · rw [modeOf_sweep h3] at h
    obtain ⟨v, hv, rfl⟩ := Option.map_eq_some_iff.1 h
    refine ⟨h3, nofun, fun v' heq => ?_, nofun⟩
    cases heq
    exact pacingOf_toNat hv
  · rw [modeOf_eq, if_neg h0, if_neg h1, if_neg h2, if_neg h3] at h
    cases h

end

/-! ### The checks from the regions on (R69 to R71) -/

section
variable {u : State} {p : Port} {g : Program} {i j : Slot}

theorem State.checkProgram_source {code : ResultCode} (h : u.sideRegion g.source.handle = .error code) :
    u.checkProgram p g = .error code := by
  unfold State.checkProgram
  rw [h]

theorem State.checkProgram_dest {code : ResultCode} (hi : u.sideRegion g.source.handle = .ok i)
    (h : u.sideRegion g.dest.handle = .error code) : u.checkProgram p g = .error code := by
  unfold State.checkProgram
  rw [hi]
  dsimp only
  rw [h]

theorem State.sideRegion_none {h : Handle} (hc : u.current h = none) : u.sideRegion h = .error .noRegion := by
  unfold State.sideRegion
  rw [hc]

theorem State.sideRegion_retiring {h : Handle} (hc : u.current h = some i) (hstate : (u.region i).state ≠ .live) :
    u.sideRegion h = .error .retiring := by
  unfold State.sideRegion
  rw [hc]
  exact if_neg hstate

theorem State.sideRegion_live {h : Handle} (hc : u.current h = some i) (hstate : (u.region i).state = .live) :
    u.sideRegion h = .ok i := by
  unfold State.sideRegion
  rw [hc]
  exact if_pos hstate

variable (hi : u.sideRegion g.source.handle = .ok i) (hj : u.sideRegion g.dest.handle = .ok j)
include hi hj

theorem State.checkProgram_rest : u.checkProgram p g =
    if ¬ ((u.rights p i).hasRead = true ∧ (u.rights p j).hasWrite = true) then .error .noRight
    else if ¬ (g.source.start % g.unit.bytes = 0 ∧ g.dest.start % g.unit.bytes = 0) then .error .align
    else if ¬ (g.source.spanOk g.unit.bytes (g.sideUnits .source) (64 * (u.region i).length) = true ∧
        g.dest.spanOk g.unit.bytes (g.sideUnits .dest) (64 * (u.region j).length) = true) then .error .span
    else .ok (i, j) := by
  unfold State.checkProgram
  rw [hi]
  dsimp only
  rw [hj]
  have hrights : (!((u.rights p i).hasRead && (u.rights p j).hasWrite)) = true ↔
      ¬ ((u.rights p i).hasRead = true ∧ (u.rights p j).hasWrite = true) := by
    rw [Bool.not_eq_true', ← Bool.not_eq_true, Bool.and_eq_true]
  have haligned : (g.source.start % g.unit.bytes ≠ 0 ∨ g.dest.start % g.unit.bytes ≠ 0) ↔
      ¬ (g.source.start % g.unit.bytes = 0 ∧ g.dest.start % g.unit.bytes = 0) := by rw [not_and_or]
  simp only [hrights, haligned, granuleBytes, Bool.not_eq_true', ← Bool.not_eq_true, Bool.and_eq_true]

end

/-! ### The command -/

section
variable {s u : State} {p : Port} {tag b : Byte} {r : List Byte} {c : Chan} {x : Channel}
  (h : s.servesLessee p 0x14 tag b r c u x) (hr : r.length = 28)
include h hr

theorem exec_program_busy (hrec : x.recorded ≠ none) : exec (.program p) s = .next (u.served p 0x14 tag .busy []) := by
  rw [exec, execProgram]
  refine State.lesseeCommand_refused h (by rw [hr]) ?_
  dsimp only
  rw [h.channel, if_pos (Option.isSome_iff_ne_none.2 hrec)]

variable (hrec : x.recorded = none)
include hrec

theorem exec_program_wrongState (hstate : x.state ≠ .leased ∧ x.state ≠ .programmed) :
    exec (.program p) s = .next (u.served p 0x14 tag .wrongState []) := by
  rw [exec, execProgram]
  refine State.lesseeCommand_refused h (by rw [hr]) ?_
  dsimp only
  rw [h.channel, if_neg (by simp [hrec]), if_pos hstate]

variable (hstate : x.state = .leased ∨ x.state = .programmed)
include hstate

theorem exec_program_badArg (hnone : programOf r = none) : exec (.program p) s = .next (u.served p 0x14 tag .badArg []) := by
  have programmable : ¬ (x.state ≠ .leased ∧ x.state ≠ .programmed) := fun ⟨hleased, hprogrammed⟩ =>
    hstate.elim hleased hprogrammed
  rw [exec, execProgram]
  refine State.lesseeCommand_refused h (by rw [hr]) ?_
  dsimp only
  rw [h.channel, if_neg (by simp [hrec]), if_neg programmable, List.tail_cons, hnone]

variable {g : Program} (hg : programOf r = some g)
include hg

theorem exec_program_refused {code : ResultCode} (hcheck : u.checkProgram p g = .error code) :
    exec (.program p) s = .next (u.served p 0x14 tag code []) := by
  have programmable : ¬ (x.state ≠ .leased ∧ x.state ≠ .programmed) := fun ⟨hleased, hprogrammed⟩ =>
    hstate.elim hleased hprogrammed
  rw [exec, execProgram]
  refine State.lesseeCommand_refused h (by rw [hr]) ?_
  dsimp only
  rw [h.channel, if_neg (by simp [hrec]), if_neg programmable, List.tail_cons, hg]
  dsimp only
  rw [State.popCommand_checkProgram, hcheck]

theorem exec_program_ok {i j : Slot} (hcheck : u.checkProgram p g = .ok (i, j)) :
    exec (.program p) s = .next ((u.install c g i j).served p 0x14 tag .ok [yesNo x.program.isSome]) := by
  have programmable : ¬ (x.state ≠ .leased ∧ x.state ≠ .programmed) := fun ⟨hleased, hprogrammed⟩ =>
    hstate.elim hleased hprogrammed
  rw [exec, execProgram]
  refine State.lesseeCommand_accepted h (by rw [hr]) ?_
  dsimp only
  rw [h.channel, if_neg (by simp [hrec]), if_neg programmable, List.tail_cons, hg]
  dsimp only
  rw [State.popCommand_checkProgram, hcheck]
  dsimp only
  rw [State.popCommand_install]

end

/-- The handle of a current region names its slot. -/
theorem State.slot?_of_current {u : State} {h : Handle} {i : Slot} (hc : u.current h = some i) : h.slot? = some i :=
  Handle.slot?_of_toNat ((u.current_iff h i).1 hc).1

/-- Settles O30: the fields by the record's bytes, then the checks and the installed program. -/
theorem programEffect : Obligations.ProgramEffect := by
  unfold Obligations.ProgramEffect
  intro s u p tag b r c x hr h refused byte handle three step sense paced
  refine ⟨fun g hg => ?fields, exec_program_busy h hr, fun hrec hleased hprogrammed => exec_program_wrongState h hr hrec ⟨hleased, hprogrammed⟩,
    fun hrec hstate => ⟨exec_program_badArg h hr hrec hstate, fun g hg => ?checks⟩⟩
  case fields =>
    have hspells := (programOf_iff r g).1 hg
    obtain ⟨hcode, hpaced, hsweep, hblock⟩ := modeOf_fields hspells.mode
    have hkind : byte 0 = g.mode.code.toNat := congrArg BitVec.toNat hcode
    have hstep (v : OffsetStep) : v.code.toNat = step v := by cases v <;> rfl
    have hactivation (a : Activation) (o : Policy) (ha : g.mode.activation = some a) (ho : g.mode.policy = some o) : paced a o := by
      obtain ⟨hact, hpolicy⟩ := pacedOf_fields (hpaced a o ha ho)
      refine ⟨?_, hpolicy.trans (by cases o <;> rfl)⟩
      cases a with
      | soft => exact activationOf_soft hact
      | line n v =>
        obtain ⟨h22, h23, h24⟩ := activationOf_lined hact
        exact ⟨h22, h23, h24.trans (by cases v <;> rfl)⟩
    obtain ⟨hsourceHandle, hsourceStart, hsourceStep⟩ := sideOf_fields hspells.source
    obtain ⟨hdestHandle, hdestStart, hdestStep⟩ := sideOf_fields hspells.dest
    refine ⟨?mode, ?unit, hspells.cls, hsourceHandle, hsourceStart.trans (tripleAt_eq r 6), hsourceStep.trans (hstep _), hdestHandle,
      hdestStart.trans (tripleAt_eq r 12), hdestStep.trans (hstep _), hspells.count.symm.trans (tripleAt_eq r 16),
      hspells.notify.symm, ?chain⟩
    case mode =>
      cases hm : g.mode with
      | single a o => exact ⟨hkind.trans (by rw [hm]; rfl), hactivation a o (by rw [hm]; rfl) (by rw [hm]; rfl)⟩
      | cyclic a o => exact ⟨hkind.trans (by rw [hm]; rfl), hactivation a o (by rw [hm]; rfl) (by rw [hm]; rfl)⟩
      | block a o n side =>
        obtain ⟨hlength, hside⟩ := hblock a o n side hm
        exact ⟨hkind.trans (by rw [hm]; rfl), hactivation a o (by rw [hm]; rfl) (by rw [hm]; rfl), hlength,
          hside.trans (by cases side <;> rfl)⟩
      | sweep v => exact ⟨hkind.trans (by rw [hm]; rfl), (hsweep v hm).trans (by cases v <;> rfl)⟩
    case unit => exact (unitOf_toNat hspells.unit).trans (by cases g.unit <;> rfl)
    case chain =>
      have hchain := hspells.chain
      cases hd : g.chain with
      | none => exact (chainOf_none _).1 (hd ▸ hchain)
      | some d => exact chainOf_toNat (hd ▸ hchain)
  case checks =>
    have refuse {code : ResultCode} (hcheck : u.checkProgram p g = .error code) : refused code :=
      exec_program_refused h hr hrec hstate hg hcheck
    refine ⟨fun hc => refuse (State.checkProgram_source (State.sideRegion_none hc)), fun i hi =>
      ⟨fun hretiring => refuse (State.checkProgram_source (State.sideRegion_retiring hi hretiring)), fun hlive => ?_⟩⟩
    have hsource := State.sideRegion_live hi hlive
    refine ⟨fun hc => refuse (State.checkProgram_dest hsource (State.sideRegion_none hc)), fun j hj =>
      ⟨fun hretiring => refuse (State.checkProgram_dest hsource (State.sideRegion_retiring hj hretiring)), fun hlive' => ?_⟩⟩
    have hcheck := State.checkProgram_rest (p := p) hsource (State.sideRegion_live hj hlive')
    intro rights unit aligned units spanned spans
    have hspans : spans ↔ (g.source.spanOk g.unit.bytes (g.sideUnits .source) (64 * (u.region i).length) = true ∧
        g.dest.spanOk g.unit.bytes (g.sideUnits .dest) (64 * (u.region j).length) = true) := by
      have hunits (side : BlockSide) : units side = g.sideUnits side := by
        simp only [units]
        unfold Program.sideUnits
        cases g.mode <;> rfl
      have hspanned (y : Side) (n length : Nat) : spanned y n length ↔ y.spanOk g.unit.bytes n length = true := by
        simp only [spanned]
        unfold Side.spanOk
        cases y.step <;> simp [unit]
      simp only [spans, hspanned, hunits]
    refine ⟨fun hno => refuse (hcheck.trans (if_pos hno)),
      fun hyes hno => refuse (hcheck.trans ((if_neg (not_not.2 hyes)).trans (if_pos hno))),
      fun hyes haligned hno => refuse (hcheck.trans ((if_neg (not_not.2 hyes)).trans ((if_neg (not_not.2 haligned)).trans
        (if_pos (mt hspans.2 hno))))),
      fun hyes haligned hspanned => ?_⟩
    obtain ⟨t, htinstall, htable, hregions⟩ := u.install_regions c g i j (State.slot?_of_current hi) (State.slot?_of_current hj)
    have hx : u.channel c = x := h.channel
    refine ⟨t, ?_, htable, fun k => by rw [hregions, hx]⟩
    rw [exec_program_ok h hr hrec hstate hg (hcheck.trans ((if_neg (not_not.2 hyes)).trans ((if_neg (not_not.2 haligned)).trans
      (if_neg (not_not.2 (hspans.1 hspanned)))))), htinstall, hx]
    have hreply : yesNo x.program.isSome = if x.program = none then 0 else 1 := by cases x.program <;> rfl
    have hblock : g.blockUnits = match g.mode with
        | .single _ _ | .cyclic _ _ | .sweep _ => 0
        | .block _ _ b _ => b := by
      unfold Program.blockUnits
      cases g.mode <;> rfl
    rw [hreply, Program.initialRun, hblock] <;> rfl

end Sys2Proof.Machine
end

section
/-! PROOF of O42 (UNIT_START) and O43 (UNIT_TRANSFER): passing over the winners that fail the check, one by one, comes to the winner
among those that do not fail, and the two accesses of a unit are those of the memory. -/

set_option Elab.async false

namespace Sys2Proof.Machine

/-! ### Passing over the channels that fail the check (O42) -/

section
variable {s : State} {passed failing : List Chan} {c : Chan}

theorem State.asksInClass_of_requests (hreq : s.requests c = true) (hpassed : c ∉ passed) : ∃ k, s.asksInClass passed k c = true := by
  obtain ⟨-, g, hg, -⟩ := (s.requests_iff c).1 hreq
  exact ⟨g.cls, State.asksInClass_iff.2 ⟨⟨hreq, hpassed⟩, g, hg, rfl⟩⟩

theorem State.winner_eq_none_iff : s.winner passed = none ↔ ∀ d, s.requests d = true → d ∈ passed := by
  constructor
  · intro hnone d hreq
    by_contra hpassed
    obtain ⟨k, hk⟩ := State.asksInClass_of_requests hreq hpassed
    rw [State.winner_eq_bind, Option.bind_eq_none_iff] at hnone
    obtain ⟨j, hj⟩ : ∃ j, ((indices 4).find? fun k => (indices 16).any (s.asksInClass passed k)) = some j := by
      rw [← Option.isSome_iff_exists, List.find?_isSome]
      exact ⟨k, List.mem_finRange k, List.any_eq_true.2 ⟨d, List.mem_finRange d, hk⟩⟩
    obtain ⟨⟨e, he⟩, -⟩ := State.lowestClass_eq_some_iff.1 hj
    have hfirst := hnone j hj
    unfold State.firstInClass at hfirst
    rw [Option.or_eq_none_iff] at hfirst
    exact roundRobin_find_none.1 hfirst.2 e he
  · intro hall
    rw [Option.eq_none_iff_forall_ne_some]
    intro d hd
    obtain ⟨k, hk, -⟩ := State.winner_eq_some_iff.1 hd
    obtain ⟨⟨hreq, hpassed⟩, -⟩ := State.asksInClass_iff.1 hk
    exact hpassed (hall d hreq)

/-- The winner stands when channels other than it are passed over too. -/
theorem State.winner_of_subset (hsub : ∀ d ∈ passed, d ∈ failing) (hwin : s.winner passed = some c) (hc : c ∉ failing) :
    s.winner failing = some c := by
  obtain ⟨k, hk, hlow, hfirst⟩ := State.winner_eq_some_iff.1 hwin
  have wider {j : PriorityClass} {d : Chan} (hd : s.asksInClass failing j d = true) : s.asksInClass passed j d = true := by
    obtain ⟨⟨hreq, hd⟩, hclass⟩ := State.asksInClass_iff.1 hd
    exact State.asksInClass_iff.2 ⟨⟨hreq, mt (hsub d) hd⟩, hclass⟩
  obtain ⟨⟨hreq, -⟩, hclass⟩ := State.asksInClass_iff.1 hk
  exact State.winner_eq_some_iff.2 ⟨k, State.asksInClass_iff.2 ⟨⟨hreq, hc⟩, hclass⟩, fun j d hd => hlow j d (wider hd),
    fun d hd => hfirst d (wider hd)⟩

variable (hfailing : ∀ d, d ∈ failing ↔ s.requests d = true ∧ s.unitStartCheck d = none)
include hfailing

/-- The grant is the winner among the channels that do not fail the check. -/
theorem State.grantFrom_eq (fuel : Nat) (passed : List Chan) (hsub : ∀ d ∈ passed, d ∈ failing) (hnodup : passed.Nodup)
    (hfuel : passed.length + fuel = 16) :
    s.grantFrom fuel passed = (s.winner failing).bind fun c => (s.unitStartCheck c).map fun bases => (c, bases) := by
  have exhausted (hall : ∀ d, s.requests d = true → d ∈ passed) :
      ((s.winner failing).bind fun c => (s.unitStartCheck c).map fun bases => (c, bases)) = none := by
    rw [State.winner_eq_none_iff.2 fun d hd => hsub d (hall d hd), Option.bind_none]
  induction fuel generalizing passed with
  | zero =>
    have hall (d : Chan) : d ∈ passed := by
      have hsubperm : passed.Subperm (List.finRange 16) := hnodup.subperm fun d _ => List.mem_finRange d
      have hperm := hsubperm.perm_of_length_le (by simp; omega)
      exact hperm.mem_iff.2 (List.mem_finRange d)
    exact (exhausted fun d _ => hall d).symm
  | succ fuel ih =>
    unfold State.grantFrom
    cases hwin : s.winner passed with
    | none => exact (exhausted (State.winner_eq_none_iff.1 hwin)).symm
    | some c =>
      obtain ⟨k, hk, -⟩ := State.winner_eq_some_iff.1 hwin
      obtain ⟨⟨hreq, hpassed⟩, -⟩ := State.asksInClass_iff.1 hk
      dsimp only
      cases hcheck : s.unitStartCheck c with
      | none =>
        have hsub' : ∀ d ∈ c :: passed, d ∈ failing := by
          rintro d (_ | ⟨_, hd⟩)
          · exact (hfailing c).2 ⟨hreq, hcheck⟩
          · exact hsub d hd
        refine ih (c :: passed) hsub' (List.nodup_cons.2 ⟨hpassed, hnodup⟩) (by rw [List.length_cons]; omega) fun hall => ?_
        rw [State.winner_eq_none_iff.2 fun d hd => hsub' d (hall d hd), Option.bind_none]
      | some bases =>
        have hc : c ∉ failing := fun hmem => by
          have := ((hfailing c).1 hmem).2
          rw [hcheck] at this
          cases this
        rw [State.winner_of_subset hsub hwin hc, Option.bind_some, hcheck]
        rfl

end

section
variable {s : State}

theorem exec_unitStart_busy (h : s.engine.unit ≠ none) : exec .unitStart s = .next s := by
  rw [exec, execUnitStart]
  exact if_pos (Option.isSome_iff_ne_none.2 h)

variable (hidle : s.engine.unit = none)
include hidle

theorem exec_unitStart_none (hgrant : s.granted = none) : exec .unitStart s = .next s := by
  rw [exec, execUnitStart, if_neg (by simp [hidle]), hgrant]

theorem exec_unitStart_some {c : Chan} {bases : Nat × Nat} {g : Program} (hgrant : s.granted = some (c, bases))
    (hg : (s.channel c).program = some g) : exec .unitStart s = .next (s.startUnit c g bases.1 bases.2) := by
  rw [exec, execUnitStart, if_neg (by simp [hidle]), hgrant]
  dsimp only
  rw [hg]

end

/-- Settles O42: the grant, and the record of a channel whose service begins or goes on. -/
theorem unitStartEffect : Obligations.UnitStartEffect := by
  unfold Obligations.UnitStartEffect
  refine ⟨fun s h => exec_unitStart_busy h, fun s failing hidle hfailing => ?_⟩
  have hfails (d : Chan) : (∀ g i j, ¬ s.PassesCheck d g i j) ↔ s.unitStartCheck d = none := by
    rw [Option.eq_none_iff_forall_ne_some]
    constructor
    · intro hno bases hbases
      obtain ⟨g, i, j, hpass, -⟩ := (s.unitStartCheck_iff d bases).1 hbases
      exact hno g i j hpass
    · intro hno g i j hpass
      exact hno _ ((s.unitStartCheck_iff d _).2 ⟨g, i, j, hpass, rfl⟩)
  simp only [hfails] at hfailing
  have hgrant : s.granted = _ := State.grantFrom_eq hfailing 16 [] (by simp) List.nodup_nil rfl
  refine ⟨fun hnone => exec_unitStart_none hidle (by rw [hgrant, hnone, Option.bind_none]), fun c g i j hwin hpass => ?_⟩
  intro x keeps unit
  have hcheck := (s.unitStartCheck_iff c _).2 ⟨g, i, j, hpass, rfl⟩
  have hstart := exec_unitStart_some hidle (hgrant.trans (by rw [hwin, Option.bind_some, hcheck]; rfl)) hpass.1
  refine ⟨fun harmed => ?_, fun harmed => ?_⟩
  · have hlatch : (x.run.latch && x.keepsLatch g) = decide (x.run.latch = true ∧ keeps) := by
      rw [Bool.eq_iff_iff]
      simp [Channel.keepsLatch, keeps]
    rw [hstart, ← hlatch]
    simp only [State.startUnit, Channel.started, if_pos (show (s.channel c).state = .armed from harmed)]
    rfl
  · rw [hstart]
    simp only [State.startUnit, Channel.started, if_neg (show (s.channel c).state ≠ .armed from harmed)]
    rfl

/-! ### The accesses of a unit (O43) -/

section
variable {s : State} {u : UnitInFlight} (hu : s.engine.unit = some u)
include hu

theorem exec_unitTransfer_read (hphase : u.phase = .started) : exec (.unitTransfer .read) s = s.unitRead u := by
  rw [exec, execUnitTransfer, hu]
  simp only [hphase]

theorem exec_unitTransfer_write {part : UnitPart} (hpart : part ≠ .read) (hphase : u.phase = .readDone) :
    exec (.unitTransfer part) s = s.unitWrite u := by
  rw [exec, execUnitTransfer, hu]
  cases part with
  | read => exact absurd rfl hpart
  | write => simp only [hphase]
  | both => simp only [hphase]

theorem exec_unitTransfer_idle {part : UnitPart}
    (h : u.phase = .reported ∨ (part = .read ∧ u.phase = .readDone) ∨ (part = .write ∧ u.phase = .started)) :
    exec (.unitTransfer part) s = .next s := by
  rw [exec, execUnitTransfer, hu]
  rcases h with hphase | ⟨rfl, hphase⟩ | ⟨rfl, hphase⟩
  · cases part <;> simp only [hphase]
  · simp only [hphase]
  · simp only [hphase]

/-- Both parts in one step are the read and then the write. -/
theorem exec_unitTransfer_both (hphase : u.phase = .started) {t : State} (hread : exec (.unitTransfer .read) s = .next t) :
    exec (.unitTransfer .both) s = exec (.unitTransfer .write) t := by
  rw [exec_unitTransfer_read hu hphase] at hread
  have hdone := hread
  unfold State.unitRead at hdone
  dsimp only at hdone
  split_ifs at hdone
  obtain ⟨v, hunit, hv⟩ : ∃ v, t.engine.unit = some v ∧ v.phase = .readDone :=
    ⟨_, by rw [← Host.Outcome.next.inj hdone]; rfl, rfl⟩
  rw [exec_unitTransfer_write (part := .write) hunit (by decide) hv, exec, execUnitTransfer, hu]
  simp only [hphase, hread, hunit]

end

section
variable {s : State} {u : UnitInFlight}

theorem State.unitRead_fault (h : memoryBytes < u.source + u.size.bytes) : s.unitRead u = .fault .noSuchByte := if_pos h

theorem State.unitRead_ok (h : u.source + u.size.bytes ≤ memoryBytes) : s.unitRead u = .next (s.setUnit { u with
    buffer := s.mem.readSpan u.source u.size.bytes, dataError := s.mem.spanError u.source u.size.bytes, phase := .readDone }) :=
  if_neg (not_lt.2 h)

theorem State.unitWrite_marked (h : u.dataError = true) : s.unitWrite u = .next (s.setUnit { u with phase := .reported }) := if_pos h

theorem State.unitWrite_fault (herr : u.dataError = false) (h : memoryBytes < u.dest + u.buffer.length) :
    s.unitWrite u = .fault .noSuchByte := (if_neg (by simp [herr])).trans (if_pos h)

theorem State.unitWrite_ok (herr : u.dataError = false) (h : u.dest + u.buffer.length ≤ memoryBytes) :
    s.unitWrite u = .next ((s.setUnit { u with phase := .reported }).setMem (s.mem.writeSpan u.dest u.buffer)) :=
  (if_neg (by simp [herr])).trans (if_neg (not_lt.2 h))

end

/-- Settles O43: the parts by the phase of the unit, and what a span read or written is, byte by byte. -/
theorem unitTransferEffect : Obligations.UnitTransferEffect := by
  unfold Obligations.UnitTransferEffect
  intro s u hu n withUnit
  refine ⟨fun hphase hout => (exec_unitTransfer_read hu hphase).trans (State.unitRead_fault hout), fun hphase hin => ?read,
    fun hphase t => exec_unitTransfer_both hu hphase, fun part hpart hphase => ?write, fun part => exec_unitTransfer_idle hu⟩
  case read =>
    refine ⟨s.mem.readSpan u.source n, s.mem.spanError u.source n,
      (exec_unitTransfer_read hu hphase).trans (State.unitRead_ok hin), s.mem.readSpan_length _ _, fun k hk => ?_,
      s.mem.spanError_iff _ _⟩
    rw [List.getElem?_eq_getElem (by simpa using hk), s.mem.readSpan_getElem _ _ _ hk]
  case write =>
    have hexec := exec_unitTransfer_write hu hpart hphase
    refine ⟨fun herr => hexec.trans (State.unitWrite_marked herr), fun herr hout => hexec.trans (State.unitWrite_fault herr hout),
      fun herr law hin => ?_⟩
    have hwf : s.mem.wf = true := law
    have hbytes : s.mem.definedTo ≤ memoryBytes := (s.mem.wf_iff.1 hwf).1
    exact ⟨_, hexec.trans (State.unitWrite_ok herr (hin.trans hbytes)), s.mem.writeSpan_definedTo _ _, fun a _ =>
      ⟨Memory.read_writeSpan hwf _ _ hin a, s.mem.parityError_writeSpan _ _ hin a⟩⟩

end Sys2Proof.Machine
end

section
/-! PROOF of O44 (the unit-end processing) and O45 (UNIT_END_REPORT): the counts by mode, then the data error, the recorded request and
the chain. -/

set_option Elab.async false

namespace Sys2Proof.Machine

/-! ### The unit-end processing (O44) -/

/-- The run state with the offsets a unit leaves (R101). -/
def Program.movedRun (g : Program) (r : RunState) : RunState :=
  { r with
    sourceOffset := g.source.moved g.unit.bytes r.sourceOffset, destOffset := g.dest.moved g.unit.bytes r.destOffset }

section
variable (c : Chan) (x : Channel) {g : Program}

theorem unitEnd_block {a : Activation} {o : Policy} {b : Nat} {side : BlockSide} (hmode : g.mode = .block a o b side) :
    let run := g.movedRun x.run
    let back := { run with
      sourceOffset := if side = .source then g.source.start else run.sourceOffset
      destOffset := if side = .dest then g.dest.start else run.destOffset
      blockRemaining := b, remaining := x.run.remaining - 1 }
    unitEnd c x g =
      if 1 < x.run.blockRemaining then
        { channel := { x with run := { run with blockRemaining := x.run.blockRemaining - 1 } }, events := [], completed := false }
      else if x.run.remaining - 1 = 0 then x.completed c g back else x.rearmed back := by
  intro run back
  unfold unitEnd
  simp only [hmode]
  rfl

theorem unitEnd_single {a : Activation} {o : Policy} (hmode : g.mode = .single a o) :
    let run := { g.movedRun x.run with remaining := x.run.remaining - 1 }
    unitEnd c x g = if x.run.remaining - 1 = 0 then x.completed c g run else x.rearmed run := by
  intro run
  unfold unitEnd
  simp only [hmode]
  rfl

theorem unitEnd_cyclic {a : Activation} {o : Policy} (hmode : g.mode = .cyclic a o) :
    let run := { g.movedRun x.run with remaining := x.run.remaining - 1 }
    unitEnd c x g =
      if x.run.remaining - 1 = 0 then
        { x.rearmed { run with
            sourceOffset := g.source.start, destOffset := g.dest.start, remaining := g.count, wrapCount := x.run.wrapCount + 1 } with
          events := if g.notify.wrap then [.channelWrap c (x.run.wrapCount + 1) x.run.overrunSeen] else [] }
      else x.rearmed run := by
  intro run
  unfold unitEnd
  simp only [hmode]
  rfl

theorem unitEnd_sweep {pacing : Pacing} (hmode : g.mode = .sweep pacing) :
    let run := { g.movedRun x.run with remaining := x.run.remaining - 1 }
    unitEnd c x g =
      if x.run.remaining - 1 = 0 then x.completed c g run
      else if pacing = .interleaved then x.rearmed run
      else { channel := { x with run }, events := [], completed := false } := by
  intro run
  unfold unitEnd
  simp only [hmode]
  rfl

end

/-- Settles O44: the equation of each mode, at each of its counts. -/
theorem unitEndProcessing : Obligations.UnitEndProcessing := by
  unfold Obligations.UnitEndProcessing
  refine ⟨fun u => by cases u <;> rfl, fun c x g => ?_⟩
  intro moved run goesOn serviceEnds runCompletes
  have hrun : g.movedRun x.run = run := by
    have hmoved (side : Side) (offset : Nat) : side.moved g.unit.bytes offset = moved side offset := by
      simp only [moved, Side.moved, OffsetStep.move]
      cases side.step with
      | retreat => dsimp only; split_ifs <;> rfl
      | _ => rfl
    simp only [Program.movedRun, hmoved, run]
  refine ⟨fun a o b side hmode => ?block, fun a o hmode => ?single, fun a o hmode => ?cyclic, fun pacing hmode => ?sweep⟩
  case block =>
    intro back
    have hend := unitEnd_block c x hmode
    dsimp only at hend
    rw [hrun] at hend
    refine ⟨fun hlong => hend.trans (if_pos hlong), fun hlast hmore => hend.trans ((if_neg (by omega)).trans (if_neg (by omega))),
      fun hlast hdone => hend.trans ((if_neg (by omega)).trans (if_pos (by omega)))⟩
  case single =>
    have hend := unitEnd_single c x hmode
    dsimp only at hend
    rw [hrun] at hend
    refine ⟨fun hmore => hend.trans (if_neg (by omega)), fun hdone => (hend.trans (if_pos (by omega))).trans ?_⟩
    rw [hdone]
    rfl
  case cyclic =>
    have hend := unitEnd_cyclic c x hmode
    dsimp only at hend
    rw [hrun] at hend
    exact ⟨fun hmore => hend.trans (if_neg (by omega)), fun hdone => hend.trans (if_pos (by omega))⟩
  case sweep =>
    have hend := unitEnd_sweep c x hmode
    dsimp only at hend
    rw [hrun] at hend
    refine ⟨fun hmore hburst => hend.trans ((if_neg (by omega)).trans (if_neg (by rw [hburst]; decide))),
      fun hmore hpaced => hend.trans ((if_neg (by omega)).trans (if_pos hpaced)),
      fun hdone => (hend.trans (if_pos (by omega))).trans ?_⟩
    rw [hdone]
    rfl

/-! ### What the end report leaves (O45) -/

theorem Channel.discardedWith_eq (x : Channel) (cause : DiscardCause) : x.discardedWith cause = { x with
    state := .leased, program := none, run := RunState.clear, recorded := none, suspension := none, outcome := cause.outcome } := by
  cases cause <;> rfl

theorem State.offerEvents_append (s : State) (es fs : List (Port × Event)) :
    s.offerEvents (es ++ fs) = (s.offerEvents es).offerEvents fs := by
  induction es generalizing s with
  | nil => rfl
  | cons e es ih => exact ih _

/-- A channel's record after the end report is taken, with the events and notices that go with it. -/
def State.reported (s : State) (c : Chan) (p : Port) (z : Channel) (es : List Event) (ns : List Notice) : State :=
  (((s.setEngine { s.engine with unit := none }).setChannel c z).setNotices (s.table.notices ++ ns)).offerEvents
    (es.map fun ev => (p, ev))

/-- The record that the end report works on. -/
def Channel.landed (x : Channel) : Channel := { x with run := { x.run with unitInFlight := false } }

section
variable {s : State} {u : UnitInFlight} {c : Chan} {x : Channel} {g : Program} {p : Port}

theorem exec_unitEndReport (hu : s.engine.unit = some u) (hphase : u.phase = .reported) :
    exec .unitEndReport s = .next (s.takeEndReport u) := by
  rw [exec, execUnitEndReport, hu]
  exact if_pos hphase

theorem State.takeEndReport_eq (hg : (s.channel u.channel).program = some g) : s.takeEndReport u =
    let c := u.channel
    let t := s.setEngine { s.engine with unit := none }
    let x := (s.channel c).landed
    let e := unitEnd c x g
    if u.dataError then t.commit c (dataErrorEnd c x)
    else if e.completed then
      let t := t.commit c ((completedEnd c e.channel).after e.events)
      if x.followsChain then t.followChain c x.lessee g.chain else t
    else t.commit c ((recordedEnd c e.channel).after e.events) := by
  unfold State.takeEndReport
  dsimp only
  split
  · next hnone =>
    cases (show _ = some g from hg).symm.trans hnone
  · next g' hsome =>
    obtain rfl := Option.some.inj ((show _ = some g from hg).symm.trans hsome)
    rfl

variable (hc : u.channel = c) (hx : s.channel c = x) (hg : x.program = some g) (hp : x.lessee = some p)
include hx hp

theorem State.commit_reported (e : Effect) :
    (s.setEngine { s.engine with unit := none }).commit c e = s.reported c p e.channel e.events e.notices :=
  State.commit_leased (show ((s.setEngine { s.engine with unit := none }).channel c).lessee = some p from
    (congrArg Channel.lessee hx).trans hp) e

include hc hg

theorem State.takeEndReport_marked (herr : u.dataError = true) : s.takeEndReport u =
    s.reported c p (dataErrorEnd c x.landed).channel (dataErrorEnd c x.landed).events (dataErrorEnd c x.landed).notices := by
  subst hc hx
  rw [← State.commit_reported rfl hp]
  exact (State.takeEndReport_eq hg).trans (if_pos herr)

theorem State.takeEndReport_recorded (herr : u.dataError = false) (hgoes : (unitEnd c x.landed g).completed = false) :
    s.takeEndReport u =
      let e := (recordedEnd c (unitEnd c x.landed g).channel).after (unitEnd c x.landed g).events
      s.reported c p e.channel e.events e.notices := by
  subst hc hx
  dsimp only
  rw [← State.commit_reported rfl hp]
  exact (State.takeEndReport_eq hg).trans ((if_neg (by simp [herr])).trans (if_neg (by simp [hgoes])))

theorem State.takeEndReport_completed (herr : u.dataError = false) (hdone : (unitEnd c x.landed g).completed = true) :
    s.takeEndReport u =
      let e := (completedEnd c (unitEnd c x.landed g).channel).after (unitEnd c x.landed g).events
      let t := s.reported c p e.channel e.events e.notices
      if x.followsChain then t.followChain c (some p) g.chain else t := by
  subst hc hx
  dsimp only
  rw [← State.commit_reported rfl hp, ← hp]
  exact (State.takeEndReport_eq hg).trans ((if_neg (by simp [herr])).trans (if_pos hdone))

end

/-! ### The chain of a completed run (R110, R111) -/

section
variable {t : State} {c d : Chan} {p : Port}

/-- The events of a report are offered before those of its chain. -/
theorem State.reported_offerEvent {s : State} {z : Channel} {es : List Event} {ns : List Notice} (e : Event) :
    (s.reported c p z es ns).offerEvent p e = s.reported c p z (es ++ [e]) ns := by
  unfold State.reported
  rw [List.map_append, State.offerEvents_append]
  rfl

theorem State.followChain_fails {reason : ChainReason} (h : t.chainFailure (some p) d = some reason) :
    t.followChain c (some p) (some d) = t.offerEvent p (.chainFailed c d reason) := by
  unfold State.followChain
  simp only [h]

theorem State.followChain_arms {g : Program} (h : t.chainFailure (some p) d = none) (hg : (t.channel d).program = some g) :
    t.followChain c (some p) (some d) = t.setChannel d ((t.channel d).armed g) := by
  unfold State.followChain
  simp only [h, hg]

theorem State.chainFailure_eq : t.chainFailure (some p) d =
    if (t.channel d).lessee ≠ some p then some .notLessee
    else if (t.channel d).state ≠ .programmed then some .wrongState
    else if t.halted p = true then some .halted
    else none := by
  unfold State.chainFailure
  simp

end

/-! ### The requests settled at the end of a unit (R114, R115, R119, R125) -/

theorem applyDiscard_eq (c : Chan) (x : Channel) (cause : DiscardCause) (err : Bool) : applyDiscard c x cause err =
    { channel := x.discardedWith cause, events := [.channelStopped c (x.discardedWith cause).outcome err], notices := x.releases } := by
  rw [Channel.discardedWith_eq]
  rfl

theorem applyTeardown_eq (c : Chan) {x : Channel} {p : Port} (hp : x.lessee = some p) : applyTeardown c x =
    { channel := Channel.empty, events := [], notices := x.releases ++ [.leaseEnd c p] } := by
  unfold applyTeardown
  rw [hp]

/-- The recorded request takes neither the program nor the lease away (R125). -/
def Channel.keepsProgram (x : Channel) : Prop := ∀ q ∈ x.recorded, q.strength < 4

section
variable {c : Chan} {x : Channel}

theorem Channel.keepsProgram.cases (h : x.keepsProgram) :
    x.recorded = none ∨ (∃ k, x.recorded = some (.suspend k)) ∨ ∃ k, x.recorded = some (.abort k) := by
  cases hq : x.recorded with
  | none => exact .inl rfl
  | some q =>
    cases q with
    | suspend k => exact .inr (.inl ⟨k, rfl⟩)
    | abort k => exact .inr (.inr ⟨k, rfl⟩)
    | discard k => exact absurd (h _ hq) (by simp [Request.strength])
    | teardown => exact absurd (h _ hq) (by simp [Request.strength])

theorem dataErrorEnd_stopped (h : x.keepsProgram) : dataErrorEnd c x =
    { channel := x.stoppedWith .dataError, events := [.channelStopped c .dataError true], notices := [] } := by
  unfold dataErrorEnd
  rcases h.cases with hq | ⟨k, hq⟩ | ⟨k, hq⟩ <;> rw [hq] <;> rfl

theorem dataErrorEnd_discard {k : DiscardCause} (hq : x.recorded = some (.discard k)) :
    dataErrorEnd c x = applyDiscard c x k true := by
  unfold dataErrorEnd
  rw [hq]

theorem dataErrorEnd_teardown (hq : x.recorded = some .teardown) : dataErrorEnd c x = applyTeardown c x := by
  unfold dataErrorEnd
  rw [hq]

theorem completedEnd_keep (h : x.keepsProgram) : completedEnd c x = Effect.keep { x with recorded := none } := by
  unfold completedEnd
  rcases h.cases with hq | ⟨k, hq⟩ | ⟨k, hq⟩ <;> rw [hq]

theorem Channel.keepsProgram.followsChain (h : x.keepsProgram) : x.followsChain = true := by
  unfold Channel.followsChain
  rcases h.cases with hq | ⟨k, hq⟩ | ⟨k, hq⟩ <;> rw [hq]

end

section
variable {s : State} {u : UnitInFlight} {c : Chan} {x : Channel} {g : Program} {p : Port}
  (hc : u.channel = c) (hx : s.channel c = x) (hg : x.program = some g) (hp : x.lessee = some p) (herr : u.dataError = false)
include hc hx hg hp herr

/-- A DISCARD applies whether the unit completes the run or not (R125). -/
theorem State.takeEndReport_discard {k : DiscardCause} (hq : x.recorded = some (.discard k)) : s.takeEndReport u =
    let e := (applyDiscard c (unitEnd c x.landed g).channel k false).after (unitEnd c x.landed g).events
    s.reported c p e.channel e.events e.notices := by
  have hrecorded : (unitEnd c x.landed g).channel.recorded = some (.discard k) := (unitEnd_keeps c x.landed g).1.trans hq
  by_cases hdone : (unitEnd c x.landed g).completed = true
  · have hend : completedEnd c (unitEnd c x.landed g).channel = applyDiscard c (unitEnd c x.landed g).channel k false := by
      unfold completedEnd
      rw [hrecorded]
    have hchain : ¬ x.followsChain = true := by
      unfold Channel.followsChain
      rw [hq]
      exact Bool.false_ne_true
    exact (State.takeEndReport_completed hc hx hg hp herr hdone).trans ((if_neg hchain).trans (by rw [hend]))
  · have hend : recordedEnd c (unitEnd c x.landed g).channel = applyDiscard c (unitEnd c x.landed g).channel k false := by
      unfold recordedEnd
      rw [hrecorded]
      rfl
    rw [State.takeEndReport_recorded hc hx hg hp herr (by simpa using hdone), hend]

/-- So does a TEARDOWN. -/
theorem State.takeEndReport_teardown (hq : x.recorded = some .teardown) : s.takeEndReport u =
    let e := (applyTeardown c (unitEnd c x.landed g).channel).after (unitEnd c x.landed g).events
    s.reported c p e.channel e.events e.notices := by
  have hrecorded : (unitEnd c x.landed g).channel.recorded = some .teardown := (unitEnd_keeps c x.landed g).1.trans hq
  by_cases hdone : (unitEnd c x.landed g).completed = true
  · have hend : completedEnd c (unitEnd c x.landed g).channel = applyTeardown c (unitEnd c x.landed g).channel := by
      unfold completedEnd
      rw [hrecorded]
    have hchain : ¬ x.followsChain = true := by
      unfold Channel.followsChain
      rw [hq]
      decide
    exact (State.takeEndReport_completed hc hx hg hp herr hdone).trans ((if_neg hchain).trans (by rw [hend]))
  · have hend : recordedEnd c (unitEnd c x.landed g).channel = applyTeardown c (unitEnd c x.landed g).channel := by
      unfold recordedEnd
      rw [hrecorded]
      rfl
    rw [State.takeEndReport_recorded hc hx hg hp herr (by simpa using hdone), hend]

/-- A completed run that keeps its program follows its chain on the hub behind its own effect. -/
theorem State.takeEndReport_chain (hdone : (unitEnd c x.landed g).completed = true) (hkeeps : x.keepsProgram) :
    s.takeEndReport u = (s.reported c p { (unitEnd c x.landed g).channel with recorded := none } (unitEnd c x.landed g).events []).followChain
      c (some p) g.chain := by
  have hend : (unitEnd c x.landed g).channel.keepsProgram := by
    unfold Channel.keepsProgram
    rw [(unitEnd_keeps c x.landed g).1]
    exact hkeeps
  refine (State.takeEndReport_completed hc hx hg hp herr hdone).trans ((if_pos hkeeps.followsChain).trans ?_)
  rw [completedEnd_keep hend, Effect.after, Effect.keep, List.append_nil]

end

/-- Settles O45: the report's effect, then the chain on the hub it leaves. -/
theorem unitEndReportEffect : Obligations.UnitEndReportEffect := by
  unfold Obligations.UnitEndReportEffect
  intro s u c x g p hu hphase hc hx hg hp y e ended leaves releases
  have leave {z : Channel} {es : List Event} {ns : List Notice} (h : s.takeEndReport u = s.reported c p z es ns) : leaves z es ns :=
    (exec_unitEndReport hu hphase).trans (congrArg _ h)
  obtain ⟨hrecorded, hlessee, hprogram, -, -⟩ := unitEnd_keeps c x.landed g
  have hreleases {z : Channel} (hz : z.program = some g) : z.releases = releases := by
    unfold Channel.releases
    rw [hz]
  have hyReleases : x.landed.releases = releases := hreleases hg
  have heReleases : (unitEnd c x.landed g).channel.releases = releases := hreleases (hprogram.trans hg)
  refine ⟨fun herr => ?marked, fun herr => ⟨fun k hk => ?discard, fun htear => ?teardown, fun hgoes => ?goesOn, fun hdone hweaker => ?completed⟩⟩
  case marked =>
    have htaken := State.takeEndReport_marked hc hx hg hp herr
    refine ⟨fun hweaker => leave (htaken.trans ?_), fun k hk => leave (htaken.trans ?_), fun htear => leave (htaken.trans ?_)⟩
    · rw [dataErrorEnd_stopped (x := x.landed) hweaker]
      rfl
    · rw [dataErrorEnd_discard (x := x.landed) hk, applyDiscard_eq, hyReleases]
      rfl
    · rw [dataErrorEnd_teardown (x := x.landed) htear, applyTeardown_eq c (x := x.landed) hp, hyReleases]
  case discard =>
    refine leave ((State.takeEndReport_discard hc hx hg hp herr hk).trans ?_)
    rw [applyDiscard_eq, heReleases]
    rfl
  case teardown =>
    refine leave ((State.takeEndReport_teardown hc hx hg hp herr htear).trans ?_)
    rw [applyTeardown_eq c (hlessee.trans hp), heReleases]
    exact congrArg (s.reported c p Channel.empty · _) (List.append_nil _)
  case goesOn =>
    have htaken := State.takeEndReport_recorded hc hx hg hp herr hgoes
    have hend {q : Request} (hq : x.recorded = some q) : recordedEnd c (unitEnd c x.landed g).channel =
        applyRequest c { (unitEnd c x.landed g).channel with recorded := none } false q := by
      unfold recordedEnd
      rw [hrecorded.trans hq]
    have hstop : ({ (unitEnd c x.landed g).channel with recorded := none } : Channel).notifiesStop = g.notify.stop := by
      unfold Channel.notifiesStop
      rw [show ({ (unitEnd c x.landed g).channel with recorded := none } : Channel).program = some g from hprogram.trans hg]
      rfl
    refine ⟨fun hnone => leave (htaken.trans ?_), fun k hk => leave (htaken.trans ?_), fun hk => leave (htaken.trans ?_),
      fun hk => leave (htaken.trans ?_)⟩
    · have hkeep : recordedEnd c (unitEnd c x.landed g).channel = Effect.keep (unitEnd c x.landed g).channel := by
        unfold recordedEnd
        rw [hrecorded.trans hnone]
      rw [hkeep]
      exact congrArg (s.reported c p _ · _) (List.append_nil _)
    · rw [hend hk]
      simp only [applyRequest, applySuspend, hstop]
      rfl
    · rw [hend hk]
      simp only [applyRequest, applyAbort, hstop, reduceCtorEq, false_or]
      rfl
    · rw [hend hk]
      simp only [applyRequest, applyAbort, true_or, if_true]
      rfl
  case completed =>
    intro z
    have htaken := State.takeEndReport_chain hc hx hg hp herr hdone hweaker
    refine ⟨fun hnone => leave (htaken.trans (by rw [hnone]; rfl)), fun d hd => ?_⟩
    intro target fails
    rw [hd] at htaken
    have htarget : (s.reported c p z e.events []).channel d = target := by
      unfold State.reported
      rw [State.offerEvents_channel, State.setNotices_channel, State.setChannel_channel]
      by_cases hdc : d = c
      · rw [if_pos hdc.symm]
        exact (if_pos hdc).symm
      · rw [if_neg (Ne.symm hdc)]
        exact (if_neg hdc).symm
    have hhalted : (s.reported c p z e.events []).halted p = s.halted p := by
      unfold State.reported State.halted
      rw [State.offerEvents_pins]
      rfl
    have hfailure : (s.reported c p z e.events []).chainFailure (some p) d =
        if target.lessee ≠ some p then some .notLessee
        else if target.state ≠ .programmed then some .wrongState
        else if s.halted p = true then some .halted
        else none := by rw [State.chainFailure_eq, htarget, hhalted]
    have fail {reason : ChainReason} (h : (s.reported c p z e.events []).chainFailure (some p) d = some reason) : fails reason :=
      leave (htaken.trans ((State.followChain_fails h).trans (State.reported_offerEvent _)))
    refine ⟨fun hl => fail (hfailure.trans (if_pos hl)),
      fun hl hstate => fail (hfailure.trans ((if_neg (not_not.2 hl)).trans (if_pos hstate))),
      fun hl hstate hlow => fail (hfailure.trans ((if_neg (not_not.2 hl)).trans ((if_neg (not_not.2 hstate)).trans
        (if_pos (by simp [State.halted, hlow]))))), fun h hl hstate hhigh hh => ?_⟩
    have harms : (s.reported c p z e.events []).chainFailure (some p) d = none :=
      hfailure.trans ((if_neg (not_not.2 hl)).trans ((if_neg (not_not.2 hstate)).trans (if_neg (by simp [State.halted, hhigh]))))
    refine (exec_unitEndReport hu hphase).trans (congrArg _ (htaken.trans ((State.followChain_arms harms (htarget ▸ hh)).trans ?_)))
    have hblock : h.blockUnits = match h.mode with
        | .block _ _ b _ => b
        | .single _ _ | .cyclic _ _ | .sweep _ => 0 := by
      unfold Program.blockUnits
      cases h.mode <;> rfl
    have hsweep : h.mode.isSweep = match h.mode with
        | .sweep _ => true
        | .single _ _ | .cyclic _ _ | .block _ _ _ _ => false := by cases h.mode <;> rfl
    rw [htarget, Channel.armed, Program.initialRun, hblock, hsweep] <;> rfl

end Sys2Proof.Machine
end

section
/-! PROOF of O53 (REFERENCE_RELEASE and LEASE_END) and O52 (WINDOW_ACCESS): what the two notices take back, and what an admitted
access reads or stores. -/

set_option Elab.async false

namespace Sys2Proof.Machine

/-! ### The notices of the channel controller (O53) -/

theorem State.setRegion_setRegion (s : State) (i : Slot) (r r' : Region) : (s.setRegion i r).setRegion i r' = s.setRegion i r' := by
  unfold State.setRegion put
  simp only [Vector.set_set]

section
variable {s : State} {rest : List Notice}

theorem exec_referenceRelease {h : Handle} {i : Slot} (hn : s.table.notices = .referenceRelease h :: rest)
    (haccess : s.accessPending = false) (hi : h.slot.toNat = i.val) :
    exec .referenceRelease s = .next ((s.setNotices rest).releaseReference i) := by
  rw [exec, execReferenceRelease, State.nextNotice_of hn haccess]
  simp only [Handle.slot?_of_toNat hi]

theorem exec_leaseEnd {c : Chan} {p : Port} (hn : s.table.notices = .leaseEnd c p :: rest) (haccess : s.accessPending = false) :
    let t := s.setNotices rest
    exec .leaseEnd s = .next ((t.setQuota p { s.quota p with channels := (s.quota p).channels - 1 }).closingSettled p) := by
  rw [exec, execLeaseEnd, State.nextNotice_of hn haccess]
  exact congrArg Host.Outcome.next (State.settleClosing_eq ..)

variable (s) (i : Slot)

/-- A reference comes back to a region that is not RETIRING, or keeps others (R12). -/
theorem State.releaseReference_counted (hlast : (s.region i).state ≠ .retiring ∨ 1 < (s.region i).refs) : s.releaseReference i =
    (s.setRegion i { s.region i with refs := (s.region i).refs - 1 }).closingSettled (s.region i).owner := by
  have hkept : ¬ ((s.region i).state = .retiring ∧ (s.region i).refs - 1 = 0) := by
    rintro ⟨hretiring, hzero⟩
    rcases hlast with hlast | hlast
    · exact hlast hretiring
    · omega
  unfold State.releaseReference
  simp only [if_neg hkept, State.settleClosing_eq]

/-- The last reference of a RETIRING region comes back (R12, R16). -/
theorem State.releaseReference_last (hretiring : (s.region i).state = .retiring) (hrefs : (s.region i).refs = 1) :
    s.releaseReference i =
      ((((s.setRegion i { s.region i with refs := 0, state := .scrubbing }).setQuota (s.region i).owner
        { s.quota (s.region i).owner with
          granules := (s.quota (s.region i).owner).granules - (s.region i).length
          regions := (s.quota (s.region i).owner).regions - 1 }).setScrub
        { s.scrub with queue := s.scrub.queue ++ [{ slot := i, base := (s.region i).base, length := (s.region i).length }] }).offerEvents
        [((s.region i).owner, .regionRetired (s.handle i))]).closingSettled (s.region i).owner := by
  have hlast : (s.region i).state = .retiring ∧ (s.region i).refs - 1 = 0 := ⟨hretiring, by omega⟩
  unfold State.releaseReference
  simp only [if_pos hlast, State.settleClosing_eq, State.enterScrubbing, State.setRegion_region, if_true, State.setRegion_setRegion]
  rfl

end

/-- Settles O53, one clause for each notice; the last reference of a RETIRING region apart. -/
theorem releaseAndLeaseEndNotices : Obligations.ReleaseAndLeaseEndNotices := by
  unfold Obligations.ReleaseAndLeaseEndNotices
  refine ⟨fun s h i rest hn haccess hi => ⟨fun hlast => ?counted, fun hretiring hrefs => ?last⟩,
    fun s c p rest hn haccess => exec_leaseEnd hn haccess⟩
  case counted =>
    exact (exec_referenceRelease hn haccess hi).trans (congrArg Host.Outcome.next ((s.setNotices rest).releaseReference_counted i hlast))
  case last =>
    exact (exec_referenceRelease hn haccess hi).trans
      (congrArg Host.Outcome.next ((s.setNotices rest).releaseReference_last i hretiring hrefs))

/-! ### The admitted access (O52) -/

section
variable {s : State} {p : Port}

theorem exec_windowAccess_idle (hidle : ∀ w ∈ (s.link p).window, w.admitted = false) : exec (.windowAccess p) s = .next s := by
  rw [exec, execWindowAccess]
  cases hw : (s.link p).window with
  | none => rfl
  | some w =>
    have hadmitted := hidle w hw
    simp only [hadmitted, Bool.not_false, if_true]

theorem exec_windowCheck_none (hw : (s.link p).window = none) : exec (.windowCheck p) s = .next s := by
  rw [exec, execWindowCheck, hw]

variable {w : WindowRequest} (hw : (s.link p).window = some w) (hadmitted : w.admitted = true)
include hw hadmitted

theorem exec_windowAccess_fault (hout : memoryBytes < w.addr.toNat + w.length) :
    exec (.windowAccess p) s = .fault .noSuchByte := by
  rw [exec, execWindowAccess, hw]
  simp [hadmitted, hout]

theorem exec_windowAccess_read (hdir : w.direction = .read) (hin : w.addr.toNat + w.length ≤ memoryBytes) :
    exec (.windowAccess p) s = .next (s.setLink p ((s.link p).windowDone w (s.windowData w))) := by
  rw [exec, execWindowAccess, hw]
  simp [hadmitted, hdir, Nat.not_lt.2 hin]

theorem exec_windowAccess_write (hdir : w.direction = .write) (hin : w.addr.toNat + w.length ≤ memoryBytes)
    (hbuffer : (s.link p).buffer.length = w.length) :
    exec (.windowAccess p) s = .next ((s.setMem (s.mem.writeSpan w.addr.toNat (s.link p).buffer)).setLink p
      ((s.link p).windowDone w [trailerOk])) := by
  rw [exec, execWindowAccess, hw]
  simp [hadmitted, hdir, hbuffer, Nat.not_lt.2 hin]

end

/-- The trailer tells a parity error anywhere in the span (R38). -/
theorem State.trailer_eq (s : State) (w : WindowRequest) :
    (if s.mem.spanError w.addr.toNat w.length then trailerDataError else trailerOk) =
      (if ∃ k, k < w.length ∧ s.mem.parityError (w.addr.toNat + k) = true then (0xC2 : Byte) else 0xC1) := by
  simp only [← Memory.spanError_iff]
  rfl

/-- Settles O52: nothing to serve, past the last byte, a read, a write. -/
theorem windowAccessEffect : Obligations.WindowAccessEffect := by
  unfold Obligations.WindowAccessEffect
  refine ⟨fun s p hidle => ⟨exec_windowAccess_idle hidle, exec_windowCheck_none⟩, fun s p w hw hadmitted => ?_⟩
  refine ⟨exec_windowAccess_fault hw hadmitted, fun hdir hin => ?read, fun hdir hin hbuffer hlaw hdefined => ?write⟩
  case read =>
    refine ⟨s.mem.readSpan w.addr.toNat w.length, s.mem.readSpan_length _ _, fun k hk => ?_, ?_⟩
    · rw [List.getElem?_eq_getElem (by simpa using hk), s.mem.readSpan_getElem _ _ _ hk]
    · rw [exec_windowAccess_read hw hadmitted hdir hin, State.windowData, s.trailer_eq w, Link.windowDone, hdir] <;> rfl
  case write =>
    have hspan : w.addr.toNat + (s.link p).buffer.length ≤ s.mem.definedTo := by omega
    refine ⟨s.mem.writeSpan w.addr.toNat (s.link p).buffer, ?_, s.mem.writeSpan_definedTo _ _, fun a _ => ?_⟩
    · rw [exec_windowAccess_write hw hadmitted hdir hin hbuffer, Link.windowDone, hdir] <;> rfl
    · rw [← hbuffer]
      exact ⟨Memory.read_writeSpan hlaw _ _ hspan a, s.mem.parityError_writeSpan _ _ hspan a⟩

end Sys2Proof.Machine
end

section
/-! PROOF of O46 (a frame is its parts) and O50 (the frames that are ignored): what SELk's fall, the code byte, the bytes and the
rise make of a link, each by a lemma of its own. -/

set_option Elab.async false

namespace Sys2Proof.Machine

/-! ### Bytes of flags -/

/-- The number a list of flags spells, the first its lowest bit. -/
def flagValue : List Bool → Nat
  | [] => 0
  | b :: rest => 2 * flagValue rest + flagBit b

theorem yesNo_flagBit (b : Bool) : yesNo b = BitVec.ofNat 8 (flagBit b) := by cases b <;> rfl

theorem flagByte_eq (bits : List Bool) : flagByte bits = BitVec.ofNat 8 (flagValue bits) := by
  induction bits with
  | nil => rfl
  | cons b rest ih =>
    have hcons : flagByte (b :: rest) = flagByte rest * 2 + yesNo b := rfl
    rw [hcons, ih, yesNo_flagBit, flagValue, BitVec.ofNat_add, Nat.mul_comm, BitVec.ofNat_mul] <;> rfl

section
variable {s : State} {p : Port}

/-- The summary as a number (R152). -/
theorem State.summary_eq (s : State) (p : Port) :
    let l := s.link p
    s.summary p = BitVec.ofNat 8 (64 * linkStateCode l.notReady (s.session p) +
      (if l.notReady then 0 else 32 * flagBit (decide (l.commands.length < 4)) + 16 * flagBit (!l.results.isEmpty) +
        8 * flagBit (!l.events.isEmpty) + 4 * flagBit l.malformed) +
      2 * flagBit (look s.pins.halt p == .low) + flagBit (look s.pins.clr p == .low)) := by
  have hroom : Config.commandRoom = 4 := rfl
  unfold State.summary State.heldClosed State.halted byteOf
  dsimp only
  rw [flagByte_eq, ← BitVec.ofNat_add, hroom]
  cases (s.link p).notReady with
  | true =>
    refine congrArg (BitVec.ofNat 8) ?_
    simp only [flagValue, flagBit, Bool.not_true, Bool.false_and, Bool.false_eq_true, if_false, if_true]
    omega
  | false =>
    refine congrArg (BitVec.ofNat 8) ?_
    simp only [flagValue, Bool.not_false, Bool.true_and, Bool.false_eq_true, if_false]
    omega

/-! ### The parts, one by one -/

theorem exec_select (hf : (s.link p).frame = none) (code : Byte) : exec (frameOf p code .select) s = .next (s.selectFrame p) := by
  rw [exec_frameOf]
  unfold State.framePart
  simp only [hf]

theorem exec_opening (hf : (s.link p).frame = none) (code : Byte) (bs : List Byte) :
    let u := (s.selectFrame p).codeByte p code
    exec (frameOf p code (.opening bs)) s = .next (u.setLink p (bs.foldl Link.clock (u.link p))) := by
  rw [exec_frameOf]
  unfold State.framePart
  simp only [hf]

theorem exec_whole (hf : (s.link p).frame = none) (code : Byte) (bs : List Byte) :
    let u := (s.selectFrame p).codeByte p code
    exec (frameOf p code (.whole bs)) s = .next (u.setLink p (bs.foldl Link.clock (u.link p)).deselect) := by
  rw [exec_frameOf]
  unfold State.framePart
  simp only [hf, State.setLink_link, if_true, State.setLink_setLink_same]

section
variable {f : Frame} (hf : (s.link p).frame = some f)
include hf

theorem exec_code (hc : f.code = none) (code : Byte) : exec (frameOf p code .code) s = .next (s.codeByte p code) := by
  rw [exec_frameOf]
  unfold State.framePart
  simp only [hf, hc, if_true]

theorem exec_bytes {code : Byte} (hc : f.code = some code) (bs : List Byte) :
    exec (frameOf p code (.bytes bs)) s = .next (s.setLink p (bs.foldl Link.clock (s.link p))) := by
  rw [exec_frameOf, State.framePart_bytes s p code f bs hf hc]

theorem exec_deselect {code : Byte} (hc : f.code = none ∨ f.code = some code) :
    exec (frameOf p code .deselect) s = .next (s.setLink p (s.link p).deselect) := by
  rw [exec_frameOf]
  unfold State.framePart
  simp only [hf, hc, if_true]

end

/-- A part that cannot come between frames (log entry 2). -/
theorem exec_part_between (hf : (s.link p).frame = none) (code : Byte) (bs : List Byte) :
    ∀ part ∈ [FramePart.code, .bytes bs, .deselect], exec (frameOf p code part) s = .next s := by
  have hidle : ∀ part ∈ [FramePart.code, .bytes bs, .deselect], s.framePart p code part = s := by
    simp [State.framePart, hf]
  exact fun part hpart => (exec_frameOf p code part s).trans (congrArg Host.Outcome.next (hidle part hpart))

/-- A part that cannot come within a frame (log entry 2). -/
theorem exec_part_within (hf : (s.link p).frame ≠ none) (code : Byte) (bs : List Byte) :
    ∀ part ∈ [FramePart.select, .opening bs, .whole bs], exec (frameOf p code part) s = .next s := by
  obtain ⟨f, hf⟩ := Option.ne_none_iff_exists'.1 hf
  have hidle : ∀ part ∈ [FramePart.select, .opening bs, .whole bs], s.framePart p code part = s := by
    simp [State.framePart, hf]
  exact fun part hpart => (exec_frameOf p code part s).trans (congrArg Host.Outcome.next (hidle part hpart))

/-! ### The code byte -/

/-- The link answer, in the order of R153. -/
theorem State.linkAnswer_eq (s : State) (p : Port) (notReady : Bool) (code : Byte) :
    let l := s.link p
    s.linkAnswer p notReady code =
      if notReady = true ∨ l.window ≠ none then .notReady
      else if code = 0x02 then
        if s.session p = .closing then .closing
        else if 4 ≤ l.commands.length then .full
        else if look s.pins.clr p = .low then .held
        else .accepted
      else if code = 0x03 then (if l.results = [] then .empty else .accepted)
      else if code = 0x04 then (if l.events = [] then .empty else .accepted)
      else if code = 0x01 ∨ code = 0x05 ∨ code = 0x06 then .accepted
      else .malformed := by
  have hroom : Config.commandRoom = 4 := rfl
  unfold State.linkAnswer
  simp only [State.heldClosed, hroom, Bool.or_eq_true, Option.isSome_iff_ne_none, List.isEmpty_iff, beq_iff_eq]

/-- What the code byte takes from the link: the malformed flag and the head of a queue (R151, R155, R164, R172). -/
theorem State.answered_link (s : State) (p : Port) (code : Byte) (answer : LinkAnswer) :
    let l := s.link p
    let takes := fun c : Byte => answer = .accepted ∧ code = c
    (s.answered p code answer).1 = { l with
      malformed := if answer = .malformed then true else if takes 0x01 then false else l.malformed
      results := if takes 0x03 then l.results.tail else l.results
      events := if takes 0x04 then l.events.tail else l.events } := by
  unfold State.answered
  cases answer with
  | accepted =>
    by_cases h1 : code = 0x01
    · subst h1; rfl
    · by_cases h3 : code = 0x03
      · subst h3; rfl
      · by_cases h4 : code = 0x04
        · subst h4; rfl
        · simp only [h1, h3, h4, and_false, if_false, reduceCtorEq]
  | _ => simp

theorem State.answered_sent_nil (s : State) (p : Port) (code : Byte) (answer : LinkAnswer)
    (h : ∀ c ∈ [(0x01 : Byte), 0x03, 0x04], ¬ (answer = .accepted ∧ code = c)) : (s.answered p code answer).2 = [] := by
  unfold State.answered
  cases answer with
  | accepted => simp_all
  | _ => rfl

theorem LinkAnswer.takesIn_eq (answer : LinkAnswer) : answer.takesIn = decide (answer = .accepted ∨ answer = .held) := by
  cases answer <;> rfl

/-- The fall of SELk and the code byte leave a frame with that code. -/
theorem State.begun_frame (s : State) (p : Port) (code : Byte) :
    ∃ f, (((s.selectFrame p).codeByte p code).link p).frame = some f ∧ f.code = some code := by
  rw [State.begun_eq, State.setLink_link, if_pos rfl]
  exact ⟨_, rfl, rfl⟩

theorem State.selectFrame_frame (s : State) (p : Port) : ∃ f, ((s.selectFrame p).link p).frame = some f ∧ f.code = none := by
  rw [State.selectFrame, State.setLink_link, if_pos rfl]
  exact ⟨_, rfl, rfl⟩

/-! ### The bytes and the rise -/

/-- A byte leaves the code and the answer of the frame as they stand. -/
theorem Link.clock_keeps_code {l : Link} {f : Frame} (hf : l.frame = some f) (b : Byte) :
    ∃ g, (l.clock b).frame = some g ∧ g.code = f.code := by
  unfold Link.clock Link.commandByte Link.windowReadByte Link.windowWriteByte Link.askWindow
  simp only [hf]
  split_ifs
  all_goals exact ⟨_, rfl, rfl⟩

theorem Link.foldl_clock_keeps_code (bs : List Byte) {l : Link} {f : Frame} (hf : l.frame = some f) :
    ∃ g, (bs.foldl Link.clock l).frame = some g ∧ g.code = f.code := by
  induction bs generalizing l f with
  | nil => exact ⟨f, hf, rfl⟩
  | cons b bs ih =>
    obtain ⟨g, hg, hcode⟩ := Link.clock_keeps_code hf b
    obtain ⟨h, hh, hcode'⟩ := ih hg
    exact ⟨h, hh, hcode'.trans hcode⟩

/-- The bytes of a frame that takes nothing in (R151, R165). -/
theorem Frame.Quiet.of_code {f : Frame} {code : Byte} (hc : f.code = some code)
    (h : f.live = false ∨ (code ≠ 0x02 ∧ code ≠ 0x05 ∧ code ≠ 0x06)) : f.Quiet := by
  rcases h with h | ⟨h2, h5, h6⟩
  · exact .inl h
  · exact .inr (.inl (by simp only [hc, ne_eq, Option.some.injEq]; exact ⟨h2, h5, h6⟩))

theorem Frame.short_iff (f : Frame) : f.short = true ↔ f.live = true ∧
    (f.code = some 0x02 ∨ (f.code = some 0x05 ∧ f.received.length < 4) ∨
      (f.code = some 0x06 ∧ (f.received.length < 4 ∨ f.received.length < 5 + (f.received.getD 3 0).toNat))) := by
  have hlength : 4 + windowLength f.received = 5 + (f.received.getD 3 0).toNat := by
    unfold windowLength byteAt
    omega
  unfold Frame.short
  simp only [hlength, Bool.and_eq_true, Bool.or_eq_true, beq_iff_eq, decide_eq_true_eq, or_assoc]

theorem Link.deselect_eq {l : Link} {f : Frame} (hf : l.frame = some f) {short : Prop} [Decidable short]
    (hshort : f.short = true ↔ short) :
    l.deselect = { l with
      frame := none, malformed := l.malformed || decide short
      buffer := if short ∧ f.code = some 0x06 then [] else l.buffer
      window := l.window.map fun w => { w with framed := false } } := by
  have hdecide : f.short = decide short := Bool.eq_iff_iff.2 (hshort.trans decide_eq_true_iff.symm)
  unfold Link.deselect
  simp only [hf, hdecide, Bool.and_eq_true, decide_eq_true_eq, beq_iff_eq]

end

/-- Settles O46, one lemma for each part. -/
theorem framesAreTheirParts : Obligations.FramesAreTheirParts := by
  unfold Obligations.FramesAreTheirParts
  refine fun p code => ⟨fun s hf => ?select, fun s f hf hc => ?code, fun s f a bs hf hc ha hquiet hw => ?bytes,
    fun s f hf hc => ?rise, fun s t u v bs hf ht hu hv => ?whole, fun s t f as bs hf hc ht => ?more,
    fun s bs => ⟨fun hf => exec_part_between hf code bs, fun hf => exec_part_within hf code bs⟩⟩
  case select =>
    rw [exec_select hf, State.selectFrame, s.summary_eq p] <;> rfl
  case code =>
    have hanswer := s.linkAnswer_eq p f.notReady code
    refine ⟨(s.answered p code (s.linkAnswer p f.notReady code)).2, fun hno => ?_, ?_⟩
    · exact s.answered_sent_nil p code _ (by rw [hanswer]; simpa using hno)
    · rw [exec_frameOf, s.framePart_code p code f hf hc, s.answered_link, LinkAnswer.takesIn_eq, ← hanswer]
  case bytes =>
    have hq := Frame.Quiet.of_code hc hquiet
    rw [exec_bytes hf hc]
    split_ifs with hr
    · rw [Link.foldl_clock_first bs _ f hf hq hr hw a ha, hr] <;> rfl
    · rw [Link.foldl_clock_quiet bs _ f hf hq hr hw]
  case rise =>
    exact (exec_deselect hf hc).trans (congrArg (fun l => Host.Outcome.next (s.setLink p l)) (Link.deselect_eq hf f.short_iff))
  case whole =>
    obtain ⟨f, hfell, hnone⟩ := s.selectFrame_frame p
    obtain ⟨g, hbegun, hcode⟩ := s.begun_frame p code
    obtain rfl := Host.Outcome.next.inj ((exec_select hf code).symm.trans ht)
    obtain rfl := Host.Outcome.next.inj ((exec_code hfell hnone code).symm.trans hu)
    obtain rfl := Host.Outcome.next.inj ((exec_bytes hbegun hcode bs).symm.trans hv)
    obtain ⟨k, hk, hsame⟩ := Link.foldl_clock_keeps_code bs hbegun
    refine ⟨exec_opening hf code bs, (exec_whole hf code bs).trans ?_⟩
    rw [exec_deselect (f := k) (by rw [State.setLink_link, if_pos rfl, hk]) (.inr (hsame.trans hcode)), State.setLink_link, if_pos rfl,
      State.setLink_setLink_same]
  case more =>
    obtain rfl := Host.Outcome.next.inj ((exec_bytes hf hc as).symm.trans ht)
    obtain ⟨k, hk, hsame⟩ := Link.foldl_clock_keeps_code as hf
    rw [exec_bytes hf hc, exec_bytes (f := k) (by rw [State.setLink_link, if_pos rfl, hk]) (hsame.trans hc), State.setLink_link,
      if_pos rfl, State.setLink_setLink_same, List.foldl_append]

/-! ### The frames that are ignored (O50) -/

section
variable {s : State} {p : Port}

theorem Link.no_frame {l : Link} (hf : l.frame = none) (out : List Byte) : { l with frame := none, out } = { l with out } := by
  rw [← hf]

/-- A frame in one step that takes nothing in. -/
theorem exec_whole_quiet {answer : LinkAnswer} {code : Byte} (bs : List Byte) (hf : (s.link p).frame = none)
    (ha : s.linkAnswer p (s.link p).notReady code = answer)
    (hq : answer.takesIn = false ∨ (code ≠ 0x02 ∧ code ≠ 0x05 ∧ code ≠ 0x06)) (hw : ∀ w ∈ (s.link p).window, w.framed = false) :
    exec (frameOf p code (.whole bs)) s = .next (s.setLink p { (s.answered p code answer).1 with
      frame := none, out := s.summary p :: bytesBeside answer (s.answered p code answer).2 bs.length }) := by
  rw [exec_frameOf, s.framePart_whole_quiet p code bs hf answer ha hq hw]

theorem code_ne_of_unknown {code c : Byte} (hcode : code = 0 ∨ 7 ≤ code.toNat) (h1 : 1 ≤ c.toNat) (h6 : c.toNat ≤ 6) : code ≠ c := by
  rintro rfl
  rcases hcode with rfl | h7
  · exact absurd h1 (by decide)
  · omega

/-- UNKNOWN_CODE_FRAME is the row of the frames whose code names no transaction. -/
theorem frameOf_unknown (p : Port) {code : Byte} (hcode : code = 0 ∨ 7 ≤ code.toNat) (part : FramePart) :
    frameOf p code part = .unknownCodeFrame p code part := by
  have hnot := fun c => code_ne_of_unknown (c := c) hcode
  unfold frameOf
  rw [if_neg (hnot _ (by decide) (by decide)), if_neg (hnot _ (by decide) (by decide)), if_neg (hnot _ (by decide) (by decide)),
    if_neg (hnot _ (by decide) (by decide)), if_neg (hnot _ (by decide) (by decide)), if_neg (hnot _ (by decide) (by decide))]

theorem State.linkAnswer_unknown (hready : (s.link p).Ready) {code : Byte} (hcode : code = 0 ∨ 7 ≤ code.toNat) :
    s.linkAnswer p (s.link p).notReady code = .malformed := by
  have hnot := fun c => code_ne_of_unknown (c := c) hcode
  rw [State.linkAnswer_ready hready, if_neg (hnot _ (by decide) (by decide)), if_neg (hnot _ (by decide) (by decide)),
    if_neg (hnot _ (by decide) (by decide)), if_neg]
  rintro (h | h | h)
  · exact hnot _ (by decide) (by decide) h
  · exact hnot _ (by decide) (by decide) h
  · exact hnot _ (by decide) (by decide) h

end

/-- Settles O50. -/
theorem refusedFrames : Obligations.RefusedFrames := by
  unfold Obligations.RefusedFrames
  refine ⟨fun s p code bs hf hbusy hw => ?notReady, fun s p code bs hready hcode => ?malformed, fun s p code part h1 h6 => ?known⟩
  case notReady =>
    have hanswer : s.linkAnswer p (s.link p).notReady code = .notReady := (s.linkAnswer_eq p _ code).trans (if_pos hbusy)
    rw [exec_whole_quiet bs hf hanswer (.inl rfl) hw]
    exact congrArg (fun l => Host.Outcome.next (s.setLink p l)) (Link.no_frame hf _)
  case malformed =>
    have hwindow : ∀ w ∈ (s.link p).window, w.framed = false := by simp [hready.window]
    rw [← frameOf_unknown p hcode, exec_whole_quiet bs hready.frame (State.linkAnswer_unknown hready hcode) (.inl rfl) hwindow]
    exact congrArg (fun l => Host.Outcome.next (s.setLink p l)) (Link.no_frame (l := { s.link p with malformed := true }) hready.frame _)
  case known =>
    rw [exec, execUnknownCodeFrame, if_pos ⟨h1, h6⟩]

end Sys2Proof.Machine
end

section
/-! PROOF of O47 (STATUS_READ, RESULT_READ and EVENT_READ): the status block, the records sent, and their codes. -/

set_option Elab.async false

namespace Sys2Proof.Machine

/-! ### The status block -/

theorem Link.interrupt_eq (l : Link) : l.interrupt =
    decide ((l.settings.onResult = true ∧ l.results ≠ []) ∨ (l.settings.onEvent = true ∧ l.events ≠ [])) := by
  have hwaits : ∀ (b : Bool) (n : Bool), (b && !n) = true ↔ b = true ∧ ¬ n = true := by decide
  unfold Link.interrupt
  rw [Bool.eq_iff_iff, Bool.or_eq_true, hwaits, hwaits, List.isEmpty_iff, List.isEmpty_iff, decide_eq_true_iff]

theorem flagValue_trg (f : Fin 8 → Bool) :
    flagValue ((indices 8).map f) = ((indices 8).map fun n => 2 ^ n.val * flagBit (f n)).sum := by
  have hindices : indices 8 = [0, 1, 2, 3, 4, 5, 6, 7] := by decide
  rw [hindices]
  simp only [List.map_cons, List.map_nil, List.sum_cons, List.sum_nil, flagValue]
  simp
  omega

/-- The status block with its flags as numbers (R155). -/
theorem State.statusBlock_eq (s : State) (p : Port) :
    let l := s.link p
    s.statusBlock p =
      [BitVec.ofNat 8 p.val, (s.session p).code, s.table.quotaMode.code, BitVec.ofNat 8 l.commands.length,
        BitVec.ofNat 8 l.results.length, BitVec.ofNat 8 l.events.length,
        BitVec.ofNat 8 (flagBit l.malformed + 2 * flagBit l.settings.onResult + 4 * flagBit l.settings.onEvent +
          8 * flagBit l.settings.reportDenials +
          16 * flagBit (decide ((l.settings.onResult = true ∧ l.results ≠ []) ∨ (l.settings.onEvent = true ∧ l.events ≠ []))) +
          32 * flagBit (look s.pins.halt p == .low) + 64 * flagBit (look s.pins.clr p == .low)),
        BitVec.ofNat 8 ((indices 8).map fun n => 2 ^ n.val * flagBit (look s.pins.trg n == .high)).sum] := by
  unfold State.statusBlock State.halted State.heldClosed
  dsimp only
  rw [flagByte_eq, flagByte_eq, flagValue_trg, Link.interrupt_eq]
  have hflags (a b c d e f g : Bool) : flagValue [a, b, c, d, e, f, g] =
      flagBit a + 2 * flagBit b + 4 * flagBit c + 8 * flagBit d + 16 * flagBit e + 32 * flagBit f + 64 * flagBit g := by
    simp only [flagValue]
    omega
  rw [hflags] <;> rfl

/-! ### What a read answers -/

section
variable {s : State} {p : Port}

theorem State.linkAnswer_status (hw : (s.link p).window = none) : s.linkAnswer p false 0x01 = .accepted := by
  simp [s.linkAnswer_eq p false, hw]

theorem State.linkAnswer_result (hw : (s.link p).window = none) :
    s.linkAnswer p false 0x03 = if (s.link p).results = [] then .empty else .accepted := by
  simp [s.linkAnswer_eq p false, hw]

theorem State.linkAnswer_event (hw : (s.link p).window = none) :
    s.linkAnswer p false 0x04 = if (s.link p).events = [] then .empty else .accepted := by
  simp [s.linkAnswer_eq p false, hw]

theorem State.answered_result {r : ResultRecord} {rest : List ResultRecord} (h : (s.link p).results = r :: rest) :
    s.answered p 0x03 .accepted = ({ s.link p with results := rest }, r.encode) := by
  simp [State.answered, h]

theorem State.answered_event {e : Event} {rest : List Event} (h : (s.link p).events = e :: rest) :
    s.answered p 0x04 .accepted = ({ s.link p with events := rest }, e.encode) := by
  simp [State.answered, h]

variable {code : Byte} {answer : LinkAnswer} {l : Link} {sent : List Byte}
  (ha : s.linkAnswer p false code = answer) (hd : s.answered p code answer = (l, sent))
include ha hd

theorem exec_code_answered {f : Frame} (hf : (s.link p).frame = some f) (hc : f.code = none) (hready : f.notReady = false) :
    exec (frameOf p code .code) s = .next (s.setLink p { l with
      out := [f.summary]
      frame := some { f with
        code := some code, answer := some answer, toSend := sent, live := answer.takesIn, closed := false } }) := by
  rw [exec_frameOf, s.framePart_code p code f hf hc, hready, ha, hd]

theorem exec_whole_answered (hready : (s.link p).Ready) (hcode : code ≠ 0x02 ∧ code ≠ 0x05 ∧ code ≠ 0x06) (hl : l.frame = none)
    (bs : List Byte) :
    exec (frameOf p code (.whole bs)) s =
      .next (s.setLink p { l with out := s.summary p :: bytesBeside answer sent bs.length }) := by
  have hwindow : ∀ w ∈ (s.link p).window, w.framed = false := by simp [hready.window]
  rw [exec_whole_quiet bs hready.frame ((congrArg (s.linkAnswer p · code) hready.notReady).trans ha) (.inr hcode) hwindow, hd]
  exact congrArg (fun l => Host.Outcome.next (s.setLink p l)) (Link.no_frame hl _)

end

/-- Settles O47: the three reads whole and at the code byte, the event records, the codes. -/
theorem statusAndQueueReads : Obligations.StatusAndQueueReads := by
  unfold Obligations.StatusAndQueueReads
  refine ⟨fun s p => ?reads, fun e => ?events, fun x => ?_, fun x => ?_, fun x => ?_, fun x => ?_, fun x => ?_, fun x => ?_, fun x => ?_,
    fun x => ?_, fun x => ?_, fun x => ?_, fun x => ?_⟩
  case reads =>
    intro l bit int block record
    have hblock : s.statusBlock p = block := s.statusBlock_eq p
    have hstatus : s.answered p 0x01 .accepted = ({ l with malformed := false }, block) :=
      congrArg (Prod.mk { l with malformed := false }) hblock
    refine ⟨fun hready bs => ?whole, fun f hf hc hnot hw => ?code⟩
    case whole =>
      have hw := hready.window
      have hresult := State.linkAnswer_result hw
      have hevent := State.linkAnswer_event hw
      refine ⟨exec_whole_answered (State.linkAnswer_status hw) hstatus hready (by decide) hready.frame bs, fun h => ?_, fun r rest h => ?_,
        fun h => ?_, fun e rest h => ?_⟩
      · exact exec_whole_answered (hresult.trans (if_pos h)) rfl hready (by decide) hready.frame bs
      · exact exec_whole_answered (hresult.trans (if_neg (h ▸ List.cons_ne_nil _ _))) (State.answered_result h) hready (by decide) hready.frame bs
      · exact exec_whole_answered (hevent.trans (if_pos h)) rfl hready (by decide) hready.frame bs
      · exact exec_whole_answered (hevent.trans (if_neg (h ▸ List.cons_ne_nil _ _))) (State.answered_event h) hready (by decide) hready.frame bs
    case code =>
      have hresult := State.linkAnswer_result hw
      have hevent := State.linkAnswer_event hw
      refine ⟨exec_code_answered (State.linkAnswer_status hw) hstatus hf hc hnot, fun h => ?_, fun r rest h => ?_, fun h => ?_,
        fun e rest h => ?_⟩
      · exact exec_code_answered (hresult.trans (if_pos h)) rfl hf hc hnot
      · exact exec_code_answered (hresult.trans (if_neg (h ▸ List.cons_ne_nil _ _))) (State.answered_result h) hf hc hnot
      · exact exec_code_answered (hevent.trans (if_pos h)) rfl hf hc hnot
      · exact exec_code_answered (hevent.trans (if_neg (h ▸ List.cons_ne_nil _ _))) (State.answered_event h) hf hc hnot
  case events =>
    cases e with
    | channelDone c seen => cases seen <;> rfl
    | channelWrap c n seen => cases seen <;> rfl
    | channelStopped c cause err => cases err <;> rfl
    | channelSuspended c cause => cases cause <;> rfl
    | accessDenied addr length dir cause => cases dir <;> rfl
    | _ => rfl
  all_goals cases x <;> rfl

end Sys2Proof.Machine
end

section
/-! PROOF of O48 (COMMAND_WRITE): what each byte makes of the record, and the frame as the fold of its bytes. -/

set_option Elab.async false

namespace Sys2Proof.Machine

/-! ### A byte of the record (R156) -/

section
variable {l : Link} {f : Frame} {r : List Byte}

theorem Link.commandByte_malformed (hlen : f.received.length = 3) (hlong : 32 < (byteAt f.received 2).toNat) :
    l.commandByte f = { l with malformed := true, frame := some { f with live := false } } := by
  unfold Link.commandByte
  exact if_pos ⟨hlen, hlong⟩

theorem Link.commandByte_complete (h3 : 3 ≤ f.received.length)
    (hlen : f.received.length = 3 + (byteAt f.received 2).toNat) :
    l.commandByte f = { l with
      frame := some { f with live := false }
      commands := if f.closed then l.commands
        else l.commands ++ [{ opcode := byteAt f.received 0, tag := byteAt f.received 1, args := f.received.drop 3 }] } := by
  unfold Link.commandByte
  exact (if_neg (by omega)).trans (if_pos ⟨h3, hlen⟩)

theorem Link.commandByte_idle (h : f.received.length < 3 ∨
    ((byteAt f.received 2).toNat ≤ 32 ∧ f.received.length ≠ 3 + (byteAt f.received 2).toNat)) : l.commandByte f = l := by
  unfold Link.commandByte
  exact (if_neg (by omega)).trans (if_neg (by omega))

/-! ### The frame after its record -/

/-- What follows the last byte taken in goes by (R151). -/
theorem Link.foldl_clock_after {m : Link} {a : LinkAnswer} {out : List Byte} (rest : List Byte)
    (hstop : r.foldl Link.clock l = { m with
      frame := some { f with received := r, live := false }, out := out ++ bytesBeside a [] r.length })
    (hr : r ≠ []) (hs : f.toSend = []) (hw : ∀ w ∈ m.window, w.framed = false) :
    (r ++ rest).foldl Link.clock l = { m with
      frame := some { f with received := r ++ rest, live := false }, out := out ++ bytesBeside a [] (r ++ rest).length } := by
  have hframe : (r.foldl Link.clock l).frame = some { f with received := r, live := false } := by rw [hstop]
  rw [List.foldl_append, Link.foldl_clock_quiet rest _ _ hframe (.inl rfl) hr (by rw [hstop]; exact hw), hstop]
  dsimp only
  rw [hs, List.drop_nil, List.append_assoc, bytesBeside_append a r.length rest.length (List.length_pos_iff.2 hr), List.length_append]

/-- A frame that takes in no more is not short at its end (R157). -/
theorem Link.deselect_dead {out : List Byte} (hw : l.window = none) :
    ({ l with frame := some { f with received := r, live := false }, out } : Link).deselect = { l with frame := none, out } := by
  simp [Link.deselect, Frame.short, hw]

end

section
variable {l : Link} {f : Frame} {a : LinkAnswer} (hf : l.frame = some f) (hreceived : f.received = []) (hs : f.toSend = [])
  (ha : f.answer = some a) (hw : ∀ w ∈ l.window, w.framed = false) (hcode : f.code = some 0x02) (hlive : f.live = true)
include hf hreceived hs ha hw hcode hlive

/-- The byte that completes a record, with those before it (R156). -/
theorem Link.foldl_clock_record {r : List Byte} (hargs : (byteAt r 2).toNat ≤ 32) (hlen : r.length = 3 + (byteAt r 2).toNat) :
    r.foldl Link.clock l = { l with
      frame := some { f with received := r, live := false }
      out := l.out ++ bytesBeside a [] r.length
      commands := if f.closed then l.commands
        else l.commands ++ [{ opcode := byteAt r 0, tag := byteAt r 1, args := r.drop 3 }] } := by
  cases r using List.reverseRecOn with
  | nil => exact absurd hlen (by rw [List.length_nil]; omega)
  | append_singleton pre b =>
    have hshort : pre.length + 1 = 3 + (byteAt (pre ++ [b]) 2).toNat := by simpa using hlen
    have hincomplete : CommandIncomplete pre := by
      by_cases h3 : pre.length < 3
      · exact .inl h3
      · rw [byteAt_append _ _ _ (by omega)] at hshort hargs
        exact .inr ⟨hargs, by omega⟩
    have hpre := Link.foldl_clock_command l f a hf hreceived hs ha hw hcode pre hincomplete
    have hframe : (pre.foldl Link.clock l).frame = some { f with received := pre } := by rw [hpre]
    have hnext : (pre.foldl Link.clock l).nextOut { f with received := pre } = (if pre.length = 0 then a.code else 0, []) :=
      Link.nextOut_collected _ { f with received := pre } a hs ha (by rw [hpre]; exact hw) pre hframe rfl b
    rw [List.foldl_append, List.foldl_cons, List.foldl_nil,
      Link.clock_command_done _ _ b hframe hlive hcode (by rw [hlen]; omega) hargs hlen, hnext, hpre, List.append_assoc, ← bytesBeside_nil_succ, hs, List.length_append,
      List.length_singleton]

/-- The byte that declares more than 32 bytes of arguments, with those before it (R156). -/
theorem Link.foldl_clock_tooLong {r : List Byte} (hlong : 32 < (byteAt r 2).toNat) (hlen : r.length = 3) :
    r.foldl Link.clock l = { l with
      frame := some { f with received := r, live := false }, out := l.out ++ bytesBeside a [] r.length, malformed := true } := by
  cases r using List.reverseRecOn with
  | nil => exact absurd hlen (by simp)
  | append_singleton pre b =>
    have hshort : pre.length + 1 = 3 := by simpa using hlen
    have hpre := Link.foldl_clock_command l f a hf hreceived hs ha hw hcode pre (.inl (by omega))
    have hframe : (pre.foldl Link.clock l).frame = some { f with received := pre } := by rw [hpre]
    have hnext : (pre.foldl Link.clock l).nextOut { f with received := pre } = (if pre.length = 0 then a.code else 0, []) :=
      Link.nextOut_collected _ { f with received := pre } a hs ha (by rw [hpre]; exact hw) pre hframe rfl b
    rw [List.foldl_append, List.foldl_cons, List.foldl_nil, Link.clock_command_malformed _ _ b hframe hlive hcode hlen hlong, hnext, hpre, List.append_assoc, ← bytesBeside_nil_succ, hs, List.length_append,
      List.length_singleton]

end

/-! ### COMMAND_WRITE in one step -/

/-- The frame of a COMMAND_WRITE that takes its record in, at its code byte. -/
def State.commandFrame (s : State) (p : Port) (a : LinkAnswer) : Frame :=
  { summary := s.summary p, notReady := (s.link p).notReady, code := some 0x02, answer := some a, received := [], toSend := []
    live := true, closed := false }

section
variable {s : State} {p : Port} (hready : (s.link p).Ready)
include hready

theorem State.linkAnswer_command : s.linkAnswer p (s.link p).notReady 0x02 =
    if s.session p = .closing then .closing
    else if 4 ≤ (s.link p).commands.length then .full
    else if look s.pins.clr p = .low then .held
    else .accepted := by
  rw [s.linkAnswer_eq p, if_neg, if_pos rfl]
  simp [hready.notReady, hready.window]

/-- A COMMAND_WRITE that is refused takes nothing in (R153). -/
theorem exec_commandWrite_refused {a : LinkAnswer} (ha : s.linkAnswer p (s.link p).notReady 0x02 = a) (hrefused : a.takesIn = false)
    (hkeeps : s.answered p 0x02 a = (s.link p, [])) (bs : List Byte) : exec (.commandWrite p (.whole bs)) s =
      .next (s.setLink p { s.link p with out := s.summary p :: bytesBeside a [] bs.length }) := by
  have hwindow : ∀ w ∈ (s.link p).window, w.framed = false := by simp [hready.window]
  have hexec := exec_whole_quiet bs hready.frame ha (.inl hrefused) hwindow
  rw [hkeeps] at hexec
  exact hexec.trans (congrArg (fun l => Host.Outcome.next (s.setLink p l)) (Link.no_frame hready.frame _))

variable (hopen : s.session p ≠ .closing) (hroom : (s.link p).commands.length < 4)
include hopen hroom

/-- A COMMAND_WRITE that is taken in is the fold of its bytes, from the frame at its code byte to SELk's rise. -/
theorem exec_commandWrite_taken (bs : List Byte) :
    let a := if look s.pins.clr p = .low then LinkAnswer.held else .accepted
    let begun := { s.link p with out := [s.summary p], frame := some (s.commandFrame p a) }
    exec (.commandWrite p (.whole bs)) s = .next (s.setLink p (bs.foldl Link.clock begun).deselect) := by
  intro a begun
  have ha : s.linkAnswer p (s.link p).notReady 0x02 = a :=
    (State.linkAnswer_command hready).trans ((if_neg hopen).trans (if_neg (not_le.2 hroom)))
  have hin : a = .accepted ∨ a = .held := by
    by_cases hclr : look s.pins.clr p = .low
    · exact .inr (if_pos hclr)
    · exact .inl (if_neg hclr)
  refine (exec_whole hready.frame 0x02 bs).trans ?_
  rw [State.begun_command hready a ha hin]
  simp only [State.setLink_link, if_true, State.setLink_setLink_same]
  rfl

/-- A COMMAND_WRITE whose bytes `r` end what it takes in, whatever follows them. -/
theorem exec_commandWrite_stopped {m : Link} {r : List Byte} (rest : List Byte) (hr : r ≠ []) (hm : m.Ready) :
    let a := if look s.pins.clr p = .low then LinkAnswer.held else .accepted
    let f := s.commandFrame p a
    r.foldl Link.clock { s.link p with out := [s.summary p], frame := some f } = { m with
      frame := some { f with received := r, live := false }, out := [s.summary p] ++ bytesBeside a [] r.length } →
    exec (.commandWrite p (.whole (r ++ rest))) s =
      .next (s.setLink p { m with out := s.summary p :: bytesBeside a [] (r ++ rest).length }) := by
  intro a f hstop
  have hwindow : ∀ w ∈ m.window, w.framed = false := by simp [hm.window]
  have hall := Link.foldl_clock_after rest hstop hr rfl hwindow
  exact (exec_commandWrite_taken hready hopen hroom _).trans (congrArg (fun l => Host.Outcome.next (s.setLink p l))
    ((congrArg Link.deselect hall).trans ((Link.deselect_dead hm.window).trans (Link.no_frame hm.frame _))))

/-- A record that is complete joins the queue (R156). -/
theorem exec_commandWrite_record {r : List Byte} (rest : List Byte) (hargs : (byteAt r 2).toNat ≤ 32)
    (hlen : r.length = 3 + (byteAt r 2).toNat) :
    let a := if look s.pins.clr p = .low then LinkAnswer.held else .accepted
    exec (.commandWrite p (.whole (r ++ rest))) s = .next (s.setLink p { s.link p with
      commands := (s.link p).commands ++ [{ opcode := byteAt r 0, tag := byteAt r 1, args := r.drop 3 }]
      out := s.summary p :: bytesBeside a [] (r ++ rest).length }) := by
  have hwindow : ∀ w ∈ (s.link p).window, w.framed = false := by simp [hready.window]
  exact exec_commandWrite_stopped hready hopen hroom rest (List.ne_nil_of_length_pos (by omega))
    (m := { s.link p with
      commands := (s.link p).commands ++ [{ opcode := byteAt r 0, tag := byteAt r 1, args := r.drop 3 }] })
    ⟨hready.frame, hready.notReady, hready.window⟩
    (Link.foldl_clock_record (l := { s.link p with out := [s.summary p], frame := some (s.commandFrame p _) })
      rfl rfl rfl rfl hwindow rfl rfl hargs hlen)

/-- A record that declares too many bytes is malformed (R156). -/
theorem exec_commandWrite_tooLong {r : List Byte} (rest : List Byte) (hlong : 32 < (byteAt r 2).toNat) (hlen : r.length = 3) :
    let a := if look s.pins.clr p = .low then LinkAnswer.held else .accepted
    exec (.commandWrite p (.whole (r ++ rest))) s = .next (s.setLink p { s.link p with
      malformed := true, out := s.summary p :: bytesBeside a [] (r ++ rest).length }) := by
  have hwindow : ∀ w ∈ (s.link p).window, w.framed = false := by simp [hready.window]
  exact exec_commandWrite_stopped hready hopen hroom rest (List.ne_nil_of_length_pos (by omega))
    (m := { s.link p with malformed := true }) ⟨hready.frame, hready.notReady, hready.window⟩
    (Link.foldl_clock_tooLong (l := { s.link p with out := [s.summary p], frame := some (s.commandFrame p _) })
      rfl rfl rfl rfl hwindow rfl rfl hlong hlen)

/-- A record cut short is malformed (R157). -/
theorem exec_commandWrite_short {bs : List Byte} (hshort : CommandIncomplete bs) :
    let a := if look s.pins.clr p = .low then LinkAnswer.held else .accepted
    exec (.commandWrite p (.whole bs)) s = .next (s.setLink p { s.link p with
      malformed := true, out := s.summary p :: bytesBeside a [] bs.length }) := by
  intro a
  have hwindow : ∀ w ∈ (s.link p).window, w.framed = false := by simp [hready.window]
  have hbytes := Link.foldl_clock_command { s.link p with out := [s.summary p], frame := some (s.commandFrame p a) }
    (s.commandFrame p a) a rfl rfl rfl rfl hwindow rfl bs hshort
  rw [exec_commandWrite_taken hready hopen hroom, hbytes]
  simp [Link.deselect, Frame.short, State.commandFrame, hready.window, hready.frame]

end

/-- A list that reaches past a place, cut there. -/
theorem exists_prefix {α : Type} {l : List α} {n : Nat} (h : n ≤ l.length) : ∃ r rest, l = r ++ rest ∧ r.length = n :=
  ⟨l.take n, l.drop n, (List.take_append_drop n l).symm, by rw [List.length_take, Nat.min_eq_left h]⟩

/-- Settles O48: the whole frames by answer and length, then a byte of its own. -/
theorem commandWriteEffect : Obligations.CommandWriteEffect := by
  unfold Obligations.CommandWriteEffect
  refine ⟨fun s p bs hready => ?whole, fun s p f b hf hc hlive => ?byte⟩
  case whole =>
    have hanswer := State.linkAnswer_command hready
    refine ⟨fun hclosing => ?_, fun hopen hfull => ?_, fun hopen hroom => ⟨fun h3 hargs hlen => ?complete, fun hbad => ?bad⟩⟩
    · exact exec_commandWrite_refused hready (hanswer.trans (if_pos hclosing)) rfl rfl bs
    · exact exec_commandWrite_refused hready (hanswer.trans ((if_neg hopen).trans (if_pos hfull))) rfl rfl bs
    case complete =>
      obtain ⟨r, rest, rfl, hr⟩ := exists_prefix hlen
      have hbyte (k : Nat) (hk : k < 3) : (r ++ rest).getD k 0 = byteAt r k := List.getD_append _ _ _ _ (by omega)
      have hargsEq : ((r ++ rest).drop 3).take ((r ++ rest).getD 2 0).toNat = r.drop 3 := by
        rw [List.drop_append_of_le_length (by omega)]
        exact List.take_left' (by rw [List.length_drop]; omega)
      rw [hbyte 2 (by omega)] at hargs hr
      rw [exec_commandWrite_record hready hopen hroom rest hargs hr, hargsEq, hbyte 0 (by omega), hbyte 1 (by omega)]
    case bad =>
      by_cases hlong : 32 < (bs.getD 2 0).toNat
      · have h3 : 3 ≤ bs.length := by
          by_contra hshort
          rw [List.getD_eq_default _ _ (by omega)] at hlong
          exact absurd hlong (by decide)
        obtain ⟨r, rest, rfl, hr⟩ := exists_prefix h3
        rw [List.getD_append _ _ _ _ (by omega)] at hlong
        exact exec_commandWrite_tooLong hready hopen hroom rest hlong hr
      · have hshort : CommandIncomplete bs := by
          unfold CommandIncomplete byteAt
          omega
        exact exec_commandWrite_short hready hopen hroom hshort
  case byte =>
    have hclock := ((s.link p).clock_live f b hf hlive).trans (if_pos hc)
    have hexec : exec (.commandWrite p (.bytes [b])) s = .next (s.setLink p ((s.link p).clock b)) := exec_bytes hf hc [b]
    rw [hclock] at hexec
    refine ⟨fun hlen hlong => hexec.trans (congrArg (fun l => Host.Outcome.next (s.setLink p l)) ?malformed),
      fun h3 _ hlen => hexec.trans (congrArg (fun l => Host.Outcome.next (s.setLink p l)) ?complete),
      fun hidle => hexec.trans (congrArg (fun l => Host.Outcome.next (s.setLink p l)) ?idle)⟩
    case malformed => exact Link.commandByte_malformed hlen hlong
    case complete => exact Link.commandByte_complete h3 hlen
    case idle => exact Link.commandByte_idle hidle

end Sys2Proof.Machine
end

section
/-! PROOF of O49 (WINDOW_READ and WINDOW_WRITE): what each byte makes of the header and the data, and the frames as the fold of
their bytes. -/

set_option Elab.async false

namespace Sys2Proof.Machine

/-! ### The check a window frame asks for -/

/-- The check the bytes of a window frame ask for (R165, section 11.2). -/
def windowAsked (direction : Direction) (r : List Byte) : WindowRequest :=
  { direction, length := (r.getD 3 0).toNat + 1, admitted := false, framed := true
    addr := BitVec.ofNat 24 ((r.getD 0 0).toNat * 65536 + (r.getD 1 0).toNat * 256 + (r.getD 2 0).toNat) }

theorem Link.askWindow_eq (l : Link) (direction : Direction) (r : List Byte) :
    l.askWindow direction r = { l with window := some (windowAsked direction r) } := by
  unfold Link.askWindow windowAsked windowAddr windowLength tripleAt wordAt byteAt
  simp only [Nat.zero_add, Nat.reduceAdd, Nat.add_assoc]

theorem Link.windowReadByte_eq (l : Link) (f : Frame) : l.windowReadByte f =
    if f.received.length = 4 then { l with window := some (windowAsked .read f.received) } else l := by
  unfold Link.windowReadByte
  rw [Link.askWindow_eq]

theorem windowLength_last (r : List Byte) : 4 + windowLength r = 5 + (r.getD 3 0).toNat := by
  unfold windowLength byteAt
  omega

theorem Link.windowWriteByte_eq (l : Link) (f : Frame) (b : Byte) :
    l.windowWriteByte f b =
      if 4 < f.received.length ∧ f.received.length < 5 + (f.received.getD 3 0).toNat then { l with buffer := l.buffer ++ [b] }
      else if 4 < f.received.length ∧ f.received.length = 5 + (f.received.getD 3 0).toNat then
        { l with buffer := l.buffer ++ [b], window := some (windowAsked .write f.received) }
      else l := by
  generalize hlast : 5 + (f.received.getD 3 0).toNat = last
  unfold Link.windowWriteByte
  simp only [windowLength_last, hlast, Link.askWindow_eq]
  by_cases hdata : 4 < f.received.length ∧ f.received.length ≤ last
  · rw [if_pos hdata]
    by_cases hend : f.received.length = last
    · rw [if_pos hend, if_neg (by omega), if_pos ⟨hdata.1, hend⟩]
    · rw [if_neg hend, if_pos (by omega)]
  · rw [if_neg hdata, if_neg (by omega), if_neg (by omega)]

theorem header_getD {header : List Byte} (hheader : header.length = 4) (data : List Byte) :
    (header ++ data).getD 3 0 = header.getD 3 0 := List.getD_append _ _ _ _ (by omega)

/-! ### Bytes taken in -/

section
variable {l : Link} {f : Frame} {a : LinkAnswer} (hf : l.frame = some f) (hs : f.toSend = []) (ha : f.answer = some a)
  (hw : ∀ w ∈ l.window, w.framed = false) (hlive : f.live = true)
include hf hs ha hw hlive

theorem Link.clock_read (hcode : f.code = some 0x05) (b : Byte) : l.clock b =
    ({ l with
      frame := some { f with received := f.received ++ [b] }
      out := l.out ++ [if f.received.length = 0 then a.code else 0] } : Link).windowReadByte { f with received := f.received ++ [b] } := by
  have hnext := l.nextOut_collected f a hs ha hw f.received hf rfl b
  unfold Link.clock
  simp only [hf, hnext, hlive, hcode]
  rw [← hs]
  rfl

theorem Link.clock_write (hcode : f.code = some 0x06) (b : Byte) : l.clock b =
    ({ l with
      frame := some { f with received := f.received ++ [b] }
      out := l.out ++ [if f.received.length = 0 then a.code else 0] } : Link).windowWriteByte { f with received := f.received ++ [b] } b := by
  have hnext := l.nextOut_collected f a hs ha hw f.received hf rfl b
  unfold Link.clock
  simp only [hf, hnext, hlive, hcode]
  rw [← hs]
  rfl

omit hf in
/-- One data byte more. -/
theorem Link.foldl_clock_data_more (hcode : f.code = some 0x06) {header pre : List Byte} {b : Byte}
    (hpre : (header ++ pre).foldl Link.clock l = { l with
      frame := some { f with received := header ++ pre }, out := l.out ++ bytesBeside a [] (header ++ pre).length
      buffer := l.buffer ++ pre }) :
    (header ++ (pre ++ [b])).foldl Link.clock l = ({ l with
      frame := some { f with received := header ++ (pre ++ [b]) }, out := l.out ++ bytesBeside a [] (header ++ (pre ++ [b])).length
      buffer := l.buffer ++ pre } : Link).windowWriteByte { f with received := header ++ (pre ++ [b]) } b := by
  have hframe : ((header ++ pre).foldl Link.clock l).frame = some { f with received := header ++ pre } := by rw [hpre]
  rw [← List.append_assoc, List.foldl_append, List.foldl_cons, List.foldl_nil,
    Link.clock_write (f := { f with received := header ++ pre }) hframe hs ha (by rw [hpre]; exact hw) hlive hcode, hpre,
    List.append_assoc l.out, ← bytesBeside_nil_succ, List.length_append (bs := [b]), List.length_singleton]

variable (hreceived : f.received = [])
include hreceived

/-- The bytes of a window frame that make nothing but its header: three of a WINDOW_READ, four of a WINDOW_WRITE. -/
theorem Link.foldl_clock_header {n : Nat} (hcode : (f.code = some 0x05 ∧ n = 3) ∨ (f.code = some 0x06 ∧ n = 4)) {bs : List Byte}
    (hlen : bs.length ≤ n) :
    bs.foldl Link.clock l = { l with frame := some { f with received := bs }, out := l.out ++ bytesBeside a [] bs.length } := by
  refine Link.foldl_clock_collect l f a hf hreceived hs ha hw (fun bs => bs.length ≤ n) (fun bs b h => ?_)
    (fun bs b _ o h => ?_) bs hlen
  · rw [List.length_append, List.length_singleton] at h
    omega
  · rcases hcode with ⟨hcode, rfl⟩ | ⟨hcode, rfl⟩
    · have hshort : (bs ++ [b]).length ≠ 4 := by omega
      simp only [hcode, hlive, Link.windowReadByte_eq, if_neg hshort]
      rfl
    · have hshort : ¬ 4 < (bs ++ [b]).length := by omega
      simp only [hcode, hlive, Link.windowWriteByte_eq, hshort, false_and, if_false]
      rfl

/-- The byte that completes the header of a WINDOW_READ (R38). -/
theorem Link.foldl_clock_asks_read (hcode : f.code = some 0x05) {r : List Byte} (hlen : r.length = 4) :
    r.foldl Link.clock l = { l with
      frame := some { f with received := r }, out := l.out ++ bytesBeside a [] r.length, window := some (windowAsked .read r) } := by
  cases r using List.reverseRecOn with
  | nil => exact absurd hlen (by simp)
  | append_singleton pre b =>
    have hpre := Link.foldl_clock_header hf hs ha hw hlive hreceived (.inl ⟨hcode, rfl⟩) (bs := pre) (by rw [List.length_append, List.length_singleton] at hlen; omega)
    have hframe : (pre.foldl Link.clock l).frame = some { f with received := pre } := by rw [hpre]
    rw [List.foldl_append, List.foldl_cons, List.foldl_nil,
      Link.clock_read (f := { f with received := pre }) hframe hs ha (by rw [hpre]; exact hw) hlive hcode, Link.windowReadByte_eq,
      if_pos hlen, hpre, List.append_assoc, ← bytesBeside_nil_succ, List.length_append, List.length_singleton]

/-- The header of a WINDOW_WRITE, and data before its last byte (R39). -/
theorem Link.foldl_clock_data (hcode : f.code = some 0x06) {header : List Byte} (hheader : header.length = 4) (data : List Byte)
    (hlen : data.length ≤ (header.getD 3 0).toNat) :
    (header ++ data).foldl Link.clock l = { l with
      frame := some { f with received := header ++ data }, out := l.out ++ bytesBeside a [] (header ++ data).length
      buffer := l.buffer ++ data } := by
  induction data using List.reverseRecOn with
  | nil =>
    rw [List.append_nil, Link.foldl_clock_header hf hs ha hw hlive hreceived (.inr ⟨hcode, rfl⟩) hheader.le, List.append_nil]
  | append_singleton pre b ih =>
    rw [List.length_append, List.length_singleton] at hlen
    have hpre := ih (by omega)
    have hlast := header_getD hheader (pre ++ [b])
    have hbyte : 4 < (header ++ (pre ++ [b])).length ∧ (header ++ (pre ++ [b])).length < 5 + ((header ++ (pre ++ [b])).getD 3 0).toNat := by
      rw [hlast, List.length_append, List.length_append, List.length_singleton]
      omega
    rw [Link.foldl_clock_data_more hs ha hw hlive hcode hpre, Link.windowWriteByte_eq, if_pos hbyte, List.append_assoc]

/-- The last byte a WINDOW_WRITE declares (R39). -/
theorem Link.foldl_clock_asks_write (hcode : f.code = some 0x06) {header : List Byte} (hheader : header.length = 4) (data : List Byte)
    (hlen : data.length = (header.getD 3 0).toNat + 1) :
    (header ++ data).foldl Link.clock l = { l with
      frame := some { f with received := header ++ data }, out := l.out ++ bytesBeside a [] (header ++ data).length
      buffer := l.buffer ++ data, window := some (windowAsked .write (header ++ data)) } := by
  cases data using List.reverseRecOn with
  | nil => exact absurd hlen (by simp)
  | append_singleton pre b =>
    rw [List.length_append, List.length_singleton] at hlen
    have hpre := Link.foldl_clock_data hf hs ha hw hlive hreceived hcode hheader pre (by omega)
    have hlast := header_getD hheader (pre ++ [b])
    have hbyte : 4 < (header ++ (pre ++ [b])).length ∧ (header ++ (pre ++ [b])).length = 5 + ((header ++ (pre ++ [b])).getD 3 0).toNat := by
      rw [hlast, List.length_append, List.length_append, List.length_singleton]
      omega
    rw [Link.foldl_clock_data_more hs ha hw hlive hcode hpre, Link.windowWriteByte_eq, if_neg (fun h => Nat.ne_of_lt h.2 hbyte.2),
      if_pos hbyte, List.append_assoc]

end

/-! ### The frames -/

/-- The frame of a window transaction at its code byte. -/
def State.windowFrame (s : State) (p : Port) (code : Byte) : Frame :=
  { summary := s.summary p, notReady := false, code := some code, answer := some .accepted, received := [], toSend := [], live := true
    closed := false }

/-- The link of a window transaction at its code byte. -/
def State.windowBegun (s : State) (p : Port) (code : Byte) : Link :=
  { s.link p with out := [s.summary p], frame := some (s.windowFrame p code) }

section
variable {s : State} {p : Port} (hready : (s.link p).Ready) {code : Byte} (hcode : code = 0x05 ∨ code = 0x06)
include hready hcode

theorem State.begun_window : (s.selectFrame p).codeByte p code = s.setLink p (s.windowBegun p code) := by
  have hanswer : s.linkAnswer p (s.link p).notReady code = .accepted := by
    rcases hcode with rfl | rfl
    all_goals exact State.linkAnswer_ready hready _
  rw [State.begun_eq, hanswer, hready.notReady]
  rcases hcode with rfl | rfl
  all_goals rfl

theorem exec_window_opening (bs : List Byte) :
    exec (frameOf p code (.opening bs)) s = .next (s.setLink p (bs.foldl Link.clock (s.windowBegun p code))) := by
  refine (exec_opening hready.frame code bs).trans ?_
  rw [State.begun_window hready hcode]
  simp only [State.setLink_link, if_true, State.setLink_setLink_same]

theorem exec_window_whole (bs : List Byte) :
    exec (frameOf p code (.whole bs)) s = .next (s.setLink p (bs.foldl Link.clock (s.windowBegun p code)).deselect) := by
  refine (exec_whole hready.frame code bs).trans ?_
  rw [State.begun_window hready hcode]
  simp only [State.setLink_link, if_true, State.setLink_setLink_same]

end

/-- A frame that is short sets the malformed flag, and a write's bytes go (R157). -/
theorem Link.deselect_short {l : Link} {f : Frame} (hw : l.window = none) (hnone : l.frame = none) (hf : f.short = true)
    (buffer out : List Byte) : ({ l with frame := some f, buffer, out } : Link).deselect =
      { l with malformed := true, buffer := if f.code = some 0x06 then [] else buffer, out } := by
  simp [Link.deselect, hf, hw, hnone]

section
variable {s : State} {p : Port} (hready : (s.link p).Ready) {bs : List Byte}
include hready

theorem exec_windowRead_short (hshort : bs.length < 4) : exec (.windowRead p (.whole bs)) s = .next (s.setLink p { s.link p with
    malformed := true, out := s.summary p :: bytesBeside .accepted [] bs.length }) := by
  have hwindow : ∀ w ∈ (s.link p).window, w.framed = false := by simp [hready.window]
  have hbytes := Link.foldl_clock_header (l := s.windowBegun p 0x05) rfl rfl rfl hwindow rfl rfl (.inl ⟨rfl, rfl⟩) (Nat.le_of_lt_succ hshort)
  have hcut : ({ s.windowFrame p 0x05 with received := bs } : Frame).short = true :=
    (Frame.short_iff _).2 ⟨rfl, .inr (.inl ⟨rfl, hshort⟩)⟩
  exact (exec_window_whole hready (.inl rfl) bs).trans (congrArg (fun l => Host.Outcome.next (s.setLink p l))
    ((congrArg Link.deselect hbytes).trans (Link.deselect_short hready.window hready.frame hcut _ _)))

theorem exec_windowWrite_short (hshort : bs.length < 4 ∨ bs.length < 5 + (bs.getD 3 0).toNat) :
    exec (.windowWrite p (.whole bs)) s = .next (s.setLink p { s.link p with
      malformed := true, buffer := [], out := s.summary p :: bytesBeside .accepted [] bs.length }) := by
  have hwindow : ∀ w ∈ (s.link p).window, w.framed = false := by simp [hready.window]
  have hcut : ({ s.windowFrame p 0x06 with received := bs } : Frame).short = true :=
    (Frame.short_iff _).2 ⟨rfl, .inr (.inr ⟨rfl, hshort⟩)⟩
  have hbytes : ∃ buffer, bs.foldl Link.clock (s.windowBegun p 0x06) = { s.link p with
      frame := some { s.windowFrame p 0x06 with received := bs }, buffer, out := [s.summary p] ++ bytesBeside .accepted [] bs.length } := by
    by_cases hheader : bs.length < 4
    · exact ⟨_, Link.foldl_clock_header (l := s.windowBegun p 0x06) rfl rfl rfl hwindow rfl rfl (.inr ⟨rfl, rfl⟩) hheader.le⟩
    · obtain ⟨header, data, rfl, hlen⟩ := exists_prefix (Nat.le_of_not_lt hheader)
      rw [header_getD hlen, List.length_append] at hshort
      exact ⟨_, Link.foldl_clock_data (l := s.windowBegun p 0x06) rfl rfl rfl hwindow rfl rfl rfl hlen data (by omega)⟩
  obtain ⟨buffer, hbytes⟩ := hbytes
  exact (exec_window_whole hready (.inr rfl) bs).trans (congrArg (fun l => Host.Outcome.next (s.setLink p l))
    ((congrArg Link.deselect hbytes).trans (Link.deselect_short hready.window hready.frame hcut _ _)))

end

/-- A window frame whose header and data are in takes in no more (R38, R39). -/
theorem Frame.Quiet.of_read {f : Frame} (hc : f.code = some 0x05) (hlen : 4 ≤ f.received.length) : f.Quiet :=
  .inr (.inr (.inl ⟨hc, hlen⟩))

theorem Frame.Quiet.of_write {f : Frame} (hc : f.code = some 0x06) (hlen : 5 + (f.received.getD 3 0).toNat ≤ f.received.length) :
    f.Quiet :=
  .inr (.inr (.inr ⟨hc, by omega, by rw [windowLength_last]; exact hlen⟩))

/-- Settles O49: the opened frames, the bytes beside a wait or an outcome, a byte of its own, the short frames. -/
theorem windowFrames : Obligations.WindowFrames := by
  unfold Obligations.WindowFrames
  refine ⟨fun s p a2 a1 a0 n hready => ?opened, fun s p f w bs hf hw hframed => ?waits, fun s p f bs hf hw => ?sent,
    fun s p f b hf hlive => ?byte, fun s p bs hready => ?short⟩
  case opened =>
    have hwindow : ∀ w ∈ (s.link p).window, w.framed = false := by simp [hready.window]
    refine ⟨?_, fun data hlen hbuffer => ?_⟩
    · exact (exec_window_opening hready (.inl rfl) _).trans (congrArg (fun l => Host.Outcome.next (s.setLink p l))
        (Link.foldl_clock_asks_read (l := s.windowBegun p 0x05) rfl rfl rfl hwindow rfl rfl rfl (r := [a2, a1, a0, n]) rfl))
    · have hdata := Link.foldl_clock_asks_write (l := s.windowBegun p 0x06) rfl rfl rfl hwindow rfl rfl rfl
        (header := [a2, a1, a0, n]) rfl data hlen
      have hempty : (s.windowBegun p 0x06).buffer = [] := hbuffer
      rw [hempty, List.nil_append] at hdata
      exact (exec_window_opening hready (.inr rfl) _).trans (congrArg (fun l => Host.Outcome.next (s.setLink p l)) hdata)
  case waits =>
    have hwaits (hq : f.Quiet) (hlen : 4 ≤ f.received.length) :=
      Link.foldl_clock_wait bs (s.link p) f w hf hq (List.ne_nil_of_length_pos (by omega)) hw hframed
    exact ⟨fun hc hlen => (exec_bytes hf hc bs).trans (congrArg (fun l => Host.Outcome.next (s.setLink p l))
        (hwaits (.of_read hc hlen) hlen)),
      fun hc hlen => (exec_bytes hf hc bs).trans (congrArg (fun l => Host.Outcome.next (s.setLink p l))
        (hwaits (.of_write hc hlen) (by omega)))⟩
  case sent =>
    have hsent (hq : f.Quiet) (hlen : 4 ≤ f.received.length) :=
      Link.foldl_clock_quiet bs (s.link p) f hf hq (List.ne_nil_of_length_pos (by omega)) (by simp [hw])
    exact ⟨fun hc hlen => (exec_bytes hf hc bs).trans (congrArg (fun l => Host.Outcome.next (s.setLink p l))
        (hsent (.of_read hc hlen) hlen)),
      fun hc hlen => (exec_bytes hf hc bs).trans (congrArg (fun l => Host.Outcome.next (s.setLink p l))
        (hsent (.of_write hc hlen) (by omega)))⟩
  case byte =>
    have hclock := (s.link p).clock_live f b hf hlive
    refine ⟨fun hc => ?_, fun hc => ?_⟩
    · exact (exec_bytes hf hc [b]).trans (congrArg (fun l => Host.Outcome.next (s.setLink p l))
        (hclock.trans (by rw [hc]; exact Link.windowReadByte_eq _ _)))
    · exact (exec_bytes hf hc [b]).trans (congrArg (fun l => Host.Outcome.next (s.setLink p l))
        (hclock.trans (by rw [hc]; exact Link.windowWriteByte_eq _ _ b)))
  case short =>
    have hwindow : ∀ w ∈ (s.link p).window, w.framed = false := by simp [hready.window]
    refine ⟨fun hshort => ?_, fun hshort => ?_⟩
    · exact exec_windowRead_short hready hshort
    · exact exec_windowWrite_short hready hshort

end Sys2Proof.Machine
end
